-- ==== Sys2Proof/Word.lean ====
section
/-!
DEFINITION. The word types of range_coder: the block is unsigned throughout (rule R11), its registers are
32 bits wide (R20), DMEM is bytes (R40), table counts are 16 bits and probabilities 12 bits (R34, R35).
-/

namespace Sys2Proof

/-- A `u32`: a register, an operand, a coder value (R11). -/
abbrev Word := BitVec 32

/-- A `u8`: a DMEM byte, a symbol, an immediate (R11). -/
abbrev Byte := BitVec 8

/-- A `u16`: one count or total of a `SYM` table (R35). -/
abbrev Half := BitVec 16

/-- A 12-bit probability of a `BIN` table (R34). -/
abbrev Prob := BitVec 12

end Sys2Proof
end

