-- ==== Sys2Proof/Syntax.lean ====
section
/-!
DEFINITION. The command set of range_coder (rule R72), one constructor per row of spec/opcode_table.json.
A field the row does not use (R67) is no argument of its constructor.
-/

namespace Sys2Proof

/-- A range-coder channel number, field `CH` (R69). -/
abbrev ChanNo := Fin 4

/-- A model slot number, field `SLOT` (R69). -/
abbrev SlotNo := Fin 8

/-- Which context a coding command names (R68): with `X = 0` the slot's `last`, with `X = 1` the `CTX`
field. `X = 0` with a non-zero `CTX` is no command, so it has no term. -/
inductive CtxSel where
  /-- `X = 0`, the order-1 chain. -/
  | chain
  /-- `X = 1`, the context `CTX`. -/
  | explicit (k : Byte)
  deriving DecidableEq, Repr

/-- A command (R72). -/
inductive Instr where
  | nop
  | bwtFwd
  | bwtInv
  | mtfEnc
  | mtfDec
  | zrlSplit
  | zrlJoin
  | tierCls
  | tierUncls
  | tierSplit
  | tierCount
  | tierJoin
  /-- `val` is `N - 1`, `kind` the `CTX` field (R112). -/
  | mdlCfg (slot : SlotNo) (val kind : Byte)
  | mdlReset (slot : SlotNo)
  | mdlSetctx (slot : SlotNo) (k : Byte)
  | mdlPeek (slot : SlotNo)
  | rcEinit (ch : ChanNo)
  | rcDinit (ch : ChanNo)
  | rcEbit (ch : ChanNo) (slot : SlotNo) (ctx : CtxSel) (b : Bool)
  | rcDbit (ch : ChanNo) (slot : SlotNo) (ctx : CtxSel)
  | rcEsym (ch : ChanNo) (slot : SlotNo) (ctx : CtxSel) (sym : Byte)
  | rcDsym (ch : ChanNo) (slot : SlotNo) (ctx : CtxSel)
  | rcEgamma (ch : ChanNo) (slot : SlotNo)
  | rcDgamma (ch : ChanNo) (slot : SlotNo)
  | rcEstream (ch : ChanNo) (slot : SlotNo)
  | rcDstream (ch : ChanNo) (slot : SlotNo)
  | rcEflush (ch : ChanNo)
  | rcDfin (ch : ChanNo)
  deriving DecidableEq, Repr

/-- Why a word is no command: the three subcodes of `ILLEGAL` (R71, R145). -/
inductive Illegal where
  /-- `ILLEGAL`(1): a reserved opcode (R73). -/
  | opcode
  /-- `ILLEGAL`(2): a reserved or unused field that is not 0, `VAL > 1` of `RC_EBIT`, or `CTX` with `X = 0`. -/
  | field
  /-- `ILLEGAL`(3): an `MDL_CFG` kind or alphabet that is not legal. -/
  | config
  deriving DecidableEq, Repr

end Sys2Proof
end

