-- ==== Sys2Proof/WellFormed.lean ====
section
/-!
DEFINITION. The checks on a command that its type does not make (the "constraints" column of rule R72).
Channel and slot numbers, the one-bit `VAL` of `RC_EBIT` and the `CTX` of `X = 0` are right by their types;
what is left is the kind and alphabet of `MDL_CFG`.
-/

namespace Sys2Proof

/-- `MDL_CFG`'s kind and `VAL = N - 1` fit each other (R72, R112): `OFF` with 0, `BIN` with 1, `SYM` with at
least 1, and no other kind. -/
def cfgLegal (val kind : Byte) : Bool :=
  match kind.toNat with
  | 0 => val == 0#8
  | 1 => val == 1#8
  | 2 => 1 ≤ val.toNat
  | _ => false

/-- A command the decoder can answer with (R71, R72). -/
def Instr.wellFormed : Instr → Bool
  | .mdlCfg _ val kind => cfgLegal val kind
  | .nop | .bwtFwd | .bwtInv | .mtfEnc | .mtfDec | .zrlSplit | .zrlJoin | .tierCls | .tierUncls
  | .tierSplit | .tierCount | .tierJoin => true
  | .mdlReset _ | .mdlSetctx _ _ | .mdlPeek _ => true
  | .rcEinit _ | .rcDinit _ | .rcEbit _ _ _ _ | .rcDbit _ _ _ | .rcEsym _ _ _ _ | .rcDsym _ _ _ => true
  | .rcEgamma _ _ | .rcDgamma _ _ | .rcEstream _ _ | .rcDstream _ _ | .rcEflush _ | .rcDfin _ => true

end Sys2Proof
end

