-- ==== Sys2Proof/Decode.lean ====
section
/-!
DEFINITION. The command decoder, total on all 2^32 words (rule R71), and the encoder (R66). A word is read as
its seven fields, numbers as rule R11 reads a field; the row of rule R72 that the opcode names says which
fields it uses and which further constraints it makes.
-/

namespace Sys2Proof

/-- The seven fields of a command word (R66), each a plain number. -/
structure Fields where
  op : Nat
  ch : Nat := 0
  slot : Nat := 0
  x : Nat := 0
  rsv : Nat := 0
  val : Nat := 0
  ctx : Nat := 0
  deriving DecidableEq, Repr

/-- `v[lo + width - 1 : lo]` read as an unsigned number (R11). -/
def bitField (w : Word) (lo width : Nat) : Nat := w.toNat / 2 ^ lo % 2 ^ width

/-- The fields of a word, at the places R66 gives them. -/
def fieldsOf (w : Word) : Fields where
  op := bitField w 0 8
  ch := bitField w 8 2
  slot := bitField w 10 3
  x := bitField w 13 1
  rsv := bitField w 14 2
  val := bitField w 16 8
  ctx := bitField w 24 8

/-- The word of seven fields, the sum R66 writes out. -/
def Fields.word (f : Fields) : Word :=
  BitVec.ofNat 32 (f.op + f.ch * 2 ^ 8 + f.slot * 2 ^ 10 + f.x * 2 ^ 13 + f.rsv * 2 ^ 14
    + f.val * 2 ^ 16 + f.ctx * 2 ^ 24)

/-- The channel a `CH` field names. -/
def Fields.chan (f : Fields) : ChanNo := Fin.ofNat 4 f.ch

/-- The slot a `SLOT` field names. -/
def Fields.slotNo (f : Fields) : SlotNo := Fin.ofNat 8 f.slot

/-- The `VAL` field as a byte. -/
def Fields.valByte (f : Fields) : Byte := BitVec.ofNat 8 f.val

/-- The `CTX` field as a byte. -/
def Fields.ctxByte (f : Fields) : Byte := BitVec.ofNat 8 f.ctx

/-- The context selection of a coding command, given that `X = 0` has `CTX = 0` (R68). -/
def Fields.ctxSel (f : Fields) : CtxSel := if f.x = 0 then .chain else .explicit f.ctxByte

/-- The "fields" column of a row of R72: which of `CH`, `SLOT`, `X`, `VAL`, `CTX` the command uses. -/
structure Uses where
  ch : Bool := false
  slot : Bool := false
  x : Bool := false
  val : Bool := false
  ctx : Bool := false
  deriving DecidableEq, Repr

/-- The "fields" column of R72 by opcode; `none` is a reserved opcode (R73). -/
def usesOf : Nat → Option Uses
  | 0x00 => some {}
  | 0x10 | 0x11 => some {}
  | 0x20 | 0x21 => some {}
  | 0x30 | 0x31 | 0x32 | 0x33 | 0x34 | 0x35 | 0x36 => some {}
  | 0x40 => some { slot := true, val := true, ctx := true }
  | 0x41 => some { slot := true }
  | 0x42 => some { slot := true, ctx := true }
  | 0x43 => some { slot := true }
  | 0x50 | 0x51 => some { ch := true }
  | 0x52 | 0x54 => some { ch := true, slot := true, x := true, val := true, ctx := true }
  | 0x53 | 0x55 => some { ch := true, slot := true, x := true, ctx := true }
  | 0x56 | 0x57 | 0x58 | 0x59 => some { ch := true, slot := true }
  | 0x5A | 0x5B => some { ch := true }
  | _ => none

/-- Every field the row does not use is 0, and so is `RSV` (R67). -/
def Uses.unusedZero (u : Uses) (f : Fields) : Bool :=
  f.rsv == 0 && (u.ch || f.ch == 0) && (u.slot || f.slot == 0) && (u.x || f.x == 0)
    && (u.val || f.val == 0) && (u.ctx || f.ctx == 0)

/-- The constraint R72 makes on every command with an `X` field: `X = 0` has `CTX = 0`, else `ILLEGAL`(2). -/
def Fields.withCtx (f : Fields) (k : CtxSel → Instr) : Except Illegal Instr :=
  if f.x = 0 ∧ f.ctx ≠ 0 then .error .field else .ok (k f.ctxSel)

/-- The "constraints" column of R72, and the command of a word whose unused fields are 0. -/
def Fields.build (f : Fields) : Except Illegal Instr :=
  match f.op with
  | 0x00 => .ok .nop
  | 0x10 => .ok .bwtFwd
  | 0x11 => .ok .bwtInv
  | 0x20 => .ok .mtfEnc
  | 0x21 => .ok .mtfDec
  | 0x30 => .ok .zrlSplit
  | 0x31 => .ok .zrlJoin
  | 0x32 => .ok .tierCls
  | 0x33 => .ok .tierUncls
  | 0x34 => .ok .tierSplit
  | 0x35 => .ok .tierCount
  | 0x36 => .ok .tierJoin
  | 0x40 => if cfgLegal f.valByte f.ctxByte then .ok (.mdlCfg f.slotNo f.valByte f.ctxByte) else .error .config
  | 0x41 => .ok (.mdlReset f.slotNo)
  | 0x42 => .ok (.mdlSetctx f.slotNo f.ctxByte)
  | 0x43 => .ok (.mdlPeek f.slotNo)
  | 0x50 => .ok (.rcEinit f.chan)
  | 0x51 => .ok (.rcDinit f.chan)
  | 0x52 => if 1 < f.val then .error .field else f.withCtx (.rcEbit f.chan f.slotNo · (f.val == 1))
  | 0x53 => f.withCtx (.rcDbit f.chan f.slotNo ·)
  | 0x54 => f.withCtx (.rcEsym f.chan f.slotNo · f.valByte)
  | 0x55 => f.withCtx (.rcDsym f.chan f.slotNo ·)
  | 0x56 => .ok (.rcEgamma f.chan f.slotNo)
  | 0x57 => .ok (.rcDgamma f.chan f.slotNo)
  | 0x58 => .ok (.rcEstream f.chan f.slotNo)
  | 0x59 => .ok (.rcDstream f.chan f.slotNo)
  | 0x5A => .ok (.rcEflush f.chan)
  | 0x5B => .ok (.rcDfin f.chan)
  | _ => .error .opcode

/-- The decoder of R71: the opcode, then `RSV` and the unused fields, then the row's constraints. -/
def decode (w : Word) : Except Illegal Instr :=
  let f := fieldsOf w
  match usesOf f.op with
  | none => .error .opcode
  | some u => if u.unusedZero f then f.build else .error .field

/-- The `X` field of a context selection (R68). -/
def CtxSel.xField : CtxSel → Nat
  | .chain => 0
  | .explicit _ => 1

/-- The `CTX` field of a context selection (R68). -/
def CtxSel.ctxField : CtxSel → Nat
  | .chain => 0
  | .explicit k => k.toNat

/-- The fields of a command, by the rows of R72; a field the row does not use is 0 (R67). -/
def Instr.fields : Instr → Fields
  | .nop => { op := 0x00 }
  | .bwtFwd => { op := 0x10 }
  | .bwtInv => { op := 0x11 }
  | .mtfEnc => { op := 0x20 }
  | .mtfDec => { op := 0x21 }
  | .zrlSplit => { op := 0x30 }
  | .zrlJoin => { op := 0x31 }
  | .tierCls => { op := 0x32 }
  | .tierUncls => { op := 0x33 }
  | .tierSplit => { op := 0x34 }
  | .tierCount => { op := 0x35 }
  | .tierJoin => { op := 0x36 }
  | .mdlCfg m val kind => { op := 0x40, slot := m, val := val.toNat, ctx := kind.toNat }
  | .mdlReset m => { op := 0x41, slot := m }
  | .mdlSetctx m k => { op := 0x42, slot := m, ctx := k.toNat }
  | .mdlPeek m => { op := 0x43, slot := m }
  | .rcEinit c => { op := 0x50, ch := c }
  | .rcDinit c => { op := 0x51, ch := c }
  | .rcEbit c m x b => { op := 0x52, ch := c, slot := m, x := x.xField, val := b.toNat, ctx := x.ctxField }
  | .rcDbit c m x => { op := 0x53, ch := c, slot := m, x := x.xField, ctx := x.ctxField }
  | .rcEsym c m x j => { op := 0x54, ch := c, slot := m, x := x.xField, val := j.toNat, ctx := x.ctxField }
  | .rcDsym c m x => { op := 0x55, ch := c, slot := m, x := x.xField, ctx := x.ctxField }
  | .rcEgamma c m => { op := 0x56, ch := c, slot := m }
  | .rcDgamma c m => { op := 0x57, ch := c, slot := m }
  | .rcEstream c m => { op := 0x58, ch := c, slot := m }
  | .rcDstream c m => { op := 0x59, ch := c, slot := m }
  | .rcEflush c => { op := 0x5A, ch := c }
  | .rcDfin c => { op := 0x5B, ch := c }

/-- The command word of a command (R66, R72). -/
def encode (i : Instr) : Word := i.fields.word

/-- The command an opcode-table word stands for: `w` taken as the `nbits` low bits of the 32-bit word
written to `CMD`, which has no byte layout of its own (R24, R61). -/
def decodeTableWord (nbits w : Nat) : Option Instr :=
  match decode (BitVec.ofNat 32 (w % 2 ^ nbits)) with
  | .ok i => some i
  | .error _ => none

end Sys2Proof
end

