-- ==== Sys2Proof/Config.lean ====
section
/-!
DEFINITION. What one implementation of range_coder fixes (the OPEN parameters of rule R9 but `MEM_SIZE`,
which DMEM itself carries) and the free values: the values rule R15 calls UNSPECIFIED, which nothing in
Lean can evaluate.
-/

namespace Sys2Proof.Config

/-- The OPEN parameters of one block besides `MEM_SIZE` (R9). They are data of the machine that no step
changes, so that a statement about every state is a statement about every block (assumption log 7). -/
structure Params where
  /-- `MAX_BLOCK`, the largest BWT length. -/
  maxBlock : Nat
  /-- `HOST_BASE`, where the block's 2^21-byte region starts on the host bus (R55). -/
  hostBase : Nat
  deriving DecidableEq, Repr

/-- The reference value of `MEM_SIZE` (R9). -/
def refMemSize : Nat := 2 ^ 20

/-- The reference value of `MAX_BLOCK` (R9); the spec gives none for `HOST_BASE`, and 0 is a legal one.
DESIGN CHOICE, unsafe (log 7). -/
def refParams : Params := { maxBlock := 2 ^ 18, hostBase := 0 }

/-- A free byte: what DMEM holds where the spec fixes nothing, after a hardware reset and after an aborted
command (R40, R162). The first argument is the draw, the second the DMEM address. DESIGN CHOICE of form,
safe: nothing can be proved of its value (logs 4, 5, 6). -/
opaque freeByte : Nat → Nat → Byte

/-- A free entry of the BWT scratch store: what an entry holds that no BWT command has written since reset (R39,
R44). The first argument is the draw, the second the entry's number. The value is free: safe (logs 2, 5). -/
opaque freeEntry : Nat → Nat → Word

/-- A free word: what the port returns where the spec fixes nothing, for a read of DMEM or of a view while
a command runs (R166). The argument is the draw. Safe (logs 5, 11). -/
opaque freeWord : Nat → Word

end Sys2Proof.Config
end

