-- ==== Sys2Proof/Machine/State.lean ====
section
/-!
DEFINITION. The state of the block as plain data (rule R19), the reasons a step can stop, and the state right
after a hardware reset (R44, R161). INVENTORY.md's "State" lists every field with its rule.
-/

namespace Sys2Proof.Machine

/-- A channel's `mode` (R31), in the order of its 2-bit values 0 to 3. -/
inductive ChMode where
  | idle
  | enc
  | dec
  | err
  deriving DecidableEq, Repr

/-- A range-coder channel (R30). `limit` is the spec's `end`, one past the last byte of the window. -/
structure Channel where
  mode : ChMode
  low : Word
  range : Word
  code : Word
  base : Word
  ptr : Word
  limit : Word
  deriving DecidableEq, Repr

/-- One context's row of a `SYM` table: one count per symbol and the running total (R35). -/
structure SymRow where
  freq : List Half
  tot : Half
  deriving DecidableEq, Repr

/-- A slot's table, whose shape is its `kind` (R33). -/
inductive Table where
  /-- `kind = OFF`: the store is UNSPECIFIED and no command reads it (R37, R112; log 3). -/
  | off
  /-- `kind = BIN`: `prob[0]` and `prob[1]` (R34). -/
  | bin (p0 p1 : Prob)
  /-- `kind = SYM`: a row per context (R35). `N` is the number of rows. -/
  | sym (rows : List SymRow)
  deriving DecidableEq, Repr

/-- An adaptive model slot (R33): its table, which gives `kind` and `N`, and the order-1 context register. -/
structure Slot where
  table : Table
  last : Byte
  deriving DecidableEq, Repr

/-- `STATUS` (R23); its reserved bits are never set and have no storage. -/
structure Status where
  busy : Bool
  done : Bool
  err : Bool
  rej : Bool
  errcode : Byte
  deriving DecidableEq, Repr

/-- DMEM (R40): `MEM_SIZE`, the draw an unlisted byte's free value comes from, and the bytes that something
has written, by rising address (`Dmem.wf`, log 4). -/
structure Dmem where
  size : Nat
  fill : Nat
  cells : List Host.Cell
  deriving DecidableEq, Repr

/-- The BWT scratch store (R39): `MAX_BLOCK` 32-bit entries. Listed are the leading ones, up to the last one that a
BWT command has written since reset; every other entry holds the free value of the draw `fill` (log 2). -/
structure Scratch where
  fill : Nat
  entries : List Word
  deriving DecidableEq, Repr

/-- What the host or the platform does at the port (R51, R161). Addresses are host-bus byte addresses,
widths are in bytes, and a write's data stands in the low bits of the word. -/
inductive PortAction where
  | read (addr width : Nat)
  | write (addr width : Nat) (data : Word)
  /-- The level of the reset input `rst` (R161). -/
  | rst (level : Bool)
  deriving DecidableEq, Repr

/-- A port action and its place against the command that is running, if one is: `early` means before that
command's end (R154; log 9). -/
structure PortEvent where
  early : Bool
  action : PortAction
  deriving DecidableEq, Repr

/-- What the port answered to the last host access (log 9). -/
inductive Response where
  /-- No access yet, or one that the block does not answer. -/
  | none
  /-- A read's data, zero-extended to 32 bits. -/
  | data (v : Word)
  /-- A write was taken by the port, whether it had an effect, was ignored or was rejected. -/
  | ack
  /-- A bus error response (R51). -/
  | busError
  deriving DecidableEq, Repr

/-- The state of the block (R19), with the model's own `params`, `port`, `response` and `draws`. -/
structure State where
  /-- The OPEN parameters, which no step changes (R9; log 7). -/
  params : Config.Params
  /-- `CTRL.IE` (R22). -/
  ie : Bool
  status : Status
  errinfo : Word
  errcmd : Word
  /-- The command word the engine holds (R147). -/
  cmd : Word
  arg : Vector Word 8
  res : Vector Word 8
  ch : Vector Channel 4
  slot : Vector Slot 8
  /-- The MTF table (R38). -/
  mtf : List Byte
  /-- The BWT scratch store (R39). -/
  scratch : Scratch
  dmem : Dmem
  /-- The level of the reset input (R161). -/
  rst : Bool
  /-- What the host and the platform do next, oldest first (log 9). -/
  port : List PortEvent
  response : Response
  /-- How many groups of free values have been drawn (log 5). -/
  draws : Nat
  deriving DecidableEq, Repr

/-- Why the model stops where the block would go on. No state of `State.Inv` (Safety.lean) leads to one, so
each is safe: a claim about a run from such a state loses nothing (log 13). -/
inductive Fault where
  /-- Raised by the coder where a rule divides by 0 (`range div tot`, or by its quotient, R117, R120); R12
  defines `x div y` for `y > 0` only. Safe. -/
  | divideByZero
  /-- Raised by the coder where a slot's table lacks the row, the symbol or the probability that the rules
  take from it (R105, R108), which R35 and R110 exclude. Safe. -/
  | brokenTable
  /-- Raised by `Shift` on a channel that is neither encoding nor decoding (R119), where no rule calls it.
  Safe. -/
  | noOpenStream
  deriving DecidableEq, Repr

/-- Why a step could have no meaning. Every command has one, so nothing raises this. -/
inductive Refusal where
  /-- Reserved for an instruction without a meaning, by its mnemonic. Raised by no arm. Safe. -/
  | notModelled (mnemonic : String)
  deriving DecidableEq, Repr

/-- A channel after reset (R32, R44). -/
def Channel.reset : Channel :=
  { mode := .idle, low := 0#32, range := 0xFFFFFFFF#32, code := 0#32, base := 0#32, ptr := 0#32, limit := 0#32 }

/-- A slot after reset (R37, R44). -/
def Slot.reset : Slot := { table := .off, last := 0#8 }

/-- `STATUS` after reset (R23, R44). -/
def Status.reset : Status := { busy := false, done := false, err := false, rej := false, errcode := 0#8 }

/-- The MTF table's value at reset and at the start of every MTF pass (R38, R86). As a reset value it is a
DESIGN CHOICE, unsafe but unobservable (log 1). -/
def identityTable : List Byte := (List.range 256).map (BitVec.ofNat 8)

/-- The block right after a hardware reset (R44, R161), with the reference parameters (log 7), no input
pending (log 9) and DMEM unlisted (log 4). -/
def State.reset : State where
  params := Config.refParams
  ie := false
  status := Status.reset
  errinfo := 0#32
  errcmd := 0#32
  cmd := 0#32
  arg := Vector.replicate 8 0#32
  res := Vector.replicate 8 0#32
  ch := Vector.replicate 4 Channel.reset
  slot := Vector.replicate 8 Slot.reset
  mtf := identityTable
  scratch := { fill := 0, entries := [] }
  dmem := { size := Config.refMemSize, fill := 0, cells := [] }
  rst := false
  port := []
  response := .none
  draws := 1

end Sys2Proof.Machine
end

