-- ==== Sys2Proof/Machine/Flags.lean ====
section
/-!
DEFINITION. The status computations: the error codes and subcodes of rules R144 and R145, which causes are
channel errors (R150), the words that `STATUS`, a channel's `MODE`, a slot's `CFG` and `CTRL` read as (R22, R23,
R32, R37), and the interrupt output (R153). The block has no condition flags (R41).
-/

namespace Sys2Proof.Machine

/-- The error codes of `STATUS.ERRCODE` (R144) that a command can raise. `INTEGRITY` (3) is reserved and has
no constructor. -/
inductive ErrCode where
  | format
  | decode
  | capacity
  | illegal
  | bounds
  | state
  | arg
  deriving DecidableEq, Repr

/-- The number of an error code (R144). -/
def ErrCode.number : ErrCode → Byte
  | .format => 1#8
  | .decode => 2#8
  | .capacity => 4#8
  | .illegal => 5#8
  | .bounds => 6#8
  | .state => 7#8
  | .arg => 8#8

/-- The cause of a command error: one constructor per (code, subcode) pair of R145. -/
inductive Cause where
  /-- `FORMAT`(1). -/
  | badPrimaryIndex
  /-- `DECODE`(1). -/
  | streamExhausted
  /-- `DECODE`(2). -/
  | corruptValue
  /-- `DECODE`(3). -/
  | gammaOverrun
  /-- `DECODE`(4). -/
  | runCountMismatch
  /-- `DECODE`(5). -/
  | zeroRun
  /-- `DECODE`(6). -/
  | badStructure
  /-- `DECODE`(7). -/
  | badOffset
  /-- `CAPACITY`(1). -/
  | blockTooLong
  /-- `CAPACITY`(2). -/
  | windowFull
  /-- `CAPACITY`(3). -/
  | joinTooLong
  /-- `ILLEGAL`(1), (2) and (3). -/
  | illegal (why : Illegal)
  /-- `BOUNDS`(1). -/
  | outOfBounds
  /-- `STATE`(1). -/
  | channelMode
  /-- `STATE`(2). -/
  | slotKind
  /-- `ARG`(1). -/
  | badContext
  /-- `ARG`(2). -/
  | badSymbol
  /-- `ARG`(3). -/
  | gammaZero
  /-- `ARG`(4). -/
  | badSourceByte
  /-- `ARG`(5). -/
  | badPeek
  /-- `ARG`(6). -/
  | badTierPair
  /-- `ARG`(7). -/
  | tierValueTooLarge
  deriving DecidableEq, Repr

/-- The code of a cause (R145). -/
def Cause.code : Cause → ErrCode
  | .badPrimaryIndex => .format
  | .streamExhausted | .corruptValue | .gammaOverrun | .runCountMismatch | .zeroRun | .badStructure
  | .badOffset => .decode
  | .blockTooLong | .windowFull | .joinTooLong => .capacity
  | .illegal _ => .illegal
  | .outOfBounds => .bounds
  | .channelMode | .slotKind => .state
  | .badContext | .badSymbol | .gammaZero | .badSourceByte | .badPeek | .badTierPair
  | .tierValueTooLarge => .arg

/-- The subcode of a cause (R145). -/
def Cause.sub : Cause → Word
  | .badPrimaryIndex => 1#32
  | .streamExhausted => 1#32
  | .corruptValue => 2#32
  | .gammaOverrun => 3#32
  | .runCountMismatch => 4#32
  | .zeroRun => 5#32
  | .badStructure => 6#32
  | .badOffset => 7#32
  | .blockTooLong => 1#32
  | .windowFull => 2#32
  | .joinTooLong => 3#32
  | .illegal .opcode => 1#32
  | .illegal .field => 2#32
  | .illegal .config => 3#32
  | .outOfBounds => 1#32
  | .channelMode => 1#32
  | .slotKind => 2#32
  | .badContext => 1#32
  | .badSymbol => 2#32
  | .gammaZero => 3#32
  | .badSourceByte => 4#32
  | .badPeek => 5#32
  | .badTierPair => 6#32
  | .tierValueTooLarge => 7#32

/-- What `STATUS` reads as (R23). -/
def Status.word (s : Status) : Word :=
  BitVec.ofNat 32 (s.busy.toNat + s.done.toNat * 2 + s.err.toNat * 4 + s.rej.toNat * 8 + s.errcode.toNat * 2 ^ 8)

/-- What `CTRL` reads as: `IE`, and 0 for the write-one actions and the reserved bits (R22). -/
def ctrlWord (ie : Bool) : Word := BitVec.ofNat 32 ie.toNat

/-- A mode's 2-bit value (R31). -/
def ChMode.number : ChMode → Nat
  | .idle => 0
  | .enc => 1
  | .dec => 2
  | .err => 3

/-- A table's `kind` value (R33). -/
def Table.kind : Table → Nat
  | .off => 0
  | .bin _ _ => 1
  | .sym _ => 2

/-- A slot's `N`, the alphabet size and the number of contexts (R33). -/
def Table.alphabet : Table → Nat
  | .off => 0
  | .bin _ _ => 2
  | .sym rows => rows.length

/-- What a slot's `CFG` reads as (R37). -/
def Slot.cfgWord (m : Slot) : Word := BitVec.ofNat 32 (m.table.kind + m.table.alphabet * 2 ^ 8)

/-- What a slot's `LAST` reads as (R37). -/
def Slot.lastWord (m : Slot) : Word := m.last.setWidth 32

/-- The interrupt output, `CTRL.IE AND STATUS.DONE` (R153). -/
def State.irq (s : State) : Bool := s.ie && s.status.done

end Sys2Proof.Machine
end

