-- ==== Sys2Proof/Machine/Memory.lean ====
section
/-!
DEFINITION. DMEM (rules R40, R45-R50, R54): one canonical list of written bytes, reads and writes of bytes and
byte ranges, the big-endian words of rule R47, and `InRange` (R13); and the BWT scratch store (R39).
-/

namespace Sys2Proof.Machine

/-- The byte listed at an address, if one is. -/
def lookupCell : List Host.Cell → Nat → Option Byte
  | [], _ => none
  | (k, v) :: rest, a => if a = k then some v else lookupCell rest a

/-- List `b` at address `a`, keeping the addresses strictly rising. -/
def putCell : List Host.Cell → Nat → Byte → List Host.Cell
  | [], a, b => [(a, b)]
  | (k, v) :: rest, a, b =>
    if a < k then (a, b) :: (k, v) :: rest
    else if a = k then (a, b) :: rest
    else (k, v) :: putCell rest a b

/-- The addresses rise strictly from `lo` on and stay below `size`. -/
def cellsWf (size : Nat) : Nat → List Host.Cell → Bool
  | _, [] => true
  | lo, (k, _) :: rest => decide (lo ≤ k) && decide (k < size) && cellsWf size (k + 1) rest

/-- The canonical form of DMEM: addresses strictly rising, each below `MEM_SIZE`. An unlisted byte has no
definite value, so no listed entry can equal what it reads as (log 4). -/
def Dmem.wf (m : Dmem) : Bool := cellsWf m.size 0 m.cells

/-- What a byte that nothing has written reads as: a free value of its address, fixed until the next hardware
reset (R40, U1). Free value, safe (log 4). -/
def Dmem.unlisted (m : Dmem) (a : Nat) : Byte := Config.freeByte m.fill a

/-- `MemRead(a, 1)` (R13). -/
def Dmem.read (m : Dmem) (a : Nat) : Byte := (lookupCell m.cells a).getD (m.unlisted a)

/-- `MemWrite(a, 1, b)` (R13). Outside DMEM there is no byte to write (R45, R54). -/
def Dmem.write (m : Dmem) (a : Nat) (b : Byte) : Dmem :=
  if a < m.size then { m with cells := putCell m.cells a b } else m

/-- `MemRead(a, n)` (R13): the bytes at `a .. a+n-1`. -/
def Dmem.readBytes (m : Dmem) (a : Nat) : Nat → List Byte
  | 0 => []
  | n + 1 => m.read a :: m.readBytes (a + 1) n

/-- `MemWrite(a, |bs|, bs)` (R13): first byte first. -/
def Dmem.writeBytes (m : Dmem) (a : Nat) : List Byte → Dmem
  | [] => m
  | b :: bs => (m.write a b).writeBytes (a + 1) bs

/-- `InRange(a, n)` (R13), in unbounded arithmetic. -/
def Dmem.inRange (m : Dmem) (a n : Nat) : Bool := decide (a + n ≤ m.size)

/-- The bytes of a value, `n` of them, the most significant first (R47, R49). -/
def beBytes (v : Nat) : Nat → List Byte
  | 0 => []
  | n + 1 => BitVec.ofNat 8 (v / 2 ^ (8 * n)) :: beBytes v n

/-- The value of bytes, the first the most significant (R47, R49). -/
def beValue : List Byte → Nat
  | [] => 0
  | b :: bs => b.toNat * 2 ^ (8 * bs.length) + beValue bs

/-- `MemRead32(a)` (R13) as an unsigned number. -/
def Dmem.read32 (m : Dmem) (a : Nat) : Nat := beValue (m.readBytes a 4)

/-- Every byte of `a .. a+n-1` takes a fresh free value of the given draw (R162). Free values, safe (log 6). -/
def Dmem.blur (m : Dmem) (draw a : Nat) : Nat → Dmem
  | 0 => m
  | n + 1 => (m.write a (Config.freeByte draw a)).blur draw (a + 1) n

/-- Entry `k` of the BWT scratch store (R39): what a BWT command wrote there last, else a free value. The store ends
at `MAX_BLOCK`: no entry from there on is one of it. -/
def Scratch.entry (m : Scratch) (k : Nat) : Word := m.entries.getD k (Config.freeEntry m.fill k)

/-- A BWT command's entries go to the first places of the scratch store; the entries beyond them stay (R39). -/
def Scratch.store (m : Scratch) (ws : List Word) : Scratch := { m with entries := ws ++ m.entries.drop ws.length }

end Sys2Proof.Machine
end

