-- ==== Sys2Proof/Machine/Ops.lean ====
section
/-!
DEFINITION. The named operations over the registers, and how a command begins and ends: acceptance (rule R147),
rejection (R148), completion (R149), error entry (R150) and the clearing of an error (R151).
-/

namespace Sys2Proof.Machine

/-- Replace channel `c` (R30). -/
def State.setChan (s : State) (c : ChanNo) (v : Channel) : State := { s with ch := s.ch.set c v c.isLt }

/-- Replace slot `m` (R33). -/
def State.setSlot (s : State) (m : SlotNo) (v : Slot) : State := { s with slot := s.slot.set m v m.isLt }

/-- One result a command writes: `RES[i] <- v` (R13, R28). -/
abbrev Result := Fin 8 × Word

/-- Write results, in the order given (R149). -/
def writeResults (res : Vector Word 8) : List Result → Vector Word 8
  | [] => res
  | (i, v) :: rest => writeResults (res.set i v i.isLt) rest

/-- Acceptance of the command word `w` (R147). -/
def State.accept (s : State) (w : Word) : State :=
  { s with status := { s.status with busy := true, done := false }, cmd := w }

/-- A rejected write: `REJ` and nothing else (R148). -/
def State.reject (s : State) : State := { s with status := { s.status with rej := true } }

/-- Successful completion (R149): the results the command's rule names, `BUSY` to 0, `DONE` to 1. -/
def State.complete (s : State) (results : List Result) : State :=
  { s with
    res := writeResults s.res results
    status := { s.status with busy := false, done := true } }

/-- Error entry (R150): the subcode, the command word the engine holds, the code, `ERR`, and the end of the
command. `RESi` are not written, and what the command did before the raise is in `s` already. -/
def State.raise (s : State) (e : Cause) : State :=
  { s with
    errinfo := e.sub
    errcmd := s.cmd
    status := { s.status with busy := false, done := true, err := true, errcode := e.code.number } }

/-- Error entry for a raise from `Shift`, `DecodeValue` or `DecGamma` (R150): the channel goes to `ERR`. -/
def State.raiseChannel (s : State) (c : ChanNo) (e : Cause) : State :=
  (s.setChan c { s.ch[c] with mode := .err }).raise e

/-- Return from an error, `CTRL.ERRCLR` (R151). -/
def State.errClear (s : State) : State :=
  { s with
    errinfo := 0#32
    errcmd := 0#32
    status := { s.status with err := false, rej := false, errcode := 0#8 } }

/-- `CTRL.DONECLR` (R22). -/
def State.doneClear (s : State) : State := { s with status := { s.status with done := false } }

end Sys2Proof.Machine
end

