-- ==== Sys2Proof/Machine/Operands.lean ====
section
/-!
DEFINITION. Every operand form of a command: the ARG registers as addresses, lengths and values (rule R69), the
context of a coding command (R68, R104), and the plan of a bulk command: everything it will write, worked out
before its first write (R64, R146).
-/

namespace Sys2Proof.Machine

/-- `ARG[i]` read at command start as a number (R69). -/
def State.argNat (s : State) (i : Fin 8) : Nat := s.arg[i].toNat

/-- The context a coding command uses (R68, R104). -/
def contextOf (x : CtxSel) (m : Slot) : Nat :=
  match x with
  | .chain => m.last.toNat
  | .explicit k => k.toNat

/-- What a bulk command does once all its checks have passed: byte ranges to write, in order, and results; for
the commands that use them, the MTF table it leaves or the scratch entries it writes, from entry 0 on. -/
structure Plan where
  writes : List (Nat × List Byte) := []
  results : List Result := []
  mtf : Option (List Byte) := none
  scratch : Option (List Word) := none
  deriving DecidableEq, Repr

/-- Carry out a plan's writes in their order, so that a later one wins where two overlap (R58, R97, R101). -/
def writeRanges (m : Dmem) : List (Nat × List Byte) → Dmem
  | [] => m
  | (a, bs) :: rest => writeRanges (m.writeBytes a bs) rest

/-- The state after a plan's effects, before the command's completion. -/
def State.applyPlan (s : State) (p : Plan) : State :=
  { s with
    dmem := writeRanges s.dmem p.writes
    mtf := p.mtf.getD s.mtf
    scratch := (p.scratch.map s.scratch.store).getD s.scratch }

/-- End a bulk command: error entry on the first failed check, else the plan and completion (R149, R150). -/
def State.finishPlan (s : State) (p : Except Cause Plan) : Host.Outcome State Fault Refusal :=
  match p with
  | .error e => .next (s.raise e)
  | .ok p => .next ((s.applyPlan p).complete p.results)

/-- `u32` of a number, for a result or a register. -/
def word (n : Nat) : Word := BitVec.ofNat 32 n

end Sys2Proof.Machine
end

