-- ==== Sys2Proof/Machine/Bwt.lean ====
section
/-!
DEFINITION. The BWT unit (spec/40_bwt.md): rotations and their sorted order (rules R78, R79), the transform
(R80), its inverse (R81) and the two commands (R84, R85).
-/

namespace Sys2Proof.Machine

/-- `rot(s, i)`, the cyclic rotation that starts at index `i` (R78). -/
def rot (s : List Byte) (i : Nat) : List Byte := s.drop i ++ s.take i

/-- Byte sequences in lexicographic order, bytes unsigned (R78). -/
def bytesLe : List Byte → List Byte → Bool
  | [], _ => true
  | _ :: _, [] => false
  | a :: as, b :: bs => decide (a.toNat < b.toNat) || (a == b && bytesLe as bs)

/-- The order of R79 on start indices: by rotation, and equal rotations by the smaller index. -/
def rotLe (s : List Byte) (i j : Nat) : Bool :=
  if rot s i = rot s j then decide (i ≤ j) else bytesLe (rot s i) (rot s j)

/-- Put an index into its place among sorted ones (R83: the sorting method is free). -/
def insertIndex (s : List Byte) (i : Nat) : List Nat → List Nat
  | [] => [i]
  | j :: rest => if rotLe s i j then i :: j :: rest else j :: insertIndex s i rest

/-- The sorted order `ord` (R79): the start indices `0 .. n-1` by `(rot(s, i), i)`. -/
def sortedOrder (s : List Byte) : List Nat := (List.range s.length).foldr (insertIndex s) []

/-- The primary index: the `k` with `ord[k] = 0`, and 0 for the empty sequence (R80, D17). -/
def primaryIndex (ord : List Nat) : Nat := if ord.isEmpty then 0 else ord.idxOf 0

/-- `BWT(s) = (L, p)` (R80). -/
def bwt (s : List Byte) : List Byte × Nat :=
  let ord := sortedOrder s
  (ord.map fun k => s.getD ((k + s.length - 1) % s.length) 0#8, primaryIndex ord)

/-- `T[i]` of R81: the bytes strictly smaller than `L[i]` anywhere (conflict C2), and the equal ones before `i`. -/
def rankOf (l : List Byte) (i : Nat) : Nat :=
  l.countP (fun b => decide (b.toNat < (l.getD i 0#8).toNat)) + (l.take i).count (l.getD i 0#8)

/-- The backward walk of R81 from row `q`: the last `k` bytes still to be put out, in reading order. -/
def walkBack (l : List Byte) (t : List Nat) : Nat → Nat → List Byte
  | 0, _ => []
  | k + 1, q => walkBack l t k (t.getD q 0) ++ [l.getD q 0#8]

/-- The rank mapping `T` of R81. -/
def rankMap (l : List Byte) : List Nat := (List.range l.length).map (rankOf l)

/-- `IBWT(L, p)` (R81). -/
def ibwt (l : List Byte) (p : Nat) : List Byte := walkBack l (rankMap l) l.length p

/-- The checks and effects of `BWT_FWD` (R84). -/
def State.planBwtFwd (s : State) : Except Cause Plan :=
  let src := s.argNat 0
  let dst := s.argNat 1
  let n := s.argNat 2
  if s.params.maxBlock < n then .error .blockTooLong
  else if ¬ (s.dmem.inRange src n ∧ s.dmem.inRange dst n) then .error .outOfBounds
  else
    let b := s.dmem.readBytes src n
    .ok { writes := [(dst, (bwt b).1)], results := [(0, word (bwt b).2)],
          scratch := some ((sortedOrder b).map word) }

/-- The checks and effects of `BWT_INV` (R85). -/
def State.planBwtInv (s : State) : Except Cause Plan :=
  let src := s.argNat 0
  let dst := s.argNat 1
  let n := s.argNat 2
  let p := s.argNat 3
  if (0 < n ∧ n ≤ p) ∨ (n = 0 ∧ p ≠ 0) then .error .badPrimaryIndex
  else if s.params.maxBlock < n then .error .blockTooLong
  else if ¬ (s.dmem.inRange src n ∧ s.dmem.inRange dst n) then .error .outOfBounds
  else
    let l := s.dmem.readBytes src n
    .ok { writes := [(dst, ibwt l p)], scratch := some ((rankMap l).map word) }

/-- `BWT_FWD` (R84). -/
def execBwtFwd (s : State) : Host.Outcome State Fault Refusal := s.finishPlan s.planBwtFwd

/-- `BWT_INV` (R85). -/
def execBwtInv (s : State) : Host.Outcome State Fault Refusal := s.finishPlan s.planBwtInv

end Sys2Proof.Machine
end

