-- ==== Sys2Proof/Machine/Constants.lean ====
section
/-!
DEFINITION. The fixed parameters of rule R9: the coder's thresholds, the models' constants and the tier table
of rule R94.
-/

namespace Sys2Proof.Machine

/-- `TOP` = 2^24 (R9, R116). -/
def coderTop : Word := 0x01000000#32

/-- `BOT` = 2^16 (R9, R116). -/
def coderBot : Word := 0x00010000#32

/-- `PROB_ONE` = 4096 (R9, R105). -/
def probOne : Nat := 4096

/-- `PROB_INIT` = 2048 (R9, R107). -/
def probInit : Prob := 2048#12

/-- `PROB_SHIFT` = 5 (R9, R106). -/
def probShift : Nat := 5

/-- `FREQ_INC` = 32 (R9, R109). -/
def freqInc : Nat := 32

/-- `FREQ_CEIL` = 0x3FFF (R9, R109). -/
def freqCeil : Nat := 0x3FFF

/-- `GAMMA_MAX_K` = 31 (R9, R127). -/
def gammaMaxK : Nat := 31

/-- `TIER_BASE[t]` for t in 1..4 (R94); no tier has another number. -/
def tierBase : Nat → Nat
  | 1 => 1
  | 2 => 4
  | 3 => 10
  | 4 => 32
  | _ => 0

/-- `TIER_SIZE[t]` for t in 1..4 (R94); 0 for every other number, so that no offset fits it. -/
def tierSize : Nat → Nat
  | 1 => 3
  | 2 => 6
  | 3 => 22
  | 4 => 224
  | _ => 0

/-- The value of the read-only `ID` register (R21). -/
def idValue : Word := 0x52430001#32

end Sys2Proof.Machine
end

