-- ==== Sys2Proof/Machine/Models.lean ====
section
/-!
DEFINITION. The adaptive models (spec/43_range_models.md): the coding intervals and update laws (rules R105,
R106, R108, R109) and the four model commands (R112-R115).
-/

namespace Sys2Proof.Machine

/-- A symbol's share of a total: the arguments of `Narrow` (R117). -/
structure Interval where
  cum : Nat
  freq : Nat
  tot : Nat
  deriving DecidableEq, Repr

/-- The probability of a `BIN` table in context `ctx` (R34); contexts are 0 and 1. -/
def Table.prob : Table → Nat → Option Prob
  | .bin p0 _, 0 => some p0
  | .bin _ p1, 1 => some p1
  | _, _ => none

/-- The coding interval of bit `b` under probability `p` (R105). -/
def bitInterval (p : Prob) (b : Bool) : Interval :=
  if b then { cum := 0, freq := p.toNat, tot := probOne }
  else { cum := p.toNat, freq := probOne - p.toNat, tot := probOne }

/-- A probability after the bit `b` (R106). -/
def adaptProb (p : Prob) (b : Bool) : Prob :=
  if b then BitVec.ofNat 12 (p.toNat + (probOne - p.toNat) / 2 ^ probShift)
  else BitVec.ofNat 12 (p.toNat - p.toNat / 2 ^ probShift)

/-- `UpdateBit(s, ctx, b)` (R106). Only the entry of the context used changes, and `last` becomes `b`. -/
def Slot.updateBit (m : Slot) (ctx : Nat) (b : Bool) : Slot :=
  { table :=
      match m.table, ctx with
      | .bin p0 p1, 0 => .bin (adaptProb p0 b) p1
      | .bin p0 p1, 1 => .bin p0 (adaptProb p1 b)
      | t, _ => t
    last := BitVec.ofNat 8 b.toNat }

/-- Sum of counts. -/
def sumCounts (f : List Half) : Nat := (f.map BitVec.toNat).sum

/-- `cum(ctx, j)` of R108: the counts below symbol `j`. -/
def SymRow.cum (r : SymRow) (j : Nat) : Nat := sumCounts (r.freq.take j)

/-- The row of a `SYM` table in context `ctx` (R35). -/
def Table.row : Table → Nat → Option SymRow
  | .sym rows, ctx => rows[ctx]?
  | _, _ => none

/-- The coding interval of symbol `j` in a row (R108); none where the row has no such symbol. -/
def SymRow.interval (r : SymRow) (j : Nat) : Option Interval :=
  match r.freq[j]? with
  | some f => some { cum := r.cum j, freq := f.toNat, tot := r.tot.toNat }
  | none => none

/-- The symbol whose sub-interval holds `v` (R108): the `j` with `cum(j) <= v < cum(j) + freq(j)`. -/
def findSymbol : List Half → Nat → Option Nat
  | [], _ => none
  | f :: rest, v => if v < f.toNat then some 0 else (findSymbol rest (v - f.toNat)).map (· + 1)

/-- One count halved, with the floor of 1 (R109). -/
def halveCount (f : Half) : Half := BitVec.ofNat 16 (max 1 (f.toNat / 2))

/-- A row after symbol `j` (R109): the increment, and the halving once the total exceeds the ceiling. -/
def SymRow.update (r : SymRow) (j : Nat) : SymRow :=
  let freq := r.freq.modify j fun f => BitVec.ofNat 16 (f.toNat + freqInc)
  let tot := r.tot.toNat + freqInc
  if freqCeil < tot then
    { freq := freq.map halveCount, tot := BitVec.ofNat 16 (sumCounts (freq.map halveCount)) }
  else { freq := freq, tot := BitVec.ofNat 16 tot }

/-- `UpdateSym(s, ctx, j)` (R109). Only row `ctx` changes, and `last` becomes `j`. -/
def Slot.updateSym (m : Slot) (ctx j : Nat) : Slot :=
  { table :=
      match m.table with
      | .sym rows => .sym (rows.modify ctx fun r => r.update j)
      | t => t
    last := BitVec.ofNat 8 j }

/-- The initial `BIN` table (R107, R112). -/
def initialBin : Table := .bin probInit probInit

/-- The initial `SYM` table of alphabet `n`: every count 1, every total `n` (R112). -/
def initialSym (n : Nat) : Table :=
  .sym (List.replicate n { freq := List.replicate n 1#16, tot := BitVec.ofNat 16 n })

/-- The initial table of a slot's own kind and `N` (R113). -/
def Table.initial : Table → Table
  | .off => .off
  | .bin _ _ => initialBin
  | .sym rows => initialSym rows.length

/-- `MDL_CFG` (R112). The kind and alphabet check stands in the rule's pseudocode; the decoder has already made
it for every word (R71). -/
def execMdlCfg (m : SlotNo) (val kind : Byte) (s : State) : Host.Outcome State Fault Refusal :=
  if ¬ cfgLegal val kind then .next (s.raise (.illegal .config))
  else
    let table := match kind.toNat with
      | 1 => initialBin
      | 2 => initialSym (val.toNat + 1)
      | _ => .off
    .next ((s.setSlot m { table := table, last := 0#8 }).complete [])

/-- `MDL_RESET` (R113). -/
def execMdlReset (m : SlotNo) (s : State) : Host.Outcome State Fault Refusal :=
  if s.slot[m].table = .off then .next (s.raise .slotKind)
  else .next ((s.setSlot m { table := s.slot[m].table.initial, last := 0#8 }).complete [])

/-- `MDL_SETCTX` (R114). -/
def execMdlSetctx (m : SlotNo) (k : Byte) (s : State) : Host.Outcome State Fault Refusal :=
  if s.slot[m].table = .off then .next (s.raise .slotKind)
  else if s.slot[m].table.alphabet ≤ k.toNat then .next (s.raise .badContext)
  else .next ((s.setSlot m { s.slot[m] with last := k }).complete [])

/-- `MDL_PEEK` (R115). A `SYM` table without the entry asked for is no table of R35: the model stops (log 13). -/
def execMdlPeek (m : SlotNo) (s : State) : Host.Outcome State Fault Refusal :=
  let c := s.argNat 0
  let j := s.argNat 1
  let slot := s.slot[m]
  match slot.table with
  | .off => .next (s.raise .slotKind)
  | .bin p0 p1 =>
    if 2 ≤ c then .next (s.raise .badPeek)
    else .next (s.complete [(0, (if c = 0 then p0 else p1).setWidth 32), (1, word probOne), (2, 0#32),
      (3, slot.lastWord)])
  | .sym rows =>
    if rows.length ≤ c then .next (s.raise .badPeek)
    else if rows.length ≤ j then .next (s.raise .badPeek)
    else
      match (slot.table.row c).bind fun r => r.interval j with
      | none => .fault .brokenTable
      | some iv => .next (s.complete [(0, word iv.freq), (1, word iv.tot), (2, word iv.cum), (3, slot.lastWord)])

end Sys2Proof.Machine
end

