-- ==== Sys2Proof/Machine/Mtf.lean ====
section
/-!
DEFINITION. The MTF unit (spec/41_mtf.md): move-to-front encoding and decoding (rules R86, R87) and the two
commands (R89, R90).
-/

namespace Sys2Proof.Machine

/-- The move-to-front update: the entry `b` at position `r` goes to the front (R86, R87). -/
def moveToFront (table : List Byte) (r : Nat) (b : Byte) : List Byte :=
  b :: (table.take r ++ table.drop (r + 1))

/-- The loop of R86 from a table: the ranks, and the table it ends with. -/
def mtfEncodeFrom : List Byte → List Byte → List Byte × List Byte
  | table, [] => ([], table)
  | table, b :: rest =>
    let r := table.idxOf b
    let (out, final) := mtfEncodeFrom (moveToFront table r b) rest
    (BitVec.ofNat 8 r :: out, final)

/-- The loop of R87 from a table: the bytes, and the table it ends with. -/
def mtfDecodeFrom : List Byte → List Byte → List Byte × List Byte
  | table, [] => ([], table)
  | table, r :: rest =>
    let b := table.getD r.toNat 0#8
    let (out, final) := mtfDecodeFrom (moveToFront table r.toNat b) rest
    (b :: out, final)

/-- `MTF_ENCODE` (R86). -/
def mtfEncode (s : List Byte) : List Byte := (mtfEncodeFrom identityTable s).1

/-- `MTF_DECODE` (R87). -/
def mtfDecode (r : List Byte) : List Byte := (mtfDecodeFrom identityTable r).1

/-- The checks and effects of `MTF_ENC` (R89). -/
def State.planMtfEnc (s : State) : Except Cause Plan :=
  let src := s.argNat 0
  let dst := s.argNat 1
  let n := s.argNat 2
  if ¬ (s.dmem.inRange src n ∧ s.dmem.inRange dst n) then .error .outOfBounds
  else
    let b := s.dmem.readBytes src n
    .ok { writes := [(dst, mtfEncode b)], mtf := some (mtfEncodeFrom identityTable b).2 }

/-- The checks and effects of `MTF_DEC` (R90). -/
def State.planMtfDec (s : State) : Except Cause Plan :=
  let src := s.argNat 0
  let dst := s.argNat 1
  let n := s.argNat 2
  if ¬ (s.dmem.inRange src n ∧ s.dmem.inRange dst n) then .error .outOfBounds
  else
    let b := s.dmem.readBytes src n
    .ok { writes := [(dst, mtfDecode b)], mtf := some (mtfDecodeFrom identityTable b).2 }

/-- `MTF_ENC` (R89). -/
def execMtfEnc (s : State) : Host.Outcome State Fault Refusal := s.finishPlan s.planMtfEnc

/-- `MTF_DEC` (R90). -/
def execMtfDec (s : State) : Host.Outcome State Fault Refusal := s.finishPlan s.planMtfDec

end Sys2Proof.Machine
end

