-- ==== Sys2Proof/Machine/Coder.lean ====
section
/-!
DEFINITION. The arithmetic of a range-coder channel and the coding steps built on it (spec/44_range_coder.md,
rules R116-R127). A step works on the part of the state it can touch: one channel and DMEM (`Stream`), and for
a modelled step the one slot it names as well (`Coder`); so no step touches another channel or slot (R140).
-/

namespace Sys2Proof.Machine

/-- What shifting bytes can touch: a channel and DMEM (R119). -/
structure Stream where
  ch : Channel
  mem : Dmem
  deriving DecidableEq, Repr

/-- What a coding step can touch: a stream and a model slot (R122-R125). -/
structure Coder where
  str : Stream
  slot : Slot
  deriving DecidableEq, Repr

/-- How a coding step ends: with a value, with a raise that keeps what has been done (R150), or in a stop of the
model (log 13). -/
inductive Coded (σ α : Type) where
  | ok (a : α) (s : σ)
  | raised (e : Cause) (s : σ)
  | fault (f : Fault)
  deriving DecidableEq, Repr

/-- Go on only where the first step ended with a value: nothing after a raise runs (R150). -/
def Coded.bind {σ α β : Type} (c : Coded σ α) (f : α → σ → Coded σ β) : Coded σ β :=
  match c with
  | .ok a s => f a s
  | .raised e s => .raised e s
  | .fault f => .fault f

/-- The same end over a larger part of the state. -/
def Coded.lift {σ τ α : Type} (g : σ → τ) (c : Coded σ α) : Coded τ α :=
  match c with
  | .ok a s => .ok a (g s)
  | .raised e s => .raised e (g s)
  | .fault f => .fault f

/-- `Narrow(ch, cum, freq, tot)` (R117). Callers have `tot > 0`. -/
def Channel.narrow (c : Channel) (iv : Interval) : Channel :=
  let r := c.range / word iv.tot
  { c with low := c.low + word iv.cum * r, range := word iv.freq * r }

/-- The top byte of the interval is fixed: `(low XOR (low +32 range)) < TOP` (R118). -/
def Channel.topFixed (c : Channel) : Bool := decide ((c.low ^^^ (c.low + c.range)).toNat < coderTop.toNat)

/-- `Renorm` exits: the top byte is not fixed and the range is at least `BOT` (R118). -/
def Channel.settled (c : Channel) : Bool := !c.topFixed && decide (coderBot.toNat ≤ c.range.toNat)

/-- The underflow cut of R118, where the top byte is not fixed: the range ends at the next 2^16 boundary. -/
def Channel.cut (c : Channel) : Channel :=
  if c.topFixed then c else { c with range := (0#32 - c.low) &&& (coderBot - 1#32) }

/-- `low <<32 8` and `range <<32 8` (R118). -/
def Channel.advance (c : Channel) : Channel := { c with low := c.low <<< 8, range := c.range <<< 8 }

/-- `Shift(ch)` (R119): one byte out of an encoder or into a decoder. A pointer at or past the window's end
raises first; a byte outside DMEM raises `BOUNDS` by R54, which no window of `RC_EINIT` or `RC_DINIT` can need
(log 12). -/
def Stream.shift (t : Stream) : Coded Stream Unit :=
  let c := t.ch
  match c.mode with
  | .enc =>
    if c.limit.toNat ≤ c.ptr.toNat then .raised .windowFull t
    else if t.mem.size ≤ c.ptr.toNat then .raised .outOfBounds t
    else .ok () { ch := { c with ptr := c.ptr + 1#32 }
                  mem := t.mem.write c.ptr.toNat ((c.low >>> 24).setWidth 8) }
  | .dec =>
    if c.limit.toNat ≤ c.ptr.toNat then .raised .streamExhausted t
    else if t.mem.size ≤ c.ptr.toNat then .raised .outOfBounds t
    else .ok () { t with
      ch := { c with code := (c.code <<< 8) ||| (t.mem.read c.ptr.toNat).setWidth 32, ptr := c.ptr + 1#32 } }
  | .idle => .fault .noOpenStream
  | .err => .fault .noOpenStream

/-- The loop of `Renorm` (R118). Every turn shifts one byte and moves `ptr` on, so the bytes left in the window
bound the turns: with none left, `Shift` raises and the turn after it is never reached. -/
def Stream.renormLoop : Nat → Stream → Coded Stream Unit
  | 0, t =>
    if t.ch.settled then .ok () t
    else Stream.shift { t with ch := t.ch.cut } |>.bind fun _ _ => .fault .noOpenStream
  | n + 1, t =>
    if t.ch.settled then .ok () t
    else Stream.shift { t with ch := t.ch.cut } |>.bind fun _ t' =>
      Stream.renormLoop n { t' with ch := t'.ch.advance }

/-- `Renorm(ch)` (R118). -/
def Stream.renorm (t : Stream) : Coded Stream Unit := t.renormLoop (t.ch.limit.toNat - t.ch.ptr.toNat)

/-- `DecodeValue(ch, tot)` (R120). -/
def Stream.decodeValue (t : Stream) (tot : Nat) : Coded Stream Nat :=
  let r := t.ch.range / word tot
  if r = 0#32 then .fault .divideByZero
  else
    let v := ((t.ch.code - t.ch.low) / r).toNat
    if tot ≤ v then .raised .corruptValue t else .ok v t

/-- The common tail of every coding step: `Narrow` by the interval, put the updated model in place, `Renorm`
(R122-R125). A raise in `Renorm` keeps the updated model. -/
def Coder.codeInterval (k : Coder) (iv : Interval) (updated : Slot) : Coded Coder Unit :=
  (Stream.renorm { k.str with ch := k.str.ch.narrow iv }).lift fun t => { str := t, slot := updated }

/-- `EncBit(ch, s, ctx, b)` (R122). -/
def Coder.encBit (k : Coder) (ctx : Nat) (b : Bool) : Coded Coder Unit :=
  match k.slot.table.prob ctx with
  | none => .fault .brokenTable
  | some p => k.codeInterval (bitInterval p b) (k.slot.updateBit ctx b)

/-- `DecBit(ch, s, ctx)` (R123). -/
def Coder.decBit (k : Coder) (ctx : Nat) : Coded Coder Bool :=
  match k.slot.table.prob ctx with
  | none => .fault .brokenTable
  | some p =>
    ((k.str.decodeValue probOne).lift fun t => { k with str := t }).bind fun v k' =>
      let b := decide (v < p.toNat)
      (k'.codeInterval (bitInterval p b) (k'.slot.updateBit ctx b)).bind fun _ k'' => .ok b k''

/-- `EncSym(ch, s, ctx, j)` (R124). -/
def Coder.encSym (k : Coder) (ctx j : Nat) : Coded Coder Unit :=
  match (k.slot.table.row ctx).bind fun r => r.interval j with
  | none => .fault .brokenTable
  | some iv =>
    if iv.tot = 0 then .fault .divideByZero else k.codeInterval iv (k.slot.updateSym ctx j)

/-- `DecSym(ch, s, ctx)` (R125). -/
def Coder.decSym (k : Coder) (ctx : Nat) : Coded Coder Nat :=
  match k.slot.table.row ctx with
  | none => .fault .brokenTable
  | some row =>
    ((k.str.decodeValue row.tot.toNat).lift fun t => { k with str := t }).bind fun v k' =>
      match findSymbol row.freq v with
      | none => .fault .brokenTable
      | some j =>
        match row.interval j with
        | none => .fault .brokenTable
        | some iv => (k'.codeInterval iv (k'.slot.updateSym ctx j)).bind fun _ k'' => .ok j k''

/-- Encode bits one after another on the chain context (R126). -/
def Coder.encBits : List Bool → Coder → Coded Coder Unit
  | [], k => .ok () k
  | b :: rest, k => (k.encBit k.slot.last.toNat b).bind fun _ k' => Coder.encBits rest k'

/-- The low `k` bits of a value, most significant first (R126). -/
def lowBits (v : Nat) : Nat → List Bool
  | 0 => []
  | k + 1 => v.testBit k :: lowBits v k

/-- The bits of the gamma code of `v` (R126): `k` continue bits, the stop bit, the `k` low bits. -/
def gammaBits (v : Nat) : List Bool := List.replicate v.log2 true ++ false :: lowBits v v.log2

/-- `EncGamma(ch, s, v)` (R126). -/
def Coder.encGamma (k : Coder) (v : Nat) : Coded Coder Unit := k.encBits (gammaBits v)

/-- The continue bits of R127: how many come before the stop bit, `left` more being allowed; after the last one
allowed, `DECODE`(3). -/
def Coder.decContinue : Nat → Nat → Coder → Coded Coder Nat
  | 0, _, k => .raised .gammaOverrun k
  | left + 1, n, k => (k.decBit k.slot.last.toNat).bind fun b k' =>
      if b then Coder.decContinue left (n + 1) k' else .ok n k'

/-- The low bits of R127: `v <- 2*v + bit`, `n` times. -/
def Coder.decLow : Nat → Nat → Coder → Coded Coder Nat
  | 0, v, k => .ok v k
  | n + 1, v, k => (k.decBit k.slot.last.toNat).bind fun b k' => Coder.decLow n (2 * v + b.toNat) k'

/-- `DecGamma(ch, s)` (R127). -/
def Coder.decGamma (k : Coder) : Coded Coder Nat :=
  (Coder.decContinue (gammaMaxK + 1) 0 k).bind fun n k' => Coder.decLow n 1 k'

/-- Encode symbols one after another on the chain context (R136). -/
def Coder.encSyms : List Byte → Coder → Coded Coder Unit
  | [], k => .ok () k
  | j :: rest, k => (k.encSym k.slot.last.toNat j.toNat).bind fun _ k' => Coder.encSyms rest k'

/-- Decode `n` symbols on the chain context into DMEM from `a` on, each written as soon as it is decoded (R137). -/
def Coder.decSyms : Nat → Nat → Coder → Coded Coder Unit
  | 0, _, k => .ok () k
  | n + 1, a, k => (k.decSym k.slot.last.toNat).bind fun j k' =>
      Coder.decSyms n (a + 1) { k' with str := { k'.str with mem := k'.str.mem.write a (BitVec.ofNat 8 j) } }

/-- `repeat n times: Shift(ch)` of `RC_DINIT` (R129). -/
def Stream.shiftIn : Nat → Stream → Coded Stream Unit
  | 0, t => .ok () t
  | n + 1, t => t.shift.bind fun _ t' => Stream.shiftIn n t'

/-- `repeat n times: Shift(ch); low <- low <<32 8` of `RC_EFLUSH` (R138). -/
def Stream.flushOut : Nat → Stream → Coded Stream Unit
  | 0, t => .ok () t
  | n + 1, t => t.shift.bind fun _ t' => Stream.flushOut n { t' with ch := { t'.ch with low := t'.ch.low <<< 8 } }

end Sys2Proof.Machine
end

