-- ==== Sys2Proof/Machine/RangeCoder.lean ====
section
/-!
DEFINITION. The twelve channel commands (spec/44_range_coder.md, rules R128-R139). Each `code…` is a command's
checks and work up to its end; each `exec…` puts what it changed back into the state and ends the command.
-/

namespace Sys2Proof.Machine

/-- How a channel command's body ends: a check failed before anything was done, or its coding work ran. -/
inductive Body (σ : Type) where
  | failed (e : Cause)
  | ran (c : Coded σ (List Result))
  deriving DecidableEq, Repr

/-- The stream of channel `c` (R30). -/
def State.stream (s : State) (c : ChanNo) : Stream := { ch := s.ch[c], mem := s.dmem }

/-- The coder of channel `c` with slot `m` (R140). -/
def State.coder (s : State) (c : ChanNo) (m : SlotNo) : Coder := { str := s.stream c, slot := s.slot[m] }

/-- Put a stream back into the state. -/
def State.putStream (s : State) (c : ChanNo) (t : Stream) : State := { s.setChan c t.ch with dmem := t.mem }

/-- Put a coder back into the state. -/
def State.putCoder (s : State) (c : ChanNo) (m : SlotNo) (k : Coder) : State :=
  (s.putStream c k.str).setSlot m k.slot

/-- End a channel command: a failed check is an error that leaves the channel as it was; a raise in the coding
work is a channel error over the exact progress made (R146, R150); success completes (R149). -/
def State.finishBody {σ : Type} (s : State) (c : ChanNo) (put : σ → State) (b : Body σ) :
    Host.Outcome State Fault Refusal :=
  match b with
  | .failed e => .next (s.raise e)
  | .ran (.ok results k) => .next ((put k).complete results)
  | .ran (.raised e k) => .next ((put k).raiseChannel c e)
  | .ran (.fault f) => .fault f

/-- Stage 2 of R146 for a `BIN` coding command: the channel's mode, then the slot's kind. -/
def State.checkBin (s : State) (c : ChanNo) (m : SlotNo) (mode : ChMode) : Option Cause :=
  if s.ch[c].mode ≠ mode then some .channelMode
  else if s.slot[m].table.kind ≠ 1 then some .slotKind
  else none

/-- Stage 2 of R146 for a `SYM` coding command. -/
def State.checkSym (s : State) (c : ChanNo) (m : SlotNo) (mode : ChMode) : Option Cause :=
  if s.ch[c].mode ≠ mode then some .channelMode
  else if s.slot[m].table.kind ≠ 2 then some .slotKind
  else none

/-- A coding step with no result. -/
def Coded.noResult {σ : Type} (c : Coded σ Unit) : Coded σ (List Result) := c.bind fun _ k => .ok [] k

/-- A channel newly opened on the window `[base, base + n)` (R128, R129). -/
def Channel.opened (mode : ChMode) (base n : Nat) : Channel :=
  { mode := mode, low := 0#32, range := 0xFFFFFFFF#32, code := 0#32, base := word base, ptr := word base,
    limit := word (base + n) }

/-- The body of `RC_EINIT` (R128). -/
def State.codeEinit (s : State) (c : ChanNo) : Body Stream :=
  if ¬ s.dmem.inRange (s.argNat 0) (s.argNat 1) then .failed .outOfBounds
  else .ran (.ok [] { s.stream c with ch := Channel.opened .enc (s.argNat 0) (s.argNat 1) })

/-- The body of `RC_DINIT` (R129). -/
def State.codeDinit (s : State) (c : ChanNo) : Body Stream :=
  if ¬ s.dmem.inRange (s.argNat 0) (s.argNat 1) then .failed .outOfBounds
  else .ran (Stream.shiftIn 4 { s.stream c with ch := Channel.opened .dec (s.argNat 0) (s.argNat 1) }).noResult

/-- The body of `RC_EBIT` (R130). -/
def State.codeEbit (s : State) (c : ChanNo) (m : SlotNo) (x : CtxSel) (b : Bool) : Body Coder :=
  match s.checkBin c m .enc with
  | some e => .failed e
  | none =>
    let ctx := contextOf x s.slot[m]
    if 2 ≤ ctx then .failed .badContext else .ran ((s.coder c m).encBit ctx b).noResult

/-- The body of `RC_DBIT` (R131). -/
def State.codeDbit (s : State) (c : ChanNo) (m : SlotNo) (x : CtxSel) : Body Coder :=
  match s.checkBin c m .dec with
  | some e => .failed e
  | none =>
    let ctx := contextOf x s.slot[m]
    if 2 ≤ ctx then .failed .badContext
    else .ran (((s.coder c m).decBit ctx).bind fun b k => .ok [(0, word b.toNat)] k)

/-- The body of `RC_ESYM` (R132). -/
def State.codeEsym (s : State) (c : ChanNo) (m : SlotNo) (x : CtxSel) (j : Byte) : Body Coder :=
  match s.checkSym c m .enc with
  | some e => .failed e
  | none =>
    let ctx := contextOf x s.slot[m]
    if s.slot[m].table.alphabet ≤ ctx then .failed .badContext
    else if s.slot[m].table.alphabet ≤ j.toNat then .failed .badSymbol
    else .ran ((s.coder c m).encSym ctx j.toNat).noResult

/-- The body of `RC_DSYM` (R133). -/
def State.codeDsym (s : State) (c : ChanNo) (m : SlotNo) (x : CtxSel) : Body Coder :=
  match s.checkSym c m .dec with
  | some e => .failed e
  | none =>
    let ctx := contextOf x s.slot[m]
    if s.slot[m].table.alphabet ≤ ctx then .failed .badContext
    else .ran (((s.coder c m).decSym ctx).bind fun j k => .ok [(0, word j)] k)

/-- The body of `RC_EGAMMA` (R134). -/
def State.codeEgamma (s : State) (c : ChanNo) (m : SlotNo) : Body Coder :=
  match s.checkBin c m .enc with
  | some e => .failed e
  | none =>
    if s.argNat 0 = 0 then .failed .gammaZero else .ran ((s.coder c m).encGamma (s.argNat 0)).noResult

/-- The body of `RC_DGAMMA` (R135). -/
def State.codeDgamma (s : State) (c : ChanNo) (m : SlotNo) : Body Coder :=
  match s.checkBin c m .dec with
  | some e => .failed e
  | none => .ran ((s.coder c m).decGamma.bind fun v k => .ok [(0, word v)] k)

/-- The body of `RC_ESTREAM` (R136). -/
def State.codeEstream (s : State) (c : ChanNo) (m : SlotNo) : Body Coder :=
  match s.checkSym c m .enc with
  | some e => .failed e
  | none =>
    if ¬ s.dmem.inRange (s.argNat 0) (s.argNat 1) then .failed .outOfBounds
    else
      let xs := s.dmem.readBytes (s.argNat 0) (s.argNat 1)
      if xs.any (fun b => decide (s.slot[m].table.alphabet ≤ b.toNat)) then .failed .badSourceByte
      else .ran ((s.coder c m).encSyms xs).noResult

/-- The body of `RC_DSTREAM` (R137). -/
def State.codeDstream (s : State) (c : ChanNo) (m : SlotNo) : Body Coder :=
  match s.checkSym c m .dec with
  | some e => .failed e
  | none =>
    if ¬ s.dmem.inRange (s.argNat 0) (s.argNat 1) then .failed .outOfBounds
    else .ran ((s.coder c m).decSyms (s.argNat 1) (s.argNat 0)).noResult

/-- The body of `RC_EFLUSH` (R138). -/
def State.codeEflush (s : State) (c : ChanNo) : Body Stream :=
  if s.ch[c].mode ≠ .enc then .failed .channelMode
  else .ran ((Stream.flushOut 4 (s.stream c)).bind fun _ t =>
    .ok [(0, t.ch.ptr - t.ch.base)] { t with ch := { t.ch with mode := .idle } })

/-- The body of `RC_DFIN` (R139). -/
def State.codeDfin (s : State) (c : ChanNo) : Body Stream :=
  if s.ch[c].mode ≠ .dec then .failed .channelMode
  else
    let ch := s.ch[c]
    .ran (.ok [(0, ch.ptr - ch.base), (1, ch.limit - ch.ptr)] { s.stream c with ch := { ch with mode := .idle } })

/-- `RC_EINIT` (R128). -/
def execRcEinit (c : ChanNo) (s : State) : Host.Outcome State Fault Refusal :=
  s.finishBody c (s.putStream c) (s.codeEinit c)

/-- `RC_DINIT` (R129). -/
def execRcDinit (c : ChanNo) (s : State) : Host.Outcome State Fault Refusal :=
  s.finishBody c (s.putStream c) (s.codeDinit c)

/-- `RC_EBIT` (R130). -/
def execRcEbit (c : ChanNo) (m : SlotNo) (x : CtxSel) (b : Bool) (s : State) : Host.Outcome State Fault Refusal :=
  s.finishBody c (s.putCoder c m) (s.codeEbit c m x b)

/-- `RC_DBIT` (R131). -/
def execRcDbit (c : ChanNo) (m : SlotNo) (x : CtxSel) (s : State) : Host.Outcome State Fault Refusal :=
  s.finishBody c (s.putCoder c m) (s.codeDbit c m x)

/-- `RC_ESYM` (R132). -/
def execRcEsym (c : ChanNo) (m : SlotNo) (x : CtxSel) (j : Byte) (s : State) : Host.Outcome State Fault Refusal :=
  s.finishBody c (s.putCoder c m) (s.codeEsym c m x j)

/-- `RC_DSYM` (R133). -/
def execRcDsym (c : ChanNo) (m : SlotNo) (x : CtxSel) (s : State) : Host.Outcome State Fault Refusal :=
  s.finishBody c (s.putCoder c m) (s.codeDsym c m x)

/-- `RC_EGAMMA` (R134). -/
def execRcEgamma (c : ChanNo) (m : SlotNo) (s : State) : Host.Outcome State Fault Refusal :=
  s.finishBody c (s.putCoder c m) (s.codeEgamma c m)

/-- `RC_DGAMMA` (R135). -/
def execRcDgamma (c : ChanNo) (m : SlotNo) (s : State) : Host.Outcome State Fault Refusal :=
  s.finishBody c (s.putCoder c m) (s.codeDgamma c m)

/-- `RC_ESTREAM` (R136). -/
def execRcEstream (c : ChanNo) (m : SlotNo) (s : State) : Host.Outcome State Fault Refusal :=
  s.finishBody c (s.putCoder c m) (s.codeEstream c m)

/-- `RC_DSTREAM` (R137). -/
def execRcDstream (c : ChanNo) (m : SlotNo) (s : State) : Host.Outcome State Fault Refusal :=
  s.finishBody c (s.putCoder c m) (s.codeDstream c m)

/-- `RC_EFLUSH` (R138). -/
def execRcEflush (c : ChanNo) (s : State) : Host.Outcome State Fault Refusal :=
  s.finishBody c (s.putStream c) (s.codeEflush c)

/-- `RC_DFIN` (R139). -/
def execRcDfin (c : ChanNo) (s : State) : Host.Outcome State Fault Refusal :=
  s.finishBody c (s.putStream c) (s.codeDfin c)

end Sys2Proof.Machine
end

