-- ==== Sys2Proof/Machine/System.lean ====
section
/-!
DEFINITION. The system command `NOP` (spec/45_system.md, rule R141).
-/

namespace Sys2Proof.Machine

/-- `NOP` (R141): no effect besides its completion. -/
def execNop (s : State) : Host.Outcome State Fault Refusal := .next (s.complete [])

end Sys2Proof.Machine
end

