-- ==== Sys2Proof/Machine/ZeroRun.lean ====
section
/-!
DEFINITION. The zero-run unit and the tier classifier (spec/42_zero_run.md): the functions of rules R91, R92,
R95 and R96 and the seven commands R97-R103.
-/

namespace Sys2Proof.Machine

/-- A pending run of `k` zeros is closed by one zero slot and one run length; none is pending when `k` is 0. -/
def closeRun (k : Nat) (rest : List Byte × List Nat) : List Byte × List Nat :=
  if k = 0 then rest else (0#8 :: rest.1, k :: rest.2)

/-- The scan of R91 with `k` zeros of the current run already seen. -/
def splitFrom : Nat → List Byte → List Byte × List Nat
  | k, [] => closeRun k ([], [])
  | k, b :: rest =>
    if b = 0#8 then splitFrom (k + 1) rest
    else
      let (slots, runs) := splitFrom 0 rest
      closeRun k (b :: slots, runs)

/-- `SPLIT(s) = (slots, runs)` (R91). -/
def zeroSplit (s : List Byte) : List Byte × List Nat := splitFrom 0 s

/-- `JOIN(slots, runs)` (R92). -/
def zeroJoin : List Byte → List Nat → List Byte
  | [], _ => []
  | b :: rest, runs =>
    if b = 0#8 then List.replicate (runs.headD 0) 0#8 ++ zeroJoin rest runs.tail
    else b :: zeroJoin rest runs

/-- How many elements equal `b`. -/
def countByte (b : Byte) (s : List Byte) : Nat := s.count b

/-- The tier of a value in 1..255: the `t` with `TIER_BASE[t] <= v < TIER_BASE[t] + TIER_SIZE[t]` (R95). -/
def tierOf (v : Nat) : Nat :=
  if v < tierBase 2 then 1 else if v < tierBase 3 then 2 else if v < tierBase 4 then 3 else 4

/-- `classify(v)` for `v` in 1..255 (R95). -/
def classify (v : Nat) : Nat × Nat := (tierOf v, v - tierBase (tierOf v))

/-- `unclassify(t, o)` for `t` in 1..4 and `o < TIER_SIZE[t]` (R95). -/
def unclassify (t o : Nat) : Nat := tierBase t + o

/-- The structure symbol of a slot value (R96). -/
def structSymbol (b : Byte) : Nat := if b = 0#8 then 0 else tierOf b.toNat

/-- The offset stream of tier `t`, in slot order (R96, R101). -/
def tierOffsets (t : Nat) (slots : List Byte) : List Byte :=
  (slots.filter fun b => decide (structSymbol b = t)).map fun b => BitVec.ofNat 8 (classify b.toNat).2

/-- How many structure symbols equal `t` (R102). -/
def countSymbol (t : Nat) (syms : List Byte) : Nat := syms.countP fun x => decide (x.toNat = t)

/-- The merge of R103: each structure symbol takes the next offset of its tier's stream. -/
def tierMerge : List Byte → (l1 l2 l3 l4 : List Byte) → List Byte
  | [], _, _, _, _ => []
  | x :: rest, l1, l2, l3, l4 =>
    match x.toNat with
    | 1 => BitVec.ofNat 8 (unclassify 1 (l1.headD 0#8).toNat) :: tierMerge rest l1.tail l2 l3 l4
    | 2 => BitVec.ofNat 8 (unclassify 2 (l2.headD 0#8).toNat) :: tierMerge rest l1 l2.tail l3 l4
    | 3 => BitVec.ofNat 8 (unclassify 3 (l3.headD 0#8).toNat) :: tierMerge rest l1 l2 l3.tail l4
    | 4 => BitVec.ofNat 8 (unclassify 4 (l4.headD 0#8).toNat) :: tierMerge rest l1 l2 l3 l4.tail
    | _ => 0#8 :: tierMerge rest l1 l2 l3 l4

/-- The bytes of a run list, 4 per run, big-endian (R93). -/
def runBytes (runs : List Nat) : List Byte := runs.flatMap fun r => beBytes r 4

/-- `runs[k] <- MemRead32(a + 4k)` for `nr` runs (R93, R98). -/
def Dmem.readRuns (m : Dmem) (a : Nat) : Nat → List Nat
  | 0 => []
  | n + 1 => m.read32 a :: m.readRuns (a + 4) n

/-- The five counts `RES0..RES4` of a structure stream (R101-R103). -/
def tierCounts (syms : List Byte) : List Result :=
  [(0, word (countSymbol 0 syms)), (1, word (countSymbol 1 syms)), (2, word (countSymbol 2 syms)),
   (3, word (countSymbol 3 syms)), (4, word (countSymbol 4 syms))]

/-- The checks and effects of `ZRL_SPLIT` (R97). -/
def State.planZrlSplit (s : State) : Except Cause Plan :=
  let src := s.argNat 0
  let n := s.argNat 1
  let sd := s.argNat 2
  let rd := s.argNat 3
  if ¬ s.dmem.inRange src n then .error .outOfBounds
  else
    let (slots, runs) := zeroSplit (s.dmem.readBytes src n)
    if ¬ (s.dmem.inRange sd slots.length ∧ s.dmem.inRange rd (4 * runs.length)) then .error .outOfBounds
    else .ok { writes := [(sd, slots), (rd, runBytes runs)],
               results := [(0, word slots.length), (1, word runs.length)] }

/-- The checks and effects of `ZRL_JOIN` (R98). -/
def State.planZrlJoin (s : State) : Except Cause Plan :=
  let sp := s.argNat 0
  let ns := s.argNat 1
  let rp := s.argNat 2
  let nr := s.argNat 3
  let dst := s.argNat 4
  let cap := s.argNat 5
  if ¬ (s.dmem.inRange sp ns ∧ s.dmem.inRange rp (4 * nr)) then .error .outOfBounds
  else
    let slots := s.dmem.readBytes sp ns
    let runs := s.dmem.readRuns rp nr
    let total := slots.countP (fun b => decide (b ≠ 0#8)) + runs.sum
    if countByte 0#8 slots ≠ nr then .error .runCountMismatch
    else if 0 ∈ runs then .error .zeroRun
    else if cap < total then .error .joinTooLong
    else if ¬ s.dmem.inRange dst total then .error .outOfBounds
    else .ok { writes := [(dst, zeroJoin slots runs)], results := [(0, word total)] }

/-- The checks and effects of `TIER_CLS` (R99). -/
def State.planTierCls (s : State) : Except Cause Plan :=
  let v := s.argNat 0
  if 255 < v then .error .tierValueTooLarge
  else if v = 0 then .ok { results := [(0, 0#32), (1, 0#32)] }
  else .ok { results := [(0, word (classify v).1), (1, word (classify v).2)] }

/-- The checks and effects of `TIER_UNCLS` (R100). -/
def State.planTierUncls (s : State) : Except Cause Plan :=
  let t := s.argNat 0
  let o := s.argNat 1
  if t = 0 ∧ o = 0 then .ok { results := [(0, 0#32)] }
  else if 1 ≤ t ∧ t ≤ 4 ∧ o < tierSize t then .ok { results := [(0, word (unclassify t o))] }
  else .error .badTierPair

/-- The checks and effects of `TIER_SPLIT` (R101). -/
def State.planTierSplit (s : State) : Except Cause Plan :=
  let sp := s.argNat 0
  let n := s.argNat 1
  let st := s.argNat 2
  if ¬ (s.dmem.inRange sp n ∧ s.dmem.inRange st n) then .error .outOfBounds
  else
    let slots := s.dmem.readBytes sp n
    let syms := slots.map fun b => BitVec.ofNat 8 (structSymbol b)
    let l1 := tierOffsets 1 slots
    let l2 := tierOffsets 2 slots
    let l3 := tierOffsets 3 slots
    let l4 := tierOffsets 4 slots
    if ¬ (s.dmem.inRange (s.argNat 3) l1.length ∧ s.dmem.inRange (s.argNat 4) l2.length
        ∧ s.dmem.inRange (s.argNat 5) l3.length ∧ s.dmem.inRange (s.argNat 6) l4.length) then .error .outOfBounds
    else .ok { writes := [(st, syms), (s.argNat 3, l1), (s.argNat 4, l2), (s.argNat 5, l3), (s.argNat 6, l4)],
               results := [(0, word (countByte 0#8 slots)), (1, word l1.length), (2, word l2.length),
                           (3, word l3.length), (4, word l4.length)] }

/-- The checks and effects of `TIER_COUNT` (R102). -/
def State.planTierCount (s : State) : Except Cause Plan :=
  let sp := s.argNat 0
  let n := s.argNat 1
  if ¬ s.dmem.inRange sp n then .error .outOfBounds
  else
    let syms := s.dmem.readBytes sp n
    if syms.any (fun x => decide (4 < x.toNat)) then .error .badStructure
    else .ok { results := tierCounts syms }

/-- The checks and effects of `TIER_JOIN` (R103). -/
def State.planTierJoin (s : State) : Except Cause Plan :=
  let sp := s.argNat 0
  let n := s.argNat 1
  let dst := s.argNat 6
  if ¬ (s.dmem.inRange sp n ∧ s.dmem.inRange dst n) then .error .outOfBounds
  else
    let syms := s.dmem.readBytes sp n
    let c (t : Nat) : Nat := countSymbol t syms
    let l1 := s.dmem.readBytes (s.argNat 2) (c 1)
    let l2 := s.dmem.readBytes (s.argNat 3) (c 2)
    let l3 := s.dmem.readBytes (s.argNat 4) (c 3)
    let l4 := s.dmem.readBytes (s.argNat 5) (c 4)
    let tooBig (t : Nat) (l : List Byte) : Bool := l.any fun o => decide (tierSize t ≤ o.toNat)
    if syms.any (fun x => decide (4 < x.toNat)) then .error .badStructure
    else if ¬ (s.dmem.inRange (s.argNat 2) (c 1) ∧ s.dmem.inRange (s.argNat 3) (c 2)
        ∧ s.dmem.inRange (s.argNat 4) (c 3) ∧ s.dmem.inRange (s.argNat 5) (c 4)) then .error .outOfBounds
    else if tooBig 1 l1 || tooBig 2 l2 || tooBig 3 l3 || tooBig 4 l4 then .error .badOffset
    else .ok { writes := [(dst, tierMerge syms l1 l2 l3 l4)], results := tierCounts syms }

/-- `ZRL_SPLIT` (R97). -/
def execZrlSplit (s : State) : Host.Outcome State Fault Refusal := s.finishPlan s.planZrlSplit

/-- `ZRL_JOIN` (R98). -/
def execZrlJoin (s : State) : Host.Outcome State Fault Refusal := s.finishPlan s.planZrlJoin

/-- `TIER_CLS` (R99). -/
def execTierCls (s : State) : Host.Outcome State Fault Refusal := s.finishPlan s.planTierCls

/-- `TIER_UNCLS` (R100). -/
def execTierUncls (s : State) : Host.Outcome State Fault Refusal := s.finishPlan s.planTierUncls

/-- `TIER_SPLIT` (R101). -/
def execTierSplit (s : State) : Host.Outcome State Fault Refusal := s.finishPlan s.planTierSplit

/-- `TIER_COUNT` (R102). -/
def execTierCount (s : State) : Host.Outcome State Fault Refusal := s.finishPlan s.planTierCount

/-- `TIER_JOIN` (R103). -/
def execTierJoin (s : State) : Host.Outcome State Fault Refusal := s.finishPlan s.planTierJoin

end Sys2Proof.Machine
end

