-- ==== Sys2Proof/Machine/Dispatch.lean ====
section
/-!
DEFINITION. One arm per command (rule R72): each calls its meaning.
-/

namespace Sys2Proof.Machine

def exec (i : Instr) (s : State) : Host.Outcome State Fault Refusal :=
  match i with
  | .nop => Sys2Proof.Machine.execNop s
  | .bwtFwd => Sys2Proof.Machine.execBwtFwd s
  | .bwtInv => Sys2Proof.Machine.execBwtInv s
  | .mtfEnc => Sys2Proof.Machine.execMtfEnc s
  | .mtfDec => Sys2Proof.Machine.execMtfDec s
  | .zrlSplit => Sys2Proof.Machine.execZrlSplit s
  | .zrlJoin => Sys2Proof.Machine.execZrlJoin s
  | .tierCls => Sys2Proof.Machine.execTierCls s
  | .tierUncls => Sys2Proof.Machine.execTierUncls s
  | .tierSplit => Sys2Proof.Machine.execTierSplit s
  | .tierCount => Sys2Proof.Machine.execTierCount s
  | .tierJoin => Sys2Proof.Machine.execTierJoin s
  | .mdlCfg m val kind => Sys2Proof.Machine.execMdlCfg m val kind s
  | .mdlReset m => Sys2Proof.Machine.execMdlReset m s
  | .mdlSetctx m k => Sys2Proof.Machine.execMdlSetctx m k s
  | .mdlPeek m => Sys2Proof.Machine.execMdlPeek m s
  | .rcEinit c => Sys2Proof.Machine.execRcEinit c s
  | .rcDinit c => Sys2Proof.Machine.execRcDinit c s
  | .rcEbit c m x b => Sys2Proof.Machine.execRcEbit c m x b s
  | .rcDbit c m x => Sys2Proof.Machine.execRcDbit c m x s
  | .rcEsym c m x j => Sys2Proof.Machine.execRcEsym c m x j s
  | .rcDsym c m x => Sys2Proof.Machine.execRcDsym c m x s
  | .rcEgamma c m => Sys2Proof.Machine.execRcEgamma c m s
  | .rcDgamma c m => Sys2Proof.Machine.execRcDgamma c m s
  | .rcEstream c m => Sys2Proof.Machine.execRcEstream c m s
  | .rcDstream c m => Sys2Proof.Machine.execRcDstream c m s
  | .rcEflush c => Sys2Proof.Machine.execRcEflush c s
  | .rcDfin c => Sys2Proof.Machine.execRcDfin c s

end Sys2Proof.Machine
end

