-- ==== Sys2Proof/Machine/Abort.lean ====
section
/-!
DEFINITION. Which DMEM bytes a running command could write (rule R162): what a soft reset that aborts it leaves
UNSPECIFIED. A command whose checks fail writes nothing (R146), so it could write nothing.
-/

namespace Sys2Proof.Machine

/-- A DMEM range: its first address and its length. -/
abbrev Range := Nat × Nat

/-- The destination ranges of a bulk command: what its plan would write. -/
def planRanges : Except Cause Plan → List Range
  | .error _ => []
  | .ok p => p.writes.map fun w => (w.1, w.2.length)

/-- The window bytes of a channel from its `ptr` to its `end` (R162). -/
def Channel.window (c : Channel) : Range := (c.ptr.toNat, c.limit.toNat - c.ptr.toNat)

/-- The ranges of a coding command whose checks pass: the window, and any other destination. R162 names the window
for every coding command; for a decoding one, which writes none of it, this is the literal and wider reading
(DEDUCED, safe, log 6). -/
def codingRanges {σ : Type} (b : Body σ) (ranges : List Range) : List Range :=
  match b with
  | .failed _ => []
  | .ran _ => ranges

/-- The DMEM ranges the command `i` could write if it ran in `s` (R162). -/
def State.couldWrite (s : State) : Instr → List Range
  | .nop => []
  | .bwtFwd => planRanges s.planBwtFwd
  | .bwtInv => planRanges s.planBwtInv
  | .mtfEnc => planRanges s.planMtfEnc
  | .mtfDec => planRanges s.planMtfDec
  | .zrlSplit => planRanges s.planZrlSplit
  | .zrlJoin => planRanges s.planZrlJoin
  | .tierCls => planRanges s.planTierCls
  | .tierUncls => planRanges s.planTierUncls
  | .tierSplit => planRanges s.planTierSplit
  | .tierCount => planRanges s.planTierCount
  | .tierJoin => planRanges s.planTierJoin
  | .mdlCfg _ _ _ => []
  | .mdlReset _ => []
  | .mdlSetctx _ _ => []
  | .mdlPeek _ => []
  | .rcEinit _ => []
  | .rcDinit _ => []
  | .rcEbit c m x b => codingRanges (s.codeEbit c m x b) [s.ch[c].window]
  | .rcDbit c m x => codingRanges (s.codeDbit c m x) [s.ch[c].window]
  | .rcEsym c m x j => codingRanges (s.codeEsym c m x j) [s.ch[c].window]
  | .rcDsym c m x => codingRanges (s.codeDsym c m x) [s.ch[c].window]
  | .rcEgamma c m => codingRanges (s.codeEgamma c m) [s.ch[c].window]
  | .rcDgamma c m => codingRanges (s.codeDgamma c m) [s.ch[c].window]
  | .rcEstream c m => codingRanges (s.codeEstream c m) [s.ch[c].window]
  | .rcDstream c m => codingRanges (s.codeDstream c m) [s.ch[c].window, (s.argNat 0, s.argNat 1)]
  | .rcEflush c => codingRanges (s.codeEflush c) [s.ch[c].window]
  | .rcDfin _ => []

/-- Every byte of some ranges takes a free value of one draw (R162). -/
def Dmem.blurRanges (m : Dmem) (draw : Nat) : List Range → Dmem
  | [] => m
  | (a, n) :: rest => (m.blur draw a n).blurRanges draw rest

/-- DMEM after a soft reset (R162): kept where no command runs; under a running one, a fresh free value in every
byte that command could write. A word that is no command could write none. -/
def State.abortedDmem (s : State) : Dmem :=
  if s.status.busy then
    match decode s.cmd with
    | .ok i => s.dmem.blurRanges s.draws (s.couldWrite i)
    | .error _ => s.dmem
  else s.dmem

end Sys2Proof.Machine
end

