-- ==== Sys2Proof/Machine/HostPort.lean ====
section
/-!
DEFINITION. The host port: the register map (rule R20), the DMEM aperture (R46, R49), bus errors (R51), which writes
are accepted, rejected or ignored (R53, R147, R148), the actions of `CTRL` (R22), and the two resets (R161, R162).
-/

namespace Sys2Proof.Machine

/-- Where the DMEM aperture starts in the block's region (R46). -/
def apertureBase : Nat := 0x100000

/-- The size of the block's region on the host bus (R9, R55). -/
def regionSize : Nat := 2 ^ 21

/-- What a host access reaches (R46, R51). -/
inductive Target where
  /-- An address outside the block's region, which the block does not answer (R55; log 9). -/
  | outside
  /-- An access the port does not take: bus error (R51). -/
  | error
  /-- A register, by its offset. -/
  | register (off : Nat)
  /-- DMEM bytes from this address on. -/
  | dmem (a : Nat)
  deriving DecidableEq, Repr

/-- The widths and alignments the aperture takes (R51). -/
def apertureAligned (off width : Nat) : Bool :=
  width == 1 || (width == 2 && off % 2 == 0) || (width == 4 && off % 4 == 0)

/-- What an access of `width` bytes at a host-bus address reaches (R46, R51, R55). -/
def State.target (s : State) (addr width : Nat) : Target :=
  if addr < s.params.hostBase ∨ s.params.hostBase + regionSize ≤ addr then .outside
  else
    let off := addr - s.params.hostBase
    if off < 0x400 then
      if width = 4 ∧ off % 4 = 0 then .register off else .error
    else if apertureBase ≤ off ∧ off + width ≤ apertureBase + s.dmem.size ∧ apertureAligned off width then
      .dmem (off - apertureBase)
    else .error

/-- A channel's read-only view (R32), by the offset inside it; the word at +0x1C is reserved and reads 0. -/
def Channel.view (c : Channel) (k : Nat) : Word :=
  match k with
  | 0x00 => word c.mode.number
  | 0x04 => c.low
  | 0x08 => c.range
  | 0x0C => c.code
  | 0x10 => c.base
  | 0x14 => c.ptr
  | 0x18 => c.limit
  | _ => 0#32

/-- An offset inside a channel or slot view (R20, R32, R37). -/
def isView (off : Nat) : Bool := decide (0x100 ≤ off) && decide (off < 0x1C0)

/-- What a register reads as while no command runs, by its offset, a multiple of 4 below 0x400 (R20-R29, R32,
R37). `CMD` and every reserved offset read 0. -/
def State.readRegister (s : State) (off : Nat) : Word :=
  if off = 0x000 then idValue
  else if off = 0x004 then ctrlWord s.ie
  else if off = 0x008 then s.status.word
  else if off = 0x010 then s.errinfo
  else if off = 0x014 then s.errcmd
  else if 0x020 ≤ off ∧ off < 0x040 then s.arg[Fin.ofNat 8 ((off - 0x020) / 4)]
  else if 0x040 ≤ off ∧ off < 0x060 then s.res[Fin.ofNat 8 ((off - 0x040) / 4)]
  else if 0x100 ≤ off ∧ off < 0x180 then (s.ch[Fin.ofNat 4 ((off - 0x100) / 0x20)]).view ((off - 0x100) % 0x20)
  else if 0x180 ≤ off ∧ off < 0x1C0 then
    let m := s.slot[Fin.ofNat 8 ((off - 0x180) / 8)]
    if (off - 0x180) % 8 = 0 then m.cfgWord else m.lastWord
  else 0#32

/-- Every register, channel and slot at its reset value, and a fresh free value in every scratch entry (R44); DMEM,
the parameters, the inputs, the port's last response and the draws as they are. -/
def State.resetRegisters (s : State) : State :=
  { State.reset with
    scratch := { fill := s.draws, entries := [] }
    params := s.params, dmem := s.dmem, rst := s.rst, port := s.port, response := s.response, draws := s.draws }

/-- Soft reset (R162). -/
def State.softReset (s : State) : State :=
  { s.resetRegisters with dmem := s.abortedDmem, draws := s.draws + 1 }

/-- Hardware reset, as `rst` is asserted (R161): every register at its reset value, DMEM a fresh free value in
every byte. -/
def State.hardReset (s : State) : State :=
  { s.resetRegisters with
    dmem := { s.dmem with fill := s.draws, cells := [] }, draws := s.draws + 1, rst := true }

/-- A `CTRL` write (R22): `SRST` alone, or `ERRCLR`, then `DONECLR`, then `IE`. -/
def State.writeCtrl (s : State) (v : Word) : State :=
  if v.getLsbD 3 then s.softReset
  else
    let s := if v.getLsbD 1 then s.errClear else s
    let s := if v.getLsbD 2 then s.doneClear else s
    { s with ie := v.getLsbD 0 }

/-- A `CMD` write: accepted when the engine is idle and no error stands, else rejected (R147, R148). -/
def State.writeCmd (s : State) (w : Word) : State :=
  if s.status.busy || s.status.err then s.reject else s.accept w

/-- An `ARGi` write: rejected while a command runs (R27, R148). -/
def State.writeArg (s : State) (i : Fin 8) (v : Word) : State :=
  if s.status.busy then s.reject else { s with arg := s.arg.set i v i.isLt }

/-- A register write by its offset; a write to any other register or reserved offset is ignored (R53). -/
def State.writeRegister (s : State) (off : Nat) (v : Word) : State :=
  if off = 0x004 then s.writeCtrl v
  else if off = 0x00C then s.writeCmd v
  else if 0x020 ≤ off ∧ off < 0x040 then s.writeArg (Fin.ofNat 8 ((off - 0x020) / 4)) v
  else s

/-- An aperture write of `width` bytes, big-endian (R49): rejected while a command runs (R148). -/
def State.writeAperture (s : State) (a width : Nat) (v : Word) : State :=
  if s.status.busy then s.reject else { s with dmem := s.dmem.writeBytes a (beBytes v.toNat width) }

/-- What a read returns where the spec fixes nothing (R166): a free value of the access width. Safe (log 11). -/
def State.freeRead (s : State) (width : Nat) : State :=
  { s with response := .data (word ((Config.freeWord s.draws).toNat % 2 ^ (8 * width))), draws := s.draws + 1 }

/-- A host read (R49, R51, R53, R65): it changes nothing but the port's response, and counts the draw of a free
value. -/
def State.hostRead (s : State) (addr width : Nat) : State :=
  match s.target addr width with
  | .outside => { s with response := .none }
  | .error => { s with response := .busError }
  | .register off =>
    if s.status.busy && isView off then s.freeRead width else { s with response := .data (s.readRegister off) }
  | .dmem a =>
    if s.status.busy then s.freeRead width
    else { s with response := .data (word (beValue (s.dmem.readBytes a width))) }

/-- A host write (R49, R51, R53). -/
def State.hostWrite (s : State) (addr width : Nat) (v : Word) : State :=
  match s.target addr width with
  | .outside => { s with response := .none }
  | .error => { s with response := .busError }
  | .register off => { s.writeRegister off v with response := .ack }
  | .dmem a => { s.writeAperture a width v with response := .ack }

/-- One action at the port. While `rst` is asserted the port ignores host accesses (R161). -/
def State.portAction (s : State) : PortAction → State
  | .rst true => s.hardReset
  | .rst false => { s with rst := false }
  | .read addr width => if s.rst then { s with response := .none } else s.hostRead addr width
  | .write addr width v => if s.rst then { s with response := .none } else s.hostWrite addr width v

end Sys2Proof.Machine
end

