-- ==== Sys2Proof/Machine/Step.lean ====
section
/-!
DEFINITION. One step of the block. Either the engine runs the command it holds, to its end (rules R17, R147), or
the port takes the next host or platform action (R154); with neither, the block is idle and keeps its state (R160).
-/

namespace Sys2Proof.Machine

/-- A command is running: it was accepted, and no reset is asserted (R23, R161). -/
def State.running (s : State) : Bool := s.status.busy && !s.rst

/-- The engine's step (R147): decode the word it holds and run the command; a word that is no command raises
`ILLEGAL` (R71, R73). -/
def engineStep (s : State) : Host.Outcome State Fault Refusal :=
  match decode s.cmd with
  | .error why => .next (s.raise (.illegal why))
  | .ok i => exec i s

/-- One step. While a command runs, an action that is not `early` comes after the command's end (R154). -/
def step (s : State) : Host.Outcome State Fault Refusal :=
  match s.port with
  | [] => if s.running then engineStep s else .next s
  | e :: rest =>
    if s.running && !e.early then engineStep s
    else .next (State.portAction { s with port := rest } e.action)

/-- The next action waits for the end of the command that is running. -/
def deferNext : List PortEvent → List PortEvent
  | [] => []
  | e :: rest => { e with early := false } :: rest

/-- The state in which the engine holds the command word `w` and runs it in the very next step: what a host's
accepted `CMD` write leaves (R147), with a standing error cleared (a `CMD` write is rejected while one stands),
reset released, and the next port action after the command's end (log 10). -/
def State.withFetchWord (s : State) (nbits w : Nat) : State :=
  let s := if s.status.err then s.errClear else s
  { s.accept (BitVec.ofNat 32 (w % 2 ^ nbits)) with rst := false, port := deferNext s.port }

end Sys2Proof.Machine
end

