-- ==== Sys2Proof/Safety.lean ====
section
/-!
DEFINITION. What the statements are said in: the invariant of the machine (the ranges rules R9, R23, R35, R107,
R110 and R121 give), the frame of a command that ends (R149, R150), and memory that is the same outside some ranges.
-/

namespace Sys2Proof.Machine

/-- The OPEN parameters lie in their legal ranges (R9). -/
abbrev State.ParamsLegal (s : State) : Prop :=
  1 ≤ s.dmem.size ∧ s.dmem.size ≤ 2 ^ 20 ∧ 1 ≤ s.params.maxBlock ∧ s.params.maxBlock ≤ s.dmem.size
    ∧ s.params.hostBase % 2 ^ 21 = 0

/-- `STATUS`, `ERRINFO` and `ERRCMD` agree (R23, R25, R26): an error stands only while no command runs, `ERRCODE` is
non-zero exactly while it does, and without it the two registers it writes are 0; `DONE` is clear while a command
runs; `ERRINFO[31:8]` is 0. -/
abbrev State.StatusCoherent (s : State) : Prop :=
  (s.status.err = true → s.status.busy = false)
    ∧ (s.status.errcode ≠ 0#8 ↔ s.status.err = true)
    ∧ (s.status.busy = true → s.status.done = false)
    ∧ (s.status.err = false → s.errinfo = 0#32 ∧ s.errcmd = 0#32)
    ∧ s.errinfo.toNat < 256

/-- The interval of an open channel (R121 items 1 and 2): it does not wrap past 2^32, and the range is at least
`BOT`. An interval that ends exactly at 2^32 starts at 2^24 or above: this third clause is what makes the first two
inductive (it follows from R117 and R118). -/
abbrev Channel.IntervalOk (c : Channel) : Prop :=
  c.low.toNat + c.range.toNat ≤ 2 ^ 32
    ∧ (c.low.toNat + c.range.toNat = 2 ^ 32 → 2 ^ 24 ≤ c.low.toNat)
    ∧ 2 ^ 16 ≤ c.range.toNat

/-- A channel has a stream open (R31). -/
abbrev Channel.Open (c : Channel) : Prop := c.mode = .enc ∨ c.mode = .dec

/-- A channel's window lies in DMEM with `ptr` inside it, and an open channel's interval is as R121 says. -/
abbrev Channel.Ok (size : Nat) (c : Channel) : Prop :=
  c.base.toNat ≤ c.ptr.toNat ∧ c.ptr.toNat ≤ c.limit.toNat ∧ c.limit.toNat ≤ size ∧ (c.Open → c.IntervalOk)

/-- A row of a `SYM` table of alphabet `n` (R35, R110): `n` counts, each at least 1, with their sum as the total, at
most `FREQ_CEIL`. -/
abbrev SymRow.Ok (n : Nat) (r : SymRow) : Prop :=
  r.freq.length = n ∧ sumCounts r.freq = r.tot.toNat ∧ r.tot.toNat ≤ freqCeil
    ∧ (r.freq.all fun f => decide (1 ≤ f.toNat)) = true

/-- A probability of an initialised `BIN` slot (R107). -/
abbrev ProbOk (p : Prob) : Prop := 31 ≤ p.toNat ∧ p.toNat ≤ 4065

/-- A slot as R33-R35, R104, R107 and R110 describe it: `last` is a legal context, and the table is as its kind asks. -/
def Slot.ok (m : Slot) : Bool :=
  match m.table with
  | .off => decide (m.last = 0#8)
  | .bin p0 p1 => decide (ProbOk p0 ∧ ProbOk p1 ∧ m.last.toNat < 2)
  | .sym rows => decide (2 ≤ rows.length ∧ rows.length ≤ 256 ∧ m.last.toNat < rows.length
      ∧ ∀ r ∈ rows, r.Ok rows.length)

/-- The invariant of the machine: it holds at reset and every step keeps it. -/
structure State.Inv (s : State) : Prop where
  params : s.ParamsLegal
  dmem : s.dmem.wf = true
  status : s.StatusCoherent
  channels : ∀ c : ChanNo, (s.ch[c]).Ok s.dmem.size
  slots : ∀ m : SlotNo, (s.slot[m]).ok = true
  /-- The MTF table is a permutation of 0..255 (R38). -/
  mtf : s.mtf.length = 256 ∧ s.mtf.Nodup
  /-- The scratch store has `MAX_BLOCK` entries: none beyond is listed (R39). -/
  scratch : s.scratch.entries.length ≤ s.params.maxBlock

/-- Every register, channel and slot is at its value after reset (R44). -/
abbrev State.AtReset (s : State) : Prop :=
  s.ie = false ∧ s.status = Status.reset ∧ s.errinfo = 0#32 ∧ s.errcmd = 0#32
    ∧ s.arg = Vector.replicate 8 0#32 ∧ s.res = Vector.replicate 8 0#32
    ∧ s.ch = Vector.replicate 4 Channel.reset ∧ s.slot = Vector.replicate 8 Slot.reset

/-- While `rst` is asserted every register is at its reset value (R161). -/
abbrev State.HeldInReset (s : State) : Prop := s.rst = true → s.AtReset

/-- Everything on the host's side of the block that no command changes: the parameters, `IE`, the held command, the
ARG registers (R27), the reset input, the inputs to come, the port's last response and the draws. -/
abbrev State.SameHostSide (s t : State) : Prop :=
  t.params = s.params ∧ t.ie = s.ie ∧ t.cmd = s.cmd ∧ t.arg = s.arg ∧ t.rst = s.rst ∧ t.port = s.port
    ∧ t.response = s.response ∧ t.draws = s.draws

/-- `t` is what a command that succeeds leaves of the status and of the host's side of `s` (R149): `BUSY` 0, `DONE` 1,
every other status bit, `ERRINFO` and `ERRCMD` as they were. -/
abbrev State.Succeeded (s t : State) : Prop :=
  t.status = { s.status with busy := false, done := true } ∧ t.errinfo = s.errinfo ∧ t.errcmd = s.errcmd
    ∧ s.SameHostSide t

/-- `t` is what error entry with a cause leaves of the status, the results and the host's side of `s` (R150). -/
abbrev State.Failed (s t : State) (e : Cause) : Prop :=
  t.status = { busy := false, done := true, err := true, rej := s.status.rej, errcode := e.code.number }
    ∧ t.errinfo = e.sub ∧ t.errcmd = s.cmd ∧ t.res = s.res ∧ s.SameHostSide t

/-- No channel, slot, MTF table or scratch entry differs. -/
abbrev State.SameUnits (s t : State) : Prop :=
  t.ch = s.ch ∧ t.slot = s.slot ∧ t.mtf = s.mtf ∧ t.scratch = s.scratch

/-- Every channel but `c` is the same (R140). -/
abbrev State.SameOtherChannels (s t : State) (c : ChanNo) : Prop := ∀ d : ChanNo, d ≠ c → t.ch[d] = s.ch[d]

/-- Every slot but `m` is the same (R140). -/
abbrev State.SameOtherSlots (s t : State) (m : SlotNo) : Prop := ∀ d : SlotNo, d ≠ m → t.slot[d] = s.slot[d]

/-- The address `a` lies in none of the ranges. -/
abbrev OutsideRanges (a : Nat) (ranges : List Range) : Prop := ∀ r ∈ ranges, a < r.1 ∨ r.1 + r.2 ≤ a

/-- DMEM of `m'` reads as that of `m` at every address outside the ranges, and has the same size. -/
abbrev Dmem.SameOutside (m m' : Dmem) (ranges : List Range) : Prop :=
  m'.size = m.size ∧ m'.fill = m.fill ∧ ∀ a, OutsideRanges a ranges → m'.read a = m.read a

/-- DMEM holds the bytes `bs` from `a` on. -/
abbrev Dmem.Holds (m : Dmem) (a : Nat) (bs : List Byte) : Prop := m.readBytes a bs.length = bs

/-- The engine makes the next step: a command runs, and no port action comes before its end (R147, R154). -/
abbrev State.EngineMoves (s : State) : Prop :=
  s.rst = false ∧ s.status.busy = true ∧ ∀ e ∈ s.port.head?, e.early = false

/-- A reserved opcode, by the ranges R73 lists. -/
abbrev ReservedOpcode (op : Nat) : Prop :=
  (0x01 ≤ op ∧ op ≤ 0x0F) ∨ (0x12 ≤ op ∧ op ≤ 0x1F) ∨ (0x22 ≤ op ∧ op ≤ 0x2F) ∨ (0x37 ≤ op ∧ op ≤ 0x3F)
    ∨ (0x44 ≤ op ∧ op ≤ 0x4F) ∨ (0x5C ≤ op ∧ op ≤ 0xFF)

/-- The channel a command names, if it names one (R72). -/
def channelOf : Instr → Option ChanNo
  | .nop | .bwtFwd | .bwtInv | .mtfEnc | .mtfDec | .zrlSplit | .zrlJoin | .tierCls | .tierUncls
  | .tierSplit | .tierCount | .tierJoin => none
  | .mdlCfg _ _ _ | .mdlReset _ | .mdlSetctx _ _ | .mdlPeek _ => none
  | .rcEinit c | .rcDinit c | .rcEbit c _ _ _ | .rcDbit c _ _ | .rcEsym c _ _ _ | .rcDsym c _ _ => some c
  | .rcEgamma c _ | .rcDgamma c _ | .rcEstream c _ | .rcDstream c _ | .rcEflush c | .rcDfin c => some c

/-- The slot a command names, if it names one (R72). -/
def slotOf : Instr → Option SlotNo
  | .nop | .bwtFwd | .bwtInv | .mtfEnc | .mtfDec | .zrlSplit | .zrlJoin | .tierCls | .tierUncls
  | .tierSplit | .tierCount | .tierJoin => none
  | .mdlCfg m _ _ | .mdlReset m | .mdlSetctx m _ | .mdlPeek m => some m
  | .rcEbit _ m _ _ | .rcDbit _ m _ | .rcEsym _ m _ _ | .rcDsym _ m _ => some m
  | .rcEgamma _ m | .rcDgamma _ m | .rcEstream _ m | .rcDstream _ m => some m
  | .rcEinit _ | .rcDinit _ | .rcEflush _ | .rcDfin _ => none

/-- Two ranges share no address. -/
abbrev Apart (r q : Range) : Prop := r.1 + r.2 ≤ q.1 ∨ q.1 + q.2 ≤ r.1

/-- Bytes left in a channel's window. -/
def Channel.room (c : Channel) : Nat := c.limit.toNat - c.ptr.toNat

/-- The byte at `a` after byte ranges are written in their order: the last range that covers `a` gives it (R58, R97,
R101), and where none does it is as before. -/
def overlay (m : Dmem) (writes : List (Nat × List Byte)) (a : Nat) : Byte :=
  (writes.reverse.findSome? fun w => if w.1 ≤ a then w.2[a - w.1]? else none).getD (m.read a)

/-- DMEM of `m'` is that of `m` with exactly the given byte ranges written, in their order: every other address reads as
before. -/
abbrev Dmem.After (m : Dmem) (writes : List (Nat × List Byte)) (m' : Dmem) : Prop :=
  m'.size = m.size ∧ m'.fill = m.fill ∧ ∀ a, m'.read a = overlay m writes a

/-- How many of the RES registers a command writes when it succeeds, `RES0` first (the "RES" column of R72). -/
def resultCount : Instr → Nat
  | .bwtFwd | .zrlJoin | .tierUncls => 1
  | .zrlSplit | .tierCls => 2
  | .tierSplit | .tierCount | .tierJoin => 5
  | .mdlPeek _ => 4
  | .rcDbit _ _ _ | .rcDsym _ _ _ | .rcDgamma _ _ | .rcEflush _ => 1
  | .rcDfin _ => 2
  | .nop | .bwtInv | .mtfEnc | .mtfDec | .mdlCfg _ _ _ | .mdlReset _ | .mdlSetctx _ _ => 0
  | .rcEinit _ | .rcDinit _ | .rcEbit _ _ _ _ | .rcEsym _ _ _ _ | .rcEgamma _ _ | .rcEstream _ _ | .rcDstream _ _ => 0

/-- A command that failed before any effect: error entry, with every unit and all of DMEM as it was (R146). -/
abbrev State.FailedUntouched (s t : State) (e : Cause) : Prop :=
  s.Failed t e ∧ s.SameUnits t ∧ t.dmem = s.dmem

/-- Besides DMEM, a command changed at most channel `c`. -/
abbrev State.OnlyChannel (s t : State) (c : ChanNo) : Prop :=
  s.SameOtherChannels t c ∧ t.slot = s.slot ∧ t.mtf = s.mtf ∧ t.scratch = s.scratch

/-- Besides DMEM, a command changed at most channel `c` and slot `m`, and of the channel neither mode nor window. -/
abbrev State.OnlyCoder (s t : State) (c : ChanNo) (m : SlotNo) : Prop :=
  s.SameOtherChannels t c ∧ s.SameOtherSlots t m ∧ t.mtf = s.mtf ∧ t.scratch = s.scratch
    ∧ t.ch[c].mode = s.ch[c].mode ∧ t.ch[c].base = s.ch[c].base ∧ t.ch[c].limit = s.ch[c].limit

/-- A command changed at most slot `m`. -/
abbrev State.OnlySlot (s t : State) (m : SlotNo) : Prop :=
  t.ch = s.ch ∧ s.SameOtherSlots t m ∧ t.mtf = s.mtf ∧ t.scratch = s.scratch ∧ t.dmem = s.dmem

/-- A command succeeded and wrote no result and no DMEM byte. -/
abbrev State.SucceededQuietly (s t : State) : Prop := s.Succeeded t ∧ t.res = s.res ∧ t.dmem = s.dmem

/-- The bytes a channel has shifted out between two states: from its old `ptr` up to its new one (R119). -/
def shifted (s t : State) (c : ChanNo) : Range := (s.ch[c].ptr.toNat, t.ch[c].ptr.toNat - s.ch[c].ptr.toNat)

/-- A raise of `Shift`, `DecodeValue` or `DecGamma`: the causes of a channel error (R150). -/
abbrev Cause.OfChannel (e : Cause) : Prop :=
  e = .windowFull ∨ e = .streamExhausted ∨ e = .corruptValue ∨ e = .gammaOverrun

/-! ### The renormalisation loop, on the interval alone -/

/-- The underflow cut of R118 on `(low, range)`: where the top byte is not fixed, the range ends at the next 2^16
boundary. -/
def cutInterval (i : Nat × Nat) : Nat × Nat :=
  if i.1 ^^^ ((i.1 + i.2) % 2 ^ 32) < 2 ^ 24 then i else (i.1, (2 ^ 32 - i.1) % 2 ^ 16)

/-- One turn of the loop of R118 on `(low, range)`: the cut, then both shifted by a byte. -/
def renormTurn (i : Nat × Nat) : Nat × Nat :=
  ((cutInterval i).1 * 2 ^ 8 % 2 ^ 32, (cutInterval i).2 * 2 ^ 8 % 2 ^ 32)

/-- The loop of R118 exits with `(low, range)`. -/
abbrev RenormExits (i : Nat × Nat) : Prop := 2 ^ 24 ≤ i.1 ^^^ ((i.1 + i.2) % 2 ^ 32) ∧ 2 ^ 16 ≤ i.2

/-- `u` is `t` after `j` bytes, at most four, went through `Shift` (R119) and the interval became `i`: an encoder put
out the leading bytes of `low`, a decoder took the next bytes of its window into `code`. -/
abbrev Stream.ShiftedBy (t u : Stream) (j : Nat) (i : Nat × Nat) : Prop :=
  (u.ch.low.toNat, u.ch.range.toNat) = i ∧ u.ch.ptr.toNat = t.ch.ptr.toNat + j
    ∧ u.ch.mode = t.ch.mode ∧ u.ch.base = t.ch.base ∧ u.ch.limit = t.ch.limit
    ∧ (t.ch.mode = .enc → u.ch.code = t.ch.code
        ∧ t.mem.After [(t.ch.ptr.toNat, (beBytes t.ch.low.toNat 4).take j)] u.mem)
    ∧ (t.ch.mode = .dec → u.mem = t.mem
        ∧ u.ch.code.toNat = (t.ch.code.toNat * 2 ^ (8 * j) + beValue (t.mem.readBytes t.ch.ptr.toNat j)) % 2 ^ 32)

/-! ### Coding steps, from the rules -/

/-- A coding step's `Narrow` to `iv` and its `Renorm` take `t` to `u` (R122-R125): to the end, or up to a raise. -/
def Stream.Codes (t : Stream) (iv : Interval) (e : Option Cause) (u : Stream) : Prop :=
  match e with
  | none => Stream.renorm { t with ch := t.ch.narrow iv } = .ok () u
  | some e => Stream.renorm { t with ch := t.ch.narrow iv } = .raised e u

/-- `m'` is the `SYM` slot `m` after symbol `j` in context `ctx` (R104, R109): that row updated, `last` the symbol, and
nothing else. -/
def Slot.SymUpdated (m m' : Slot) (ctx j : Nat) : Prop :=
  m'.last = BitVec.ofNat 8 j ∧ m'.table.alphabet = m.table.alphabet
    ∧ (∀ row, m.table.row ctx = some row → m'.table.row ctx = some (row.update j))
    ∧ ∀ d, d ≠ ctx → m'.table.row d = m.table.row d

/-- The position of `code` in the interval on the scale of `tot` (R120). -/
def Channel.position (c : Channel) (tot : Nat) : Nat := (c.code - c.low).toNat / (c.range.toNat / tot)

/-- Encoding bit `b` in context `ctx` takes `k` to `u` (R122): to the end, or up to a raise of `Renorm`, with the model
updated either way. -/
def Coder.EncodesBit (k : Coder) (ctx : Nat) (b : Bool) (e : Option Cause) (u : Coder) : Prop :=
  ∃ p, k.slot.table.prob ctx = some p ∧ k.str.Codes (bitInterval p b) e u.str ∧ u.slot = k.slot.updateBit ctx b

/-- Encoding symbol `j` in context `ctx` takes `k` to `u` (R124). -/
def Coder.EncodesSym (k : Coder) (ctx j : Nat) (e : Option Cause) (u : Coder) : Prop :=
  ∃ row iv, k.slot.table.row ctx = some row ∧ row.interval j = some iv ∧ k.str.Codes iv e u.str
    ∧ k.slot.SymUpdated u.slot ctx j

/-- Decoding in context `ctx` finds bit `b` and takes `k` to `u` (R123). -/
def Coder.DecodesBit (k : Coder) (ctx : Nat) (b : Bool) (e : Option Cause) (u : Coder) : Prop :=
  ∃ p, k.slot.table.prob ctx = some p ∧ k.str.ch.position 4096 < 4096
    ∧ b = decide (k.str.ch.position 4096 < p.toNat) ∧ k.str.Codes (bitInterval p b) e u.str
    ∧ u.slot = k.slot.updateBit ctx b

/-- Decoding in context `ctx` finds symbol `j`, the one whose interval holds the position, and takes `k` to `u` (R125). -/
def Coder.DecodesSym (k : Coder) (ctx j : Nat) (e : Option Cause) (u : Coder) : Prop :=
  ∃ row iv, k.slot.table.row ctx = some row ∧ row.interval j = some iv
    ∧ iv.cum ≤ k.str.ch.position row.tot.toNat ∧ k.str.ch.position row.tot.toNat < iv.cum + iv.freq
    ∧ k.str.Codes iv e u.str ∧ k.slot.SymUpdated u.slot ctx j

/-- The position lies beyond the total of the row of context `ctx`, so that no symbol is decoded (R120, R125). -/
def Coder.SymCorrupt (k : Coder) (ctx : Nat) : Prop :=
  ∃ row, k.slot.table.row ctx = some row ∧ row.tot.toNat ≤ k.str.ch.position row.tot.toNat

/-- Bits encoded one after another, each in the context of the one before (R104, R126). -/
def Coder.EncodesBits : List Bool → Coder → Coder → Prop
  | [], k, u => u = k
  | b :: rest, k, u => ∃ k', k.EncodesBit k.slot.last.toNat b none k' ∧ Coder.EncodesBits rest k' u

/-- Symbols encoded one after another, each in the context of the one before (R104, R136). -/
def Coder.EncodesSyms : List Byte → Coder → Coder → Prop
  | [], k, u => u = k
  | j :: rest, k, u => ∃ k', k.EncodesSym k.slot.last.toNat j.toNat none k' ∧ Coder.EncodesSyms rest k' u

/-- Bits decoded one after another, each in the context of the one before (R104, R127). -/
def Coder.DecodesBits : List Bool → Coder → Coder → Prop
  | [], k, u => u = k
  | b :: rest, k, u => ∃ k', k.DecodesBit k.slot.last.toNat b none k' ∧ Coder.DecodesBits rest k' u

/-- A decoder's DMEM with one byte written. -/
def Coder.putByte (k : Coder) (a : Nat) (b : Byte) : Coder := { k with str := { k.str with mem := k.str.mem.write a b } }

/-- Symbols decoded one after another, each in the context of the one before and written to the next byte from `a` on
before the next one is decoded (R104, R137). -/
def Coder.DecodesSyms : List Byte → Nat → Coder → Coder → Prop
  | [], _, k, u => u = k
  | j :: rest, a, k, u => ∃ k', k.DecodesSym k.slot.last.toNat j.toNat none k'
      ∧ Coder.DecodesSyms rest (a + 1) (k'.putByte a j) u

/-- A coding command succeeded, and what it changed of channel `c`, slot `m` and DMEM is in `u`. -/
abbrev State.SucceededCoding (s t : State) (c : ChanNo) (m : SlotNo) (u : Coder) : Prop :=
  s.Succeeded t ∧ t.coder c m = u ∧ s.OnlyCoder t c m

/-- A coding command ended in a channel error over the progress `u` (R146, R150): error entry, channel `c` in `ERR` and
otherwise as in `u`, slot `m` and DMEM as in `u`, and nothing else changed. -/
abbrev State.FailedCoding (s t : State) (c : ChanNo) (m : SlotNo) (e : Cause) (u : Coder) : Prop :=
  s.Failed t e ∧ t.ch[c] = { u.str.ch with mode := .err } ∧ t.slot[m] = u.slot ∧ t.dmem = u.str.mem
    ∧ s.SameOtherChannels t c ∧ s.SameOtherSlots t m ∧ t.mtf = s.mtf ∧ t.scratch = s.scratch

/-- A command that writes no DMEM byte: no destination in R72, and of the coding commands only the encoding ones shift
bytes out (R119). -/
def storesNothing : Instr → Bool
  | .nop | .tierCls | .tierUncls | .tierCount => true
  | .mdlCfg _ _ _ | .mdlReset _ | .mdlSetctx _ _ | .mdlPeek _ => true
  | .rcEinit _ | .rcDinit _ | .rcDbit _ _ _ | .rcDsym _ _ _ | .rcDgamma _ _ | .rcDfin _ => true
  | .bwtFwd | .bwtInv | .mtfEnc | .mtfDec | .zrlSplit | .zrlJoin | .tierSplit | .tierJoin => false
  | .rcEbit _ _ _ _ | .rcEsym _ _ _ _ | .rcEgamma _ _ | .rcEstream _ _ | .rcDstream _ _ | .rcEflush _ => false

/-- An access the port takes, by its offset in the block's region (R51). -/
abbrev PortTakes (size off width : Nat) : Prop :=
  (off < 0x400 ∧ width = 4 ∧ off % 4 = 0)
    ∨ (0x100000 ≤ off ∧ off + width ≤ 0x100000 + size
        ∧ (width = 1 ∨ (width = 2 ∧ off % 2 = 0) ∨ (width = 4 ∧ off % 4 = 0)))

end Sys2Proof.Machine
end

