-- ==== Sys2Proof/Certificates/Slice0/Obligations.lean ====
section
/-!
DEFINITION. The statements for the provers. Each docstring names the rules of spec/ it formalises; OBLIGATIONS.json lists
them in this order. A statement about one command says its own effect, what it writes and that nothing else changes.
-/

open Sys2Proof Sys2Proof.Machine

/-! ### Command words -/

/-- R66, R67, R71, R72: the decoder reads every well-formed command back from its word. -/
def Obligations.DecodeOfEncodeIsTheCommand : Prop :=
  ∀ i : Instr, i.wellFormed = true → decode (encode i) = .ok i

/-- R66, R71, R72: a word that decodes is the word of the command it decodes to, so no two words mean one command, and the
decoder answers well-formed commands only. -/
def Obligations.EncodeOfDecodeIsTheWord : Prop :=
  ∀ (w : Word) (i : Instr), decode w = .ok i → encode i = w ∧ i.wellFormed = true

/-- R72, R75, R84, R90, R98, R112-R114, R132, R137: command words that the spec writes out. -/
def Obligations.WordsOfTheSpecDecode : Prop :=
  decode 0x02FF0440#32 = .ok (.mdlCfg 1 0xFF#8 2#8)
    ∧ decode 0x01010040#32 = .ok (.mdlCfg 0 1#8 1#8)
    ∧ decode 0x07632654#32 = .ok (.rcEsym 2 1 (.explicit 7#8) 99#8)
    ∧ decode 0x00010152#32 = .ok (.rcEbit 1 0 .chain true)
    ∧ decode 0x0000015B#32 = .ok (.rcDfin 1)
    ∧ decode 0x04000842#32 = .ok (.mdlSetctx 2 4#8)
    ∧ decode 0x00000559#32 = .ok (.rcDstream 1 1)
    ∧ decode 0x00000031#32 = .ok .zrlJoin
    ∧ decode 0x00000010#32 = .ok .bwtFwd
    ∧ decode 0x00000021#32 = .ok .mtfDec

/-- R73: the opcodes the rule lists are 228 values and exactly those that no command has; a word with one raises
`ILLEGAL`(1) and has no other effect. -/
def Obligations.ReservedOpcodeRaisesIllegalOne : Prop :=
  ((List.range 256).filter fun op => decide (ReservedOpcode op)).length = 228
    ∧ (∀ op, op < 256 → (ReservedOpcode op ↔ ∀ i : Instr, i.fields.op ≠ op))
    ∧ (∀ w : Word, ReservedOpcode (w.toNat % 256) → decode w = .error .opcode)
    ∧ ∀ s : State, s.EngineMoves → ReservedOpcode (s.cmd.toNat % 256) →
        ∃ t, step s = .next t ∧ s.FailedUntouched t (.illegal .opcode)
          ∧ t.status.errcode = 5#8 ∧ t.errinfo = 1#32 ∧ t.errcmd = s.cmd

/-- R67, R68, R71, R72, R112: which subcode of `ILLEGAL` a word's fields raise, with nothing else changed. A non-zero `RSV`
or field the command does not use: 2 (a field a command does not use is one in which none of its words differs from 0);
`VAL` above 1 for `RC_EBIT`: 2; `CTX` under `X = 0`: 2; and only where the unused fields are 0 (R146), a kind or an
alphabet that `MDL_CFG` does not take: 3. -/
def Obligations.IllegalFieldsRaiseTheirSubcode : Prop :=
  ∀ s : State, s.EngineMoves →
    let w := fieldsOf s.cmd
    let raises (why : Illegal) (sub : Word) : Prop :=
      ∃ t, step s = .next t ∧ s.FailedUntouched t (.illegal why)
        ∧ t.status.errcode = 5#8 ∧ t.errinfo = sub ∧ t.errcmd = s.cmd
    (∀ f : Fields → Nat,
        f = Fields.rsv ∨ f = Fields.ch ∨ f = Fields.slot ∨ f = Fields.x ∨ f = Fields.val ∨ f = Fields.ctx →
        f w ≠ 0 → (∃ i : Instr, i.wellFormed = true ∧ i.fields.op = w.op) →
        (∀ i : Instr, i.wellFormed = true → i.fields.op = w.op → f i.fields = 0) → raises .field 2#32)
      ∧ (w.op = 0x52 → 1 < w.val → raises .field 2#32)
      ∧ (w.op = 0x52 ∨ w.op = 0x53 ∨ w.op = 0x54 ∨ w.op = 0x55 → w.x = 0 → w.ctx ≠ 0 → raises .field 2#32)
      ∧ (w.op = 0x40 → w.rsv = 0 → w.ch = 0 → w.x = 0 →
          2 < w.ctx ∨ (w.ctx = 0 ∧ w.val ≠ 0) ∨ (w.ctx = 1 ∧ w.val ≠ 1) ∨ (w.ctx = 2 ∧ w.val = 0) →
          raises .config 3#32)

/-! ### The step -/

/-- R147, R154, R160: where the engine makes the next step, it runs the command its word decodes to, and a word that is no
command is an error before any effect. Otherwise the port takes its next action, one that comes before a running command's
end included, and with no action the block holds its state. How actions to come are held is the model's choice (log 9). -/
def Obligations.StepRunsTheDecodedCommand : Prop :=
  ∀ s : State,
    (s.EngineMoves → ∀ i, decode s.cmd = .ok i → step s = exec i s)
      ∧ (s.EngineMoves → ∀ why, decode s.cmd = .error why → ∃ t, step s = .next t ∧ s.FailedUntouched t (.illegal why))
      ∧ (s.running = false → s.port = [] → step s = .next s)
      ∧ ∀ e rest, s.port = e :: rest → (s.running = false ∨ e.early = true) →
          step s = .next (State.portAction { s with port := rest } e.action)

/-! ### NOP -/

/-- R141: `NOP` is word 0, ends with `BUSY` 0 and `DONE` 1 and does nothing else; any other word of its opcode raises
`ILLEGAL`(2). -/
def Obligations.NopOnlyCompletes : Prop :=
  decode 0#32 = .ok .nop
    ∧ (∀ w : Word, w.toNat % 256 = 0 → w ≠ 0#32 → decode w = .error .field)
    ∧ ∀ s : State, exec .nop s = .next { s with status := { s.status with busy := false, done := true } }

/-! ### Burrows-Wheeler transform -/

/-- R78, R79, R80: the order is the permutation of the start indices sorted by rotation, equal rotations by index; the
transform takes the byte before each start, and the primary index is the rank of rotation 0, which is the number of
smaller rotations. -/
def Obligations.BwtIsTheSortedRotationTransform : Prop :=
  bwt [] = ([], 0) ∧
  ∀ s : List Byte, s ≠ [] →
    let lt := List.Lex fun a b : Byte => a.toNat < b.toNat
    let ord := sortedOrder s
    (∀ i k, i < s.length → k < s.length → (rot s i)[k]? = s[(i + k) % s.length]?)
      ∧ ord.Perm (List.range s.length)
      ∧ ord.Pairwise (fun i j => lt (rot s i) (rot s j) ∨ (rot s i = rot s j ∧ i < j))
      ∧ (bwt s).1.length = s.length
      ∧ (∀ k, k < s.length → (bwt s).1[k]? = s[(ord.getD k 0 + s.length - 1) % s.length]?)
      ∧ (bwt s).2 < s.length ∧ ord[(bwt s).2]? = some 0
      ∧ ∃ smaller : List Nat, smaller.Nodup ∧ smaller.length = (bwt s).2
          ∧ ∀ i, i ∈ smaller ↔ i < s.length ∧ lt (rot s i) (rot s 0)

/-- R82: the inverse transform undoes the forward one on every byte sequence, periodic ones included. -/
def Obligations.BwtInverseLaw : Prop :=
  ∀ s : List Byte, ibwt (bwt s).1 (bwt s).2 = s

/-- R81: the rank mapping is a permutation of `0 .. n-1` for every `L`, and it ranks `L` stably by byte value; so the
inverse is defined for every `L` and gives as many bytes. -/
def Obligations.RankMapIsAStablePermutation : Prop :=
  ∀ l : List Byte,
    (rankMap l).Perm (List.range l.length)
      ∧ (∀ i j, i < l.length → j < l.length →
          ((rankMap l).getD i 0 < (rankMap l).getD j 0 ↔
            (l.getD i 0#8).toNat < (l.getD j 0#8).toNat ∨ (l.getD i 0#8 = l.getD j 0#8 ∧ i < j)))
      ∧ ∀ p, (ibwt l p).length = l.length

/-- R84: `BWT_FWD` within its limits completes: the transform of the source as it was, its primary index in `RES0`, and
nothing else but the scratch store, which takes the rotation order (R39; which entry holds which index is the model's
choice, log 2). Beyond `MAX_BLOCK` it raises `CAPACITY`(1), then outside DMEM `BOUNDS`(1), with nothing done. -/
def Obligations.BwtFwdCompletes : Prop :=
  ∀ s : State,
    let src := s.argNat 0
    let dst := s.argNat 1
    let n := s.argNat 2
    (n ≤ s.params.maxBlock → src + n ≤ s.dmem.size → dst + n ≤ s.dmem.size →
        ∃ t, exec .bwtFwd s = .next t ∧ s.Succeeded t
          ∧ s.dmem.After [(dst, (bwt (s.dmem.readBytes src n)).1)] t.dmem
          ∧ s.dmem.SameOutside t.dmem [(dst, n)]
          ∧ t.res = s.res.set 0 (word (bwt (s.dmem.readBytes src n)).2)
          ∧ t.ch = s.ch ∧ t.slot = s.slot ∧ t.mtf = s.mtf
          ∧ (∀ k, k < n → t.scratch.entry k = word ((sortedOrder (s.dmem.readBytes src n)).getD k 0))
          ∧ ∀ k, n ≤ k → k < s.params.maxBlock → t.scratch.entry k = s.scratch.entry k)
      ∧ (s.params.maxBlock < n → ∃ t, exec .bwtFwd s = .next t ∧ s.FailedUntouched t .blockTooLong)
      ∧ (n ≤ s.params.maxBlock → (s.dmem.size < src + n ∨ s.dmem.size < dst + n) →
          ∃ t, exec .bwtFwd s = .next t ∧ s.FailedUntouched t .outOfBounds)

/-- R85: `BWT_INV` within its limits completes: the inverse transform of the source as it was, no result, and nothing
else but the scratch store, which takes the rank mapping (R39; which entry holds which rank is the model's choice, log 2).
With a primary index out of range it raises `FORMAT`(1), then beyond `MAX_BLOCK` `CAPACITY`(1), then outside DMEM
`BOUNDS`(1), with nothing done. -/
def Obligations.BwtInvCompletes : Prop :=
  ∀ s : State,
    let src := s.argNat 0
    let dst := s.argNat 1
    let n := s.argNat 2
    let p := s.argNat 3
    let goodP := p < n ∨ (n = 0 ∧ p = 0)
    (goodP → n ≤ s.params.maxBlock → src + n ≤ s.dmem.size → dst + n ≤ s.dmem.size →
        ∃ t, exec .bwtInv s = .next t ∧ s.Succeeded t
          ∧ s.dmem.After [(dst, ibwt (s.dmem.readBytes src n) p)] t.dmem
          ∧ s.dmem.SameOutside t.dmem [(dst, n)]
          ∧ t.res = s.res ∧ t.ch = s.ch ∧ t.slot = s.slot ∧ t.mtf = s.mtf
          ∧ (∀ k, k < n → t.scratch.entry k = word ((rankMap (s.dmem.readBytes src n)).getD k 0))
          ∧ ∀ k, n ≤ k → k < s.params.maxBlock → t.scratch.entry k = s.scratch.entry k)
      ∧ (¬ goodP → ∃ t, exec .bwtInv s = .next t ∧ s.FailedUntouched t .badPrimaryIndex)
      ∧ (goodP → s.params.maxBlock < n → ∃ t, exec .bwtInv s = .next t ∧ s.FailedUntouched t .blockTooLong)
      ∧ (goodP → n ≤ s.params.maxBlock → (s.dmem.size < src + n ∨ s.dmem.size < dst + n) →
          ∃ t, exec .bwtInv s = .next t ∧ s.FailedUntouched t .outOfBounds)

/-! ### Move-to-front -/

/-- R88: encoding and decoding are inverse to each other on all byte sequences and keep the length; and the commands start
from the identity table, whatever the table was. -/
def Obligations.MtfIsABijection : Prop :=
  (∀ s : List Byte, mtfDecode (mtfEncode s) = s ∧ (mtfEncode s).length = s.length)
    ∧ (∀ r : List Byte, mtfEncode (mtfDecode r) = r ∧ (mtfDecode r).length = r.length)
    ∧ ∀ (s : State) (table : List Byte) (i : Instr), i = .mtfEnc ∨ i = .mtfDec →
        ∃ t t', exec i s = .next t ∧ exec i { s with mtf := table } = .next t'
          ∧ t'.dmem = t.dmem ∧ t'.status = t.status ∧ t'.res = t.res

/-- R89, R90: within DMEM, `MTF_ENC` and `MTF_DEC` complete: the recoded source as it was at the destination, no result,
and nothing else but the table, which cannot be observed; with either range outside DMEM they raise `BOUNDS`(1) with nothing done. -/
def Obligations.MtfCommandsComplete : Prop :=
  ∀ (s : State) (i : Instr) (f : List Byte → List Byte),
    (i = .mtfEnc ∧ f = mtfEncode) ∨ (i = .mtfDec ∧ f = mtfDecode) →
    let src := s.argNat 0
    let dst := s.argNat 1
    let n := s.argNat 2
    (src + n ≤ s.dmem.size ∧ dst + n ≤ s.dmem.size →
        ∃ t, exec i s = .next t ∧ s.Succeeded t
          ∧ s.dmem.After [(dst, f (s.dmem.readBytes src n))] t.dmem
          ∧ s.dmem.SameOutside t.dmem [(dst, n)]
          ∧ t.res = s.res ∧ t.ch = s.ch ∧ t.slot = s.slot ∧ t.scratch = s.scratch)
      ∧ (¬ (src + n ≤ s.dmem.size ∧ dst + n ≤ s.dmem.size) →
          ∃ t, exec i s = .next t ∧ s.FailedUntouched t .outOfBounds)

/-! ### Zero runs and tiers -/

/-- R91, R92: the zero-run law and the source's other laws: joining a split gives the input back, runs are positive, there
is one run per zero slot, slots and runs account for every byte, and no two zero slots are adjacent. And what joining
gives for every slot sequence with as many zeros as there are runs, adjacent zero slots included (D18): each slot in
order, a zero slot as its run of zeros and any other as itself. -/
def Obligations.ZeroRunLaws : Prop :=
  (∀ s : List Byte,
    let slots := (zeroSplit s).1
    let runs := (zeroSplit s).2
    zeroJoin slots runs = s
      ∧ runs.length = slots.count 0#8
      ∧ (∀ r ∈ runs, 1 ≤ r)
      ∧ runs.sum + slots.countP (fun b => b != 0#8) = s.length
      ∧ slots.IsChain (fun a b => ¬ (a = 0#8 ∧ b = 0#8)))
    ∧ ∀ (slots : List Byte) (runs : List Nat), slots.count 0#8 = runs.length → (∀ r ∈ runs, 1 ≤ r) →
        zeroJoin slots runs = (List.range slots.length).flatMap fun i =>
          if slots.getD i 0#8 = 0#8 then List.replicate (runs.getD ((slots.take i).count 0#8) 0) 0#8
          else [slots.getD i 0#8]

/-- R93, R97: with its ranges in DMEM, `ZRL_SPLIT` completes: the slots, then the runs as big-endian words, both counts, and
nothing else; with one of them outside it raises `BOUNDS`(1) with nothing done. -/
def Obligations.ZrlSplitCompletes : Prop :=
  ∀ s : State,
    let src := s.argNat 0
    let n := s.argNat 1
    let sd := s.argNat 2
    let rd := s.argNat 3
    let parts := zeroSplit (s.dmem.readBytes src n)
    let fits := src + n ≤ s.dmem.size ∧ sd + parts.1.length ≤ s.dmem.size ∧ rd + 4 * parts.2.length ≤ s.dmem.size
    (fits →
        ∃ t, exec .zrlSplit s = .next t ∧ s.Succeeded t
          ∧ s.dmem.After [(sd, parts.1), (rd, runBytes parts.2)] t.dmem
          ∧ s.dmem.SameOutside t.dmem [(sd, parts.1.length), (rd, 4 * parts.2.length)]
          ∧ (∀ k, k < parts.2.length → t.dmem.read32 (rd + 4 * k) = parts.2.getD k 0)
          ∧ t.res = (s.res.set 0 (word parts.1.length)).set 1 (word parts.2.length)
          ∧ t.ch = s.ch ∧ t.slot = s.slot ∧ t.mtf = s.mtf ∧ t.scratch = s.scratch)
      ∧ (¬ fits → ∃ t, exec .zrlSplit s = .next t ∧ s.FailedUntouched t .outOfBounds)

/-- R98, R146: `ZRL_JOIN` reports the first of its checks that fails, with nothing done; with all of them met it completes:
the joined bytes of the slots and the big-endian run words as they were, their number in `RES0`, and nothing else. -/
def Obligations.ZrlJoinCompletes : Prop :=
  ∀ s : State,
    let sp := s.argNat 0
    let ns := s.argNat 1
    let rp := s.argNat 2
    let nr := s.argNat 3
    let dst := s.argNat 4
    let cap := s.argNat 5
    let slots := s.dmem.readBytes sp ns
    let runs := (List.range nr).map fun k => s.dmem.read32 (rp + 4 * k)
    let total := slots.countP (fun b => b != 0#8) + runs.sum
    let fails (e : Cause) : Prop := ∃ t, exec .zrlJoin s = .next t ∧ s.FailedUntouched t e
    if s.dmem.size < sp + ns ∨ s.dmem.size < rp + 4 * nr then fails .outOfBounds
    else if slots.count 0#8 ≠ nr then fails .runCountMismatch
    else if 0 ∈ runs then fails .zeroRun
    else if cap < total then fails .joinTooLong
    else if s.dmem.size < dst + total then fails .outOfBounds
    else
      ∃ t, exec .zrlJoin s = .next t ∧ s.Succeeded t
        ∧ s.dmem.After [(dst, zeroJoin slots runs)] t.dmem
        ∧ s.dmem.SameOutside t.dmem [(dst, total)]
        ∧ t.res = s.res.set 0 (word total)
        ∧ t.ch = s.ch ∧ t.slot = s.slot ∧ t.mtf = s.mtf ∧ t.scratch = s.scratch

/-- R94, R95: the tiers of the table partition 1..255, `classify` gives the one tier and the offset in it, and `classify`
and `unclassify` are exact inverses. -/
def Obligations.TierClassifyIsInverse : Prop :=
  (∀ v, 1 ≤ v → v ≤ 255 →
      (∃! t, 1 ≤ t ∧ t ≤ 4 ∧ tierBase t ≤ v ∧ v < tierBase t + tierSize t)
        ∧ 1 ≤ (classify v).1 ∧ (classify v).1 ≤ 4 ∧ tierBase (classify v).1 + (classify v).2 = v
        ∧ (classify v).2 < tierSize (classify v).1
        ∧ unclassify (classify v).1 (classify v).2 = v)
    ∧ (∀ t o, 1 ≤ t → t ≤ 4 → o < tierSize t →
        classify (unclassify t o) = (t, o) ∧ 1 ≤ unclassify t o ∧ unclassify t o ≤ 255)
    ∧ [tierBase 1, tierBase 2, tierBase 3, tierBase 4] = [1, 4, 10, 32]
    ∧ [tierSize 1, tierSize 2, tierSize 3, tierSize 4] = [3, 6, 22, 224]

/-- R99, R100: `TIER_CLS` and `TIER_UNCLS` on their legal operands complete with the tier and offset, and the value, as
their only effect; on every other operand they raise `ARG`(7) and `ARG`(6) with nothing done. -/
def Obligations.TierValueCommandsComplete : Prop :=
  ∀ s : State,
    let v := s.argNat 0
    let o := s.argNat 1
    let done (i : Instr) (res : Vector Word 8) : Prop :=
      ∃ t, exec i s = .next t ∧ s.Succeeded t ∧ t.res = res ∧ s.SameUnits t ∧ t.dmem = s.dmem
    (v = 0 → done .tierCls ((s.res.set 0 0#32).set 1 0#32))
      ∧ (∀ tier offset, 1 ≤ tier → tier ≤ 4 → offset < tierSize tier → v = tierBase tier + offset →
          done .tierCls ((s.res.set 0 (word tier)).set 1 (word offset)))
      ∧ (255 < v → ∃ t, exec .tierCls s = .next t ∧ s.FailedUntouched t .tierValueTooLarge)
      ∧ (v = 0 ∧ o = 0 → done .tierUncls (s.res.set 0 0#32))
      ∧ (1 ≤ v ∧ v ≤ 4 ∧ o < tierSize v → done .tierUncls (s.res.set 0 (word (tierBase v + o))))
      ∧ (¬ (v = 0 ∧ o = 0) ∧ ¬ (1 ≤ v ∧ v ≤ 4 ∧ o < tierSize v) →
          ∃ t, exec .tierUncls s = .next t ∧ s.FailedUntouched t .badTierPair)

/-- R101: with its ranges in DMEM, `TIER_SPLIT` completes: the structure stream, then the four offset streams in tier order,
the five counts, which add up to `n`, and nothing else; with one of them outside it raises `BOUNDS`(1) with nothing done. -/
def Obligations.TierSplitCompletes : Prop :=
  ∀ s : State,
    let sp := s.argNat 0
    let n := s.argNat 1
    let st := s.argNat 2
    let slots := s.dmem.readBytes sp n
    let list (t : Nat) : List Byte :=
      (slots.filter fun b => b != 0#8 && tierOf b.toNat == t).map fun b => BitVec.ofNat 8 (b.toNat - tierBase t)
    let zeros := slots.count 0#8
    let fits := sp + n ≤ s.dmem.size ∧ st + n ≤ s.dmem.size
      ∧ s.argNat 3 + (list 1).length ≤ s.dmem.size ∧ s.argNat 4 + (list 2).length ≤ s.dmem.size
      ∧ s.argNat 5 + (list 3).length ≤ s.dmem.size ∧ s.argNat 6 + (list 4).length ≤ s.dmem.size
    (fits →
        ∃ t, exec .tierSplit s = .next t ∧ s.Succeeded t
          ∧ s.dmem.After [(st, slots.map fun b => BitVec.ofNat 8 (structSymbol b)), (s.argNat 3, list 1),
              (s.argNat 4, list 2), (s.argNat 5, list 3), (s.argNat 6, list 4)] t.dmem
          ∧ s.dmem.SameOutside t.dmem [(st, n), (s.argNat 3, (list 1).length), (s.argNat 4, (list 2).length),
              (s.argNat 5, (list 3).length), (s.argNat 6, (list 4).length)]
          ∧ t.res = ((((s.res.set 0 (word zeros)).set 1 (word (list 1).length)).set 2 (word (list 2).length)).set 3
              (word (list 3).length)).set 4 (word (list 4).length)
          ∧ zeros + (list 1).length + (list 2).length + (list 3).length + (list 4).length = n
          ∧ t.ch = s.ch ∧ t.slot = s.slot ∧ t.mtf = s.mtf ∧ t.scratch = s.scratch)
      ∧ (¬ fits → ∃ t, exec .tierSplit s = .next t ∧ s.FailedUntouched t .outOfBounds)

/-- R102: `TIER_COUNT` on structure symbols 0..4 completes with their five counts as its only effect; a symbol above 4 raises
`DECODE`(6), and a range outside DMEM `BOUNDS`(1), with nothing done. -/
def Obligations.TierCountCompletes : Prop :=
  ∀ s : State,
    let sp := s.argNat 0
    let n := s.argNat 1
    let syms := s.dmem.readBytes sp n
    let cnt (b : Byte) : Word := word (syms.count b)
    (s.dmem.size < sp + n → ∃ t, exec .tierCount s = .next t ∧ s.FailedUntouched t .outOfBounds)
      ∧ (sp + n ≤ s.dmem.size → (∃ x ∈ syms, 4 < x.toNat) →
          ∃ t, exec .tierCount s = .next t ∧ s.FailedUntouched t .badStructure)
      ∧ (sp + n ≤ s.dmem.size → (∀ x ∈ syms, x.toNat ≤ 4) →
          ∃ t, exec .tierCount s = .next t ∧ s.Succeeded t
            ∧ t.res = ((((s.res.set 0 (cnt 0#8)).set 1 (cnt 1#8)).set 2 (cnt 2#8)).set 3 (cnt 3#8)).set 4 (cnt 4#8)
            ∧ s.SameUnits t ∧ t.dmem = s.dmem)

/-- R103, R146: `TIER_JOIN` reports the first of its checks that fails, with nothing done; with all of them met it completes:
the merged slots of the streams as they were, the five counts, and nothing else. -/
def Obligations.TierJoinCompletes : Prop :=
  ∀ s : State,
    let sp := s.argNat 0
    let n := s.argNat 1
    let dst := s.argNat 6
    let size := s.dmem.size
    let syms := s.dmem.readBytes sp n
    let cnt (b : Byte) : Nat := syms.count b
    let l1 := s.dmem.readBytes (s.argNat 2) (cnt 1#8)
    let l2 := s.dmem.readBytes (s.argNat 3) (cnt 2#8)
    let l3 := s.dmem.readBytes (s.argNat 4) (cnt 3#8)
    let l4 := s.dmem.readBytes (s.argNat 5) (cnt 4#8)
    let fails (e : Cause) : Prop := ∃ t, exec .tierJoin s = .next t ∧ s.FailedUntouched t e
    if size < sp + n ∨ size < dst + n then fails .outOfBounds
    else if (syms.any fun x => decide (4 < x.toNat)) = true then fails .badStructure
    else if size < s.argNat 2 + cnt 1#8 ∨ size < s.argNat 3 + cnt 2#8 ∨ size < s.argNat 4 + cnt 3#8
        ∨ size < s.argNat 5 + cnt 4#8 then fails .outOfBounds
    else if (l1.any (fun o => decide (3 ≤ o.toNat)) || l2.any (fun o => decide (6 ≤ o.toNat))
        || l3.any (fun o => decide (22 ≤ o.toNat)) || l4.any (fun o => decide (224 ≤ o.toNat))) = true then
      fails .badOffset
    else
      ∃ t, exec .tierJoin s = .next t ∧ s.Succeeded t
        ∧ s.dmem.After [(dst, tierMerge syms l1 l2 l3 l4)] t.dmem
        ∧ s.dmem.SameOutside t.dmem [(dst, n)]
        ∧ t.res = ((((s.res.set 0 (word (cnt 0#8))).set 1 (word (cnt 1#8))).set 2 (word (cnt 2#8))).set 3
            (word (cnt 3#8))).set 4 (word (cnt 4#8))
        ∧ t.ch = s.ch ∧ t.slot = s.slot ∧ t.mtf = s.mtf ∧ t.scratch = s.scratch

/-- R95, R96, R101, R103: the merge takes, for each structure symbol, the next offset of that symbol's stream; merging the
streams of a split gives the slots back, and every stream of a split is one the merge accepts. -/
def Obligations.TierMergeUndoesTheSplit : Prop :=
  (∀ (syms : List Byte) (l : Nat → List Byte) (i : Nat) (x : Byte), syms[i]? = some x → x.toNat ≤ 4 →
      (tierMerge syms (l 1) (l 2) (l 3) (l 4))[i]? =
        some (if x = 0#8 then 0#8
          else BitVec.ofNat 8 (tierBase x.toNat + ((l x.toNat).getD ((syms.take i).count x) 0#8).toNat)))
    ∧ ∀ slots : List Byte,
      let syms := slots.map fun b => BitVec.ofNat 8 (structSymbol b)
      tierMerge syms (tierOffsets 1 slots) (tierOffsets 2 slots) (tierOffsets 3 slots) (tierOffsets 4 slots) = slots
        ∧ (∀ x ∈ syms, x.toNat ≤ 4)
        ∧ ∀ t, 1 ≤ t → t ≤ 4 →
            countSymbol t syms = (tierOffsets t slots).length ∧ ∀ o ∈ tierOffsets t slots, o.toNat < tierSize t

/-! ### Models -/

/-- R33, R112: `MDL_CFG` with a legal kind and alphabet completes: the slot with its kind, its fresh table and `last` 0, as
its only effect. -/
def Obligations.MdlCfgInitialises : Prop :=
  ∀ (s : State) (m : SlotNo) (val kind : Byte), cfgLegal val kind = true →
    ∃ t, exec (.mdlCfg m val kind) s = .next t ∧ s.SucceededQuietly t ∧ s.OnlySlot t m
      ∧ t.slot[m].last = 0#8
      ∧ (kind = 0#8 → t.slot[m].table = .off)
      ∧ (kind = 1#8 → t.slot[m].table = .bin 2048#12 2048#12)
      ∧ (kind = 2#8 → t.slot[m].table.kind = 2 ∧ t.slot[m].table.alphabet = val.toNat + 1
          ∧ ∀ c, c ≤ val.toNat → ∃ row, t.slot[m].table.row c = some row ∧ row.tot.toNat = val.toNat + 1
            ∧ row.freq = List.replicate (val.toNat + 1) 1#16)

/-- R113, R114: `MDL_RESET` on a configured slot completes with the same table and `last` that `MDL_CFG` gives for the slot's
own kind and alphabet, and `MDL_SETCTX` below the slot's alphabet with the new `last` and the table as it was, as their
only effect. On an `OFF` slot both raise `STATE`(2), and `MDL_SETCTX` at or beyond the alphabet `ARG`(1), with nothing done. -/
def Obligations.MdlResetAndSetctxComplete : Prop :=
  ∀ (s : State) (m : SlotNo) (k : Byte),
    let n := s.slot[m].table.alphabet
    (s.slot[m].table = .off →
        (∃ t, exec (.mdlReset m) s = .next t ∧ s.FailedUntouched t .slotKind)
          ∧ ∃ t, exec (.mdlSetctx m k) s = .next t ∧ s.FailedUntouched t .slotKind)
      ∧ (s.slot[m].ok = true → s.slot[m].table ≠ .off →
          ∃ t u, exec (.mdlReset m) s = .next t ∧ s.SucceededQuietly t ∧ s.OnlySlot t m
            ∧ exec (.mdlCfg m (BitVec.ofNat 8 (n - 1)) (BitVec.ofNat 8 s.slot[m].table.kind)) s = .next u
            ∧ t.slot = u.slot)
      ∧ (s.slot[m].table ≠ .off → n ≤ k.toNat →
          ∃ t, exec (.mdlSetctx m k) s = .next t ∧ s.FailedUntouched t .badContext)
      ∧ (s.slot[m].table ≠ .off → k.toNat < n →
          ∃ t, exec (.mdlSetctx m k) s = .next t ∧ s.SucceededQuietly t ∧ s.OnlySlot t m
            ∧ t.slot[m] = { s.slot[m] with last := k })

/-- R115: `MDL_PEEK` inside a configured slot's table completes with the entry, the total, the cumulative count and `last`
as its only effect; outside it, `ARG`(5), and on an `OFF` slot `STATE`(2), with nothing done. -/
def Obligations.MdlPeekReadsTheTable : Prop :=
  ∀ (s : State) (m : SlotNo),
    let c := s.argNat 0
    let j := s.argNat 1
    let slot := s.slot[m]
    let last : Word := slot.last.setWidth 32
    let reads (a b d : Word) : Prop :=
      ∃ t, exec (.mdlPeek m) s = .next t ∧ s.Succeeded t ∧ s.SameUnits t ∧ t.dmem = s.dmem
        ∧ t.res = (((s.res.set 0 a).set 1 b).set 2 d).set 3 last
    let fails (e : Cause) : Prop := ∃ t, exec (.mdlPeek m) s = .next t ∧ s.FailedUntouched t e
    (slot.table = .off → fails .slotKind)
      ∧ (∀ p0 p1, slot.table = .bin p0 p1 →
          (c = 0 → reads (p0.setWidth 32) 4096#32 0#32) ∧ (c = 1 → reads (p1.setWidth 32) 4096#32 0#32)
            ∧ (2 ≤ c → fails .badPeek))
      ∧ ∀ rows, slot.table = .sym rows → slot.ok = true →
          (rows.length ≤ c ∨ rows.length ≤ j → fails .badPeek)
            ∧ ∀ row f, rows[c]? = some row → row.freq[j]? = some f →
                reads (f.setWidth 32) (row.tot.setWidth 32) (word (sumCounts (row.freq.take j)))

/-- R106, R107: the update of a bit model: the two formulas, only the entry of the context used, and `last`. Probabilities
start at 2048, an update keeps them in 31..4065, so neither bit's sub-interval is empty, and enough equal bits bring every
one to 4065 or to 31, where it stays. -/
def Obligations.BitModelFollowsItsLaw : Prop :=
  (∀ (m : Slot) (p0 p1 : Prob) (b : Bool), m.table = .bin p0 p1 →
      let new (p : Prob) : Nat := if b then p.toNat + (4096 - p.toNat) / 32 else p.toNat - p.toNat / 32
      (∃ q : Prob, m.updateBit 0 b = { table := .bin q p1, last := if b then 1#8 else 0#8 } ∧ q.toNat = new p0)
        ∧ ∃ q : Prob, m.updateBit 1 b = { table := .bin p0 q, last := if b then 1#8 else 0#8 } ∧ q.toNat = new p1)
    ∧ initialBin = .bin 2048#12 2048#12 ∧ ProbOk 2048#12
    ∧ (∀ (p : Prob) (b : Bool), ProbOk p →
        ProbOk (adaptProb p b) ∧ 1 ≤ (bitInterval p b).freq
          ∧ (bitInterval p b).cum + (bitInterval p b).freq ≤ (bitInterval p b).tot)
    ∧ (∀ p : Prob, ProbOk p → ∃ n, ∀ k, n ≤ k → (fun q => adaptProb q true)^[k] p = 4065#12)
    ∧ ∀ p : Prob, ProbOk p → ∃ n, ∀ k, n ≤ k → (fun q => adaptProb q false)^[k] p = 31#12

/-- R109, R110: the update of a symbol row: 32 more for the symbol, and every count halved with a floor of 1 once the total
exceeds 16383; the row keeps the bounds of R110. -/
def Obligations.SymUpdateKeepsTheTable : Prop :=
  ∀ (n : Nat) (r : SymRow) (j : Nat), 2 ≤ n → n ≤ 256 → r.Ok n → j < n →
    let bumped (i : Nat) : Nat := (r.freq.getD i 0#16).toNat + if i = j then 32 else 0
    let u := r.update j
    u.Ok n
      ∧ (r.tot.toNat + 32 ≤ 16383 → u.tot.toNat = r.tot.toNat + 32
          ∧ ∀ i, i < n → (u.freq.getD i 0#16).toNat = bumped i)
      ∧ (16383 < r.tot.toNat + 32 → u.tot.toNat = sumCounts u.freq
          ∧ ∀ i, i < n → (u.freq.getD i 0#16).toNat = max 1 (bumped i / 2))
      ∧ n ≤ u.tot.toNat
      ∧ ∀ f ∈ u.freq, f.toNat ≤ 16383 - n + 1 ∧ f.toNat < u.tot.toNat

/-- R108: every value below a row's total lies in the sub-interval of exactly one symbol, which is the one the decoder
finds; and the sub-intervals follow one another from 0 to the total. -/
def Obligations.SymIntervalsPartition : Prop :=
  ∀ (n : Nat) (r : SymRow), r.Ok n →
    (∀ v, v < r.tot.toNat →
        ∃ j iv, findSymbol r.freq v = some j ∧ j < n ∧ r.interval j = some iv ∧ iv.cum ≤ v ∧ v < iv.cum + iv.freq
          ∧ ∀ j' iv', r.interval j' = some iv' → iv'.cum ≤ v → v < iv'.cum + iv'.freq → j' = j)
      ∧ r.cum 0 = 0
      ∧ ∀ j, j < n → ∃ iv, r.interval j = some iv ∧ iv.cum = r.cum j ∧ 1 ≤ iv.freq
          ∧ iv.freq = (r.freq.getD j 0#16).toNat ∧ iv.cum + iv.freq = r.cum (j + 1)
          ∧ r.cum (j + 1) ≤ iv.tot ∧ iv.tot = r.tot.toNat

/-! ### Channel arithmetic -/

/-- R117: `Narrow` with a legal share goes to a sub-interval, without wrapping, and to disjoint ones for disjoint shares. -/
def Obligations.NarrowNestsTheInterval : Prop :=
  ∀ (c : Channel) (iv : Interval), c.IntervalOk → 1 ≤ iv.freq → iv.cum + iv.freq ≤ iv.tot → iv.tot ≤ 16383 →
    let r := c.range.toNat / iv.tot
    let d := c.narrow iv
    1 ≤ r ∧ d.low.toNat = c.low.toNat + iv.cum * r ∧ d.range.toNat = iv.freq * r
      ∧ c.low.toNat ≤ d.low.toNat ∧ d.low.toNat + d.range.toNat ≤ c.low.toNat + c.range.toNat
      ∧ (d.low.toNat + d.range.toNat = 2 ^ 32 → 2 ^ 24 ≤ d.low.toNat)
      ∧ d.mode = c.mode ∧ d.code = c.code ∧ d.base = c.base ∧ d.ptr = c.ptr ∧ d.limit = c.limit
      ∧ ∀ iv' : Interval, iv'.tot = iv.tot → 1 ≤ iv'.freq → iv'.cum + iv'.freq ≤ iv'.tot → iv.cum + iv.freq ≤ iv'.cum →
          d.low.toNat + d.range.toNat ≤ (c.narrow iv').low.toNat

/-- R118, R119, R121 items 1-4: from a non-empty interval that does not wrap, `Renorm` makes the turns of its loop until the
interval leaves it, at most three of them, and that interval is of at least `BOT` and does not wrap. With as many bytes
of room it ends there, one byte shifted a turn; with fewer it raises at the window's end, every byte before it shifted,
and an underflow cut made for the failing turn stays (log 17). A settled interval is left alone. -/
def Obligations.RenormRestoresTheInterval : Prop :=
  ∀ t : Stream, t.ch.Open → t.ch.low.toNat + t.ch.range.toNat ≤ 2 ^ 32 →
    (t.ch.low.toNat + t.ch.range.toNat = 2 ^ 32 → 2 ^ 24 ≤ t.ch.low.toNat) → 1 ≤ t.ch.range.toNat →
    t.ch.ptr.toNat ≤ t.ch.limit.toNat → t.ch.limit.toNat ≤ t.mem.size →
    let turns (n : Nat) : Nat × Nat := renormTurn^[n] (t.ch.low.toNat, t.ch.range.toNat)
    ∃ j, j ≤ 3 ∧ RenormExits (turns j) ∧ (∀ k, k < j → ¬ RenormExits (turns k))
      ∧ (j ≤ t.ch.room → ∃ u, t.renorm = .ok () u ∧ t.ShiftedBy u j (turns j) ∧ u.ch.IntervalOk)
      ∧ (t.ch.room < j → ∃ u,
          t.renorm = .raised (if t.ch.mode = .enc then .windowFull else .streamExhausted) u
            ∧ t.ShiftedBy u t.ch.room (cutInterval (turns t.ch.room)) ∧ u.ch.ptr = t.ch.limit)
      ∧ (j = 0 → t.renorm = .ok () t)

/-- R119: `Shift` moves one byte: out of an encoder's top byte, or into a decoder's code; at the window's end it raises and
leaves everything as it was. -/
def Obligations.ShiftMovesOneByte : Prop :=
  ∀ (t : Stream), t.ch.limit.toNat ≤ t.mem.size →
    (t.ch.mode = .enc → t.ch.limit.toNat ≤ t.ch.ptr.toNat → t.shift = .raised .windowFull t)
      ∧ (t.ch.mode = .dec → t.ch.limit.toNat ≤ t.ch.ptr.toNat → t.shift = .raised .streamExhausted t)
      ∧ (t.ch.mode = .enc → t.ch.ptr.toNat < t.ch.limit.toNat →
          ∃ m', t.shift = .ok () { ch := { t.ch with ptr := t.ch.ptr + 1#32 }, mem := m' }
            ∧ (m'.read t.ch.ptr.toNat).toNat = t.ch.low.toNat / 2 ^ 24
            ∧ t.mem.SameOutside m' [(t.ch.ptr.toNat, 1)])
      ∧ (t.ch.mode = .dec → t.ch.ptr.toNat < t.ch.limit.toNat →
          ∃ code : Word, t.shift = .ok () { t with ch := { t.ch with ptr := t.ch.ptr + 1#32, code := code } }
            ∧ code.toNat = t.ch.code.toNat * 256 % 2 ^ 32 + (t.mem.read t.ch.ptr.toNat).toNat)

/-! ### Channel commands -/

/-- R129: `RC_DINIT` on a window in DMEM of at least 4 bytes completes in every mode: the channel open for decoding with the
first 4 bytes as its code, big-endian, as its only effect. On a shorter window it raises `DECODE`(1) with the channel in
`ERR`, `ptr` at the end and the bytes there are in `code`; on a window outside DMEM `BOUNDS`(1) with nothing done. -/
def Obligations.DinitReadsFourBytes : Prop :=
  ∀ (s : State) (c : ChanNo), s.dmem.size ≤ 2 ^ 20 →
    let base := s.argNat 0
    let n := s.argNat 1
    let opened (t : State) (mode : ChMode) (k : Nat) : Prop :=
      t.ch[c].mode = mode ∧ t.ch[c].low = 0#32 ∧ t.ch[c].range = 0xFFFFFFFF#32
        ∧ t.ch[c].code.toNat = beValue (s.dmem.readBytes base k) ∧ t.ch[c].base = s.arg[0]
        ∧ t.ch[c].ptr.toNat = base + k ∧ t.ch[c].limit.toNat = base + n
    (base + n ≤ s.dmem.size → 4 ≤ n →
        ∃ t, exec (.rcDinit c) s = .next t ∧ s.SucceededQuietly t ∧ s.OnlyChannel t c ∧ opened t .dec 4)
      ∧ (base + n ≤ s.dmem.size → n < 4 →
          ∃ t, exec (.rcDinit c) s = .next t ∧ s.Failed t .streamExhausted ∧ s.OnlyChannel t c ∧ t.dmem = s.dmem
            ∧ opened t .err n)
      ∧ (s.dmem.size < base + n → ∃ t, exec (.rcDinit c) s = .next t ∧ s.FailedUntouched t .outOfBounds)

/-- R104, R119, R122, R130: `RC_EBIT` with an open encoder, a `BIN` slot and a legal context. With three bytes of room it
completes: `Narrow` by the bit's interval, the model update, `Renorm`, the bytes shifted out and nothing else. With less
it completes where `Renorm` does; where `Renorm` raises, it is `CAPACITY`(2) at the window's end, with the channel in
`ERR`, the model updated and the bytes before the failing one written. -/
def Obligations.EbitCompletesOrFillsTheWindow : Prop :=
  ∀ (s : State) (c : ChanNo) (m : SlotNo) (x : CtxSel) (b : Bool),
    let ctx := contextOf x s.slot[m]
    let k := s.coder c m
    s.Inv → s.ch[c].mode = .enc → s.slot[m].table.kind = 1 → ctx < 2 →
    (3 ≤ s.ch[c].room →
        ∃ t u, exec (.rcEbit c m x b) s = .next t ∧ k.EncodesBit ctx b none u ∧ s.SucceededCoding t c m u
          ∧ t.res = s.res ∧ t.ch[c].ptr.toNat ≤ s.ch[c].ptr.toNat + 3 ∧ s.dmem.SameOutside t.dmem [shifted s t c])
      ∧ (∀ u, k.EncodesBit ctx b none u →
          ∃ t, exec (.rcEbit c m x b) s = .next t ∧ s.SucceededCoding t c m u
            ∧ t.res = s.res ∧ s.dmem.SameOutside t.dmem [shifted s t c])
      ∧ ∀ e u, k.EncodesBit ctx b (some e) u →
          ∃ t, exec (.rcEbit c m x b) s = .next t ∧ e = .windowFull ∧ s.FailedCoding t c m .windowFull u
            ∧ t.ch[c].ptr = s.ch[c].limit ∧ s.dmem.SameOutside t.dmem [shifted s t c]

/-- R104, R119, R120, R123, R131: `RC_DBIT` with an open decoder, a `BIN` slot and a legal context writes no DMEM byte. With
a position on the model's scale and three bytes to read it completes: the bit in `RES0`, the same narrowing and model
update as the encoder's. With less to read it completes where `Renorm` does; where `Renorm` raises, it is `DECODE`(1)
with the channel in `ERR` and the model updated. A position beyond the scale is `DECODE`(2), with the channel in `ERR`,
its interval and the model as they were. -/
def Obligations.DbitCompletesOrRaisesDecode : Prop :=
  ∀ (s : State) (c : ChanNo) (m : SlotNo) (x : CtxSel),
    let ctx := contextOf x s.slot[m]
    let k := s.coder c m
    let v := s.ch[c].position 4096
    s.Inv → s.ch[c].mode = .dec → s.slot[m].table.kind = 1 → ctx < 2 →
    (v < 4096 → 3 ≤ s.ch[c].room →
        ∃ t b u, exec (.rcDbit c m x) s = .next t ∧ k.DecodesBit ctx b none u ∧ s.SucceededCoding t c m u
          ∧ t.res = s.res.set 0 (if b then 1#32 else 0#32) ∧ t.dmem = s.dmem)
      ∧ (∀ b u, k.DecodesBit ctx b none u →
          ∃ t, exec (.rcDbit c m x) s = .next t ∧ s.SucceededCoding t c m u
            ∧ t.res = s.res.set 0 (if b then 1#32 else 0#32) ∧ t.dmem = s.dmem)
      ∧ (∀ b e u, k.DecodesBit ctx b (some e) u →
          ∃ t, exec (.rcDbit c m x) s = .next t ∧ e = .streamExhausted ∧ s.FailedCoding t c m .streamExhausted u
            ∧ t.dmem = s.dmem)
      ∧ (4096 ≤ v →
          ∃ t, exec (.rcDbit c m x) s = .next t ∧ s.FailedCoding t c m .corruptValue k ∧ t.dmem = s.dmem)

/-- R104, R119, R124, R132: `RC_ESYM` with an open encoder, a `SYM` slot, a legal context and symbol. With three bytes of
room it completes: `Narrow` by the symbol's interval, the model update, `Renorm`, the bytes shifted out and nothing else.
With less it completes where `Renorm` does; where `Renorm` raises, it is `CAPACITY`(2) at the window's end, with the
channel in `ERR`, the model updated and the bytes before the failing one written. -/
def Obligations.EsymCompletesOrFillsTheWindow : Prop :=
  ∀ (s : State) (c : ChanNo) (m : SlotNo) (x : CtxSel) (j : Byte),
    let ctx := contextOf x s.slot[m]
    let k := s.coder c m
    s.Inv → s.ch[c].mode = .enc → s.slot[m].table.kind = 2 → ctx < s.slot[m].table.alphabet →
    j.toNat < s.slot[m].table.alphabet →
    (3 ≤ s.ch[c].room →
        ∃ t u, exec (.rcEsym c m x j) s = .next t ∧ k.EncodesSym ctx j.toNat none u ∧ s.SucceededCoding t c m u
          ∧ t.res = s.res ∧ t.ch[c].ptr.toNat ≤ s.ch[c].ptr.toNat + 3 ∧ s.dmem.SameOutside t.dmem [shifted s t c])
      ∧ (∀ u, k.EncodesSym ctx j.toNat none u →
          ∃ t, exec (.rcEsym c m x j) s = .next t ∧ s.SucceededCoding t c m u
            ∧ t.res = s.res ∧ s.dmem.SameOutside t.dmem [shifted s t c])
      ∧ ∀ e u, k.EncodesSym ctx j.toNat (some e) u →
          ∃ t, exec (.rcEsym c m x j) s = .next t ∧ e = .windowFull ∧ s.FailedCoding t c m .windowFull u
            ∧ t.ch[c].ptr = s.ch[c].limit ∧ s.dmem.SameOutside t.dmem [shifted s t c]

/-- R104, R119, R120, R125, R133: `RC_DSYM` with an open decoder, a `SYM` slot and a legal context writes no DMEM byte. With
a position below the row's total and three bytes to read it completes: the symbol whose interval holds the position in
`RES0`, the same narrowing and model update as the encoder's. With less to read it completes where `Renorm` does; where
`Renorm` raises, it is `DECODE`(1) with the channel in `ERR` and the model updated. A position at or beyond the total is
`DECODE`(2), with the channel in `ERR`, its interval and the model as they were. -/
def Obligations.DsymCompletesOrRaisesDecode : Prop :=
  ∀ (s : State) (c : ChanNo) (m : SlotNo) (x : CtxSel) (row : SymRow),
    let ctx := contextOf x s.slot[m]
    let k := s.coder c m
    let v := s.ch[c].position row.tot.toNat
    s.Inv → s.ch[c].mode = .dec → s.slot[m].table.row ctx = some row →
    (v < row.tot.toNat → 3 ≤ s.ch[c].room →
        ∃ t j u, exec (.rcDsym c m x) s = .next t ∧ k.DecodesSym ctx j none u ∧ s.SucceededCoding t c m u
          ∧ t.res = s.res.set 0 (word j) ∧ t.dmem = s.dmem)
      ∧ (∀ j u, k.DecodesSym ctx j none u →
          ∃ t, exec (.rcDsym c m x) s = .next t ∧ s.SucceededCoding t c m u
            ∧ t.res = s.res.set 0 (word j) ∧ t.dmem = s.dmem)
      ∧ (∀ j e u, k.DecodesSym ctx j (some e) u →
          ∃ t, exec (.rcDsym c m x) s = .next t ∧ e = .streamExhausted ∧ s.FailedCoding t c m .streamExhausted u
            ∧ t.dmem = s.dmem)
      ∧ (row.tot.toNat ≤ v →
          ∃ t, exec (.rcDsym c m x) s = .next t ∧ s.FailedCoding t c m .corruptValue k ∧ t.dmem = s.dmem)

/-- R119, R126, R134: `RC_EGAMMA` of a non-zero value with an open encoder and a `BIN` slot codes `k` continue bits, a stop
bit and the `k` bits below the leading one, most significant first, one after another on the slot's chain. With three
bytes of room for each bit it completes: these bits, the bytes shifted out and nothing else. With less it completes where
every bit does; where one of them raises, it is `CAPACITY`(2) with the channel in `ERR`, the earlier bits coded and the
failing bit's model update made. -/
def Obligations.EgammaCompletesOrFillsTheWindow : Prop :=
  ∀ (s : State) (c : ChanNo) (m : SlotNo),
    let v := s.argNat 0
    let bits := gammaBits v
    let k := s.coder c m
    s.Inv → s.ch[c].mode = .enc → s.slot[m].table.kind = 1 → 1 ≤ v →
    (∃ n, n ≤ 31 ∧ 2 ^ n ≤ v ∧ v < 2 ^ (n + 1) ∧ bits.length = 2 * n + 1
        ∧ bits.take n = List.replicate n true ∧ bits[n]? = some false
        ∧ ∀ i, i < n → bits[n + 1 + i]? = some (v.testBit (n - 1 - i)))
      ∧ (3 * bits.length ≤ s.ch[c].room →
          ∃ t u, exec (.rcEgamma c m) s = .next t ∧ Coder.EncodesBits bits k u ∧ s.SucceededCoding t c m u
            ∧ t.res = s.res ∧ t.ch[c].ptr.toNat ≤ s.ch[c].ptr.toNat + 3 * bits.length
            ∧ s.dmem.SameOutside t.dmem [shifted s t c])
      ∧ (∀ u, Coder.EncodesBits bits k u →
          ∃ t, exec (.rcEgamma c m) s = .next t ∧ s.SucceededCoding t c m u
            ∧ t.res = s.res ∧ s.dmem.SameOutside t.dmem [shifted s t c])
      ∧ ∀ (done rest : List Bool) (b : Bool) (k' : Coder) (e : Cause) (u : Coder),
          bits = done ++ b :: rest → Coder.EncodesBits done k k' → k'.EncodesBit k'.slot.last.toNat b (some e) u →
          ∃ t, exec (.rcEgamma c m) s = .next t ∧ e = .windowFull ∧ s.FailedCoding t c m .windowFull u
            ∧ t.ch[c].ptr = s.ch[c].limit ∧ s.dmem.SameOutside t.dmem [shifted s t c]

/-- R119, R120, R127, R135: `RC_DGAMMA` with an open decoder and a `BIN` slot writes no DMEM byte. Where the bits it decodes
one after another on the slot's chain are the code of a value of 1..2^32-1, it completes with that value in `RES0`. Where
they are 32 continue bits, it is `DECODE`(3). Where decoding a bit inside a code runs out of bytes, it is `DECODE`(1), and
where the position is beyond the scale, `DECODE`(2). Each puts the channel in `ERR` and keeps what was decoded before. -/
def Obligations.DgammaCompletesOrRaisesDecode : Prop :=
  ∀ (s : State) (c : ChanNo) (m : SlotNo),
    let k := s.coder c m
    let fails (e : Cause) (u : Coder) : Prop :=
      ∃ t, exec (.rcDgamma c m) s = .next t ∧ s.FailedCoding t c m e u ∧ t.dmem = s.dmem
    s.Inv → s.ch[c].mode = .dec → s.slot[m].table.kind = 1 →
    (∀ (v : Nat) (u : Coder), 1 ≤ v → v < 2 ^ 32 → Coder.DecodesBits (gammaBits v) k u →
        ∃ t, exec (.rcDgamma c m) s = .next t ∧ s.SucceededCoding t c m u
          ∧ t.res = s.res.set 0 (word v) ∧ t.dmem = s.dmem)
      ∧ (∀ u, Coder.DecodesBits (List.replicate 32 true) k u → fails .gammaOverrun u)
      ∧ ∀ (v : Nat) (bits : List Bool) (k' : Coder), 1 ≤ v → v < 2 ^ 32 → bits <+: gammaBits v → bits ≠ gammaBits v →
          Coder.DecodesBits bits k k' →
          (∀ b e u, k'.DecodesBit k'.slot.last.toNat b (some e) u → e = .streamExhausted ∧ fails .streamExhausted u)
            ∧ (4096 ≤ k'.str.ch.position 4096 → fails .corruptValue k')

/-- R119, R124, R136: `RC_ESTREAM` of bytes inside the slot's alphabet with an open encoder codes them one after another on
the slot's chain. With three bytes of room for each it completes: these symbols, the bytes shifted out and nothing else.
With less it completes where every symbol does; where one of them raises, it is `CAPACITY`(2) with the channel in `ERR`,
the earlier symbols coded, the failing symbol's model update made and the bytes before the failing one written. -/
def Obligations.EstreamCompletesOrFillsTheWindow : Prop :=
  ∀ (s : State) (c : ChanNo) (m : SlotNo),
    let xs := s.dmem.readBytes (s.argNat 0) (s.argNat 1)
    let k := s.coder c m
    s.Inv → s.ch[c].mode = .enc → s.slot[m].table.kind = 2 → s.argNat 0 + s.argNat 1 ≤ s.dmem.size →
    (∀ b ∈ xs, b.toNat < s.slot[m].table.alphabet) →
    (3 * s.argNat 1 ≤ s.ch[c].room →
        ∃ t u, exec (.rcEstream c m) s = .next t ∧ Coder.EncodesSyms xs k u ∧ s.SucceededCoding t c m u
          ∧ t.res = s.res ∧ t.slot[m].last = xs.getLastD s.slot[m].last
          ∧ t.ch[c].ptr.toNat ≤ s.ch[c].ptr.toNat + 3 * s.argNat 1 ∧ s.dmem.SameOutside t.dmem [shifted s t c])
      ∧ (∀ u, Coder.EncodesSyms xs k u →
          ∃ t, exec (.rcEstream c m) s = .next t ∧ s.SucceededCoding t c m u
            ∧ t.res = s.res ∧ s.dmem.SameOutside t.dmem [shifted s t c])
      ∧ ∀ (done rest : List Byte) (j : Byte) (k' : Coder) (e : Cause) (u : Coder),
          xs = done ++ j :: rest → Coder.EncodesSyms done k k' →
          k'.EncodesSym k'.slot.last.toNat j.toNat (some e) u →
          ∃ t, exec (.rcEstream c m) s = .next t ∧ e = .windowFull ∧ s.FailedCoding t c m .windowFull u
            ∧ t.ch[c].ptr = s.ch[c].limit ∧ s.dmem.SameOutside t.dmem [shifted s t c]

/-- R119, R120, R125, R137: `RC_DSTREAM` with an open decoder, a `SYM` slot and a destination in DMEM decodes symbols one
after another on the slot's chain and writes each before the next. Where `n` of them decode, it completes: those symbols
at the destination and no other byte. Where fewer do and the next runs out of bytes, it is `DECODE`(1) with that symbol's
model update made, and where its position is beyond the total, `DECODE`(2) without; each puts the channel in `ERR`, with
the symbols before it written and no other byte. -/
def Obligations.DstreamCompletesOrRaisesDecode : Prop :=
  ∀ (s : State) (c : ChanNo) (m : SlotNo) (xs : List Byte) (k' : Coder),
    let dst := s.argNat 0
    let n := s.argNat 1
    let fails (e : Cause) (u : Coder) : Prop :=
      ∃ t, exec (.rcDstream c m) s = .next t ∧ s.FailedCoding t c m e u ∧ s.dmem.After [(dst, xs)] t.dmem
    s.Inv → s.ch[c].mode = .dec → s.slot[m].table.kind = 2 → dst + n ≤ s.dmem.size →
    Coder.DecodesSyms xs dst (s.coder c m) k' →
    (xs.length = n →
        ∃ t, exec (.rcDstream c m) s = .next t ∧ s.SucceededCoding t c m k' ∧ t.res = s.res
          ∧ s.dmem.After [(dst, xs)] t.dmem ∧ s.dmem.SameOutside t.dmem [(dst, n)]
          ∧ (∀ b ∈ xs, b.toNat < s.slot[m].table.alphabet) ∧ t.slot[m].last = xs.getLastD s.slot[m].last)
      ∧ (xs.length < n →
          (∀ j e u, k'.DecodesSym k'.slot.last.toNat j (some e) u → e = .streamExhausted ∧ fails .streamExhausted u)
            ∧ (k'.SymCorrupt k'.slot.last.toNat → fails .corruptValue k'))

/-- R119, R138: `RC_EFLUSH` with an open encoder and four bytes of room completes: the four bytes of `low`, most significant
first, the stream's length in `RES0`, the channel `IDLE` with `low` 0, and nothing else. With less room it raises
`CAPACITY`(2): the bytes of `low` that fit are written, the channel is in `ERR` with `ptr` at the window's end and `low`
shifted as often, no result is written and nothing else changes. -/
def Obligations.EflushCompletesOrFillsTheWindow : Prop :=
  ∀ (s : State) (c : ChanNo),
    let ptr := s.ch[c].ptr.toNat
    let room := s.ch[c].room
    s.Inv → s.ch[c].mode = .enc →
    (4 ≤ room →
        ∃ t, exec (.rcEflush c) s = .next t ∧ s.Succeeded t ∧ s.OnlyChannel t c
          ∧ s.dmem.After [(ptr, beBytes s.ch[c].low.toNat 4)] t.dmem
          ∧ s.dmem.SameOutside t.dmem [(ptr, 4)]
          ∧ t.res = s.res.set 0 (word (ptr + 4 - s.ch[c].base.toNat))
          ∧ t.ch[c] = { s.ch[c] with mode := .idle, low := 0#32, ptr := s.ch[c].ptr + 4#32 })
      ∧ (room < 4 →
        ∃ t, exec (.rcEflush c) s = .next t ∧ s.Failed t .windowFull ∧ s.OnlyChannel t c
          ∧ s.dmem.After [(ptr, (beBytes s.ch[c].low.toNat 4).take room)] t.dmem
          ∧ s.dmem.SameOutside t.dmem [(ptr, room)]
          ∧ t.ch[c] = { s.ch[c] with mode := .err, low := s.ch[c].low <<< (8 * room), ptr := s.ch[c].limit })

/-- R128, R139: `RC_EINIT` on a window in DMEM completes in every mode: the channel freshly open for encoding, as its only
effect; outside DMEM it raises `BOUNDS`(1) with nothing done. `RC_DFIN` with an open decoder completes: the bytes consumed
in `RES0`, those left in `RES1`, and the channel `IDLE`, as its only effect; in every other mode it raises `STATE`(1) with
nothing done. -/
def Obligations.EinitOpensAndDfinCloses : Prop :=
  ∀ (s : State) (c : ChanNo), s.Inv →
    (s.argNat 0 + s.argNat 1 ≤ s.dmem.size →
        ∃ t, exec (.rcEinit c) s = .next t ∧ s.SucceededQuietly t ∧ s.OnlyChannel t c
          ∧ t.ch[c].mode = .enc ∧ t.ch[c].low = 0#32 ∧ t.ch[c].range = 0xFFFFFFFF#32 ∧ t.ch[c].code = 0#32
          ∧ t.ch[c].base = s.arg[0] ∧ t.ch[c].ptr = s.arg[0]
          ∧ t.ch[c].limit.toNat = s.argNat 0 + s.argNat 1)
      ∧ (s.dmem.size < s.argNat 0 + s.argNat 1 →
          ∃ t, exec (.rcEinit c) s = .next t ∧ s.FailedUntouched t .outOfBounds)
      ∧ (s.ch[c].mode = .dec →
          ∃ t, exec (.rcDfin c) s = .next t ∧ s.Succeeded t ∧ s.OnlyChannel t c ∧ t.dmem = s.dmem
            ∧ t.res = (s.res.set 0 (word (s.ch[c].ptr.toNat - s.ch[c].base.toNat))).set 1
                (word (s.ch[c].limit.toNat - s.ch[c].ptr.toNat))
            ∧ t.ch[c] = { s.ch[c] with mode := .idle })
      ∧ (s.ch[c].mode ≠ .dec → ∃ t, exec (.rcDfin c) s = .next t ∧ s.FailedUntouched t .channelMode)

/-- R130-R137, R146: the checks a coding command makes before any effect: the channel's mode, then the slot's kind, then
context, symbol, value, range and source bytes in the rules' order; the first that fails is the error, with nothing done. -/
def Obligations.CodingChecksInTheirOrder : Prop :=
  ∀ (s : State) (c : ChanNo) (m : SlotNo) (x : CtxSel) (b : Bool) (j : Byte),
    let fails (i : Instr) (e : Cause) : Prop := ∃ t, exec i s = .next t ∧ s.FailedUntouched t e
    let kind := s.slot[m].table.kind
    let n := s.slot[m].table.alphabet
    let ctx := contextOf x s.slot[m]
    let out := s.dmem.size < s.argNat 0 + s.argNat 1
    (s.ch[c].mode ≠ .enc → ∀ i ∈ [Instr.rcEbit c m x b, .rcEsym c m x j, .rcEgamma c m, .rcEstream c m, .rcEflush c],
        fails i .channelMode)
      ∧ (s.ch[c].mode ≠ .dec → ∀ i ∈ [Instr.rcDbit c m x, .rcDsym c m x, .rcDgamma c m, .rcDstream c m],
          fails i .channelMode)
      ∧ (s.ch[c].mode = .enc →
          (kind ≠ 1 → fails (.rcEbit c m x b) .slotKind ∧ fails (.rcEgamma c m) .slotKind)
            ∧ (kind ≠ 2 → fails (.rcEsym c m x j) .slotKind ∧ fails (.rcEstream c m) .slotKind)
            ∧ (kind = 1 → 2 ≤ ctx → fails (.rcEbit c m x b) .badContext)
            ∧ (kind = 1 → s.argNat 0 = 0 → fails (.rcEgamma c m) .gammaZero)
            ∧ (kind = 2 → n ≤ ctx → fails (.rcEsym c m x j) .badContext)
            ∧ (kind = 2 → ctx < n → n ≤ j.toNat → fails (.rcEsym c m x j) .badSymbol)
            ∧ (kind = 2 → out → fails (.rcEstream c m) .outOfBounds)
            ∧ (kind = 2 → ¬ out → (∃ y ∈ s.dmem.readBytes (s.argNat 0) (s.argNat 1), n ≤ y.toNat) →
                fails (.rcEstream c m) .badSourceByte))
      ∧ (s.ch[c].mode = .dec →
          (kind ≠ 1 → fails (.rcDbit c m x) .slotKind ∧ fails (.rcDgamma c m) .slotKind)
            ∧ (kind ≠ 2 → fails (.rcDsym c m x) .slotKind ∧ fails (.rcDstream c m) .slotKind)
            ∧ (kind = 1 → 2 ≤ ctx → fails (.rcDbit c m x) .badContext)
            ∧ (kind = 2 → n ≤ ctx → fails (.rcDsym c m x) .badContext)
            ∧ (kind = 2 → out → fails (.rcDstream c m) .outOfBounds))

/-! ### Round trips -/

/-- R111, R121 items 5 and 6: what `RC_ESTREAM` and `RC_EFLUSH` wrote on a freshly opened channel, `RC_DINIT` and `RC_DSTREAM`
read back: for any window of the flushed length that holds the same bytes and any slot that starts as the encoder's did,
both complete, the decoded bytes are the encoded ones, the slot ends as the encoder's did and the window is read to its
end. -/
def Obligations.DecodedStreamIsTheEncodedOne : Prop :=
  ∀ (s s1 s2 u : State) (c d : ChanNo) (m m' : SlotNo),
    let base := s.ch[c].base.toNat
    let len := s2.res[0].toNat
    s.Inv → s.ch[c] = Channel.opened .enc base s.ch[c].room →
    exec (.rcEstream c m) s = .next s1 → s1.status.err = false →
    exec (.rcEflush c) s1 = .next s2 → s2.status.err = false →
    u.Inv → u.argNat 1 = len → u.argNat 0 + len ≤ u.dmem.size →
    u.dmem.readBytes (u.argNat 0) len = s2.dmem.readBytes base len → u.slot[m'] = s.slot[m] →
    ∃ u1, exec (.rcDinit d) u = .next u1 ∧ u.Succeeded u1 ∧
      ∀ v : State, v.Inv → v.ch[d] = u1.ch[d] → v.slot[m'] = u1.slot[m'] → v.dmem = u1.dmem →
        v.argNat 1 = s.argNat 1 → v.argNat 0 + v.argNat 1 ≤ v.dmem.size →
        Apart (u.argNat 0, len) (v.argNat 0, v.argNat 1) →
        ∃ t, exec (.rcDstream d m') v = .next t ∧ v.Succeeded t
          ∧ t.dmem.readBytes (v.argNat 0) (v.argNat 1) = s.dmem.readBytes (s.argNat 0) (s.argNat 1)
          ∧ t.slot[m'] = s2.slot[m] ∧ t.ch[d].ptr = t.ch[d].limit

/-- R111, R121 items 5 and 6, R127: what `RC_EGAMMA` and `RC_EFLUSH` wrote on a freshly opened channel, `RC_DINIT` and
`RC_DGAMMA` read back: both complete, the value is the encoded one, the slot ends as the encoder's did and the window is
read to its end. -/
def Obligations.DecodedGammaIsTheEncodedValue : Prop :=
  ∀ (s s1 s2 u : State) (c d : ChanNo) (m m' : SlotNo),
    let base := s.ch[c].base.toNat
    let len := s2.res[0].toNat
    s.Inv → s.ch[c] = Channel.opened .enc base s.ch[c].room →
    exec (.rcEgamma c m) s = .next s1 → s1.status.err = false →
    exec (.rcEflush c) s1 = .next s2 → s2.status.err = false →
    u.Inv → u.argNat 1 = len → u.argNat 0 + len ≤ u.dmem.size →
    u.dmem.readBytes (u.argNat 0) len = s2.dmem.readBytes base len → u.slot[m'] = s.slot[m] →
    ∃ u1, exec (.rcDinit d) u = .next u1 ∧ u.Succeeded u1 ∧
      ∀ v : State, v.Inv → v.ch[d] = u1.ch[d] → v.slot[m'] = u1.slot[m'] → v.dmem = u1.dmem →
        ∃ t, exec (.rcDgamma d m') v = .next t ∧ v.Succeeded t
          ∧ t.res = v.res.set 0 s.arg[0]
          ∧ t.slot[m'] = s2.slot[m] ∧ t.ch[d].ptr = t.ch[d].limit

/-! ### Errors and frames of every command -/

/-- R27, R28, R70, R149, R150: every command that ends either succeeds, with no RES register written that its row does not
list, or enters its error with no RES register written; either way no ARG register, the held command or anything else on
the host's side changes. -/
def Obligations.EveryCommandSucceedsOrFailsWhole : Prop :=
  ∀ (i : Instr) (s t : State), exec i s = .next t →
    (s.Succeeded t ∧ ∀ k : Fin 8, resultCount i ≤ k.val → t.res[k] = s.res[k])
      ∨ ∃ e, s.Failed t e

/-- R144, R145: the code and subcode of every cause; different causes have different pairs. -/
def Obligations.CodesAndSubcodesOfTheCauses : Prop :=
  (∀ e e' : Cause, e.code.number = e'.code.number → e.sub = e'.sub → e = e')
    ∧ [Cause.badPrimaryIndex, .streamExhausted, .corruptValue, .gammaOverrun, .runCountMismatch, .zeroRun,
        .badStructure, .badOffset, .blockTooLong, .windowFull, .joinTooLong, .illegal .opcode, .illegal .field,
        .illegal .config, .outOfBounds, .channelMode, .slotKind, .badContext, .badSymbol, .gammaZero,
        .badSourceByte, .badPeek, .badTierPair, .tierValueTooLarge].map (fun e => (e.code.number.toNat, e.sub.toNat))
      = [(1, 1), (2, 1), (2, 2), (2, 3), (2, 4), (2, 5), (2, 6), (2, 7), (4, 1), (4, 2), (4, 3), (5, 1), (5, 2),
          (5, 3), (6, 1), (7, 1), (7, 2), (8, 1), (8, 2), (8, 3), (8, 4), (8, 5), (8, 6), (8, 7)]

/-- R121, R146, R150: an accepted command's error is a channel error, with the channel in `ERR`, exactly for the raises of
`Shift`, `DecodeValue` and `DecGamma`; any other error leaves every unit and DMEM as they were. -/
def Obligations.OnlyChannelErrorsLeaveATrace : Prop :=
  ∀ (i : Instr) (s t : State) (e : Cause), s.Inv → s.status.busy = true → exec i s = .next t → s.Failed t e →
    (e.OfChannel → ∃ c, channelOf i = some c ∧ t.ch[c].mode = .err ∧ s.SameOtherChannels t c)
      ∧ (¬ e.OfChannel → s.FailedUntouched t e)

/-- R31, R140, R150: no command touches a channel or a slot that it does not name, and none but `RC_EINIT` and `RC_DINIT` on it
changes a channel in `ERR`. -/
def Obligations.ChannelsAndSlotsAreIndependent : Prop :=
  ∀ (i : Instr) (s t : State), exec i s = .next t →
    (∀ c : ChanNo, channelOf i ≠ some c → t.ch[c] = s.ch[c])
      ∧ (∀ m : SlotNo, slotOf i ≠ some m → t.slot[m] = s.slot[m])
      ∧ ∀ c : ChanNo, s.ch[c].mode = .err → i ≠ .rcEinit c → i ≠ .rcDinit c → t.ch[c] = s.ch[c]

/-- R54, R119, R162: every command, whether it succeeds or fails, changes no DMEM byte outside its destination ranges and,
for a coding command, what was left of its channel's window; which ranges these are is the model's reading of R162
(log 6). And a command that stores nothing, a decoding one without a destination included, leaves all of DMEM as it was. -/
def Obligations.CommandWritesOnlyItsRanges : Prop :=
  ∀ (i : Instr) (s t : State), exec i s = .next t →
    s.dmem.SameOutside t.dmem (s.couldWrite i) ∧ (storesNothing i = true → t.dmem = s.dmem)

/-! ### The invariant -/

/-- R9, R23, R35, R38, R44, R107, R110, R121: the machine right after reset, with the reference parameters and the model's
values for what cannot be observed (logs 1, 2, 7), meets the invariant. -/
def Obligations.ResetMeetsTheInvariant : Prop := State.reset.Inv

/-- R9, R23, R38, R54, R107, R110, R121: from every state of the invariant, whatever the port does, the machine makes a step:
it neither faults nor refuses, and the invariant holds after it. -/
def Obligations.EveryStepKeepsTheInvariant : Prop :=
  ∀ s : State, s.Inv → ∃ t, step s = .next t ∧ t.Inv

/-! ### The host port -/

/-- R147, R148: a `CMD` write with no command running and no error standing is accepted; a `CMD` write otherwise, and an ARG
write or an aperture write of any width while a command runs, is rejected: `REJ` and no other effect. An ARG write with
none running stores. The port's answer is left out. -/
def Obligations.WritesAreAcceptedOrRejected : Prop :=
  ∀ (s : State) (w : Word), s.rst = false →
    let write (off : Nat) : State :=
      { s.portAction (.write (s.params.hostBase + off) 4 w) with response := s.response }
    let rejected : State := { s with status := { s.status with rej := true } }
    (s.status.busy = false → s.status.err = false →
        write 0x00C = { s with status := { s.status with busy := true, done := false }, cmd := w })
      ∧ (s.status.busy = true ∨ s.status.err = true → write 0x00C = rejected)
      ∧ (∀ i : Fin 8, s.status.busy = false →
          write (0x020 + 4 * i.val) = { s with arg := s.arg.set i w i.isLt })
      ∧ (∀ i : Fin 8, s.status.busy = true → write (0x020 + 4 * i.val) = rejected)
      ∧ ∀ a width, PortTakes s.dmem.size (0x100000 + a) width → s.dmem.size ≤ 2 ^ 20 → s.status.busy = true →
          { s.portAction (.write (s.params.hostBase + 0x100000 + a) width w) with response := s.response } = rejected

/-- R22, R151, R154: a `CTRL` write without `SRST` clears what `ERRCLR` and `DONECLR` name, in that order, and then sets `IE`; it
changes nothing else but the port's answer, whether or not a command runs. -/
def Obligations.CtrlWriteActsInOrder : Prop :=
  ∀ (s : State) (w : Word), s.rst = false → w.getLsbD 3 = false →
    { s.portAction (.write (s.params.hostBase + 0x004) 4 w) with response := s.response } =
      { s with
        ie := w.getLsbD 0
        status :=
          { busy := s.status.busy
            done := s.status.done && !w.getLsbD 2
            err := s.status.err && !w.getLsbD 1
            rej := s.status.rej && !w.getLsbD 1
            errcode := if w.getLsbD 1 then 0#8 else s.status.errcode }
        errinfo := if w.getLsbD 1 then 0#32 else s.errinfo
        errcmd := if w.getLsbD 1 then 0#32 else s.errcmd }

/-- R44, R161, R162: a `CTRL` write with `SRST` puts every register, channel and slot at its reset value, whatever else it
carries; DMEM is kept where no command runs, and under a running one outside what it could write (the model's
reading, log 6). Asserting `rst` does the same to the registers; while it is asserted they stay so at every step, and
accesses change nothing; its release changes nothing but the level (the model's reading, log 15). -/
def Obligations.ResetsRestoreTheRegisters : Prop :=
  (∀ s t : State, s.HeldInReset → step s = .next t → t.HeldInReset) ∧
  ∀ (s : State) (w : Word) (i : Instr),
    let soft := s.portAction (.write (s.params.hostBase + 0x004) 4 w)
    let hard := s.portAction (.rst true)
    (s.rst = false → w.getLsbD 3 = true →
        soft.AtReset ∧ soft.rst = false ∧ soft.port = s.port ∧ soft.params = s.params
          ∧ (s.status.busy = false → soft.dmem = s.dmem)
          ∧ (s.status.busy = true → decode s.cmd = .ok i → s.dmem.SameOutside soft.dmem (s.couldWrite i))
          ∧ (s.status.busy = true → ∀ why, decode s.cmd = .error why → soft.dmem = s.dmem))
      ∧ hard.AtReset ∧ hard.rst = true ∧ hard.port = s.port ∧ hard.params = s.params
      ∧ hard.dmem.size = s.dmem.size
      ∧ (∀ addr width, ∃ r, hard.portAction (.read addr width) = { hard with response := r })
      ∧ (∀ addr width v, ∃ r, hard.portAction (.write addr width v) = { hard with response := r })
      ∧ hard.portAction (.rst false) = { hard with rst := false }

/-- R46, R51, R53, R55: inside the block's region, an access that R51 does not list gets a bus error response and changes no
state, and every access it lists gets another answer, a rejected or ignored write included (the model's choice, log 9). No
read changes anything but the port's answer (and the count of
free values drawn), nor does a write to a register that R53 calls ignored. -/
def Obligations.AccessesWithoutEffect : Prop :=
  ∀ (s : State) (off width : Nat) (w : Word), s.rst = false → off < 2 ^ 21 →
    let addr := s.params.hostBase + off
    (¬ PortTakes s.dmem.size off width →
        s.portAction (.read addr width) = { s with response := .busError }
          ∧ s.portAction (.write addr width w) = { s with response := .busError })
      ∧ (PortTakes s.dmem.size off width →
          (∃ v n, s.portAction (.read addr width) = { s with response := .data v, draws := n })
            ∧ (s.portAction (.write addr width w)).response ≠ .busError)
      ∧ (off < 0x400 → off % 4 = 0 → off ≠ 0x004 → off ≠ 0x00C → ¬ (0x020 ≤ off ∧ off < 0x040) →
          ∃ r, s.portAction (.write addr 4 w) = { s with response := r })

/-- R20-R29, R32, R37: what each register reads as: while no command runs every one of the map, and while one runs those
outside the views. -/
def Obligations.RegisterMapReadsTheState : Prop :=
  ∀ s : State, s.rst = false →
    let reads (off : Nat) (v : Word) : Prop :=
      (s.portAction (.read (s.params.hostBase + off) 4)).response = .data v
    reads 0x000 0x52430001#32
      ∧ reads 0x004 (if s.ie then 1#32 else 0#32)
      ∧ (∃ v, reads 0x008 v ∧ v.getLsbD 0 = s.status.busy ∧ v.getLsbD 1 = s.status.done ∧ v.getLsbD 2 = s.status.err
          ∧ v.getLsbD 3 = s.status.rej ∧ v.toNat / 16 = s.status.errcode.toNat * 16)
      ∧ reads 0x00C 0#32 ∧ reads 0x010 s.errinfo ∧ reads 0x014 s.errcmd
      ∧ (∀ i : Fin 8, reads (0x020 + 4 * i.val) s.arg[i] ∧ reads (0x040 + 4 * i.val) s.res[i])
      ∧ (∀ off, off % 4 = 0 → (0x018 ≤ off ∧ off < 0x020) ∨ (0x060 ≤ off ∧ off < 0x100) ∨ (0x1C0 ≤ off ∧ off < 0x400) →
          reads off 0#32)
      ∧ (s.status.busy = false → ∀ c : ChanNo,
          let view (k : Nat) (v : Word) : Prop := reads (0x100 + 0x20 * c.val + k) v
          view 0x00 (word s.ch[c].mode.number) ∧ view 0x04 s.ch[c].low ∧ view 0x08 s.ch[c].range
            ∧ view 0x0C s.ch[c].code ∧ view 0x10 s.ch[c].base ∧ view 0x14 s.ch[c].ptr ∧ view 0x18 s.ch[c].limit
            ∧ view 0x1C 0#32)
      ∧ (s.status.busy = false → ∀ m : SlotNo,
          reads (0x180 + 8 * m.val) (word (s.slot[m].table.kind + 256 * s.slot[m].table.alphabet))
            ∧ reads (0x184 + 8 * m.val) (s.slot[m].last.setWidth 32))

/-- R47, R49: with no command running, an aperture write of 8, 16 or 32 bits stores that many low bits of its data, the most
significant byte at the lowest address, and changes no other byte; and an aperture read of any width returns the bytes it
covers in the same order, the upper bits of a shorter one 0 (the model's choice, log 9). So what a host writes it reads
back. -/
def Obligations.ApertureIsBigEndian : Prop :=
  ∀ (s : State) (a width : Nat) (w : Word), s.rst = false → s.status.busy = false → s.dmem.size ≤ 2 ^ 20 →
    PortTakes s.dmem.size (0x100000 + a) width →
    let at_ : Nat := s.params.hostBase + 0x100000 + a
    let t := s.portAction (.write at_ width w)
    let byte (k : Nat) : Nat := (s.dmem.read (a + k)).toNat
    t = { s with dmem := t.dmem, response := t.response }
      ∧ s.dmem.SameOutside t.dmem [(a, width)]
      ∧ (∀ k, k < width → (t.dmem.read (a + k)).toNat = w.toNat / 2 ^ (8 * (width - 1 - k)) % 256)
      ∧ (t.portAction (.read at_ width)).response = .data (word (w.toNat % 2 ^ (8 * width)))
      ∧ (width = 4 → t.dmem.read32 a = w.toNat)
      ∧ ∃ v : Word, (s.portAction (.read at_ width)).response = .data v
          ∧ (width = 1 → v.toNat = byte 0)
          ∧ (width = 2 → v.toNat = byte 0 * 2 ^ 8 + byte 1)
          ∧ (width = 4 → v.toNat = byte 0 * 2 ^ 24 + byte 1 * 2 ^ 16 + byte 2 * 2 ^ 8 + byte 3)

/-- R153: the interrupt output is `IE AND DONE`: high at the end of every command while `IE` is 1, low under `IE` 0 and
after `DONECLR`, an accepted command and reset; a `CTRL` write that sets `IE` and clears nothing shows `DONE`, and no
write but to `CTRL` and `CMD` changes it, nor does a rejected one. -/
def Obligations.InterruptIsIeAndDone : Prop :=
  (∀ s : State, s.irq = (s.ie && s.status.done))
    ∧ (∀ (i : Instr) (s t : State), exec i s = .next t → t.irq = s.ie)
    ∧ ∀ (s : State) (w : Word), s.rst = false →
        let write (off : Nat) : State := s.portAction (.write (s.params.hostBase + off) 4 w)
        (w.getLsbD 0 = false ∨ w.getLsbD 2 = true ∨ w.getLsbD 3 = true → (write 0x004).irq = false)
          ∧ (w.getLsbD 0 = true → w.getLsbD 2 = false → w.getLsbD 3 = false → (write 0x004).irq = s.status.done)
          ∧ (s.status.busy = false → s.status.err = false → (write 0x00C).irq = false)
          ∧ (s.status.busy = true ∨ s.status.err = true → (write 0x00C).irq = s.irq)
          ∧ (∀ off, off < 2 ^ 21 → off ≠ 0x004 → off ≠ 0x00C → (write off).irq = s.irq)
          ∧ (s.portAction (.rst true)).irq = false
end

