-- ==== Sys2Proof/Laws/Memory.lean ====
section
/-!
SUPPORT. What the operations on DMEM do: read after write, what a write leaves alone, and that every operation keeps
the canonical form. And what a write of the BWT scratch store does to each of its entries.
-/

namespace Sys2Proof.Machine

theorem lookupCell_putCell_same (l : List Host.Cell) (a : Nat) (b : Byte) :
    lookupCell (putCell l a b) a = some b := by
  induction l with
  | nil => simp [putCell, lookupCell]
  | cons x rest ih =>
    obtain ⟨k, v⟩ := x
    unfold putCell
    split_ifs with h1 h2
    · simp [lookupCell]
    · simp [lookupCell]
    · simp [lookupCell, h2, ih]

theorem lookupCell_putCell_other (l : List Host.Cell) {a a' : Nat} (b : Byte) (h : a' ≠ a) :
    lookupCell (putCell l a b) a' = lookupCell l a' := by
  induction l with
  | nil => simp [putCell, lookupCell, h]
  | cons x rest ih =>
    obtain ⟨k, v⟩ := x
    unfold putCell
    split_ifs with h1 h2
    · simp [lookupCell, h]
    · subst h2; simp [lookupCell, h]
    · by_cases hk : a' = k <;> simp [lookupCell, hk, ih]

theorem cellsWf_mono {size lo lo' : Nat} {l : List Host.Cell} (h : cellsWf size lo l = true) (hlo : lo' ≤ lo) :
    cellsWf size lo' l = true := by
  cases l with
  | nil => rfl
  | cons x rest =>
    simp only [cellsWf, Bool.and_eq_true, decide_eq_true_eq] at h ⊢
    exact ⟨⟨by omega, h.1.2⟩, h.2⟩

theorem cellsWf_putCell {size lo a : Nat} {l : List Host.Cell} (b : Byte) (h : cellsWf size lo l = true)
    (hlo : lo ≤ a) (ha : a < size) : cellsWf size lo (putCell l a b) = true := by
  induction l generalizing lo with
  | nil => simp [putCell, cellsWf, hlo, ha]
  | cons x rest ih =>
    obtain ⟨k, v⟩ := x
    simp only [cellsWf, Bool.and_eq_true, decide_eq_true_eq] at h
    unfold putCell
    split_ifs with h1 h2
    · simp only [cellsWf, Bool.and_eq_true, decide_eq_true_eq]
      exact ⟨⟨hlo, ha⟩, ⟨⟨by omega, h.1.2⟩, h.2⟩⟩
    · subst h2
      simp only [cellsWf, Bool.and_eq_true, decide_eq_true_eq]
      exact ⟨⟨hlo, ha⟩, h.2⟩
    · simp only [cellsWf, Bool.and_eq_true, decide_eq_true_eq]
      exact ⟨⟨h.1.1, h.1.2⟩, ih h.2 (by omega)⟩

/-! ### One byte -/

@[simp] theorem Dmem.write_size (m : Dmem) (a : Nat) (b : Byte) : (m.write a b).size = m.size := by
  unfold Dmem.write; split <;> rfl

@[simp] theorem Dmem.write_fill (m : Dmem) (a : Nat) (b : Byte) : (m.write a b).fill = m.fill := by
  unfold Dmem.write; split <;> rfl

theorem Dmem.read_write_same (m : Dmem) {a : Nat} (b : Byte) (h : a < m.size) : (m.write a b).read a = b := by
  simp [Dmem.write, h, Dmem.read, lookupCell_putCell_same]

theorem Dmem.read_write_other (m : Dmem) {a a' : Nat} (b : Byte) (h : a' ≠ a) :
    (m.write a b).read a' = m.read a' := by
  unfold Dmem.write
  split
  · simp [Dmem.read, Dmem.unlisted, lookupCell_putCell_other _ _ h]
  · rfl

theorem Dmem.wf_write {m : Dmem} (a : Nat) (b : Byte) (h : m.wf = true) : (m.write a b).wf = true := by
  unfold Dmem.write
  split
  case isTrue ha => exact cellsWf_putCell b h (Nat.zero_le a) ha
  case isFalse => exact h

/-! ### Byte ranges -/

@[simp] theorem Dmem.readBytes_length (m : Dmem) (a n : Nat) : (m.readBytes a n).length = n := by
  induction n generalizing a with
  | zero => rfl
  | succ n ih => simp [Dmem.readBytes, ih]

theorem Dmem.readBytes_getElem? (m : Dmem) (a n i : Nat) :
    (m.readBytes a n)[i]? = if i < n then some (m.read (a + i)) else none := by
  induction n generalizing a i with
  | zero => simp [Dmem.readBytes]
  | succ n ih =>
    cases i with
    | zero => simp [Dmem.readBytes]
    | succ i =>
      have e : a + 1 + i = a + (i + 1) := by omega
      simp [Dmem.readBytes, ih, e]

@[simp] theorem Dmem.writeBytes_size (m : Dmem) (a : Nat) (bs : List Byte) : (m.writeBytes a bs).size = m.size := by
  induction bs generalizing m a with
  | nil => rfl
  | cons b bs ih => simp [Dmem.writeBytes, ih]

@[simp] theorem Dmem.writeBytes_fill (m : Dmem) (a : Nat) (bs : List Byte) : (m.writeBytes a bs).fill = m.fill := by
  induction bs generalizing m a with
  | nil => rfl
  | cons b bs ih => simp [Dmem.writeBytes, ih]

theorem Dmem.wf_writeBytes {m : Dmem} (a : Nat) (bs : List Byte) (h : m.wf = true) :
    (m.writeBytes a bs).wf = true := by
  induction bs generalizing m a with
  | nil => exact h
  | cons b bs ih => exact ih (a + 1) (Dmem.wf_write a b h)

/-- A range write leaves every byte outside the range alone. -/
theorem Dmem.read_writeBytes_outside (m : Dmem) (a : Nat) (bs : List Byte) (x : Nat)
    (h : x < a ∨ a + bs.length ≤ x) : (m.writeBytes a bs).read x = m.read x := by
  induction bs generalizing m a with
  | nil => rfl
  | cons b bs ih =>
    simp only [List.length_cons] at h
    rw [Dmem.writeBytes, ih _ _ (by omega), Dmem.read_write_other _ _ (by omega)]

/-- A range write in range puts each byte at its address. -/
theorem Dmem.read_writeBytes_inside (m : Dmem) (a : Nat) (bs : List Byte) (i : Nat) (hi : i < bs.length)
    (h : a + bs.length ≤ m.size) : (m.writeBytes a bs).read (a + i) = bs[i] := by
  induction bs generalizing m a i with
  | nil => simp at hi
  | cons b bs ih =>
    simp only [List.length_cons] at h hi
    cases i with
    | zero =>
      rw [Dmem.writeBytes, Dmem.read_writeBytes_outside _ _ _ _ (by omega)]
      simp [Dmem.read_write_same m b (show a < m.size by omega)]
    | succ i =>
      have e : a + (i + 1) = a + 1 + i := by omega
      rw [Dmem.writeBytes, e, ih _ _ _ (by omega) (by simp; omega)]
      simp

/-- What is written in range is what a read of the range gives. -/
theorem Dmem.readBytes_writeBytes (m : Dmem) (a : Nat) (bs : List Byte) (h : a + bs.length ≤ m.size) :
    (m.writeBytes a bs).readBytes a bs.length = bs := by
  apply List.ext_getElem?
  intro i
  rw [Dmem.readBytes_getElem?]
  split
  case isTrue hi => rw [Dmem.read_writeBytes_inside m a bs i hi h, List.getElem?_eq_getElem hi]
  case isFalse hi => rw [List.getElem?_eq_none (by omega)]

@[simp] theorem writeRanges_size (m : Dmem) (l : List (Nat × List Byte)) : (writeRanges m l).size = m.size := by
  induction l generalizing m with
  | nil => rfl
  | cons x l ih => obtain ⟨a, bs⟩ := x; simp [writeRanges, ih]

@[simp] theorem writeRanges_fill (m : Dmem) (l : List (Nat × List Byte)) : (writeRanges m l).fill = m.fill := by
  induction l generalizing m with
  | nil => rfl
  | cons x l ih => obtain ⟨a, bs⟩ := x; simp [writeRanges, ih]

theorem wf_writeRanges {m : Dmem} (l : List (Nat × List Byte)) (h : m.wf = true) : (writeRanges m l).wf = true := by
  induction l generalizing m with
  | nil => exact h
  | cons x l ih => exact ih (Dmem.wf_writeBytes x.1 x.2 h)

/-- A plan's writes leave every byte outside their ranges alone. -/
theorem read_writeRanges_outside (m : Dmem) (l : List (Nat × List Byte)) (x : Nat)
    (h : ∀ w ∈ l, x < w.1 ∨ w.1 + w.2.length ≤ x) : (writeRanges m l).read x = m.read x := by
  induction l generalizing m with
  | nil => rfl
  | cons w l ih =>
    obtain ⟨a, bs⟩ := w
    rw [writeRanges, ih _ fun w hw => h w (List.mem_cons_of_mem _ hw)]
    exact Dmem.read_writeBytes_outside _ _ _ _ (h (a, bs) (List.mem_cons_self ..))

/-! ### Free values -/

@[simp] theorem Dmem.blur_size (m : Dmem) (d a n : Nat) : (m.blur d a n).size = m.size := by
  induction n generalizing m a with
  | zero => rfl
  | succ n ih => simp [Dmem.blur, ih]

theorem Dmem.wf_blur {m : Dmem} (d a n : Nat) (h : m.wf = true) : (m.blur d a n).wf = true := by
  induction n generalizing m a with
  | zero => exact h
  | succ n ih => exact ih (a + 1) (Dmem.wf_write a _ h)

theorem Dmem.read_blur_outside (m : Dmem) (d a n x : Nat) (h : x < a ∨ a + n ≤ x) :
    (m.blur d a n).read x = m.read x := by
  induction n generalizing m a with
  | zero => rfl
  | succ n ih => rw [Dmem.blur, ih _ _ (by omega), Dmem.read_write_other _ _ (by omega)]

@[simp] theorem Dmem.blurRanges_size (m : Dmem) (d : Nat) (l : List Range) : (m.blurRanges d l).size = m.size := by
  induction l generalizing m with
  | nil => rfl
  | cons x l ih => obtain ⟨a, n⟩ := x; simp [Dmem.blurRanges, ih]

theorem Dmem.wf_blurRanges {m : Dmem} (d : Nat) (l : List Range) (h : m.wf = true) :
    (m.blurRanges d l).wf = true := by
  induction l generalizing m with
  | nil => exact h
  | cons x l ih => exact ih (Dmem.wf_blur d x.1 x.2 h)

theorem Dmem.read_blurRanges_outside (m : Dmem) (d : Nat) (l : List Range) (x : Nat)
    (h : ∀ r ∈ l, x < r.1 ∨ r.1 + r.2 ≤ x) : (m.blurRanges d l).read x = m.read x := by
  induction l generalizing m with
  | nil => rfl
  | cons r l ih =>
    obtain ⟨a, n⟩ := r
    rw [Dmem.blurRanges, ih _ fun r hr => h r (List.mem_cons_of_mem _ hr)]
    exact Dmem.read_blur_outside _ _ _ _ _ (h (a, n) (List.mem_cons_self ..))

/-! ### The BWT scratch store -/

@[simp] theorem Scratch.store_fill (m : Scratch) (ws : List Word) : (m.store ws).fill = m.fill := rfl

/-- Each written entry holds its word, and every entry beyond them what it held. -/
theorem Scratch.entry_store (m : Scratch) (ws : List Word) (k : Nat) :
    (m.store ws).entry k = ws.getD k (m.entry k) := by
  simp only [Scratch.entry, Scratch.store, List.getD_eq_getElem?_getD]
  by_cases h : k < ws.length
  · rw [List.getElem?_append_left h]; simp [h]
  · rw [List.getElem?_append_right (by omega), List.getElem?_eq_none (show ws.length ≤ k by omega), List.getElem?_drop,
      Nat.add_sub_cancel' (by omega)]
    rfl

/-- A write of at most `bound` entries lists none from `bound` on, where none was. -/
theorem Scratch.store_length_le {m : Scratch} {ws : List Word} {bound : Nat} (h : m.entries.length ≤ bound)
    (hw : ws.length ≤ bound) : (m.store ws).entries.length ≤ bound := by
  simp [Scratch.store]; omega

/-! ### Big-endian words -/

@[simp] theorem beBytes_length (v n : Nat) : (beBytes v n).length = n := by
  induction n with
  | zero => rfl
  | succ n ih => simp [beBytes, ih]

theorem beValue_beBytes (v n : Nat) : beValue (beBytes v n) = v % 2 ^ (8 * n) := by
  induction n with
  | zero => simp [beBytes, beValue, Nat.mod_one]
  | succ n ih =>
    have e : 2 ^ (8 * (n + 1)) = 2 ^ (8 * n) * 256 := by rw [Nat.mul_add, Nat.pow_add]
    rw [beBytes, beValue, beBytes_length, ih, BitVec.toNat_ofNat, e, Nat.mod_mul]
    ring

end Sys2Proof.Machine
end

