-- ==== Sys2Proof/Laws/State.lean ====
section
/-!
SUPPORT. One lemma per field per update of the state, each true by `rfl`.
-/

namespace Sys2Proof.Machine

section
variable (s : State) (c : ChanNo) (m : SlotNo) (v : Channel) (u : Slot) (w : Word) (r : List Result) (e : Cause)
  (p : Plan) (t : Stream) (k : Coder)

@[simp] theorem State.setChan_params : (s.setChan c v).params = s.params := rfl
@[simp] theorem State.setChan_ie : (s.setChan c v).ie = s.ie := rfl
@[simp] theorem State.setChan_status : (s.setChan c v).status = s.status := rfl
@[simp] theorem State.setChan_errinfo : (s.setChan c v).errinfo = s.errinfo := rfl
@[simp] theorem State.setChan_errcmd : (s.setChan c v).errcmd = s.errcmd := rfl
@[simp] theorem State.setChan_cmd : (s.setChan c v).cmd = s.cmd := rfl
@[simp] theorem State.setChan_arg : (s.setChan c v).arg = s.arg := rfl
@[simp] theorem State.setChan_res : (s.setChan c v).res = s.res := rfl
@[simp] theorem State.setChan_ch : (s.setChan c v).ch = s.ch.set c v c.isLt := rfl
@[simp] theorem State.setChan_slot : (s.setChan c v).slot = s.slot := rfl
@[simp] theorem State.setChan_mtf : (s.setChan c v).mtf = s.mtf := rfl
@[simp] theorem State.setChan_scratch : (s.setChan c v).scratch = s.scratch := rfl
@[simp] theorem State.setChan_dmem : (s.setChan c v).dmem = s.dmem := rfl
@[simp] theorem State.setChan_rst : (s.setChan c v).rst = s.rst := rfl
@[simp] theorem State.setChan_port : (s.setChan c v).port = s.port := rfl
@[simp] theorem State.setChan_response : (s.setChan c v).response = s.response := rfl
@[simp] theorem State.setChan_draws : (s.setChan c v).draws = s.draws := rfl

@[simp] theorem State.setSlot_params : (s.setSlot m u).params = s.params := rfl
@[simp] theorem State.setSlot_ie : (s.setSlot m u).ie = s.ie := rfl
@[simp] theorem State.setSlot_status : (s.setSlot m u).status = s.status := rfl
@[simp] theorem State.setSlot_errinfo : (s.setSlot m u).errinfo = s.errinfo := rfl
@[simp] theorem State.setSlot_errcmd : (s.setSlot m u).errcmd = s.errcmd := rfl
@[simp] theorem State.setSlot_cmd : (s.setSlot m u).cmd = s.cmd := rfl
@[simp] theorem State.setSlot_arg : (s.setSlot m u).arg = s.arg := rfl
@[simp] theorem State.setSlot_res : (s.setSlot m u).res = s.res := rfl
@[simp] theorem State.setSlot_ch : (s.setSlot m u).ch = s.ch := rfl
@[simp] theorem State.setSlot_slot : (s.setSlot m u).slot = s.slot.set m u m.isLt := rfl
@[simp] theorem State.setSlot_mtf : (s.setSlot m u).mtf = s.mtf := rfl
@[simp] theorem State.setSlot_scratch : (s.setSlot m u).scratch = s.scratch := rfl
@[simp] theorem State.setSlot_dmem : (s.setSlot m u).dmem = s.dmem := rfl
@[simp] theorem State.setSlot_rst : (s.setSlot m u).rst = s.rst := rfl
@[simp] theorem State.setSlot_port : (s.setSlot m u).port = s.port := rfl
@[simp] theorem State.setSlot_response : (s.setSlot m u).response = s.response := rfl
@[simp] theorem State.setSlot_draws : (s.setSlot m u).draws = s.draws := rfl

@[simp] theorem State.accept_params : (s.accept w).params = s.params := rfl
@[simp] theorem State.accept_ie : (s.accept w).ie = s.ie := rfl
@[simp] theorem State.accept_busy : (s.accept w).status.busy = true := rfl
@[simp] theorem State.accept_done : (s.accept w).status.done = false := rfl
@[simp] theorem State.accept_err : (s.accept w).status.err = s.status.err := rfl
@[simp] theorem State.accept_rej : (s.accept w).status.rej = s.status.rej := rfl
@[simp] theorem State.accept_errcode : (s.accept w).status.errcode = s.status.errcode := rfl
@[simp] theorem State.accept_errinfo : (s.accept w).errinfo = s.errinfo := rfl
@[simp] theorem State.accept_errcmd : (s.accept w).errcmd = s.errcmd := rfl
@[simp] theorem State.accept_cmd : (s.accept w).cmd = w := rfl
@[simp] theorem State.accept_arg : (s.accept w).arg = s.arg := rfl
@[simp] theorem State.accept_res : (s.accept w).res = s.res := rfl
@[simp] theorem State.accept_ch : (s.accept w).ch = s.ch := rfl
@[simp] theorem State.accept_slot : (s.accept w).slot = s.slot := rfl
@[simp] theorem State.accept_mtf : (s.accept w).mtf = s.mtf := rfl
@[simp] theorem State.accept_scratch : (s.accept w).scratch = s.scratch := rfl
@[simp] theorem State.accept_dmem : (s.accept w).dmem = s.dmem := rfl
@[simp] theorem State.accept_rst : (s.accept w).rst = s.rst := rfl
@[simp] theorem State.accept_port : (s.accept w).port = s.port := rfl
@[simp] theorem State.accept_response : (s.accept w).response = s.response := rfl
@[simp] theorem State.accept_draws : (s.accept w).draws = s.draws := rfl

@[simp] theorem State.reject_params : (s.reject).params = s.params := rfl
@[simp] theorem State.reject_ie : (s.reject).ie = s.ie := rfl
@[simp] theorem State.reject_busy : (s.reject).status.busy = s.status.busy := rfl
@[simp] theorem State.reject_done : (s.reject).status.done = s.status.done := rfl
@[simp] theorem State.reject_err : (s.reject).status.err = s.status.err := rfl
@[simp] theorem State.reject_rej : (s.reject).status.rej = true := rfl
@[simp] theorem State.reject_errcode : (s.reject).status.errcode = s.status.errcode := rfl
@[simp] theorem State.reject_errinfo : (s.reject).errinfo = s.errinfo := rfl
@[simp] theorem State.reject_errcmd : (s.reject).errcmd = s.errcmd := rfl
@[simp] theorem State.reject_cmd : (s.reject).cmd = s.cmd := rfl
@[simp] theorem State.reject_arg : (s.reject).arg = s.arg := rfl
@[simp] theorem State.reject_res : (s.reject).res = s.res := rfl
@[simp] theorem State.reject_ch : (s.reject).ch = s.ch := rfl
@[simp] theorem State.reject_slot : (s.reject).slot = s.slot := rfl
@[simp] theorem State.reject_mtf : (s.reject).mtf = s.mtf := rfl
@[simp] theorem State.reject_scratch : (s.reject).scratch = s.scratch := rfl
@[simp] theorem State.reject_dmem : (s.reject).dmem = s.dmem := rfl
@[simp] theorem State.reject_rst : (s.reject).rst = s.rst := rfl
@[simp] theorem State.reject_port : (s.reject).port = s.port := rfl
@[simp] theorem State.reject_response : (s.reject).response = s.response := rfl
@[simp] theorem State.reject_draws : (s.reject).draws = s.draws := rfl

@[simp] theorem State.complete_params : (s.complete r).params = s.params := rfl
@[simp] theorem State.complete_ie : (s.complete r).ie = s.ie := rfl
@[simp] theorem State.complete_busy : (s.complete r).status.busy = false := rfl
@[simp] theorem State.complete_done : (s.complete r).status.done = true := rfl
@[simp] theorem State.complete_err : (s.complete r).status.err = s.status.err := rfl
@[simp] theorem State.complete_rej : (s.complete r).status.rej = s.status.rej := rfl
@[simp] theorem State.complete_errcode : (s.complete r).status.errcode = s.status.errcode := rfl
@[simp] theorem State.complete_errinfo : (s.complete r).errinfo = s.errinfo := rfl
@[simp] theorem State.complete_errcmd : (s.complete r).errcmd = s.errcmd := rfl
@[simp] theorem State.complete_cmd : (s.complete r).cmd = s.cmd := rfl
@[simp] theorem State.complete_arg : (s.complete r).arg = s.arg := rfl
@[simp] theorem State.complete_res : (s.complete r).res = writeResults s.res r := rfl
@[simp] theorem State.complete_ch : (s.complete r).ch = s.ch := rfl
@[simp] theorem State.complete_slot : (s.complete r).slot = s.slot := rfl
@[simp] theorem State.complete_mtf : (s.complete r).mtf = s.mtf := rfl
@[simp] theorem State.complete_scratch : (s.complete r).scratch = s.scratch := rfl
@[simp] theorem State.complete_dmem : (s.complete r).dmem = s.dmem := rfl
@[simp] theorem State.complete_rst : (s.complete r).rst = s.rst := rfl
@[simp] theorem State.complete_port : (s.complete r).port = s.port := rfl
@[simp] theorem State.complete_response : (s.complete r).response = s.response := rfl
@[simp] theorem State.complete_draws : (s.complete r).draws = s.draws := rfl

@[simp] theorem State.raise_params : (s.raise e).params = s.params := rfl
@[simp] theorem State.raise_ie : (s.raise e).ie = s.ie := rfl
@[simp] theorem State.raise_busy : (s.raise e).status.busy = false := rfl
@[simp] theorem State.raise_done : (s.raise e).status.done = true := rfl
@[simp] theorem State.raise_err : (s.raise e).status.err = true := rfl
@[simp] theorem State.raise_rej : (s.raise e).status.rej = s.status.rej := rfl
@[simp] theorem State.raise_errcode : (s.raise e).status.errcode = e.code.number := rfl
@[simp] theorem State.raise_errinfo : (s.raise e).errinfo = e.sub := rfl
@[simp] theorem State.raise_errcmd : (s.raise e).errcmd = s.cmd := rfl
@[simp] theorem State.raise_cmd : (s.raise e).cmd = s.cmd := rfl
@[simp] theorem State.raise_arg : (s.raise e).arg = s.arg := rfl
@[simp] theorem State.raise_res : (s.raise e).res = s.res := rfl
@[simp] theorem State.raise_ch : (s.raise e).ch = s.ch := rfl
@[simp] theorem State.raise_slot : (s.raise e).slot = s.slot := rfl
@[simp] theorem State.raise_mtf : (s.raise e).mtf = s.mtf := rfl
@[simp] theorem State.raise_scratch : (s.raise e).scratch = s.scratch := rfl
@[simp] theorem State.raise_dmem : (s.raise e).dmem = s.dmem := rfl
@[simp] theorem State.raise_rst : (s.raise e).rst = s.rst := rfl
@[simp] theorem State.raise_port : (s.raise e).port = s.port := rfl
@[simp] theorem State.raise_response : (s.raise e).response = s.response := rfl
@[simp] theorem State.raise_draws : (s.raise e).draws = s.draws := rfl

@[simp] theorem State.raiseChannel_params : (s.raiseChannel c e).params = s.params := rfl
@[simp] theorem State.raiseChannel_ie : (s.raiseChannel c e).ie = s.ie := rfl
@[simp] theorem State.raiseChannel_busy : (s.raiseChannel c e).status.busy = false := rfl
@[simp] theorem State.raiseChannel_done : (s.raiseChannel c e).status.done = true := rfl
@[simp] theorem State.raiseChannel_err : (s.raiseChannel c e).status.err = true := rfl
@[simp] theorem State.raiseChannel_rej : (s.raiseChannel c e).status.rej = s.status.rej := rfl
@[simp] theorem State.raiseChannel_errcode : (s.raiseChannel c e).status.errcode = e.code.number := rfl
@[simp] theorem State.raiseChannel_errinfo : (s.raiseChannel c e).errinfo = e.sub := rfl
@[simp] theorem State.raiseChannel_errcmd : (s.raiseChannel c e).errcmd = s.cmd := rfl
@[simp] theorem State.raiseChannel_cmd : (s.raiseChannel c e).cmd = s.cmd := rfl
@[simp] theorem State.raiseChannel_arg : (s.raiseChannel c e).arg = s.arg := rfl
@[simp] theorem State.raiseChannel_res : (s.raiseChannel c e).res = s.res := rfl
@[simp] theorem State.raiseChannel_ch : (s.raiseChannel c e).ch = s.ch.set c { s.ch[c] with mode := .err } c.isLt := rfl
@[simp] theorem State.raiseChannel_slot : (s.raiseChannel c e).slot = s.slot := rfl
@[simp] theorem State.raiseChannel_mtf : (s.raiseChannel c e).mtf = s.mtf := rfl
@[simp] theorem State.raiseChannel_scratch : (s.raiseChannel c e).scratch = s.scratch := rfl
@[simp] theorem State.raiseChannel_dmem : (s.raiseChannel c e).dmem = s.dmem := rfl
@[simp] theorem State.raiseChannel_rst : (s.raiseChannel c e).rst = s.rst := rfl
@[simp] theorem State.raiseChannel_port : (s.raiseChannel c e).port = s.port := rfl
@[simp] theorem State.raiseChannel_response : (s.raiseChannel c e).response = s.response := rfl
@[simp] theorem State.raiseChannel_draws : (s.raiseChannel c e).draws = s.draws := rfl

@[simp] theorem State.errClear_params : (s.errClear).params = s.params := rfl
@[simp] theorem State.errClear_ie : (s.errClear).ie = s.ie := rfl
@[simp] theorem State.errClear_busy : (s.errClear).status.busy = s.status.busy := rfl
@[simp] theorem State.errClear_done : (s.errClear).status.done = s.status.done := rfl
@[simp] theorem State.errClear_err : (s.errClear).status.err = false := rfl
@[simp] theorem State.errClear_rej : (s.errClear).status.rej = false := rfl
@[simp] theorem State.errClear_errcode : (s.errClear).status.errcode = 0#8 := rfl
@[simp] theorem State.errClear_errinfo : (s.errClear).errinfo = 0#32 := rfl
@[simp] theorem State.errClear_errcmd : (s.errClear).errcmd = 0#32 := rfl
@[simp] theorem State.errClear_cmd : (s.errClear).cmd = s.cmd := rfl
@[simp] theorem State.errClear_arg : (s.errClear).arg = s.arg := rfl
@[simp] theorem State.errClear_res : (s.errClear).res = s.res := rfl
@[simp] theorem State.errClear_ch : (s.errClear).ch = s.ch := rfl
@[simp] theorem State.errClear_slot : (s.errClear).slot = s.slot := rfl
@[simp] theorem State.errClear_mtf : (s.errClear).mtf = s.mtf := rfl
@[simp] theorem State.errClear_scratch : (s.errClear).scratch = s.scratch := rfl
@[simp] theorem State.errClear_dmem : (s.errClear).dmem = s.dmem := rfl
@[simp] theorem State.errClear_rst : (s.errClear).rst = s.rst := rfl
@[simp] theorem State.errClear_port : (s.errClear).port = s.port := rfl
@[simp] theorem State.errClear_response : (s.errClear).response = s.response := rfl
@[simp] theorem State.errClear_draws : (s.errClear).draws = s.draws := rfl

@[simp] theorem State.doneClear_params : (s.doneClear).params = s.params := rfl
@[simp] theorem State.doneClear_ie : (s.doneClear).ie = s.ie := rfl
@[simp] theorem State.doneClear_busy : (s.doneClear).status.busy = s.status.busy := rfl
@[simp] theorem State.doneClear_done : (s.doneClear).status.done = false := rfl
@[simp] theorem State.doneClear_err : (s.doneClear).status.err = s.status.err := rfl
@[simp] theorem State.doneClear_rej : (s.doneClear).status.rej = s.status.rej := rfl
@[simp] theorem State.doneClear_errcode : (s.doneClear).status.errcode = s.status.errcode := rfl
@[simp] theorem State.doneClear_errinfo : (s.doneClear).errinfo = s.errinfo := rfl
@[simp] theorem State.doneClear_errcmd : (s.doneClear).errcmd = s.errcmd := rfl
@[simp] theorem State.doneClear_cmd : (s.doneClear).cmd = s.cmd := rfl
@[simp] theorem State.doneClear_arg : (s.doneClear).arg = s.arg := rfl
@[simp] theorem State.doneClear_res : (s.doneClear).res = s.res := rfl
@[simp] theorem State.doneClear_ch : (s.doneClear).ch = s.ch := rfl
@[simp] theorem State.doneClear_slot : (s.doneClear).slot = s.slot := rfl
@[simp] theorem State.doneClear_mtf : (s.doneClear).mtf = s.mtf := rfl
@[simp] theorem State.doneClear_scratch : (s.doneClear).scratch = s.scratch := rfl
@[simp] theorem State.doneClear_dmem : (s.doneClear).dmem = s.dmem := rfl
@[simp] theorem State.doneClear_rst : (s.doneClear).rst = s.rst := rfl
@[simp] theorem State.doneClear_port : (s.doneClear).port = s.port := rfl
@[simp] theorem State.doneClear_response : (s.doneClear).response = s.response := rfl
@[simp] theorem State.doneClear_draws : (s.doneClear).draws = s.draws := rfl

@[simp] theorem State.applyPlan_params : (s.applyPlan p).params = s.params := rfl
@[simp] theorem State.applyPlan_ie : (s.applyPlan p).ie = s.ie := rfl
@[simp] theorem State.applyPlan_status : (s.applyPlan p).status = s.status := rfl
@[simp] theorem State.applyPlan_errinfo : (s.applyPlan p).errinfo = s.errinfo := rfl
@[simp] theorem State.applyPlan_errcmd : (s.applyPlan p).errcmd = s.errcmd := rfl
@[simp] theorem State.applyPlan_cmd : (s.applyPlan p).cmd = s.cmd := rfl
@[simp] theorem State.applyPlan_arg : (s.applyPlan p).arg = s.arg := rfl
@[simp] theorem State.applyPlan_res : (s.applyPlan p).res = s.res := rfl
@[simp] theorem State.applyPlan_ch : (s.applyPlan p).ch = s.ch := rfl
@[simp] theorem State.applyPlan_slot : (s.applyPlan p).slot = s.slot := rfl
@[simp] theorem State.applyPlan_mtf : (s.applyPlan p).mtf = p.mtf.getD s.mtf := rfl
@[simp] theorem State.applyPlan_scratch : (s.applyPlan p).scratch = (p.scratch.map s.scratch.store).getD s.scratch := rfl
@[simp] theorem State.applyPlan_dmem : (s.applyPlan p).dmem = writeRanges s.dmem p.writes := rfl
@[simp] theorem State.applyPlan_rst : (s.applyPlan p).rst = s.rst := rfl
@[simp] theorem State.applyPlan_port : (s.applyPlan p).port = s.port := rfl
@[simp] theorem State.applyPlan_response : (s.applyPlan p).response = s.response := rfl
@[simp] theorem State.applyPlan_draws : (s.applyPlan p).draws = s.draws := rfl

@[simp] theorem State.putStream_params : (s.putStream c t).params = s.params := rfl
@[simp] theorem State.putStream_ie : (s.putStream c t).ie = s.ie := rfl
@[simp] theorem State.putStream_status : (s.putStream c t).status = s.status := rfl
@[simp] theorem State.putStream_errinfo : (s.putStream c t).errinfo = s.errinfo := rfl
@[simp] theorem State.putStream_errcmd : (s.putStream c t).errcmd = s.errcmd := rfl
@[simp] theorem State.putStream_cmd : (s.putStream c t).cmd = s.cmd := rfl
@[simp] theorem State.putStream_arg : (s.putStream c t).arg = s.arg := rfl
@[simp] theorem State.putStream_res : (s.putStream c t).res = s.res := rfl
@[simp] theorem State.putStream_ch : (s.putStream c t).ch = s.ch.set c t.ch c.isLt := rfl
@[simp] theorem State.putStream_slot : (s.putStream c t).slot = s.slot := rfl
@[simp] theorem State.putStream_mtf : (s.putStream c t).mtf = s.mtf := rfl
@[simp] theorem State.putStream_scratch : (s.putStream c t).scratch = s.scratch := rfl
@[simp] theorem State.putStream_dmem : (s.putStream c t).dmem = t.mem := rfl
@[simp] theorem State.putStream_rst : (s.putStream c t).rst = s.rst := rfl
@[simp] theorem State.putStream_port : (s.putStream c t).port = s.port := rfl
@[simp] theorem State.putStream_response : (s.putStream c t).response = s.response := rfl
@[simp] theorem State.putStream_draws : (s.putStream c t).draws = s.draws := rfl

@[simp] theorem State.putCoder_params : (s.putCoder c m k).params = s.params := rfl
@[simp] theorem State.putCoder_ie : (s.putCoder c m k).ie = s.ie := rfl
@[simp] theorem State.putCoder_status : (s.putCoder c m k).status = s.status := rfl
@[simp] theorem State.putCoder_errinfo : (s.putCoder c m k).errinfo = s.errinfo := rfl
@[simp] theorem State.putCoder_errcmd : (s.putCoder c m k).errcmd = s.errcmd := rfl
@[simp] theorem State.putCoder_cmd : (s.putCoder c m k).cmd = s.cmd := rfl
@[simp] theorem State.putCoder_arg : (s.putCoder c m k).arg = s.arg := rfl
@[simp] theorem State.putCoder_res : (s.putCoder c m k).res = s.res := rfl
@[simp] theorem State.putCoder_ch : (s.putCoder c m k).ch = s.ch.set c k.str.ch c.isLt := rfl
@[simp] theorem State.putCoder_slot : (s.putCoder c m k).slot = s.slot.set m k.slot m.isLt := rfl
@[simp] theorem State.putCoder_mtf : (s.putCoder c m k).mtf = s.mtf := rfl
@[simp] theorem State.putCoder_scratch : (s.putCoder c m k).scratch = s.scratch := rfl
@[simp] theorem State.putCoder_dmem : (s.putCoder c m k).dmem = k.str.mem := rfl
@[simp] theorem State.putCoder_rst : (s.putCoder c m k).rst = s.rst := rfl
@[simp] theorem State.putCoder_port : (s.putCoder c m k).port = s.port := rfl
@[simp] theorem State.putCoder_response : (s.putCoder c m k).response = s.response := rfl
@[simp] theorem State.putCoder_draws : (s.putCoder c m k).draws = s.draws := rfl

@[simp] theorem State.resetRegisters_params : (s.resetRegisters).params = s.params := rfl
@[simp] theorem State.resetRegisters_ie : (s.resetRegisters).ie = false := rfl
@[simp] theorem State.resetRegisters_status : (s.resetRegisters).status = Status.reset := rfl
@[simp] theorem State.resetRegisters_errinfo : (s.resetRegisters).errinfo = 0#32 := rfl
@[simp] theorem State.resetRegisters_errcmd : (s.resetRegisters).errcmd = 0#32 := rfl
@[simp] theorem State.resetRegisters_cmd : (s.resetRegisters).cmd = 0#32 := rfl
@[simp] theorem State.resetRegisters_arg : (s.resetRegisters).arg = Vector.replicate 8 0#32 := rfl
@[simp] theorem State.resetRegisters_res : (s.resetRegisters).res = Vector.replicate 8 0#32 := rfl
@[simp] theorem State.resetRegisters_ch : (s.resetRegisters).ch = Vector.replicate 4 Channel.reset := rfl
@[simp] theorem State.resetRegisters_slot : (s.resetRegisters).slot = Vector.replicate 8 Slot.reset := rfl
@[simp] theorem State.resetRegisters_mtf : (s.resetRegisters).mtf = identityTable := rfl
@[simp] theorem State.resetRegisters_scratch : (s.resetRegisters).scratch = { fill := s.draws, entries := [] } := rfl
@[simp] theorem State.resetRegisters_dmem : (s.resetRegisters).dmem = s.dmem := rfl
@[simp] theorem State.resetRegisters_rst : (s.resetRegisters).rst = s.rst := rfl
@[simp] theorem State.resetRegisters_port : (s.resetRegisters).port = s.port := rfl
@[simp] theorem State.resetRegisters_response : (s.resetRegisters).response = s.response := rfl
@[simp] theorem State.resetRegisters_draws : (s.resetRegisters).draws = s.draws := rfl

@[simp] theorem State.softReset_params : (s.softReset).params = s.params := rfl
@[simp] theorem State.softReset_ie : (s.softReset).ie = false := rfl
@[simp] theorem State.softReset_status : (s.softReset).status = Status.reset := rfl
@[simp] theorem State.softReset_errinfo : (s.softReset).errinfo = 0#32 := rfl
@[simp] theorem State.softReset_errcmd : (s.softReset).errcmd = 0#32 := rfl
@[simp] theorem State.softReset_cmd : (s.softReset).cmd = 0#32 := rfl
@[simp] theorem State.softReset_arg : (s.softReset).arg = Vector.replicate 8 0#32 := rfl
@[simp] theorem State.softReset_res : (s.softReset).res = Vector.replicate 8 0#32 := rfl
@[simp] theorem State.softReset_ch : (s.softReset).ch = Vector.replicate 4 Channel.reset := rfl
@[simp] theorem State.softReset_slot : (s.softReset).slot = Vector.replicate 8 Slot.reset := rfl
@[simp] theorem State.softReset_mtf : (s.softReset).mtf = identityTable := rfl
@[simp] theorem State.softReset_scratch : (s.softReset).scratch = { fill := s.draws, entries := [] } := rfl
@[simp] theorem State.softReset_dmem : (s.softReset).dmem = s.abortedDmem := rfl
@[simp] theorem State.softReset_rst : (s.softReset).rst = s.rst := rfl
@[simp] theorem State.softReset_port : (s.softReset).port = s.port := rfl
@[simp] theorem State.softReset_response : (s.softReset).response = s.response := rfl
@[simp] theorem State.softReset_draws : (s.softReset).draws = s.draws + 1 := rfl

@[simp] theorem State.hardReset_params : (s.hardReset).params = s.params := rfl
@[simp] theorem State.hardReset_ie : (s.hardReset).ie = false := rfl
@[simp] theorem State.hardReset_status : (s.hardReset).status = Status.reset := rfl
@[simp] theorem State.hardReset_errinfo : (s.hardReset).errinfo = 0#32 := rfl
@[simp] theorem State.hardReset_errcmd : (s.hardReset).errcmd = 0#32 := rfl
@[simp] theorem State.hardReset_cmd : (s.hardReset).cmd = 0#32 := rfl
@[simp] theorem State.hardReset_arg : (s.hardReset).arg = Vector.replicate 8 0#32 := rfl
@[simp] theorem State.hardReset_res : (s.hardReset).res = Vector.replicate 8 0#32 := rfl
@[simp] theorem State.hardReset_ch : (s.hardReset).ch = Vector.replicate 4 Channel.reset := rfl
@[simp] theorem State.hardReset_slot : (s.hardReset).slot = Vector.replicate 8 Slot.reset := rfl
@[simp] theorem State.hardReset_mtf : (s.hardReset).mtf = identityTable := rfl
@[simp] theorem State.hardReset_scratch : (s.hardReset).scratch = { fill := s.draws, entries := [] } := rfl
@[simp] theorem State.hardReset_dmem : (s.hardReset).dmem = { s.dmem with fill := s.draws, cells := [] } := rfl
@[simp] theorem State.hardReset_rst : (s.hardReset).rst = true := rfl
@[simp] theorem State.hardReset_port : (s.hardReset).port = s.port := rfl
@[simp] theorem State.hardReset_response : (s.hardReset).response = s.response := rfl
@[simp] theorem State.hardReset_draws : (s.hardReset).draws = s.draws + 1 := rfl

end

end Sys2Proof.Machine
end

