-- ==== Sys2Proof/Laws/Ops.lean ====
section
/-!
SUPPORT. Once, for each shared operation that ends a command or answers a port access: everything it can do.
-/

namespace Sys2Proof.Machine

theorem State.finishPlan_cases {s t : State} {p : Except Cause Plan} (h : s.finishPlan p = .next t) :
    (∃ e, p = .error e ∧ t = s.raise e) ∨ ∃ q, p = .ok q ∧ t = (s.applyPlan q).complete q.results := by
  cases p with
  | error e => exact .inl ⟨e, rfl, by simpa [State.finishPlan] using h.symm⟩
  | ok q => exact .inr ⟨q, rfl, by simpa [State.finishPlan] using h.symm⟩

/-- A bulk command always has a next state. -/
theorem State.finishPlan_next (s : State) (p : Except Cause Plan) : ∃ t, s.finishPlan p = .next t := by
  cases p <;> exact ⟨_, rfl⟩

theorem State.finishBody_cases {σ : Type} {s t : State} {c : ChanNo} {put : σ → State} {b : Body σ}
    (h : s.finishBody c put b = .next t) :
    (∃ e, b = .failed e ∧ t = s.raise e)
      ∨ (∃ r k, b = .ran (.ok r k) ∧ t = (put k).complete r)
      ∨ ∃ e k, b = .ran (.raised e k) ∧ t = (put k).raiseChannel c e := by
  match b, h with
  | .failed e, h => exact .inl ⟨e, rfl, by simpa [State.finishBody] using h.symm⟩
  | .ran (.ok r k), h => exact .inr (.inl ⟨r, k, rfl, by simpa [State.finishBody] using h.symm⟩)
  | .ran (.raised e k), h => exact .inr (.inr ⟨e, k, rfl, by simpa [State.finishBody] using h.symm⟩)

theorem Coded.bind_ok {σ α β : Type} {c : Coded σ α} {f : α → σ → Coded σ β} {b : β} {s : σ}
    (h : c.bind f = .ok b s) : ∃ a s', c = .ok a s' ∧ f a s' = .ok b s := by
  cases c with
  | ok a s' => exact ⟨a, s', rfl, h⟩
  | raised e s' => simp [Coded.bind] at h
  | fault g => simp [Coded.bind] at h

theorem Coded.bind_raised {σ α β : Type} {c : Coded σ α} {f : α → σ → Coded σ β} {e : Cause} {s : σ}
    (h : c.bind f = .raised e s) : c = .raised e s ∨ ∃ a s', c = .ok a s' ∧ f a s' = .raised e s := by
  cases c with
  | ok a s' => exact .inr ⟨a, s', rfl, h⟩
  | raised e' s' => exact .inl (by simpa [Coded.bind] using h)
  | fault g => simp [Coded.bind] at h

theorem Coded.lift_ok {σ τ α : Type} {g : σ → τ} {c : Coded σ α} {a : α} {t : τ} (h : c.lift g = .ok a t) :
    ∃ s, c = .ok a s ∧ t = g s := by
  cases c with
  | ok a' s => simp only [Coded.lift, Coded.ok.injEq] at h; exact ⟨s, by rw [h.1], h.2.symm⟩
  | raised e s => simp [Coded.lift] at h
  | fault f => simp [Coded.lift] at h

theorem Coded.lift_raised {σ τ α : Type} {g : σ → τ} {c : Coded σ α} {e : Cause} {t : τ}
    (h : c.lift g = .raised e t) : ∃ s, c = .raised e s ∧ t = g s := by
  cases c with
  | ok a' s => simp [Coded.lift] at h
  | raised e' s => simp only [Coded.lift, Coded.raised.injEq] at h; exact ⟨s, by rw [h.1], h.2.symm⟩
  | fault f => simp [Coded.lift] at h

/-- A `CMD` write accepts or rejects (R147, R148). -/
theorem State.writeCmd_cases (s : State) (w : Word) :
    (s.status.busy = false ∧ s.status.err = false ∧ s.writeCmd w = s.accept w)
      ∨ ((s.status.busy = true ∨ s.status.err = true) ∧ s.writeCmd w = s.reject) := by
  unfold State.writeCmd
  cases hb : s.status.busy <;> cases he : s.status.err <;> simp

/-- An `ARGi` write stores or is rejected (R27, R148). -/
theorem State.writeArg_cases (s : State) (i : Fin 8) (v : Word) :
    (s.status.busy = false ∧ s.writeArg i v = { s with arg := s.arg.set i v i.isLt })
      ∨ (s.status.busy = true ∧ s.writeArg i v = s.reject) := by
  unfold State.writeArg
  cases hb : s.status.busy <;> simp

/-- A register write is one of the three with an effect, or is ignored (R53). -/
theorem State.writeRegister_cases (s : State) (off : Nat) (v : Word) :
    s.writeRegister off v = s.writeCtrl v ∨ s.writeRegister off v = s.writeCmd v
      ∨ (∃ i, s.writeRegister off v = s.writeArg i v) ∨ s.writeRegister off v = s := by
  unfold State.writeRegister
  split_ifs
  · exact .inl rfl
  · exact .inr (.inl rfl)
  · exact .inr (.inr (.inl ⟨_, rfl⟩))
  · exact .inr (.inr (.inr rfl))

/-- A host read changes the response and at most the count of draws (R53). -/
theorem State.hostRead_cases (s : State) (addr width : Nat) :
    ∃ r n, s.hostRead addr width = { s with response := r, draws := n } ∧ (n = s.draws ∨ n = s.draws + 1) := by
  unfold State.hostRead State.freeRead
  split
  · exact ⟨_, s.draws, rfl, .inl rfl⟩
  · exact ⟨_, s.draws, rfl, .inl rfl⟩
  · split
    · exact ⟨_, _, rfl, .inr rfl⟩
    · exact ⟨_, s.draws, rfl, .inl rfl⟩
  · split
    · exact ⟨_, _, rfl, .inr rfl⟩
    · exact ⟨_, s.draws, rfl, .inl rfl⟩

/-- A step is the engine's, the port's, or none. -/
theorem step_cases (s : State) :
    (s.running = true ∧ step s = engineStep s)
      ∨ (∃ e rest, s.port = e :: rest ∧ step s = .next (State.portAction { s with port := rest } e.action))
      ∨ (s.port = [] ∧ s.running = false ∧ step s = .next s) := by
  cases hp : s.port with
  | nil =>
    cases hr : s.running with
    | true => exact .inl ⟨rfl, by simp [step, hp, hr]⟩
    | false => exact .inr (.inr ⟨rfl, rfl, by simp [step, hp, hr]⟩)
  | cons e rest =>
    by_cases h : (s.running && !e.early) = true
    · refine .inl ⟨(Bool.and_eq_true _ _ ▸ h).1, ?_⟩
      simp only [step, hp, h, if_true]
    · refine .inr (.inl ⟨e, rest, rfl, ?_⟩)
      simp only [step, hp, h]; rfl

end Sys2Proof.Machine
end

