-- ==== Sys2Proof/Laws/Coder.lean ====
section
/-!
SUPPORT. What every coding step does to the stream it works on, said once: it keeps the channel's mode and window, moves
`ptr` up and not past the window, and writes DMEM inside the window only (`Stream.Moves`); and what it does to the
slot. Later proofs cite these and do not unfold the steps.
-/

namespace Sys2Proof.Machine

/-- From `t` to `t'` a stream keeps its mode and window, moves `ptr` up inside the window, and changes no byte outside
what was left of the window. -/
structure Stream.Moves (t t' : Stream) : Prop where
  mode : t'.ch.mode = t.ch.mode
  base : t'.ch.base = t.ch.base
  limit : t'.ch.limit = t.ch.limit
  up : t.ch.ptr.toNat ≤ t'.ch.ptr.toNat
  inside : t'.ch.ptr.toNat ≤ t.ch.limit.toNat ∨ t'.ch.ptr = t.ch.ptr
  size : t'.mem.size = t.mem.size
  fill : t'.mem.fill = t.mem.fill
  mem : ∀ a, a < t.ch.ptr.toNat ∨ t.ch.limit.toNat ≤ a → t'.mem.read a = t.mem.read a

theorem Stream.Moves.refl (t : Stream) : Stream.Moves t t :=
  ⟨rfl, rfl, rfl, Nat.le_refl _, .inr rfl, rfl, rfl, fun _ _ => rfl⟩

theorem Stream.Moves.trans {t u v : Stream} (h : Stream.Moves t u) (k : Stream.Moves u v) : Stream.Moves t v where
  mode := k.mode.trans h.mode
  base := k.base.trans h.base
  limit := k.limit.trans h.limit
  up := Nat.le_trans h.up k.up
  inside := by
    rcases k.inside with k1 | k1
    · exact .inl (h.limit ▸ k1)
    · rcases h.inside with h1 | h1
      · exact .inl (k1 ▸ h1)
      · exact .inr (k1.trans h1)
  size := k.size.trans h.size
  fill := k.fill.trans h.fill
  mem := fun a ha => by
    have hu := h.up
    have hl := congrArg BitVec.toNat h.limit
    rw [k.mem a (by omega), h.mem a ha]

/-- Two streams that differ only in the channel's `low`, `range` and `code` move alike. -/
theorem Stream.Moves.retune (t : Stream) (c : Channel) (h1 : c.mode = t.ch.mode) (h2 : c.base = t.ch.base)
    (h3 : c.limit = t.ch.limit) (h4 : c.ptr = t.ch.ptr) : Stream.Moves t { t with ch := c } :=
  ⟨h1, h2, h3, Nat.le_of_eq (congrArg _ h4.symm), .inr h4, rfl, rfl, fun _ _ => rfl⟩

@[simp] theorem Channel.cut_mode (c : Channel) : c.cut.mode = c.mode := by unfold Channel.cut; split <;> rfl
@[simp] theorem Channel.cut_base (c : Channel) : c.cut.base = c.base := by unfold Channel.cut; split <;> rfl
@[simp] theorem Channel.cut_limit (c : Channel) : c.cut.limit = c.limit := by unfold Channel.cut; split <;> rfl
@[simp] theorem Channel.cut_ptr (c : Channel) : c.cut.ptr = c.ptr := by unfold Channel.cut; split <;> rfl
@[simp] theorem Channel.cut_low (c : Channel) : c.cut.low = c.low := by unfold Channel.cut; split <;> rfl
@[simp] theorem Channel.cut_code (c : Channel) : c.cut.code = c.code := by unfold Channel.cut; split <;> rfl

@[simp] theorem Channel.narrow_mode (c : Channel) (iv : Interval) : (c.narrow iv).mode = c.mode := rfl
@[simp] theorem Channel.narrow_base (c : Channel) (iv : Interval) : (c.narrow iv).base = c.base := rfl
@[simp] theorem Channel.narrow_limit (c : Channel) (iv : Interval) : (c.narrow iv).limit = c.limit := rfl
@[simp] theorem Channel.narrow_ptr (c : Channel) (iv : Interval) : (c.narrow iv).ptr = c.ptr := rfl
@[simp] theorem Channel.narrow_code (c : Channel) (iv : Interval) : (c.narrow iv).code = c.code := rfl

/-- Everything `Shift` can answer (R119). -/
theorem Stream.shift_ok {t t' : Stream} (h : t.shift = .ok () t') :
    t.ch.ptr.toNat < t.ch.limit.toNat ∧ t.ch.ptr.toNat < t.mem.size ∧
      ((t.ch.mode = .enc ∧ t' = { ch := { t.ch with ptr := t.ch.ptr + 1#32 }
                                  mem := t.mem.write t.ch.ptr.toNat ((t.ch.low >>> 24).setWidth 8) })
        ∨ (t.ch.mode = .dec ∧ t' = { t with ch := { t.ch with
            code := (t.ch.code <<< 8) ||| (t.mem.read t.ch.ptr.toNat).setWidth 32, ptr := t.ch.ptr + 1#32 } })) := by
  unfold Stream.shift at h
  cases hm : t.ch.mode <;> simp only [hm] at h
  · simp at h
  · split_ifs at h with h1 h2
    simp only [Coded.ok.injEq, true_and] at h
    exact ⟨by omega, by omega, .inl ⟨rfl, by simp [← h, hm]⟩⟩
  · split_ifs at h with h1 h2
    simp only [Coded.ok.injEq, true_and] at h
    exact ⟨by omega, by omega, .inr ⟨rfl, by simp [← h, hm]⟩⟩
  · simp at h

/-- A raise of `Shift` changes nothing (R119). -/
theorem Stream.shift_raised {t t' : Stream} {e : Cause} (h : t.shift = .raised e t') : t' = t := by
  unfold Stream.shift at h
  cases hm : t.ch.mode <;> simp only [hm] at h
  · simp at h
  · split_ifs at h <;> simp at h <;> exact h.2.symm
  · split_ifs at h <;> simp at h <;> exact h.2.symm
  · simp at h

theorem Stream.shift_moves {t t' : Stream} (h : t.shift = .ok () t') : Stream.Moves t t' := by
  obtain ⟨h1, _, h3⟩ := Stream.shift_ok h
  have hl := t.ch.limit.isLt
  have hp : (t.ch.ptr + 1#32).toNat = t.ch.ptr.toNat + 1 := by
    rw [BitVec.toNat_add]; simp; omega
  rcases h3 with ⟨_, rfl⟩ | ⟨_, rfl⟩
  · exact ⟨rfl, rfl, rfl, by simp [hp], .inl (by simp [hp]; omega), by simp, by simp,
      fun a ha => Dmem.read_write_other _ _ (by omega)⟩
  · exact ⟨rfl, rfl, rfl, by simp [hp], .inl (by simp [hp]; omega), rfl, rfl, fun _ _ => rfl⟩

theorem Stream.renormLoop_ok {n : Nat} {t t' : Stream} (h : t.renormLoop n = .ok () t') : Stream.Moves t t' := by
  induction n generalizing t with
  | zero =>
    unfold Stream.renormLoop at h
    split at h
    · simp only [Coded.ok.injEq, true_and] at h; exact h ▸ .refl t
    · obtain ⟨_, _, _, h2⟩ := Coded.bind_ok h
      simp at h2
  | succ n ih =>
    unfold Stream.renormLoop at h
    split at h
    · simp only [Coded.ok.injEq, true_and] at h; exact h ▸ .refl t
    · obtain ⟨_, u, h1, h2⟩ := Coded.bind_ok h
      exact ((Stream.Moves.retune t t.ch.cut (by simp) (by simp) (by simp) (by simp)).trans (Stream.shift_moves h1)).trans
        ((Stream.Moves.retune u u.ch.advance rfl rfl rfl rfl).trans (ih h2))

theorem Stream.renormLoop_raised {n : Nat} {t t' : Stream} {e : Cause} (h : t.renormLoop n = .raised e t') :
    Stream.Moves t t' := by
  induction n generalizing t with
  | zero =>
    unfold Stream.renormLoop at h
    split at h
    · simp at h
    · rcases Coded.bind_raised h with h1 | ⟨_, _, _, h2⟩
      · exact Stream.shift_raised h1 ▸ Stream.Moves.retune t t.ch.cut (by simp) (by simp) (by simp) (by simp)
      · simp at h2
  | succ n ih =>
    unfold Stream.renormLoop at h
    split at h
    · simp at h
    · have hc := Stream.Moves.retune t t.ch.cut (by simp) (by simp) (by simp) (by simp)
      rcases Coded.bind_raised h with h1 | ⟨_, u, h1, h2⟩
      · exact Stream.shift_raised h1 ▸ hc
      · exact (hc.trans (Stream.shift_moves h1)).trans
          ((Stream.Moves.retune u u.ch.advance rfl rfl rfl rfl).trans (ih h2))

/-- `Renorm` moves the stream, whether it ends or raises (R118). -/
theorem Stream.renorm_moves {t t' : Stream} (h : t.renorm = .ok () t' ∨ ∃ e, t.renorm = .raised e t') :
    Stream.Moves t t' := by
  rcases h with h | ⟨e, h⟩
  · exact Stream.renormLoop_ok h
  · exact Stream.renormLoop_raised h

/-- The tail of a coding step moves the stream and leaves the updated slot, whether it ends or raises. -/
theorem Coder.codeInterval_moves {k k' : Coder} {iv : Interval} {m : Slot}
    (h : k.codeInterval iv m = .ok () k' ∨ ∃ e, k.codeInterval iv m = .raised e k') :
    Stream.Moves k.str k'.str ∧ k'.slot = m := by
  have hn := Stream.Moves.retune k.str (k.str.ch.narrow iv) rfl rfl rfl rfl
  rcases h with h | ⟨e, h⟩
  · obtain ⟨t, h1, rfl⟩ := Coded.lift_ok h
    exact ⟨hn.trans (Stream.renorm_moves (.inl h1)), rfl⟩
  · obtain ⟨t, h1, rfl⟩ := Coded.lift_raised h
    exact ⟨hn.trans (Stream.renorm_moves (.inr ⟨e, h1⟩)), rfl⟩

/-- Everything `DecodeValue` can answer (R120): it changes nothing. -/
theorem Stream.decodeValue_ok {t t' : Stream} {tot v : Nat} (h : t.decodeValue tot = .ok v t') :
    t' = t ∧ t.ch.range / word tot ≠ 0#32 ∧ v = ((t.ch.code - t.ch.low) / (t.ch.range / word tot)).toNat ∧ v < tot := by
  simp only [Stream.decodeValue] at h
  split_ifs at h with h1 h2
  simp only [Coded.ok.injEq] at h
  exact ⟨h.2.symm, h1, h.1.symm, by omega⟩

theorem Stream.decodeValue_raised {t t' : Stream} {tot : Nat} {e : Cause} (h : t.decodeValue tot = .raised e t') :
    t' = t ∧ e = .corruptValue := by
  simp only [Stream.decodeValue] at h
  split_ifs at h with h1 h2
  simp only [Coded.raised.injEq] at h
  exact ⟨h.2.symm, h.1.symm⟩

/-- Everything `EncBit` can leave (R122). -/
theorem Coder.encBit_moves {k k' : Coder} {ctx : Nat} {b : Bool}
    (h : k.encBit ctx b = .ok () k' ∨ ∃ e, k.encBit ctx b = .raised e k') :
    Stream.Moves k.str k'.str ∧ k'.slot = k.slot.updateBit ctx b := by
  unfold Coder.encBit at h
  cases hp : k.slot.table.prob ctx with
  | none => simp [hp] at h
  | some p => exact Coder.codeInterval_moves (by simpa [hp] using h)

/-- Everything `EncSym` can leave (R124). -/
theorem Coder.encSym_moves {k k' : Coder} {ctx j : Nat}
    (h : k.encSym ctx j = .ok () k' ∨ ∃ e, k.encSym ctx j = .raised e k') :
    Stream.Moves k.str k'.str ∧ k'.slot = k.slot.updateSym ctx j := by
  unfold Coder.encSym at h
  cases hp : (k.slot.table.row ctx).bind fun r => r.interval j with
  | none => simp [hp] at h
  | some iv =>
    simp only [hp] at h
    split_ifs at h
    · simp at h
    · exact Coder.codeInterval_moves h

/-- Everything `DecBit` can leave (R123): a decoded bit with its update, or a raise with the slot as it was or updated. -/
theorem Coder.decBit_ok {k k' : Coder} {ctx : Nat} {b : Bool} (h : k.decBit ctx = .ok b k') :
    Stream.Moves k.str k'.str ∧ k'.slot = k.slot.updateBit ctx b := by
  unfold Coder.decBit at h
  cases hp : k.slot.table.prob ctx with
  | none => simp [hp] at h
  | some p =>
    simp only [hp] at h
    obtain ⟨v, k1, h1, h2⟩ := Coded.bind_ok h
    obtain ⟨t1, h3, rfl⟩ := Coded.lift_ok h1
    obtain ⟨rfl, -⟩ := Stream.decodeValue_ok h3
    obtain ⟨_, k2, h4, h5⟩ := Coded.bind_ok h2
    simp only [Coded.ok.injEq] at h5
    obtain ⟨rfl, rfl⟩ := h5
    exact Coder.codeInterval_moves (.inl h4)

theorem Coder.decBit_raised {k k' : Coder} {ctx : Nat} {e : Cause} (h : k.decBit ctx = .raised e k') :
    Stream.Moves k.str k'.str ∧ (k'.slot = k.slot ∨ ∃ b, k'.slot = k.slot.updateBit ctx b) := by
  unfold Coder.decBit at h
  cases hp : k.slot.table.prob ctx with
  | none => simp [hp] at h
  | some p =>
    simp only [hp] at h
    rcases Coded.bind_raised h with h1 | ⟨v, k1, h1, h2⟩
    · obtain ⟨t1, h3, rfl⟩ := Coded.lift_raised h1
      exact ⟨(Stream.decodeValue_raised h3).1 ▸ .refl _, .inl rfl⟩
    · obtain ⟨t1, h3, rfl⟩ := Coded.lift_ok h1
      obtain ⟨rfl, -⟩ := Stream.decodeValue_ok h3
      rcases Coded.bind_raised h2 with h4 | ⟨_, _, _, h5⟩
      · have := Coder.codeInterval_moves (.inr ⟨e, h4⟩)
        exact ⟨this.1, .inr ⟨_, this.2⟩⟩
      · simp at h5

/-- Everything `DecSym` can leave (R125). -/
theorem Coder.decSym_ok {k k' : Coder} {ctx j : Nat} (h : k.decSym ctx = .ok j k') :
    Stream.Moves k.str k'.str ∧ k'.slot = k.slot.updateSym ctx j := by
  unfold Coder.decSym at h
  cases hr : k.slot.table.row ctx with
  | none => simp [hr] at h
  | some row =>
    simp only [hr] at h
    obtain ⟨v, k1, h1, h2⟩ := Coded.bind_ok h
    obtain ⟨t1, h3, rfl⟩ := Coded.lift_ok h1
    obtain ⟨rfl, -⟩ := Stream.decodeValue_ok h3
    cases hf : findSymbol row.freq v with
    | none => simp [hf] at h2
    | some j' =>
      simp only [hf] at h2
      cases hi : row.interval j' with
      | none => simp [hi] at h2
      | some iv =>
        simp only [hi] at h2
        obtain ⟨_, k2, h4, h5⟩ := Coded.bind_ok h2
        simp only [Coded.ok.injEq] at h5
        obtain ⟨rfl, rfl⟩ := h5
        exact Coder.codeInterval_moves (.inl h4)

theorem Coder.decSym_raised {k k' : Coder} {ctx : Nat} {e : Cause} (h : k.decSym ctx = .raised e k') :
    Stream.Moves k.str k'.str ∧ (k'.slot = k.slot ∨ ∃ j, k'.slot = k.slot.updateSym ctx j) := by
  unfold Coder.decSym at h
  cases hr : k.slot.table.row ctx with
  | none => simp [hr] at h
  | some row =>
    simp only [hr] at h
    rcases Coded.bind_raised h with h1 | ⟨v, k1, h1, h2⟩
    · obtain ⟨t1, h3, rfl⟩ := Coded.lift_raised h1
      exact ⟨(Stream.decodeValue_raised h3).1 ▸ .refl _, .inl rfl⟩
    · obtain ⟨t1, h3, rfl⟩ := Coded.lift_ok h1
      obtain ⟨rfl, -⟩ := Stream.decodeValue_ok h3
      cases hf : findSymbol row.freq v with
      | none => simp [hf] at h2
      | some j' =>
        simp only [hf] at h2
        cases hi : row.interval j' with
        | none => simp [hi] at h2
        | some iv =>
          simp only [hi] at h2
          rcases Coded.bind_raised h2 with h4 | ⟨_, _, _, h5⟩
          · have := Coder.codeInterval_moves (.inr ⟨e, h4⟩)
            exact ⟨this.1, .inr ⟨_, this.2⟩⟩
          · simp at h5

end Sys2Proof.Machine
end

