-- ==== Sys2Proof/Laws/CodingSteps.lean ====
section
/-!
SUPPORT. Every way a coding step of the machine can end is one that the rules describe: from an end of `encBit`, `decBit`,
`encSym` or `decSym`, or of a run of them, to the relations of Safety.lean that say it from the rules (R122-R127).
-/

namespace Sys2Proof.Machine

theorem Coder.codeInterval_ok {k u : Coder} {iv : Interval} {m : Slot} (h : k.codeInterval iv m = .ok () u) :
    k.str.Codes iv none u.str ∧ u.slot = m := by
  obtain ⟨t, ht, rfl⟩ := Coded.lift_ok h
  exact ⟨ht, rfl⟩

theorem Coder.codeInterval_raised {k u : Coder} {iv : Interval} {m : Slot} {e : Cause}
    (h : k.codeInterval iv m = .raised e u) : k.str.Codes iv (some e) u.str ∧ u.slot = m := by
  obtain ⟨t, ht, rfl⟩ := Coded.lift_raised h
  exact ⟨ht, rfl⟩

theorem Coder.encBit_encodes {k u : Coder} {ctx : Nat} {b : Bool} (h : k.encBit ctx b = .ok () u) :
    k.EncodesBit ctx b none u := by
  unfold Coder.encBit at h
  split at h
  · simp at h
  · next p hp => exact ⟨p, hp, Coder.codeInterval_ok h⟩

theorem Coder.encBit_encodes_raised {k u : Coder} {ctx : Nat} {b : Bool} {e : Cause} (h : k.encBit ctx b = .raised e u) :
    k.EncodesBit ctx b (some e) u := by
  unfold Coder.encBit at h
  split at h
  · simp at h
  · next p hp => exact ⟨p, hp, Coder.codeInterval_raised h⟩

/-- `DecodeValue` answers the position below the total, or raises at or beyond it and changes nothing (R120). -/
theorem Stream.decodeValue_cases {t : Stream} {tot : Nat} (htot : tot < 2 ^ 32) :
    t.decodeValue tot = .fault .divideByZero
      ∨ (t.ch.position tot < tot ∧ t.decodeValue tot = .ok (t.ch.position tot) t)
      ∨ (tot ≤ t.ch.position tot ∧ t.decodeValue tot = .raised .corruptValue t) := by
  have hp : ((t.ch.code - t.ch.low) / (t.ch.range / word tot)).toNat = t.ch.position tot := by
    have hw : (word tot).toNat = tot := by simpa [word] using Nat.mod_eq_of_lt htot
    simp only [Channel.position, BitVec.toNat_udiv, hw]
  simp only [Stream.decodeValue, hp]
  split
  · exact .inl rfl
  · split
    · next hv => exact .inr (.inr ⟨hv, rfl⟩)
    · next hv => exact .inr (.inl ⟨Nat.lt_of_not_le hv, rfl⟩)

theorem Coder.decBit_decodes {k u : Coder} {ctx : Nat} {b : Bool} (h : k.decBit ctx = .ok b u) :
    k.DecodesBit ctx b none u := by
  unfold Coder.decBit at h
  split at h
  · simp at h
  · next p hp =>
    rcases k.str.decodeValue_cases (tot := probOne) (by decide) with hv | ⟨hv, hd⟩ | ⟨_, hd⟩
    · simp [hv, Coded.lift, Coded.bind] at h
    · simp only [hd, Coded.lift, Coded.bind] at h
      obtain ⟨_, k', hk, h⟩ := Coded.bind_ok h
      simp only [Coded.ok.injEq] at h
      obtain ⟨rfl, rfl⟩ := h
      obtain ⟨hc, hs⟩ := Coder.codeInterval_ok hk
      exact ⟨p, hp, hv, rfl, hc, hs⟩
    · simp [hd, Coded.lift, Coded.bind] at h

/-- A raise of `DecBit` is one of `Renorm`, with the model updated, or the corrupt position's, with nothing changed
(R123). -/
theorem Coder.decBit_decodes_raised {k u : Coder} {ctx : Nat} {e : Cause} (h : k.decBit ctx = .raised e u) :
    (∃ b, k.DecodesBit ctx b (some e) u) ∨ (e = .corruptValue ∧ u = k ∧ 4096 ≤ k.str.ch.position 4096) := by
  unfold Coder.decBit at h
  split at h
  · simp at h
  · next p hp =>
    rcases k.str.decodeValue_cases (tot := probOne) (by decide) with hv | ⟨hv, hd⟩ | ⟨hv, hd⟩
    · simp [hv, Coded.lift, Coded.bind] at h
    · simp only [hd, Coded.lift, Coded.bind] at h
      rcases Coded.bind_raised h with hk | ⟨_, _, _, h⟩
      · obtain ⟨hc, hs⟩ := Coder.codeInterval_raised hk
        exact .inl ⟨_, p, hp, hv, rfl, hc, hs⟩
      · simp at h
    · simp only [hd, Coded.lift, Coded.bind, Coded.raised.injEq] at h
      exact .inr ⟨h.1.symm, h.2.symm, hv⟩

/-- What the update of a symbol does to the slot (R109). -/
theorem Slot.updateSym_symUpdated {m : Slot} {ctx j : Nat} {row : SymRow} (h : m.table.row ctx = some row) :
    m.SymUpdated (m.updateSym ctx j) ctx j := by
  cases ht : m.table with
  | off => simp [ht, Table.row] at h
  | bin p0 p1 => simp [ht, Table.row] at h
  | sym rows =>
    simp only [Slot.SymUpdated, Slot.updateSym, ht, Table.row, Table.alphabet, List.length_modify, true_and]
    refine ⟨fun r hr => ?_, fun d hd => ?_⟩
    · simp [hr]
    · simp [Ne.symm hd]

theorem Coder.encSym_encodes {k u : Coder} {ctx j : Nat} (h : k.encSym ctx j = .ok () u) : k.EncodesSym ctx j none u := by
  unfold Coder.encSym at h
  cases hr : k.slot.table.row ctx with
  | none => simp [hr] at h
  | some row =>
    cases hi : row.interval j with
    | none => simp [hr, hi] at h
    | some iv =>
      simp only [hr, Option.bind_some, hi] at h
      split at h
      · simp at h
      · obtain ⟨hc, hs⟩ := Coder.codeInterval_ok h
        exact ⟨row, iv, hr, hi, hc, hs ▸ Slot.updateSym_symUpdated hr⟩

theorem Coder.encSym_encodes_raised {k u : Coder} {ctx j : Nat} {e : Cause} (h : k.encSym ctx j = .raised e u) :
    k.EncodesSym ctx j (some e) u := by
  unfold Coder.encSym at h
  cases hr : k.slot.table.row ctx with
  | none => simp [hr] at h
  | some row =>
    cases hi : row.interval j with
    | none => simp [hr, hi] at h
    | some iv =>
      simp only [hr, Option.bind_some, hi] at h
      split at h
      · simp at h
      · obtain ⟨hc, hs⟩ := Coder.codeInterval_raised h
        exact ⟨row, iv, hr, hi, hc, hs ▸ Slot.updateSym_symUpdated hr⟩

/-- The symbol the decoder finds is the one whose counts hold the value (R108). -/
theorem findSymbol_some {f : List Half} {v j : Nat} (h : findSymbol f v = some j) :
    ∃ c, f[j]? = some c ∧ sumCounts (f.take j) ≤ v ∧ v < sumCounts (f.take j) + c.toNat := by
  induction f generalizing v j with
  | nil => simp [findSymbol] at h
  | cons c f ih =>
    unfold findSymbol at h
    split at h
    · next hv =>
      simp only [Option.some.injEq] at h
      subst h
      exact ⟨c, rfl, by simp [sumCounts], by simpa [sumCounts] using hv⟩
    · next hv =>
      simp only [Option.map_eq_some_iff] at h
      obtain ⟨i, hi, rfl⟩ := h
      obtain ⟨d, hd, h1, h2⟩ := ih hi
      refine ⟨d, by simpa using hd, ?_, ?_⟩ <;> simp only [sumCounts, List.take_succ_cons, List.map_cons,
        List.sum_cons] at * <;> omega

theorem Coder.decSym_decodes {k u : Coder} {ctx j : Nat} (h : k.decSym ctx = .ok j u) : k.DecodesSym ctx j none u := by
  unfold Coder.decSym at h
  split at h
  · simp at h
  · next row hr =>
    have ht : row.tot.toNat < 2 ^ 32 := Nat.lt_trans row.tot.isLt (by decide)
    rcases k.str.decodeValue_cases ht with hv | ⟨hv, hd⟩ | ⟨_, hd⟩
    · simp [hv, Coded.lift, Coded.bind] at h
    · simp only [hd, Coded.lift, Coded.bind] at h
      split at h
      · simp at h
      · next i hi =>
        obtain ⟨c, hc, h1, h2⟩ := findSymbol_some hi
        have hiv : row.interval i = some { cum := row.cum i, freq := c.toNat, tot := row.tot.toNat } := by
          simp [SymRow.interval, hc]
        simp only [hiv] at h
        obtain ⟨_, k', hk, h⟩ := Coded.bind_ok h
        simp only [Coded.ok.injEq] at h
        obtain ⟨rfl, rfl⟩ := h
        obtain ⟨hcode, hs⟩ := Coder.codeInterval_ok hk
        exact ⟨row, _, hr, hiv, h1, h2, hcode, hs ▸ Slot.updateSym_symUpdated hr⟩
    · simp [hd, Coded.lift, Coded.bind] at h

/-- A raise of `DecSym` is one of `Renorm`, with the model updated, or the corrupt position's, with nothing changed
(R125). -/
theorem Coder.decSym_decodes_raised {k u : Coder} {ctx : Nat} {e : Cause} (h : k.decSym ctx = .raised e u) :
    (∃ j, k.DecodesSym ctx j (some e) u) ∨ (e = .corruptValue ∧ u = k ∧ k.SymCorrupt ctx) := by
  unfold Coder.decSym at h
  split at h
  · simp at h
  · next row hr =>
    have ht : row.tot.toNat < 2 ^ 32 := Nat.lt_trans row.tot.isLt (by decide)
    rcases k.str.decodeValue_cases ht with hv | ⟨hv, hd⟩ | ⟨hv, hd⟩
    · simp [hv, Coded.lift, Coded.bind] at h
    · simp only [hd, Coded.lift, Coded.bind] at h
      split at h
      · simp at h
      · next i hi =>
        obtain ⟨c, hc, h1, h2⟩ := findSymbol_some hi
        have hiv : row.interval i = some { cum := row.cum i, freq := c.toNat, tot := row.tot.toNat } := by
          simp [SymRow.interval, hc]
        simp only [hiv] at h
        rcases Coded.bind_raised h with hk | ⟨_, _, _, h⟩
        · obtain ⟨hcode, hs⟩ := Coder.codeInterval_raised hk
          exact .inl ⟨i, row, _, hr, hiv, h1, h2, hcode, hs ▸ Slot.updateSym_symUpdated hr⟩
        · simp at h
    · simp only [hd, Coded.lift, Coded.bind, Coded.raised.injEq] at h
      exact .inr ⟨h.1.symm, h.2.symm, row, hr, hv⟩

/-! ### Runs of steps on the chain -/

theorem Coder.encBits_encodes {bits : List Bool} {k u : Coder} (h : k.encBits bits = .ok () u) :
    Coder.EncodesBits bits k u := by
  induction bits generalizing k with
  | nil => simp only [Coder.encBits, Coded.ok.injEq, true_and] at h; exact h.symm
  | cons b bits ih =>
    obtain ⟨_, k', h1, h2⟩ := Coded.bind_ok h
    exact ⟨k', Coder.encBit_encodes h1, ih h2⟩

theorem Coder.encSyms_encodes {xs : List Byte} {k u : Coder} (h : k.encSyms xs = .ok () u) :
    Coder.EncodesSyms xs k u := by
  induction xs generalizing k with
  | nil => simp only [Coder.encSyms, Coded.ok.injEq, true_and] at h; exact h.symm
  | cons j xs ih =>
    obtain ⟨_, k', h1, h2⟩ := Coded.bind_ok h
    exact ⟨k', Coder.encSym_encodes h1, ih h2⟩

/-- A run of bits that raises does so at one of them, with those before it encoded (R126, R134). -/
theorem Coder.encBits_encodes_raised {bits : List Bool} {k u : Coder} {e : Cause} (h : k.encBits bits = .raised e u) :
    ∃ done b rest k', bits = done ++ b :: rest ∧ Coder.EncodesBits done k k'
      ∧ k'.EncodesBit k'.slot.last.toNat b (some e) u := by
  induction bits generalizing k with
  | nil => simp [Coder.encBits] at h
  | cons b bits ih =>
    rcases Coded.bind_raised h with h1 | ⟨_, k', h1, h2⟩
    · exact ⟨[], b, bits, k, rfl, rfl, Coder.encBit_encodes_raised h1⟩
    · obtain ⟨done, b', rest, v, rfl, hd, he⟩ := ih h2
      exact ⟨b :: done, b', rest, v, rfl, ⟨k', Coder.encBit_encodes h1, hd⟩, he⟩

/-- A run of symbols that raises does so at one of them, with those before it encoded (R136). -/
theorem Coder.encSyms_encodes_raised {xs : List Byte} {k u : Coder} {e : Cause} (h : k.encSyms xs = .raised e u) :
    ∃ done j rest k', xs = done ++ j :: rest ∧ Coder.EncodesSyms done k k'
      ∧ k'.EncodesSym k'.slot.last.toNat j.toNat (some e) u := by
  induction xs generalizing k with
  | nil => simp [Coder.encSyms] at h
  | cons j xs ih =>
    rcases Coded.bind_raised h with h1 | ⟨_, k', h1, h2⟩
    · exact ⟨[], j, xs, k, rfl, rfl, Coder.encSym_encodes_raised h1⟩
    · obtain ⟨done, j', rest, v, rfl, hd, he⟩ := ih h2
      exact ⟨j :: done, j', rest, v, rfl, ⟨k', Coder.encSym_encodes h1, hd⟩, he⟩

end Sys2Proof.Machine
end

