-- ==== Sys2Proof/Laws/PerInstr.lean ====
section
/-!
SUPPORT. Per-instruction family `FieldsReadBack`: the fields the decoder reads from the word of a command are the
command's own fields (rules R66, R67). Both directions of decoding rest on it.
-/

namespace Sys2Proof.Laws

/-- Every field fits the width R66 gives it. -/
abbrev FieldsFit (f : Fields) : Prop :=
  f.op < 256 ∧ f.ch < 4 ∧ f.slot < 8 ∧ f.x < 2 ∧ f.rsv < 4 ∧ f.val < 256 ∧ f.ctx < 256

theorem fieldsOf_word (f : Fields) (h : FieldsFit f) : fieldsOf f.word = f := by
  obtain ⟨op, ch, slot, x, rsv, val, ctx⟩ := f
  obtain ⟨h1, h2, h3, h4, h5, h6, h7⟩ := h
  simp only [Fields.word, fieldsOf, bitField, BitVec.toNat_ofNat, Fields.mk.injEq] at *
  refine ⟨?_, ?_, ?_, ?_, ?_, ?_, ?_⟩ <;> omega

theorem word_fieldsOf (w : Word) : (fieldsOf w).word = w := by
  apply BitVec.eq_of_toNat_eq
  have := w.isLt
  simp only [Fields.word, fieldsOf, bitField, BitVec.toNat_ofNat]
  omega

theorem fieldsOf_fit (w : Word) : FieldsFit (fieldsOf w) := by
  simp only [FieldsFit, fieldsOf, bitField]
  refine ⟨?_, ?_, ?_, ?_, ?_, ?_, ?_⟩ <;> exact Nat.mod_lt _ (by decide)

theorem xField_lt (x : CtxSel) : x.xField < 2 := by cases x <;> simp [CtxSel.xField]

theorem ctxField_lt (x : CtxSel) : x.ctxField < 256 := by
  cases x with
  | chain => decide
  | explicit k => exact k.isLt

theorem bool_lt (b : Bool) : b.toNat < 256 := by cases b <;> decide

/-- The fields of a command fit (R66). -/
theorem fields_fit (i : Instr) : FieldsFit i.fields := by
  cases i <;> simp only [FieldsFit, Instr.fields] <;>
    refine ⟨?_, ?_, ?_, ?_, ?_, ?_, ?_⟩ <;>
    first
      | decide
      | exact Fin.isLt _
      | exact BitVec.isLt _
      | exact xField_lt _
      | exact ctxField_lt _
      | exact bool_lt _

/-- The fields read from a command's word are the command's. -/
def FieldsReadBack.Statement (i : Instr) : Prop := fieldsOf (encode i) = i.fields

theorem FieldsReadBack.nop : FieldsReadBack.Statement .nop :=
  fieldsOf_word _ (fields_fit _)

theorem FieldsReadBack.bwtFwd : FieldsReadBack.Statement .bwtFwd :=
  fieldsOf_word _ (fields_fit _)

theorem FieldsReadBack.bwtInv : FieldsReadBack.Statement .bwtInv :=
  fieldsOf_word _ (fields_fit _)

theorem FieldsReadBack.mtfEnc : FieldsReadBack.Statement .mtfEnc :=
  fieldsOf_word _ (fields_fit _)

theorem FieldsReadBack.mtfDec : FieldsReadBack.Statement .mtfDec :=
  fieldsOf_word _ (fields_fit _)

theorem FieldsReadBack.zrlSplit : FieldsReadBack.Statement .zrlSplit :=
  fieldsOf_word _ (fields_fit _)

theorem FieldsReadBack.zrlJoin : FieldsReadBack.Statement .zrlJoin :=
  fieldsOf_word _ (fields_fit _)

theorem FieldsReadBack.tierCls : FieldsReadBack.Statement .tierCls :=
  fieldsOf_word _ (fields_fit _)

theorem FieldsReadBack.tierUncls : FieldsReadBack.Statement .tierUncls :=
  fieldsOf_word _ (fields_fit _)

theorem FieldsReadBack.tierSplit : FieldsReadBack.Statement .tierSplit :=
  fieldsOf_word _ (fields_fit _)

theorem FieldsReadBack.tierCount : FieldsReadBack.Statement .tierCount :=
  fieldsOf_word _ (fields_fit _)

theorem FieldsReadBack.tierJoin : FieldsReadBack.Statement .tierJoin :=
  fieldsOf_word _ (fields_fit _)

theorem FieldsReadBack.mdlCfg (m : SlotNo) (val kind : Byte) : FieldsReadBack.Statement (.mdlCfg m val kind) :=
  fieldsOf_word _ (fields_fit _)

theorem FieldsReadBack.mdlReset (m : SlotNo) : FieldsReadBack.Statement (.mdlReset m) :=
  fieldsOf_word _ (fields_fit _)

theorem FieldsReadBack.mdlSetctx (m : SlotNo) (k : Byte) : FieldsReadBack.Statement (.mdlSetctx m k) :=
  fieldsOf_word _ (fields_fit _)

theorem FieldsReadBack.mdlPeek (m : SlotNo) : FieldsReadBack.Statement (.mdlPeek m) :=
  fieldsOf_word _ (fields_fit _)

theorem FieldsReadBack.rcEinit (c : ChanNo) : FieldsReadBack.Statement (.rcEinit c) :=
  fieldsOf_word _ (fields_fit _)

theorem FieldsReadBack.rcDinit (c : ChanNo) : FieldsReadBack.Statement (.rcDinit c) :=
  fieldsOf_word _ (fields_fit _)

theorem FieldsReadBack.rcEbit (c : ChanNo) (m : SlotNo) (x : CtxSel) (b : Bool) : FieldsReadBack.Statement (.rcEbit c m x b) :=
  fieldsOf_word _ (fields_fit _)

theorem FieldsReadBack.rcDbit (c : ChanNo) (m : SlotNo) (x : CtxSel) : FieldsReadBack.Statement (.rcDbit c m x) :=
  fieldsOf_word _ (fields_fit _)

theorem FieldsReadBack.rcEsym (c : ChanNo) (m : SlotNo) (x : CtxSel) (j : Byte) : FieldsReadBack.Statement (.rcEsym c m x j) :=
  fieldsOf_word _ (fields_fit _)

theorem FieldsReadBack.rcDsym (c : ChanNo) (m : SlotNo) (x : CtxSel) : FieldsReadBack.Statement (.rcDsym c m x) :=
  fieldsOf_word _ (fields_fit _)

theorem FieldsReadBack.rcEgamma (c : ChanNo) (m : SlotNo) : FieldsReadBack.Statement (.rcEgamma c m) :=
  fieldsOf_word _ (fields_fit _)

theorem FieldsReadBack.rcDgamma (c : ChanNo) (m : SlotNo) : FieldsReadBack.Statement (.rcDgamma c m) :=
  fieldsOf_word _ (fields_fit _)

theorem FieldsReadBack.rcEstream (c : ChanNo) (m : SlotNo) : FieldsReadBack.Statement (.rcEstream c m) :=
  fieldsOf_word _ (fields_fit _)

theorem FieldsReadBack.rcDstream (c : ChanNo) (m : SlotNo) : FieldsReadBack.Statement (.rcDstream c m) :=
  fieldsOf_word _ (fields_fit _)

theorem FieldsReadBack.rcEflush (c : ChanNo) : FieldsReadBack.Statement (.rcEflush c) :=
  fieldsOf_word _ (fields_fit _)

theorem FieldsReadBack.rcDfin (c : ChanNo) : FieldsReadBack.Statement (.rcDfin c) :=
  fieldsOf_word _ (fields_fit _)

end Sys2Proof.Laws
end

