-- ==== Sys2Proof/Tests/Slice0.lean ====
section
/-!
SUPPORT. The model's own tests: the well-formedness smoke, decoding of words written out from rule R72, one or two steps per
command on a small state with the results of spec/95_test_vectors.md and of the rules' examples, and for every statement
with hypotheses a state and operands that meet them (`witness_…`).
-/

namespace Sys2Proof.Tests
open Sys2Proof.Machine

-- The kernel evaluates these tests one after another: side by side they take a thread each.
set_option Elab.async false

/-! ### Well-formedness: each check refuses an ill-formed term -/

theorem test_wf_refuses_kind_above_2 : (Instr.mdlCfg 0 1#8 3#8).wellFormed = false := by decide
theorem test_wf_refuses_off_with_alphabet : (Instr.mdlCfg 0 1#8 0#8).wellFormed = false := by decide
theorem test_wf_refuses_bin_not_two : (Instr.mdlCfg 0 2#8 1#8).wellFormed = false := by decide
theorem test_wf_refuses_sym_of_one : (Instr.mdlCfg 0 0#8 2#8).wellFormed = false := by decide

/-! ### Decoding: every command's word, written out from R66 and R72 -/

theorem test_decode_system_bwt_mtf :
    decode 0x00000000#32 = .ok .nop ∧ decode 0x00000010#32 = .ok .bwtFwd ∧ decode 0x00000011#32 = .ok .bwtInv
      ∧ decode 0x00000020#32 = .ok .mtfEnc ∧ decode 0x00000021#32 = .ok .mtfDec := by decide

theorem test_decode_zero_run :
    decode 0x00000030#32 = .ok .zrlSplit ∧ decode 0x00000031#32 = .ok .zrlJoin ∧ decode 0x00000032#32 = .ok .tierCls
      ∧ decode 0x00000033#32 = .ok .tierUncls ∧ decode 0x00000034#32 = .ok .tierSplit
      ∧ decode 0x00000035#32 = .ok .tierCount ∧ decode 0x00000036#32 = .ok .tierJoin := by decide

/-- Slot 3 is `SLOT` = 011 in bits 12:10; kind and alphabet as in the example of R112. -/
theorem test_decode_models :
    decode 0b00000010000101010000110001000000#32 = .ok (.mdlCfg 3 21#8 2#8)
      ∧ decode 0b00000000000000000000010001000001#32 = .ok (.mdlReset 1)
      ∧ decode 0b00000101000000000000100001000010#32 = .ok (.mdlSetctx 2 5#8)
      ∧ decode 0b00000000000000000001110001000011#32 = .ok (.mdlPeek 7) := by decide

/-- Fields `CTX VAL RSV X SLOT CH OP`, most significant first. -/
theorem test_decode_coder :
    decode 0b00000000000000000000001101010000#32 = .ok (.rcEinit 3)
      ∧ decode 0b00000000000000000000000101010001#32 = .ok (.rcDinit 1)
      ∧ decode 0b00000001000000010011101001010010#32 = .ok (.rcEbit 2 6 (.explicit 1#8) true)
      ∧ decode 0b00000000000000000000000001010011#32 = .ok (.rcDbit 0 0 .chain)
      ∧ decode 0x00802454#32 = .ok (.rcEsym 0 1 (.explicit 0#8) 128#8)
      ∧ decode 0x00002455#32 = .ok (.rcDsym 0 1 (.explicit 0#8)) := by decide

theorem test_decode_coder_streams :
    decode 0b00000000000000000001010101010110#32 = .ok (.rcEgamma 1 5)
      ∧ decode 0x00000057#32 = .ok (.rcDgamma 0 0) ∧ decode 0x00000458#32 = .ok (.rcEstream 0 1)
      ∧ decode 0x00000559#32 = .ok (.rcDstream 1 1) ∧ decode 0x0000025A#32 = .ok (.rcEflush 2)
      ∧ decode 0x0000015B#32 = .ok (.rcDfin 1) := by decide

/-- R67, R71: `RSV`, an unused field, `VAL` above 1 and `CTX` under `X = 0` are `ILLEGAL`(2); R73: a reserved opcode. -/
theorem test_decode_refuses :
    decode 0x00004000#32 = .error .field ∧ decode 0x00000110#32 = .error .field
      ∧ decode 0x00020052#32 = .error .field ∧ decode 0x01000053#32 = .error .field
      ∧ decode 0x00000040#32 = .ok (.mdlCfg 0 0#8 0#8) ∧ decode 0x03000040#32 = .error .config
      ∧ decode 0x0000005C#32 = .error .opcode ∧ decode 0x00000001#32 = .error .opcode := by decide

/-! ### One step on a small state -/

/-- 64 bytes of DMEM, the first of them listed. -/
def memOf (bytes : List Nat) : Dmem :=
  { size := 64, fill := 0, cells := bytes.zipIdx.map fun x => (x.2, BitVec.ofNat 8 x.1) }

/-- A small block with a command running, some DMEM bytes from 0 on and some ARG registers from `ARG0` on. -/
def small (bytes args : List Nat) : State :=
  { State.reset with
    params := { maxBlock := 16, hostBase := 0 }
    dmem := memOf bytes
    arg := Vector.ofFn fun i : Fin 8 => word (args.getD i 0)
    status := { Status.reset with busy := true } }

/-- Two slots configured: slot 0 `BIN`, slot 1 `SYM` with an alphabet of 2, both fresh. -/
def models (s : State) : State :=
  (s.setSlot 0 { table := initialBin, last := 0#8 }).setSlot 1 { table := initialSym 2, last := 0#8 }

/-- The small block with its models, channel 0 encoding into 32..32+cap. -/
def coding (cap : Nat) (bytes args : List Nat) : State :=
  (models (small bytes args)).setChan 0 (Channel.opened .enc 32 cap)

/-- The small block with its models, channel 1 decoding what is left of 0..len after its first 4 bytes. -/
def reading (code : Word) (bytes args : List Nat) : State :=
  (models (small bytes args)).setChan 1
    { Channel.opened .dec 0 bytes.length with ptr := 4#32, code := code }

/-- The outcome is a next state with a property. -/
def ends (o : Host.Outcome State Fault Refusal) (f : State → Bool) : Bool :=
  match o with
  | .next t => f t
  | .fault _ => false
  | .refused _ => false

/-- The next state, where there is one. -/
def after (o : Host.Outcome State Fault Refusal) : State :=
  match o with
  | .next t => t
  | .fault _ => State.reset
  | .refused _ => State.reset

theorem ends_after {o : Host.Outcome State Fault Refusal} (h : ends o (fun _ => true) = true) : o = .next (after o) := by
  cases o with
  | next t => rfl
  | fault r => simp [ends] at h
  | refused r => simp [ends] at h

/-- R141's example: `STATUS` ends as 2. -/
theorem test_nop : ends (exec .nop (small [] [])) (fun t => t.status.word == 2#32) = true := by decide +kernel

/-- BWT-1, with the rotation order of R79's key in the scratch store, and BWT-10. -/
theorem test_bwtFwd_banana : ends (exec .bwtFwd (small [98, 97, 110, 97, 110, 97] [0, 16, 6])) (fun t =>
    t.dmem.readBytes 16 6 == [0x6E#8, 0x6E#8, 0x62#8, 0x61#8, 0x61#8, 0x61#8] && t.res[0] == 3#32
      && t.scratch.entries == [5#32, 3#32, 1#32, 0#32, 4#32, 2#32]) = true := by
  decide +kernel

theorem test_bwtFwd_unsigned : ends (exec .bwtFwd (small [0xFF, 0, 0xFF, 0, 1] [0, 16, 5])) (fun t =>
    t.dmem.readBytes 16 5 == [0xFF#8, 0xFF#8, 0#8, 0#8, 1#8] && t.res[0] == 4#32) = true := by decide +kernel

/-- R85's example, with the ranks of R81 over an older scratch store, and BWT-12. -/
theorem test_bwtInv_banana : ends (exec .bwtInv { small [0x6E, 0x6E, 0x62, 0x61, 0x61, 0x61] [0, 16, 6, 3] with
      scratch := { fill := 0, entries := List.replicate 8 9#32 } }) (fun t =>
    t.dmem.readBytes 16 6 == [98#8, 97#8, 110#8, 97#8, 110#8, 97#8]
      && t.scratch.entries == [4#32, 5#32, 3#32, 0#32, 1#32, 2#32, 9#32, 9#32]) = true := by decide +kernel

theorem test_bwtInv_bad_index : ends (exec .bwtInv (small [] [0, 16, 6, 6])) (fun t =>
    t.status.word == 0x106#32 && t.errinfo == 1#32) = true := by decide +kernel

/-- MTF-1 and MTF-6. -/
theorem test_mtfEnc : ends (exec .mtfEnc (small [110, 110, 98, 97, 97, 97] [0, 16, 6])) (fun t =>
    t.dmem.readBytes 16 6 == [110#8, 0#8, 99#8, 99#8, 0#8, 0#8]) = true := by decide +kernel

theorem test_mtfDec : ends (exec .mtfDec (small [255, 255, 255] [0, 16, 3])) (fun t =>
    t.dmem.readBytes 16 3 == [255#8, 254#8, 253#8]) = true := by decide +kernel

/-- ZRL-1, ZRL-6 and ZRL-9. -/
theorem test_zrlSplit : ends (exec .zrlSplit (small [110, 0, 99, 99, 0, 0] [0, 6, 16, 24])) (fun t =>
    t.dmem.readBytes 16 5 == [0x6E#8, 0#8, 0x63#8, 0x63#8, 0#8]
      && t.dmem.readBytes 24 8 == [0#8, 0#8, 0#8, 1#8, 0#8, 0#8, 0#8, 2#8] && t.res[0] == 5#32 && t.res[1] == 2#32)
      = true := by decide +kernel

theorem test_zrlJoin_adjacent : ends (exec .zrlJoin (small [0, 0, 0, 0, 0, 2, 0, 0, 0, 3] [0, 2, 2, 2, 16, 5])) (fun t =>
    t.dmem.readBytes 16 5 == [0#8, 0#8, 0#8, 0#8, 0#8] && t.res[0] == 5#32) = true := by decide +kernel

theorem test_zrlJoin_too_long : ends (exec .zrlJoin (small [0, 0, 0, 0, 101] [0, 1, 1, 1, 16, 100])) (fun t =>
    t.status.word == 0x406#32 && t.errinfo == 3#32) = true := by decide +kernel

/-- TIER-2 and TIER-4, TIER-5 and TIER-6. -/
theorem test_tierCls : ends (exec .tierCls (small [] [31])) (fun t => t.res[0] == 3#32 && t.res[1] == 21#32) = true := by
  decide +kernel

theorem test_tierCls_too_large : ends (exec .tierCls (small [] [256])) (fun t => t.status.word == 0x806#32) = true := by
  decide +kernel

theorem test_tierUncls : ends (exec .tierUncls (small [] [4, 67])) (fun t => t.res[0] == 99#32) = true := by
  decide +kernel

theorem test_tierUncls_bad_pair : ends (exec .tierUncls (small [] [1, 3])) (fun t => t.status.word == 0x806#32) = true := by
  decide +kernel

/-- TIER-7, TIER-9, TIER-10 and TIER-12. -/
theorem test_tierSplit : ends (exec .tierSplit (small [1, 3, 4, 9, 10, 31, 32] [0, 7, 16, 24, 26, 28, 30])) (fun t =>
    t.dmem.readBytes 16 7 == [1#8, 1#8, 2#8, 2#8, 3#8, 3#8, 4#8]
      && t.dmem.readBytes 24 7 == [0#8, 2#8, 0#8, 5#8, 0#8, 0x15#8, 0#8]) = true := by decide +kernel

theorem test_tierCount : ends (exec .tierCount (small [4, 0, 4, 4, 0] [0, 5])) (fun t =>
    t.res.toList.take 5 == [2#32, 0#32, 0#32, 0#32, 3#32]) = true := by decide +kernel

theorem test_tierJoin : ends (exec .tierJoin
    (small [1, 1, 2, 2, 3, 3, 4, 0, 2, 0, 5, 0, 0x15, 0] [0, 7, 7, 9, 11, 13, 16])) (fun t =>
    t.dmem.readBytes 16 7 == [1#8, 3#8, 4#8, 9#8, 10#8, 31#8, 32#8]) = true := by decide +kernel

theorem test_tierJoin_bad_offset : ends (exec .tierJoin (small [1, 3] [0, 1, 1, 1, 1, 1, 16])) (fun t =>
    t.status.word == 0x206#32 && t.errinfo == 7#32) = true := by decide +kernel

/-- R112's example: `M3.CFG` reads 0x00001602. -/
theorem test_mdlCfg : ends (exec (.mdlCfg 3 21#8 2#8) (small [] [])) (fun t =>
    t.slot[3].cfgWord == 0x1602#32 && (t.slot[3].table.row 21).map (·.tot) == some 22#16) = true := by decide +kernel

theorem test_mdlReset : ends (exec (.mdlReset 0)
    ((small [] []).setSlot 0 { table := .bin 31#12 4065#12, last := 1#8 })) (fun t =>
    t.slot[0] == { table := .bin 2048#12 2048#12, last := 0#8 }) = true := by decide +kernel

theorem test_mdlReset_off : ends (exec (.mdlReset 2) (small [] [])) (fun t => t.status.word == 0x706#32) = true := by
  decide +kernel

theorem test_mdlSetctx : ends (exec (.mdlSetctx 1 1#8) (models (small [] []))) (fun t => t.slot[1].last == 1#8) = true := by
  decide +kernel

theorem test_mdlSetctx_beyond : ends (exec (.mdlSetctx 1 2#8) (models (small [] []))) (fun t =>
    t.status.word == 0x806#32 && t.errinfo == 1#32) = true := by decide +kernel

/-- R115's example, after one 1-bit. -/
theorem test_mdlPeek : ends (exec (.mdlPeek 0)
    ((small [] []).setSlot 0 { table := .bin 2112#12 2048#12, last := 1#8 })) (fun t =>
    t.res.toList.take 4 == [2112#32, 4096#32, 0#32, 1#32]) = true := by decide +kernel

/-- R128's example. -/
theorem test_rcEinit : ends (exec (.rcEinit 0) (small [] [32, 32])) (fun t =>
    t.ch[0] == { mode := .enc, low := 0#32, range := 0xFFFFFFFF#32, code := 0#32, base := 32#32, ptr := 32#32,
                 limit := 64#32 }) = true := by decide +kernel

/-- R129's example, and a window that is too short. -/
theorem test_rcDinit : ends (exec (.rcDinit 0) (small [0x2F, 0x29, 0x37, 0x39] [0, 4])) (fun t =>
    t.ch[0].code == 0x2F293739#32 && t.ch[0].ptr == 4#32) = true := by decide +kernel

theorem test_rcDinit_short : ends (exec (.rcDinit 0) (small [0x2F, 0x29, 0x37] [0, 3])) (fun t =>
    t.status.word == 0x206#32 && t.ch[0].mode == .err && t.ch[0].code == 0x2F2937#32 && t.ch[0].ptr == 3#32) = true := by
  decide +kernel

/-- R130's example. -/
theorem test_rcEbit : ends (exec (.rcEbit 0 0 .chain true) (coding 8 [] [])) (fun t =>
    t.ch[0].low == 0#32 && t.ch[0].range == 0x7FFFF800#32
      && t.slot[0] == { table := .bin 2112#12 2048#12, last := 1#8 }) = true := by decide +kernel

/-- R131's example. -/
theorem test_rcDbit : ends (exec (.rcDbit 1 0 .chain) (reading 0x2F293739#32 [0x2F, 0x29, 0x37, 0x39] [])) (fun t =>
    t.res[0] == 1#32) = true := by decide +kernel

/-- R132's example on an alphabet of 2: symbol 1 takes the upper half. -/
theorem test_rcEsym : ends (exec (.rcEsym 0 1 (.explicit 0#8) 1#8) (coding 8 [] [])) (fun t =>
    t.ch[0].low == 0x7FFFFFFF#32 && t.ch[0].range == 0x7FFFFFFF#32
      && t.slot[1].table.row 0 == some { freq := [1#16, 33#16], tot := 34#16 }) = true := by decide +kernel

/-- R133's corner case on an alphabet of 2: FF FF FF FF is beyond the scale. -/
theorem test_rcDsym_corrupt : ends (exec (.rcDsym 1 1 .chain) (reading 0xFFFFFFFF#32 [255, 255, 255, 255] [])) (fun t =>
    t.status.word == 0x206#32 && t.errinfo == 2#32 && t.ch[1].mode == .err) = true := by decide +kernel

/-- R134's and R135's example: the value 1000. -/
theorem test_rcEgamma : ends (exec (.rcEgamma 0 0) (coding 8 [] [1000])) (fun t =>
    t.ch[0].low == 0x60763EA5#32 && t.ch[0].range == 0x337CE55B#32 && t.dmem.readBytes 32 2 == [0#8, 0xB2#8]
      && t.slot[0] == { table := .bin 2098#12 2419#12, last := 0#8 }) = true := by decide +kernel

theorem test_rcDgamma : ends (exec (.rcDgamma 1 0) (reading 0x00B26076#32 [0, 0xB2, 0x60, 0x76, 0x3E, 0xA5] []))
    (fun t => t.res[0] == 1000#32) = true := by decide +kernel

/-- R136: a source byte beyond the alphabet, checked before anything is coded. -/
theorem test_rcEstream_bad_byte : ends (exec (.rcEstream 0 1) (coding 8 [0, 1, 2] [0, 3])) (fun t =>
    t.status.word == 0x806#32 && t.errinfo == 4#32 && t.ch[0].ptr == 32#32) = true := by decide +kernel

theorem test_rcDstream_empty : ends (exec (.rcDstream 1 1) (reading 0#32 [0, 0, 0, 0] [16, 0])) (fun t =>
    t.status.word == 2#32 && t.ch[1].ptr == 4#32) = true := by decide +kernel

/-- R138's example, and a window without room. -/
theorem test_rcEflush : ends (exec (.rcEflush 0) (coding 8 [] [])) (fun t =>
    t.res[0] == 4#32 && t.dmem.readBytes 32 4 == [0#8, 0#8, 0#8, 0#8] && t.ch[0].mode == .idle) = true := by
  decide +kernel

theorem test_rcEflush_full : ends (exec (.rcEflush 0) (coding 3 [] [])) (fun t =>
    t.status.word == 0x406#32 && t.errinfo == 2#32 && t.ch[0].mode == .err && t.ch[0].ptr == 35#32) = true := by
  decide +kernel

theorem test_rcDfin : ends (exec (.rcDfin 1) (reading 0#32 [0, 0, 0, 0, 0, 0] [])) (fun t =>
    t.res[0] == 4#32 && t.res[1] == 2#32 && t.ch[1].mode == .idle) = true := by decide +kernel

/-! ### The interface of the host's two questions -/

theorem test_fetchWord_runs : step (State.reset.withFetchWord 32 0x00000000) =
    .next ((State.reset.withFetchWord 32 0).complete []) := rfl

theorem test_decodeTableWord : decodeTableWord 32 0x02FF0440 = some (.mdlCfg 1 255#8 2#8) := by decide

/-! ### Witnesses: states and operands that meet the hypotheses of the statements -/

/-- The reset value of the MTF table is a permutation of the bytes. -/
theorem identityTable_nodup : identityTable.Nodup := by
  unfold identityTable
  rw [List.nodup_map_iff_inj_on List.nodup_range]
  intro a ha b hb h
  have := congrArg BitVec.toNat h
  simp only [BitVec.toNat_ofNat, List.mem_range] at *
  omega

/-- The invariant from its parts, for a state whose MTF table is as reset left it. -/
theorem inv_of {s : State}
    (h : s.ParamsLegal ∧ s.dmem.wf = true ∧ s.StatusCoherent ∧ (∀ c : ChanNo, (s.ch[c]).Ok s.dmem.size)
      ∧ (∀ m : SlotNo, (s.slot[m]).ok = true) ∧ s.mtf = identityTable
      ∧ s.scratch.entries.length ≤ s.params.maxBlock) : s.Inv :=
  ⟨h.1, h.2.1, h.2.2.1, h.2.2.2.1, h.2.2.2.2.1,
    h.2.2.2.2.2.1.symm ▸ ⟨by simp [identityTable], identityTable_nodup⟩, h.2.2.2.2.2.2⟩

theorem witness_decode : (Instr.mdlCfg 1 255#8 2#8).wellFormed = true ∧ decode 0x02FF0440#32 = .ok (.mdlCfg 1 255#8 2#8) := by
  decide

/-- The word held by the engine, with nothing else at the port. -/
def holding (w : Word) : State := { small [] [] with cmd := w }

theorem witness_reserved_opcode :
    (holding 0x00000001#32).EngineMoves ∧ ReservedOpcode ((holding 0x00000001#32).cmd.toNat % 256)
      ∧ (holding 0x000000FF#32).EngineMoves ∧ ReservedOpcode ((holding 0x000000FF#32).cmd.toNat % 256) := by
  decide +kernel

/-- `NOP` with `RSV` = 3, and `MDL_RESET` with `CTX` = 255. -/
theorem witness_unused_field :
    ((holding 0x0000C000#32).EngineMoves ∧ (fieldsOf (holding 0x0000C000#32).cmd).rsv ≠ 0
        ∧ (Instr.nop.wellFormed = true ∧ Instr.nop.fields.op = (fieldsOf (holding 0x0000C000#32).cmd).op)
        ∧ ∀ i : Instr, i.wellFormed = true → i.fields.op = (fieldsOf (holding 0x0000C000#32).cmd).op → i.fields.rsv = 0)
      ∧ (holding 0xFF000041#32).EngineMoves ∧ (fieldsOf (holding 0xFF000041#32).cmd).ctx ≠ 0
        ∧ ((Instr.mdlReset 0).wellFormed = true ∧ (Instr.mdlReset 0).fields.op = (fieldsOf (holding 0xFF000041#32).cmd).op)
        ∧ ∀ i : Instr, i.wellFormed = true → i.fields.op = (fieldsOf (holding 0xFF000041#32).cmd).op → i.fields.ctx = 0 :=
  ⟨⟨by decide +kernel, by decide +kernel, by decide +kernel, fun i _ _ => by cases i <;> rfl⟩, by decide +kernel,
    by decide +kernel, by decide +kernel, fun i _ h => by
      have hop : (fieldsOf (holding 0xFF000041#32).cmd).op = 0x41 := by decide +kernel
      rw [hop] at h
      cases i <;> first | rfl | simp [Instr.fields] at h⟩

/-- `RC_EBIT` with `VAL` = 2; `RC_DBIT` and `RC_DSYM` with `X` = 0 and `CTX` = 1; `MDL_CFG` with kind 3, and each kind with
an alphabet it does not take. -/
theorem witness_illegal_field :
    ((holding 0x00020052#32).EngineMoves ∧ (fieldsOf (holding 0x00020052#32).cmd).op = 0x52
        ∧ 1 < (fieldsOf (holding 0x00020052#32).cmd).val)
      ∧ ((holding 0x01000053#32).EngineMoves ∧ (fieldsOf (holding 0x01000053#32).cmd).op = 0x53
        ∧ (fieldsOf (holding 0x01000053#32).cmd).x = 0 ∧ (fieldsOf (holding 0x01000053#32).cmd).ctx ≠ 0)
      ∧ ((holding 0x01000055#32).EngineMoves ∧ (fieldsOf (holding 0x01000055#32).cmd).op = 0x55
        ∧ (fieldsOf (holding 0x01000055#32).cmd).x = 0 ∧ (fieldsOf (holding 0x01000055#32).cmd).ctx ≠ 0)
      ∧ ([0x03000040#32, 0x00010040#32, 0x01000040#32, 0x01020040#32, 0x02000040#32].all fun w =>
          let f := fieldsOf (holding w).cmd
          decide ((holding w).EngineMoves ∧ f.op = 0x40 ∧ f.rsv = 0 ∧ f.ch = 0 ∧ f.x = 0
            ∧ (2 < f.ctx ∨ (f.ctx = 0 ∧ f.val ≠ 0) ∨ (f.ctx = 1 ∧ f.val ≠ 1) ∨ (f.ctx = 2 ∧ f.val = 0)))) = true := by
  decide +kernel

theorem witness_step :
    ((holding 0#32).EngineMoves ∧ decode (holding 0#32).cmd = .ok .nop)
      ∧ ((holding 1#32).EngineMoves ∧ decode (holding 1#32).cmd = .error .opcode)
      ∧ (State.reset.running = false ∧ State.reset.port = [])
      ∧ ({ State.reset with port := [⟨false, .rst true⟩] } : State).running = false
      ∧ ({ holding 0#32 with port := [⟨true, .rst true⟩] } : State).running = true := by decide +kernel

theorem witness_nop : (0x80000000#32).toNat % 256 = 0 ∧ 0x80000000#32 ≠ 0#32 := by decide

theorem witness_bwt : [98#8, 97#8] ≠ ([] : List Byte) := by decide

/-- Success at `MAX_BLOCK` and at the end of DMEM; one byte more of each. -/
theorem witness_bwtFwd :
    ((small [] [0, 48, 16]).argNat 2 ≤ (small [] [0, 48, 16]).params.maxBlock
        ∧ (small [] [0, 48, 16]).argNat 0 + 16 ≤ (small [] [0, 48, 16]).dmem.size
        ∧ (small [] [0, 48, 16]).argNat 1 + 16 ≤ (small [] [0, 48, 16]).dmem.size)
      ∧ (small [] [0, 0, 17]).params.maxBlock < (small [] [0, 0, 17]).argNat 2
      ∧ ((small [] [0, 49, 16]).argNat 2 ≤ (small [] [0, 49, 16]).params.maxBlock
        ∧ (small [] [0, 49, 16]).dmem.size < (small [] [0, 49, 16]).argNat 1 + (small [] [0, 49, 16]).argNat 2) := by
  decide +kernel

theorem witness_bwtInv :
    let ok := small [] [0, 48, 16, 15]
    let empty := small [] [0, 64, 0, 0]
    (ok.argNat 3 < ok.argNat 2 ∧ ok.argNat 2 ≤ ok.params.maxBlock ∧ ok.argNat 1 + ok.argNat 2 ≤ ok.dmem.size
        ∧ ok.argNat 0 + ok.argNat 2 ≤ ok.dmem.size)
      ∧ (empty.argNat 2 = 0 ∧ empty.argNat 3 = 0 ∧ empty.argNat 1 + empty.argNat 2 ≤ empty.dmem.size)
      ∧ ¬ ((small [] [0, 0, 6, 6]).argNat 3 < (small [] [0, 0, 6, 6]).argNat 2
          ∨ ((small [] [0, 0, 6, 6]).argNat 2 = 0 ∧ (small [] [0, 0, 6, 6]).argNat 3 = 0))
      ∧ (small [] [0, 0, 17, 16]).argNat 3 < 17 ∧ (small [] [0, 0, 17, 16]).params.maxBlock < 17
      ∧ (small [] [49, 0, 16, 0]).dmem.size < (small [] [49, 0, 16, 0]).argNat 0 + 16 := by decide +kernel

theorem witness_mtf :
    ((small [] [0, 60, 4]).argNat 0 + (small [] [0, 60, 4]).argNat 2 ≤ (small [] [0, 60, 4]).dmem.size
        ∧ (small [] [0, 60, 4]).argNat 1 + (small [] [0, 60, 4]).argNat 2 ≤ (small [] [0, 60, 4]).dmem.size)
      ∧ ¬ ((small [] [0, 61, 4]).argNat 1 + (small [] [0, 61, 4]).argNat 2 ≤ (small [] [0, 61, 4]).dmem.size) := by
  decide +kernel

theorem witness_zrlSplit :
    let s := small [110, 0, 99, 99, 0, 0] [0, 6, 16, 56]
    let parts := zeroSplit (s.dmem.readBytes 0 6)
    s.argNat 0 + s.argNat 1 ≤ s.dmem.size ∧ s.argNat 2 + parts.1.length ≤ s.dmem.size
      ∧ s.argNat 3 + 4 * parts.2.length ≤ s.dmem.size ∧ 1 < parts.2.length
      ∧ ¬ ((small [110, 0, 99, 99, 0, 0] [0, 6, 16, 57]).argNat 3 + 4 * parts.2.length ≤ s.dmem.size) := by
  decide +kernel

/-- The six cases of `ZRL_JOIN`, in the order of its checks: range, count, run of 0, capacity by one, destination by one,
success. -/
theorem witness_zrlJoin :
    let run (bytes args : List Nat) : List Nat :=
      (List.range ((small bytes args).argNat 3)).map fun k =>
        (small bytes args).dmem.read32 ((small bytes args).argNat 2 + 4 * k)
    (small [] [61, 4, 0, 0]).dmem.size < (small [] [61, 4, 0, 0]).argNat 0 + (small [] [61, 4, 0, 0]).argNat 1
      ∧ ((small [0, 0, 0, 0, 0, 2] [0, 2, 2, 1]).dmem.readBytes 0 2).count 0#8 ≠ 1
      ∧ 0 ∈ run [0, 0, 0, 0, 0] [0, 1, 1, 1]
      ∧ (run [0, 0, 0, 0, 5] [0, 1, 1, 1, 16, 4]).sum = 5
      ∧ (run [0, 0, 0, 0, 5] [0, 1, 1, 1, 60, 5]).sum = 5
      ∧ run [0, 0, 0, 0, 5] [0, 1, 1, 1, 59, 5] = [5] := by decide +kernel

/-- Two adjacent zero slots. -/
theorem witness_zeroJoin : [0#8, 0#8, 7#8].count 0#8 = [2, 3].length ∧ ∀ r ∈ [2, 3], 1 ≤ r := by decide

theorem witness_tierClassify : 1 ≤ 255 ∧ classify 255 = (4, 223) ∧ 223 < tierSize 4 := by decide

theorem witness_tierValue :
    (small [] [0, 0]).argNat 0 = 0 ∧ (small [] [255]).argNat 0 = tierBase 4 + 223 ∧ 255 < (small [] [256]).argNat 0
      ∧ (1 ≤ (small [] [4, 223]).argNat 0 ∧ (small [] [4, 223]).argNat 1 < tierSize ((small [] [4, 223]).argNat 0))
      ∧ ¬ ((small [] [4, 224]).argNat 1 < tierSize ((small [] [4, 224]).argNat 0)) := by decide +kernel

theorem witness_tierSplit :
    let s := small [1, 4, 10, 32] [0, 4, 60, 63, 63, 63, 63]
    let slots := s.dmem.readBytes 0 4
    s.argNat 0 + s.argNat 1 ≤ s.dmem.size ∧ s.argNat 2 + s.argNat 1 ≤ s.dmem.size
      ∧ s.argNat 3 + (tierOffsets 1 slots).length ≤ s.dmem.size ∧ s.argNat 4 + (tierOffsets 2 slots).length ≤ s.dmem.size
      ∧ s.argNat 5 + (tierOffsets 3 slots).length ≤ s.dmem.size
      ∧ s.argNat 6 + (tierOffsets 4 slots).length ≤ s.dmem.size
      ∧ ¬ ((small [1, 4, 10, 32] [0, 4, 61]).argNat 2 + 4 ≤ s.dmem.size) := by decide +kernel

theorem witness_tierCount :
    (small [] [60, 5]).dmem.size < (small [] [60, 5]).argNat 0 + (small [] [60, 5]).argNat 1
      ∧ (∃ x ∈ (small [5] [0, 1]).dmem.readBytes 0 1, 4 < x.toNat)
      ∧ (∀ x ∈ (small [4, 0] [0, 2]).dmem.readBytes 0 2, x.toNat ≤ 4) := by decide +kernel

/-- The five cases of `TIER_JOIN`, in the order of its checks: destination by one, symbol 5, a stream by one, offset 3 of
tier 1, success with the largest offset of every tier. -/
theorem witness_tierJoin :
    let s := small [1, 2, 3, 4, 2, 5, 21, 223] [0, 4, 4, 5, 6, 7, 60]
    let syms := s.dmem.readBytes 0 4
    s.dmem.size < (small [] [0, 4, 0, 0, 0, 0, 61]).argNat 6 + 4
      ∧ (((small [5] [0, 1]).dmem.readBytes 0 1).any fun x => decide (4 < x.toNat)) = true
      ∧ s.dmem.size < (small [1] [0, 1, 64]).argNat 2 + ((small [1] [0, 1, 64]).dmem.readBytes 0 1).count 1#8
      ∧ (((small [1, 3] [0, 1, 1]).dmem.readBytes 1 1).any fun o => decide (3 ≤ o.toNat)) = true
      ∧ s.argNat 0 + s.argNat 1 ≤ s.dmem.size ∧ s.argNat 6 + s.argNat 1 ≤ s.dmem.size
      ∧ (syms.any fun x => decide (4 < x.toNat)) = false
      ∧ ((s.dmem.readBytes (s.argNat 2) (syms.count 1#8)).any fun o => decide (3 ≤ o.toNat)) = false
      ∧ ((s.dmem.readBytes (s.argNat 3) (syms.count 2#8)).any fun o => decide (6 ≤ o.toNat)) = false
      ∧ ((s.dmem.readBytes (s.argNat 4) (syms.count 3#8)).any fun o => decide (22 ≤ o.toNat)) = false
      ∧ ((s.dmem.readBytes (s.argNat 5) (syms.count 4#8)).any fun o => decide (224 ≤ o.toNat)) = false := by
  decide +kernel

theorem witness_tierMerge : [4#8, 4#8][1]? = some 4#8 ∧ (4#8).toNat ≤ 4 ∧ 1 ≤ 4 ∧ tierOffsets 4 [255#8] = [223#8] := by
  decide

theorem witness_mdlCfg : cfgLegal 0#8 0#8 = true ∧ cfgLegal 1#8 1#8 = true ∧ cfgLegal 255#8 2#8 = true := by decide

theorem witness_mdlReset_setctx :
    (models (small [] [])).slot[2].table = .off
      ∧ ((models (small [] [])).slot[1].ok = true ∧ (models (small [] [])).slot[1].table ≠ .off)
      ∧ (models (small [] [])).slot[1].table.alphabet ≤ (2#8).toNat
      ∧ (1#8).toNat < (models (small [] [])).slot[1].table.alphabet := by decide +kernel

theorem witness_mdlPeek :
    let s := models (small [] [1, 1])
    s.slot[2].table = .off ∧ s.slot[0].table = .bin 2048#12 2048#12 ∧ s.argNat 0 = 1
      ∧ (models (small [] [0])).argNat 0 = 0 ∧ 2 ≤ (models (small [] [2])).argNat 0
      ∧ s.slot[1].ok = true ∧ (s.slot[1].table.row (s.argNat 0)).bind (fun r => r.freq[s.argNat 1]?) = some 1#16
      ∧ s.slot[1].table.alphabet ≤ (models (small [] [1, 2])).argNat 1 := by decide +kernel

theorem witness_bitModel : ProbOk 31#12 ∧ ProbOk 4065#12
    ∧ ({ table := .bin 31#12 4065#12, last := 0#8 } : Slot).table = .bin 31#12 4065#12 := by decide

/-- A row just below the ceiling, which stays, and one that is halved. -/
theorem witness_symUpdate :
    ({ freq := [1#16, 16350#16], tot := 16351#16 } : SymRow).Ok 2 ∧ 16351 + 32 ≤ 16383
      ∧ ({ freq := [1#16, 16351#16], tot := 16352#16 } : SymRow).Ok 2 ∧ 16383 < 16352 + 32 := by decide

theorem witness_symIntervals : ({ freq := [1#16, 33#16], tot := 34#16 } : SymRow).Ok 2 ∧ 33 < (34#16).toNat := by decide

theorem witness_narrow :
    (Channel.opened .enc 0 4).IntervalOk
      ∧ (1 ≤ (Interval.mk 0 2048 4096).freq ∧ (Interval.mk 0 2048 4096).cum + (Interval.mk 0 2048 4096).freq
          ≤ (Interval.mk 0 2048 4096).tot ∧ (Interval.mk 0 2048 4096).tot ≤ 16383)
      ∧ (1 ≤ (Interval.mk 2048 2048 4096).freq ∧ (Interval.mk 2048 2048 4096).cum + (Interval.mk 2048 2048 4096).freq
          ≤ (Interval.mk 2048 2048 4096).tot) := by decide

/-- The smallest interval, which takes three turns, with three bytes of room and with two; and a settled one. -/
theorem witness_renorm :
    let c (room : Nat) : Channel := { Channel.opened .enc 32 room with range := 1#32 }
    let turns (n : Nat) : Nat × Nat := renormTurn^[n] (0, 1)
    ((c 3).Open ∧ (c 3).low.toNat + (c 3).range.toNat ≤ 2 ^ 32
        ∧ ((c 3).low.toNat + (c 3).range.toNat = 2 ^ 32 → 2 ^ 24 ≤ (c 3).low.toNat) ∧ 1 ≤ (c 3).range.toNat
        ∧ (c 3).ptr.toNat ≤ (c 3).limit.toNat ∧ (c 3).limit.toNat ≤ (memOf []).size)
      ∧ ¬ RenormExits (turns 0) ∧ ¬ RenormExits (turns 1) ∧ ¬ RenormExits (turns 2) ∧ RenormExits (turns 3)
      ∧ 3 ≤ (c 3).room ∧ (c 2).room < 3
      ∧ RenormExits ((Channel.opened .enc 0 3).low.toNat, (Channel.opened .enc 0 3).range.toNat) := by decide +kernel

theorem witness_shift :
    let t (m : ChMode) (n : Nat) : Stream := { ch := Channel.opened m 63 n, mem := memOf [] }
    (t .enc 1).ch.limit.toNat ≤ (t .enc 1).mem.size
      ∧ (t .enc 0).ch.limit.toNat ≤ (t .enc 0).ch.ptr.toNat ∧ (t .dec 0).ch.limit.toNat ≤ (t .dec 0).ch.ptr.toNat
      ∧ (t .enc 1).ch.ptr.toNat < (t .enc 1).ch.limit.toNat ∧ (t .dec 1).ch.ptr.toNat < (t .dec 1).ch.limit.toNat := by
  decide

theorem witness_einit_dfin :
    (small [] [32, 32]).Inv ∧ (small [] [32, 32]).argNat 0 + (small [] [32, 32]).argNat 1 ≤ (small [] [32, 32]).dmem.size
      ∧ (small [] [32, 33]).Inv ∧ (small [] [32, 33]).dmem.size < (small [] [32, 33]).argNat 0 + (small [] [32, 33]).argNat 1
      ∧ (reading 0#32 [0, 0, 0, 0] []).Inv ∧ (reading 0#32 [0, 0, 0, 0] []).ch[1].mode = .dec :=
  ⟨inv_of (by decide +kernel), by decide +kernel, inv_of (by decide +kernel), by decide +kernel,
    inv_of (by decide +kernel), by decide +kernel⟩

theorem witness_dinit :
    (small [] [60, 4]).dmem.size ≤ 2 ^ 20 ∧ (small [] [60, 4]).argNat 0 + (small [] [60, 4]).argNat 1 ≤ 64
      ∧ 4 ≤ (small [] [60, 4]).argNat 1 ∧ (small [] [61, 3]).argNat 1 < 4
      ∧ (small [] [61, 4]).dmem.size < (small [] [61, 4]).argNat 0 + (small [] [61, 4]).argNat 1 := by decide +kernel

/-- The value of a coding step's end and what it leaves. -/
def okOf {σ α : Type} (c : Coded σ α) : Option (α × σ) :=
  match c with
  | .ok a s => some (a, s)
  | .raised _ _ => none
  | .fault _ => none

theorem okOf_some {σ α : Type} {c : Coded σ α} (h : (okOf c).isSome = true) :
    c = .ok ((okOf c).get h).1 ((okOf c).get h).2 := by
  cases c with
  | ok a s => rfl
  | raised e s => simp [okOf] at h
  | fault f => simp [okOf] at h

/-- The cause of a coding step's raise and what it leaves. -/
def raisedOf {σ α : Type} (c : Coded σ α) : Option (Cause × σ) :=
  match c with
  | .ok _ _ => none
  | .raised e s => some (e, s)
  | .fault _ => none

theorem raisedOf_some {σ α : Type} {c : Coded σ α} (h : (raisedOf c).isSome = true) :
    c = .raised ((raisedOf c).get h).1 ((raisedOf c).get h).2 := by
  cases c with
  | ok a s => simp [raisedOf] at h
  | raised e s => rfl
  | fault f => simp [raisedOf] at h

/-- Decode as many bits as are expected, as long as they are the expected ones. -/
def expectBits : List Bool → Coder → Option Coder
  | [], k => some k
  | b :: rest, k =>
    match okOf (k.decBit k.slot.last.toNat) with
    | some (b', k') => if b' = b then expectBits rest k' else none
    | none => none

theorem expectBits_decodes {bits : List Bool} {k : Coder} (h : (expectBits bits k).isSome = true) :
    Coder.DecodesBits bits k ((expectBits bits k).get h) := by
  induction bits generalizing k with
  | nil => rfl
  | cons b bits ih =>
    cases hk : k.decBit k.slot.last.toNat with
    | ok b' k' =>
      by_cases hb : b' = b
      · simp only [expectBits, hk, okOf, hb, if_true] at h ⊢
        exact ⟨k', Coder.decBit_decodes (hb ▸ hk), ih h⟩
      · simp [expectBits, hk, okOf, hb] at h
    | raised e u => simp [expectBits, hk, okOf] at h
    | fault f => simp [expectBits, hk, okOf] at h

/-- Decode as many symbols as are expected to `a` on, as long as they are the expected ones. -/
def expectSyms : List Byte → Nat → Coder → Option Coder
  | [], _, k => some k
  | j :: rest, a, k =>
    match okOf (k.decSym k.slot.last.toNat) with
    | some (j', k') => if j' = j.toNat then expectSyms rest (a + 1) (k'.putByte a j) else none
    | none => none

theorem expectSyms_decodes {xs : List Byte} {a : Nat} {k : Coder} (h : (expectSyms xs a k).isSome = true) :
    Coder.DecodesSyms xs a k ((expectSyms xs a k).get h) := by
  induction xs generalizing a k with
  | nil => rfl
  | cons j xs ih =>
    cases hk : k.decSym k.slot.last.toNat with
    | ok j' k' =>
      by_cases hj : j' = j.toNat
      · simp only [expectSyms, hk, okOf, hj, if_true] at h ⊢
        exact ⟨k', Coder.decSym_decodes (hj ▸ hk), ih h⟩
      · simp [expectSyms, hk, okOf, hj] at h
    | raised e u => simp [expectSyms, hk, okOf] at h
    | fault f => simp [expectSyms, hk, okOf] at h

/-- The smallest interval a channel can hold between commands: halving it takes two turns of `Renorm`. -/
def tight (mode : ChMode) (base room : Nat) (code : Word) : Channel :=
  { Channel.opened mode base room with range := 0x10000#32, code := code }

/-- The small block with its models, channel 0 encoding from that interval into 32..32+room. -/
def tightEnc (room : Nat) (bytes args : List Nat) : State :=
  (models (small bytes args)).setChan 0 (tight .enc 32 room 0#32)

/-- The small block with its models, channel 1 decoding from that interval, out of zero bytes 0..room. -/
def tightDec (room : Nat) (code : Word) (args : List Nat) : State :=
  (models (small [0, 0, 0, 0] args)).setChan 1 (tight .dec 0 room code)

/-- An encoder with exactly three bytes of room, on the chain and on an explicit context; one that completes with two; and
one that raises with one. -/
theorem witness_ebit :
    ((coding 3 [] []).Inv ∧ (coding 3 [] []).ch[0].mode = .enc ∧ 3 ≤ (coding 3 [] []).ch[0].room
        ∧ (coding 3 [] []).slot[0].table.kind = 1 ∧ contextOf .chain (coding 3 [] []).slot[0] < 2
        ∧ contextOf (.explicit 1#8) (coding 3 [] []).slot[0] < 2)
      ∧ ((tightEnc 2 [] []).Inv ∧ (tightEnc 2 [] []).ch[0].mode = .enc ∧ (tightEnc 2 [] []).slot[0].table.kind = 1
        ∧ (tightEnc 2 [] []).ch[0].room = 2 ∧ ∃ u, ((tightEnc 2 [] []).coder 0 0).EncodesBit 1 true none u)
      ∧ (tightEnc 1 [] []).Inv ∧ (tightEnc 1 [] []).ch[0].mode = .enc ∧ (tightEnc 1 [] []).slot[0].table.kind = 1
        ∧ ∃ e u, ((tightEnc 1 [] []).coder 0 0).EncodesBit 1 true (some e) u :=
  ⟨⟨inv_of (by decide +kernel), by decide +kernel, by decide +kernel, by decide +kernel, by decide +kernel,
      by decide +kernel⟩,
    ⟨inv_of (by decide +kernel), by decide +kernel, by decide +kernel, by decide +kernel, _,
      Coder.encBit_encodes (okOf_some (by decide +kernel))⟩,
    inv_of (by decide +kernel), by decide +kernel, by decide +kernel, _, _,
    Coder.encBit_encodes_raised (raisedOf_some (by decide +kernel))⟩

theorem witness_esym :
    ((coding 3 [] []).Inv ∧ (coding 3 [] []).ch[0].mode = .enc ∧ 3 ≤ (coding 3 [] []).ch[0].room
        ∧ (coding 3 [] []).slot[1].table.kind = 2
        ∧ contextOf (.explicit 1#8) (coding 3 [] []).slot[1] < (coding 3 [] []).slot[1].table.alphabet
        ∧ (1#8).toNat < (coding 3 [] []).slot[1].table.alphabet)
      ∧ ((tightEnc 2 [] []).Inv ∧ ∃ u, ((tightEnc 2 [] []).coder 0 1).EncodesSym 1 (0#8).toNat none u)
      ∧ (tightEnc 1 [] []).Inv ∧ (tightEnc 1 [] []).slot[1].table.kind = 2
        ∧ ∃ e u, ((tightEnc 1 [] []).coder 0 1).EncodesSym 1 (0#8).toNat (some e) u :=
  ⟨⟨inv_of (by decide +kernel), by decide +kernel, by decide +kernel, by decide +kernel, by decide +kernel,
      by decide +kernel⟩,
    ⟨inv_of (by decide +kernel), _, Coder.encSym_encodes (okOf_some (by decide +kernel))⟩,
    inv_of (by decide +kernel), by decide +kernel, _, _,
    Coder.encSym_encodes_raised (raisedOf_some (by decide +kernel))⟩

/-- A decoder with exactly three bytes to read, the last position on the scale and the first beyond it; one that completes
with two bytes; and one that raises with one. -/
theorem witness_dbit :
    ((tightDec 3 0xFFFF#32 []).Inv ∧ (tightDec 3 0xFFFF#32 []).ch[1].mode = .dec
        ∧ (tightDec 3 0xFFFF#32 []).slot[0].table.kind = 1 ∧ contextOf .chain (tightDec 3 0xFFFF#32 []).slot[0] < 2
        ∧ (tightDec 3 0xFFFF#32 []).ch[1].position 4096 = 4095 ∧ 3 ≤ (tightDec 3 0xFFFF#32 []).ch[1].room)
      ∧ ((tightDec 3 0x10000#32 []).Inv ∧ (tightDec 3 0x10000#32 []).ch[1].position 4096 = 4096)
      ∧ ((tightDec 2 0#32 []).Inv ∧ ∃ b u, ((tightDec 2 0#32 []).coder 1 0).DecodesBit 0 b none u)
      ∧ (tightDec 1 0#32 []).Inv ∧ ∃ b u, ((tightDec 1 0#32 []).coder 1 0).DecodesBit 0 b (some .streamExhausted) u := by
  refine ⟨⟨inv_of (by decide +kernel), by decide +kernel, by decide +kernel, by decide +kernel, by decide +kernel,
      by decide +kernel⟩, ⟨inv_of (by decide +kernel), by decide +kernel⟩,
    ⟨inv_of (by decide +kernel), _, _, Coder.decBit_decodes (okOf_some (by decide +kernel))⟩,
    inv_of (by decide +kernel), ?_⟩
  rcases Coder.decBit_decodes_raised (k := (tightDec 1 0#32 []).coder 1 0) (ctx := 0) (e := .streamExhausted)
    (raisedOf_some (by decide +kernel)) with ⟨b, h⟩ | h
  · exact ⟨b, _, h⟩
  · exact absurd h.1 (by decide)

theorem witness_dsym :
    ((tightDec 3 0xFFFF#32 []).Inv ∧ (tightDec 3 0xFFFF#32 []).ch[1].mode = .dec
        ∧ (tightDec 3 0xFFFF#32 []).slot[1].table.row (contextOf .chain (tightDec 3 0xFFFF#32 []).slot[1])
          = some { freq := [1#16, 1#16], tot := 2#16 }
        ∧ (tightDec 3 0xFFFF#32 []).ch[1].position (2#16).toNat = 1 ∧ 3 ≤ (tightDec 3 0xFFFF#32 []).ch[1].room)
      ∧ ((tightDec 3 0x10000#32 []).Inv ∧ (tightDec 3 0x10000#32 []).ch[1].position (2#16).toNat = 2)
      ∧ ((tightDec 2 0#32 []).Inv ∧ ∃ j u, ((tightDec 2 0#32 []).coder 1 1).DecodesSym 0 j none u)
      ∧ (tightDec 1 0#32 []).Inv ∧ ∃ j u, ((tightDec 1 0#32 []).coder 1 1).DecodesSym 0 j (some .streamExhausted) u := by
  refine ⟨⟨inv_of (by decide +kernel), by decide +kernel, by decide +kernel, by decide +kernel, by decide +kernel⟩,
    ⟨inv_of (by decide +kernel), by decide +kernel⟩,
    ⟨inv_of (by decide +kernel), _, _, Coder.decSym_decodes (okOf_some (by decide +kernel))⟩,
    inv_of (by decide +kernel), ?_⟩
  rcases Coder.decSym_decodes_raised (k := (tightDec 1 0#32 []).coder 1 1) (ctx := 0) (e := .streamExhausted)
    (raisedOf_some (by decide +kernel)) with ⟨j, h⟩ | h
  · exact ⟨j, _, h⟩
  · exact absurd h.1 (by decide)

/-- One bit of code (the value 1) with exactly three bytes of room; three bits that raise at the second byte. -/
theorem witness_egamma :
    ((coding 3 [] [1]).Inv ∧ (coding 3 [] [1]).ch[0].mode = .enc ∧ (coding 3 [] [1]).slot[0].table.kind = 1
        ∧ 1 ≤ (coding 3 [] [1]).argNat 0
        ∧ 3 * (gammaBits ((coding 3 [] [1]).argNat 0)).length ≤ (coding 3 [] [1]).ch[0].room)
      ∧ ((tightEnc 2 [] [2]).Inv ∧ 1 ≤ (tightEnc 2 [] [2]).argNat 0
        ∧ ∃ u, Coder.EncodesBits (gammaBits ((tightEnc 2 [] [2]).argNat 0)) ((tightEnc 2 [] [2]).coder 0 0) u)
      ∧ (coding 1 [] [1000]).Inv ∧ 1 ≤ (coding 1 [] [1000]).argNat 0
        ∧ ∃ done b rest k' e u, gammaBits ((coding 1 [] [1000]).argNat 0) = done ++ b :: rest
          ∧ Coder.EncodesBits done ((coding 1 [] [1000]).coder 0 0) k'
          ∧ k'.EncodesBit k'.slot.last.toNat b (some e) u := by
  refine ⟨⟨inv_of (by decide +kernel), by decide +kernel, by decide +kernel, by decide +kernel, by decide +kernel⟩,
    ⟨inv_of (by decide +kernel), by decide +kernel, _, Coder.encBits_encodes (okOf_some (by decide +kernel))⟩,
    inv_of (by decide +kernel), by decide +kernel, ?_⟩
  obtain ⟨done, b, rest, k', h⟩ := Coder.encBits_encodes_raised (bits := gammaBits ((coding 1 [] [1000]).argNat 0))
    (k := (coding 1 [] [1000]).coder 0 0) (raisedOf_some (by decide +kernel))
  exact ⟨done, b, rest, k', _, _, h⟩

/-- A whole code; 32 continue bits; and inside a code a lack of bytes and a position beyond the scale. -/
theorem witness_dgamma :
    (let s := reading 0x00B26076#32 [0, 0xB2, 0x60, 0x76, 0x3E, 0xA5] [];
      s.Inv ∧ s.ch[1].mode = .dec ∧ s.slot[0].table.kind = 1 ∧ ∃ u, Coder.DecodesBits (gammaBits 1000) (s.coder 1 0) u)
      ∧ ((tightDec 4 0#32 []).Inv
        ∧ ∃ u, Coder.DecodesBits (List.replicate 32 true) ((tightDec 4 0#32 []).coder 1 0) u)
      ∧ ((tightDec 1 0#32 []).Inv ∧ [] <+: gammaBits 1 ∧ [] ≠ gammaBits 1
        ∧ ∃ b u, ((tightDec 1 0#32 []).coder 1 0).DecodesBit 0 b (some .streamExhausted) u)
      ∧ (tightDec 1 0x10000#32 []).Inv ∧ 4096 ≤ ((tightDec 1 0x10000#32 []).coder 1 0).str.ch.position 4096 :=
  ⟨⟨inv_of (by decide +kernel), by decide +kernel, by decide +kernel, _, expectBits_decodes (by decide +kernel)⟩,
    ⟨inv_of (by decide +kernel), _, expectBits_decodes (by decide +kernel)⟩,
    ⟨inv_of (by decide +kernel), List.nil_prefix, by decide, witness_dbit.2.2.2.2⟩,
    inv_of (by decide +kernel), by decide +kernel⟩

/-- Two symbols with exactly three bytes of room for each; and two of which the second lacks a byte. -/
theorem witness_estream :
    (let s := coding 6 [1, 0] [0, 2];
      s.Inv ∧ s.ch[0].mode = .enc ∧ s.slot[1].table.kind = 2 ∧ s.argNat 0 + s.argNat 1 ≤ s.dmem.size
        ∧ (∀ b ∈ s.dmem.readBytes (s.argNat 0) (s.argNat 1), b.toNat < s.slot[1].table.alphabet)
        ∧ 3 * s.argNat 1 ≤ s.ch[0].room)
      ∧ (let s := tightEnc 2 [0, 0] [0, 2];
        s.Inv ∧ ∃ u, Coder.EncodesSyms (s.dmem.readBytes (s.argNat 0) (s.argNat 1)) (s.coder 0 1) u)
      ∧ (let s := tightEnc 2 [0, 0, 1, 0, 1, 0, 1, 0] [0, 8];
        s.Inv ∧ ∃ done j rest k' e u, s.dmem.readBytes (s.argNat 0) (s.argNat 1) = done ++ j :: rest
          ∧ Coder.EncodesSyms done (s.coder 0 1) k' ∧ k'.EncodesSym k'.slot.last.toNat j.toNat (some e) u) := by
  refine ⟨⟨inv_of (by decide +kernel), by decide +kernel, by decide +kernel, by decide +kernel, by decide +kernel,
    by decide +kernel⟩, ⟨inv_of (by decide +kernel), _, Coder.encSyms_encodes (okOf_some (by decide +kernel))⟩,
    inv_of (by decide +kernel), ?_⟩
  obtain ⟨done, j, rest, k', h⟩ := Coder.encSyms_encodes_raised
    (xs := (tightEnc 2 [0, 0, 1, 0, 1, 0, 1, 0] [0, 8]).dmem.readBytes 0 8)
    (k := (tightEnc 2 [0, 0, 1, 0, 1, 0, 1, 0] [0, 8]).coder 0 1) (raisedOf_some (by decide +kernel))
  exact ⟨done, j, rest, k', _, _, h⟩

/-- Two symbols decoded to the end of DMEM; one decoded and the next out of bytes; and none, with the position beyond the
total. -/
theorem witness_dstream :
    (let s := tightDec 3 0#32 [62, 2];
      s.Inv ∧ s.ch[1].mode = .dec ∧ s.slot[1].table.kind = 2 ∧ s.argNat 0 + s.argNat 1 ≤ s.dmem.size
        ∧ ∃ u, Coder.DecodesSyms [0#8, 0#8] (s.argNat 0) (s.coder 1 1) u)
      ∧ (let s := tightDec 1 0#32 [62, 2];
        s.Inv ∧ ([] : List Byte).length < s.argNat 1 ∧ Coder.DecodesSyms [] (s.argNat 0) (s.coder 1 1) (s.coder 1 1)
          ∧ ∃ j u, (s.coder 1 1).DecodesSym (s.coder 1 1).slot.last.toNat j (some .streamExhausted) u)
      ∧ (let s := tightDec 3 0x10000#32 [62, 2];
        s.Inv ∧ Coder.DecodesSyms [] (s.argNat 0) (s.coder 1 1) (s.coder 1 1)
          ∧ (s.coder 1 1).SymCorrupt (s.coder 1 1).slot.last.toNat) :=
  ⟨⟨inv_of (by decide +kernel), by decide +kernel, by decide +kernel, by decide +kernel, _,
      expectSyms_decodes (by decide +kernel)⟩,
    ⟨inv_of (by decide +kernel), by decide +kernel, rfl, witness_dsym.2.2.2.2⟩,
    inv_of (by decide +kernel), rfl, { freq := [1#16, 1#16], tot := 2#16 }, by decide +kernel, by decide +kernel⟩

theorem witness_eflush :
    (coding 4 [] []).Inv ∧ (coding 4 [] []).ch[0].mode = .enc ∧ 4 ≤ (coding 4 [] []).ch[0].room
      ∧ (coding 3 [] []).Inv ∧ (coding 3 [] []).ch[0].room < 4 ∧ (coding 0 [] []).Inv ∧ (coding 0 [] []).ch[0].room < 4 :=
  ⟨inv_of (by decide +kernel), by decide +kernel, by decide +kernel, inv_of (by decide +kernel), by decide +kernel,
    inv_of (by decide +kernel), by decide +kernel⟩

/-- The checks of the coding commands, each failed at its boundary. -/
theorem witness_codingChecks :
    let e := coding 8 [2] [0, 1]
    let d := reading 0#32 [0, 0, 0, 0] [0, 65]
    e.ch[1].mode ≠ .enc ∧ d.ch[0].mode ≠ .dec ∧ e.ch[0].mode = .enc ∧ d.ch[1].mode = .dec
      ∧ e.slot[1].table.kind ≠ 1 ∧ e.slot[0].table.kind ≠ 2 ∧ 2 ≤ contextOf (.explicit 2#8) e.slot[0]
      ∧ e.argNat 0 = 0 ∧ e.slot[1].table.alphabet ≤ contextOf (.explicit 2#8) e.slot[1]
      ∧ contextOf (.explicit 1#8) e.slot[1] < e.slot[1].table.alphabet ∧ e.slot[1].table.alphabet ≤ (2#8).toNat
      ∧ d.dmem.size < d.argNat 0 + d.argNat 1
      ∧ (∃ y ∈ e.dmem.readBytes (e.argNat 0) (e.argNat 1), e.slot[1].table.alphabet ≤ y.toNat) := by decide +kernel

/-! The states of a round trip: two symbols encoded on channel 0 with slot 1, flushed, opened on channel 1. -/

/-- Before the encoder's command: two symbols, or the gamma value 5. -/
def trip0 (args : List Nat) : State := coding 24 [1, 0] args
def trip1 (i : Instr) (args : List Nat) : State := after (exec i (trip0 args))
def trip2 (i : Instr) (args : List Nat) : State := after (exec (.rcEflush 0) (trip1 i args))

/-- The decoder's state: the slots fresh again, the window that the flush reported. -/
def trip3 (i : Instr) (args : List Nat) : State :=
  { trip2 i args with
    slot := (trip0 args).slot
    arg := Vector.ofFn fun j : Fin 8 => if j = 0 then 32#32 else if j = 1 then (trip2 i args).res[0] else 0#32 }
def trip4 (i : Instr) (args : List Nat) : State := after (exec (.rcDinit 1) (trip3 i args))
def trip5 (i : Instr) (args : List Nat) : State :=
  { trip4 i args with arg := Vector.ofFn fun j : Fin 8 => if j = 0 then 62#32 else if j = 1 then 2#32 else 0#32 }

/-- The hypotheses of both round trips that do not depend on what is coded. -/
abbrev TripMet (i : Instr) (args : List Nat) (m : SlotNo) : Prop :=
  (trip0 args).Inv ∧ (trip0 args).ch[0] = Channel.opened .enc (trip0 args).ch[0].base.toNat (trip0 args).ch[0].room
    ∧ exec i (trip0 args) = .next (trip1 i args) ∧ (trip1 i args).status.err = false
    ∧ exec (.rcEflush 0) (trip1 i args) = .next (trip2 i args) ∧ (trip2 i args).status.err = false
    ∧ (trip3 i args).Inv ∧ (trip3 i args).argNat 1 = (trip2 i args).res[0].toNat
    ∧ (trip3 i args).argNat 0 + (trip2 i args).res[0].toNat ≤ (trip3 i args).dmem.size
    ∧ (trip3 i args).dmem.readBytes ((trip3 i args).argNat 0) (trip2 i args).res[0].toNat
        = (trip2 i args).dmem.readBytes (trip0 args).ch[0].base.toNat (trip2 i args).res[0].toNat
    ∧ (trip3 i args).slot[m] = (trip0 args).slot[m]
    ∧ exec (.rcDinit 1) (trip3 i args) = .next (trip4 i args)
    ∧ (trip5 i args).Inv ∧ (trip5 i args).ch[1] = (trip4 i args).ch[1]
    ∧ (trip5 i args).slot[m] = (trip4 i args).slot[m] ∧ (trip5 i args).dmem = (trip4 i args).dmem

theorem witness_streamTrip : TripMet (.rcEstream 0 1) [0, 2] 1
    ∧ (trip5 (.rcEstream 0 1) [0, 2]).argNat 1 = (trip0 [0, 2]).argNat 1
    ∧ (trip5 (.rcEstream 0 1) [0, 2]).argNat 0 + 2 ≤ (trip5 (.rcEstream 0 1) [0, 2]).dmem.size
    ∧ Apart ((trip3 (.rcEstream 0 1) [0, 2]).argNat 0, (trip2 (.rcEstream 0 1) [0, 2]).res[0].toNat) (62, 2) :=
  ⟨⟨inv_of (by decide +kernel), by decide +kernel, ends_after (by decide +kernel), by decide +kernel,
    ends_after (by decide +kernel), by decide +kernel, inv_of (by decide +kernel), by decide +kernel, by decide +kernel,
    by decide +kernel, by decide +kernel, ends_after (by decide +kernel), inv_of (by decide +kernel), by decide +kernel,
    by decide +kernel, by decide +kernel⟩, by decide +kernel, by decide +kernel, by decide +kernel⟩

theorem witness_gammaTrip : TripMet (.rcEgamma 0 0) [5] 0 :=
  ⟨inv_of (by decide +kernel), by decide +kernel, ends_after (by decide +kernel), by decide +kernel,
    ends_after (by decide +kernel), by decide +kernel, inv_of (by decide +kernel), by decide +kernel, by decide +kernel,
    by decide +kernel, by decide +kernel, ends_after (by decide +kernel), inv_of (by decide +kernel), by decide +kernel,
    by decide +kernel, by decide +kernel⟩

/-- For the statements about every command that ends: one that succeeds and one that fails, and that store nothing. -/
theorem witness_ends :
    storesNothing (.mdlPeek 0) = true ∧ exec (.mdlPeek 0) (models (small [] [])) = .next (after (exec (.mdlPeek 0) (models (small [] []))))
      ∧ exec (.mdlPeek 2) (models (small [] [])) = .next (after (exec (.mdlPeek 2) (models (small [] [])))) :=
  ⟨rfl, ends_after (by decide +kernel), ends_after (by decide +kernel)⟩

/-- A channel error (the window full) and another error (a range outside DMEM), each of an accepted command. -/
theorem witness_errors :
    (coding 3 [] []).Inv ∧ (coding 3 [] []).status.busy = true
      ∧ exec (.rcEflush 0) (coding 3 [] []) = .next (after (exec (.rcEflush 0) (coding 3 [] [])))
      ∧ (coding 3 [] []).Failed (after (exec (.rcEflush 0) (coding 3 [] []))) .windowFull
      ∧ (small [] [61, 0, 4]).Inv ∧ (small [] [61, 0, 4]).status.busy = true
      ∧ exec .mtfEnc (small [] [61, 0, 4]) = .next (after (exec .mtfEnc (small [] [61, 0, 4])))
      ∧ (small [] [61, 0, 4]).Failed (after (exec .mtfEnc (small [] [61, 0, 4]))) .outOfBounds :=
  ⟨inv_of (by decide +kernel), by decide +kernel, ends_after (by decide +kernel), by decide +kernel,
    inv_of (by decide +kernel), by decide +kernel, ends_after (by decide +kernel), by decide +kernel⟩

/-- A channel in `ERR`, and a command that does not open it. -/
theorem witness_errChannel :
    let s := (small [] []).setChan 3 { Channel.reset with mode := .err }
    s.ch[3].mode = .err ∧ Instr.rcDfin 3 ≠ .rcEinit 3 ∧ Instr.rcDfin 3 ≠ .rcDinit 3
      ∧ exec (.rcDfin 3) s = .next (after (exec (.rcDfin 3) s)) :=
  ⟨by decide +kernel, by decide, by decide, ends_after (by decide +kernel)⟩

/-- A state of the invariant in which a command runs and the port has an action that comes first. -/
theorem witness_inv : ({ coding 3 [] [] with port := [⟨true, .write 0x004 4 8#32⟩] } : State).Inv :=
  inv_of (by decide +kernel)

/-- The small block with no command running. -/
def quiet : State := { small [] [] with status := Status.reset }

theorem witness_writes :
    (quiet.rst = false ∧ quiet.status.busy = false ∧ quiet.status.err = false)
      ∧ ((small [] []).rst = false ∧ (small [] []).status.busy = true)
      ∧ PortTakes (small [] []).dmem.size (0x100000 + 60) 4 ∧ PortTakes (small [] []).dmem.size (0x100000 + 62) 2
      ∧ PortTakes (small [] []).dmem.size (0x100000 + 63) 1 ∧ (small [] []).dmem.size ≤ 2 ^ 20 :=
  ⟨by decide +kernel, by decide +kernel, by decide +kernel, by decide +kernel, by decide +kernel, by decide +kernel⟩

theorem witness_ctrl : quiet.rst = false ∧ (0xFFFFFFF7#32).getLsbD 3 = false := by decide +kernel

theorem witness_resets :
    quiet.HeldInReset ∧ quiet.rst = false ∧ (0x0000000F#32).getLsbD 3 = true ∧ quiet.status.busy = false
      ∧ (holding 0#32).status.busy = true ∧ decode (holding 0#32).cmd = .ok .nop
      ∧ decode (holding 1#32).cmd = .error .opcode
      ∧ (State.reset.hardReset).HeldInReset ∧ (State.reset.hardReset).rst = true := by decide +kernel

/-- An access that R51 lists at each end of the two spaces, and accesses just outside. -/
theorem witness_accesses :
    quiet.rst = false ∧ PortTakes quiet.dmem.size 0x3FC 4 ∧ PortTakes quiet.dmem.size 0x10003F 1
      ∧ PortTakes quiet.dmem.size 0x10003C 4 ∧ ¬ PortTakes quiet.dmem.size 0x400 4
      ∧ ¬ PortTakes quiet.dmem.size 0x3FE 4 ∧ ¬ PortTakes quiet.dmem.size 0x3FC 2
      ∧ ¬ PortTakes quiet.dmem.size 0x100040 1 ∧ ¬ PortTakes quiet.dmem.size 0x10003E 4 :=
  ⟨by decide +kernel, by decide +kernel, by decide +kernel, by decide +kernel, by decide +kernel, by decide +kernel,
    by decide +kernel, by decide +kernel, by decide +kernel⟩

theorem witness_map : quiet.rst = false ∧ quiet.status.busy = false
    ∧ ((0x018 ≤ 0x01C ∧ 0x01C < 0x020) ∧ (0x060 ≤ 0x0FC ∧ 0x0FC < 0x100) ∧ (0x1C0 ≤ 0x3FC ∧ 0x3FC < 0x400)) := by
  decide +kernel

theorem witness_aperture : quiet.rst = false ∧ quiet.status.busy = false ∧ quiet.dmem.size ≤ 2 ^ 20
    ∧ PortTakes quiet.dmem.size (0x100000 + 60) 4 ∧ PortTakes quiet.dmem.size (0x100000 + 62) 2
    ∧ PortTakes quiet.dmem.size (0x100000 + 63) 1 :=
  ⟨by decide +kernel, by decide +kernel, by decide +kernel, by decide +kernel, by decide +kernel, by decide +kernel⟩

/-- `ERRCLR` alone with `IE` 0, `DONECLR`, `SRST`, and `IE` alone. -/
theorem witness_interrupt : quiet.rst = false ∧ (0x00000002#32).getLsbD 0 = false ∧ (0x00000005#32).getLsbD 2 = true
    ∧ (0x00000009#32).getLsbD 3 = true
    ∧ ((0x00000001#32).getLsbD 0 = true ∧ (0x00000001#32).getLsbD 2 = false ∧ (0x00000001#32).getLsbD 3 = false) := by
  decide +kernel

end Sys2Proof.Tests
end

section
/-!
SUPPORT. How a coding step can end, and the arithmetic of a channel's interval (rules R117, R118, R121): the two facts
that every later proof about the coder needs, said once.
-/

namespace Sys2Proof.Machine

/-! ### Ends of a coding step -/

/-- A coding step stops in no fault: it ends with a value and a state that meet `ok`, or raises in a state that meets
`raised`. -/
def Coded.Ends {σ α : Type} (ok : α → σ → Prop) (raised : σ → Prop) : Coded σ α → Prop
  | .ok a s => ok a s
  | .raised _ s => raised s
  | .fault _ => False

section
variable {σ τ α β : Type} {P P' : α → σ → Prop} {R R' : σ → Prop}

@[simp] theorem Coded.ends_ok (a : α) (s : σ) : (Coded.ok a s).Ends P R ↔ P a s := Iff.rfl
@[simp] theorem Coded.ends_raised (e : Cause) (s : σ) : (Coded.raised e s : Coded σ α).Ends P R ↔ R s := Iff.rfl

theorem Coded.Ends.mono {c : Coded σ α} (h : c.Ends P R) (hP : ∀ a s, P a s → P' a s) (hR : ∀ s, R s → R' s) :
    c.Ends P' R' := by
  cases c with
  | ok a s => exact hP a s h
  | raised e s => exact hR s h
  | fault f => exact h

theorem Coded.Ends.bind {Q : β → σ → Prop} {c : Coded σ α} {f : α → σ → Coded σ β} (h : c.Ends P R)
    (hf : ∀ a s, P a s → (f a s).Ends Q R) : (c.bind f).Ends Q R := by
  cases c with
  | ok a s => exact hf a s h
  | raised e s => exact h
  | fault g => exact h

theorem Coded.Ends.lift {P : α → τ → Prop} {R : τ → Prop} {g : σ → τ} {c : Coded σ α}
    (h : c.Ends (fun a s => P a (g s)) fun s => R (g s)) : (c.lift g).Ends P R := by
  cases c <;> exact h

end

/-! ### The interval of a channel -/

/-- The interval between `Narrow` and the end of `Renorm`: as `Channel.IntervalOk`, but of any length but 0. -/
structure Channel.Narrowed (c : Channel) : Prop where
  le : c.low.toNat + c.range.toNat ≤ 2 ^ 32
  low_of_eq : c.low.toNat + c.range.toNat = 2 ^ 32 → 2 ^ 24 ≤ c.low.toNat
  pos : 1 ≤ c.range.toNat

/-- The arguments every caller gives to `Narrow` (R117). -/
structure Interval.Legal (iv : Interval) : Prop where
  freq_pos : 1 ≤ iv.freq
  sum_le : iv.cum + iv.freq ≤ iv.tot
  tot_le : iv.tot ≤ 2 ^ 16

/-- Numbers agree from bit `k` up exactly if their XOR is below `2^k`. -/
theorem xor_lt_two_pow_iff (a b k : Nat) : a ^^^ b < 2 ^ k ↔ a / 2 ^ k = b / 2 ^ k := by
  rw [← Nat.shiftRight_eq_div_pow, ← Nat.shiftRight_eq_div_pow, ← Nat.xor_eq_zero_iff, ← Nat.shiftRight_xor_distrib,
    Nat.shiftRight_eq_div_pow, Nat.div_eq_zero_iff_lt (Nat.two_pow_pos k)]

/-- The share of one unit of the total is at least 1, and all shares together are at most the range (R121). -/
theorem Channel.IntervalOk.unit_pos {c : Channel} (h : c.IntervalOk) {tot : Nat} (hpos : 1 ≤ tot)
    (htot : tot ≤ 2 ^ 16) : 1 ≤ (c.range / word tot).toNat ∧ tot * (c.range / word tot).toNat ≤ c.range.toNat := by
  obtain ⟨_, _, hrange⟩ := h
  have hw : (word tot).toNat = tot := by simp only [word, BitVec.toNat_ofNat]; omega
  rw [BitVec.toNat_udiv, hw]
  exact ⟨(Nat.one_le_div_iff (by omega)).2 (by omega), Nat.mul_div_le _ _⟩

/-- `Narrow` (R117) keeps the interval inside the old one. -/
theorem Channel.IntervalOk.narrow {c : Channel} (h : c.IntervalOk) {iv : Interval} (hiv : iv.Legal) :
    (c.narrow iv).Narrowed := by
  obtain ⟨hfreq, hsum, htot⟩ := hiv
  obtain ⟨hr1, hrt⟩ := Channel.IntervalOk.unit_pos h (by omega) htot
  obtain ⟨hle, heq, -⟩ := h
  have hcf : (iv.cum + iv.freq) * (c.range / word iv.tot).toNat ≤ iv.tot * (c.range / word iv.tot).toNat :=
    Nat.mul_le_mul_right _ hsum
  have hf1 : 1 * 1 ≤ iv.freq * (c.range / word iv.tot).toNat := Nat.mul_le_mul hfreq hr1
  have hwc : (word iv.cum).toNat = iv.cum := by simp only [word, BitVec.toNat_ofNat]; omega
  have hwf : (word iv.freq).toNat = iv.freq := by simp only [word, BitVec.toNat_ofNat]; omega
  rw [Nat.add_mul] at hcf
  have hrng := c.range.isLt
  have hrange' : (c.narrow iv).range.toNat = iv.freq * (c.range / word iv.tot).toNat := by
    simp only [Channel.narrow, BitVec.toNat_mul, hwf]
    exact Nat.mod_eq_of_lt (by omega)
  have hlow' : (c.narrow iv).low.toNat = c.low.toNat + iv.cum * (c.range / word iv.tot).toNat := by
    simp only [Channel.narrow, BitVec.toNat_add, BitVec.toNat_mul, hwc]
    rw [Nat.mod_eq_of_lt (a := iv.cum * _) (by omega), Nat.mod_eq_of_lt (by omega)]
  constructor <;> rw [hrange', hlow'] at * <;> omega

theorem Channel.topFixed_iff (c : Channel) :
    c.topFixed = true ↔ c.low.toNat / 2 ^ 24 = (c.low.toNat + c.range.toNat) % 2 ^ 32 / 2 ^ 24 := by
  rw [← xor_lt_two_pow_iff]
  simp [Channel.topFixed, coderTop, BitVec.toNat_add]

theorem Channel.settled_iff (c : Channel) :
    c.settled = true ↔ c.topFixed = false ∧ 2 ^ 16 ≤ c.range.toNat := by
  simp [Channel.settled, coderBot]

/-- The loop of `Renorm` exits with the interval of an open channel (R121 item 2). -/
theorem Channel.Narrowed.intervalOk {c : Channel} (h : c.Narrowed) (hs : c.settled = true) : c.IntervalOk :=
  ⟨h.le, h.low_of_eq, ((Channel.settled_iff c).1 hs).2⟩

/-- The range after the cut of R118. -/
theorem Channel.cut_range_toNat (c : Channel) :
    c.cut.range.toNat = if c.topFixed then c.range.toNat else (2 ^ 32 - c.low.toNat) % 2 ^ 16 := by
  unfold Channel.cut
  split
  · rfl
  · have hbot : (coderBot - 1#32).toNat = 2 ^ 16 - 1 := by decide
    simp only [BitVec.toNat_and, hbot, Nat.and_two_pow_sub_one_eq_mod, BitVec.toNat_sub, BitVec.toNat_ofNat]
    omega

/-- One turn of the loop of `Renorm` (R118), the cut and the two shifts by a byte, keeps the interval; `d` is the
channel after the byte went through `Shift`. -/
theorem Channel.Narrowed.turn {c d : Channel} (h : c.Narrowed) (hs : c.settled = false) (hlow : d.low = c.low)
    (hrange : d.range = c.cut.range) : d.advance.Narrowed := by
  obtain ⟨hle, heq, hpos⟩ := h
  have hl : d.advance.low.toNat = c.low.toNat * 2 ^ 8 % 2 ^ 32 := by
    simp [Channel.advance, hlow, BitVec.toNat_shiftLeft, Nat.shiftLeft_eq]
  have hr : d.advance.range.toNat = c.cut.range.toNat * 2 ^ 8 % 2 ^ 32 := by
    simp [Channel.advance, hrange, BitVec.toNat_shiftLeft, Nat.shiftLeft_eq]
  have hlt := c.low.isLt
  rw [Channel.cut_range_toNat] at hr
  rcases Bool.eq_false_or_eq_true c.topFixed with ht | ht
  · have := (Channel.topFixed_iff c).1 ht
    rw [if_pos ht] at hr
    constructor <;> omega
  · have hcross : c.low.toNat / 2 ^ 24 ≠ (c.low.toNat + c.range.toNat) % 2 ^ 32 / 2 ^ 24 := fun hc => by
      simp [(Channel.topFixed_iff c).2 hc] at ht
    have hshort : c.range.toNat < 2 ^ 16 := by
      by_contra hc
      simp [(Channel.settled_iff c).2 ⟨ht, by omega⟩] at hs
    rw [if_neg (by simp [ht])] at hr
    constructor <;> omega

end Sys2Proof.Machine
end

section
/-!
SUPPORT. What the updates of a slot keep (rules R35, R104, R107, R110): the checks of `Slot.ok`, the kind and the
alphabet; and that a slot that meets them has every entry a coding step takes from it.
-/

namespace Sys2Proof.Machine

@[simp] theorem Slot.ok_off (l : Byte) : ({ table := .off, last := l } : Slot).ok = true ↔ l = 0#8 := by
  simp [Slot.ok]

@[simp] theorem Slot.ok_bin (p0 p1 : Prob) (l : Byte) :
    ({ table := .bin p0 p1, last := l } : Slot).ok = true ↔ ProbOk p0 ∧ ProbOk p1 ∧ l.toNat < 2 := by
  simp only [Slot.ok, decide_eq_true_eq]

@[simp] theorem Slot.ok_sym (rows : List SymRow) (l : Byte) :
    ({ table := .sym rows, last := l } : Slot).ok = true ↔
      2 ≤ rows.length ∧ rows.length ≤ 256 ∧ l.toNat < rows.length ∧ ∀ r ∈ rows, r.Ok rows.length := by
  simp only [Slot.ok, decide_eq_true_eq]

/-- A slot that meets its checks, of the given kind and alphabet. -/
structure Slot.Fits (m : Slot) (kind n : Nat) : Prop where
  ok : m.ok = true
  kind : m.table.kind = kind
  alphabet : m.table.alphabet = n

theorem Slot.Fits.bin {p0 p1 : Prob} {l : Byte} (h0 : ProbOk p0) (h1 : ProbOk p1) (hl : l.toNat < 2) :
    ({ table := .bin p0 p1, last := l } : Slot).Fits 1 2 :=
  ⟨(Slot.ok_bin ..).2 ⟨h0, h1, hl⟩, rfl, rfl⟩

theorem Slot.Fits.sym {rows : List SymRow} {l : Byte} {n : Nat} (hlen : rows.length = n) (h2 : 2 ≤ n) (h256 : n ≤ 256)
    (hl : l.toNat < n) (hrows : ∀ r ∈ rows, r.Ok n) : ({ table := .sym rows, last := l } : Slot).Fits 2 n := by
  subst hlen
  exact ⟨(Slot.ok_sym ..).2 ⟨h2, h256, hl, hrows⟩, rfl, rfl⟩

/-- A slot in use has a table of its kind, and the order-1 context is a legal one (R104). -/
theorem Slot.Fits.last_lt {m : Slot} {kind n : Nat} (h : m.Fits kind n) (hk : kind ≠ 0) : m.last.toNat < n := by
  obtain ⟨hok, rfl, rfl⟩ := h
  obtain ⟨_ | ⟨p0, p1⟩ | rows, l⟩ := m
  · exact absurd rfl hk
  · exact ((Slot.ok_bin ..).1 hok).2.2
  · exact ((Slot.ok_sym ..).1 hok).2.2.1

/-- A `BIN` slot is a pair of legal probabilities. -/
theorem Slot.Fits.exists_bin {m : Slot} {n : Nat} (h : m.Fits 1 n) :
    n = 2 ∧ ∃ p0 p1, m.table = .bin p0 p1 ∧ ProbOk p0 ∧ ProbOk p1 := by
  obtain ⟨hok, hk, rfl⟩ := h
  obtain ⟨_ | ⟨p0, p1⟩ | rows, l⟩ := m
  · simp [Table.kind] at hk
  · obtain ⟨h0, h1, _⟩ := (Slot.ok_bin ..).1 hok
    exact ⟨rfl, p0, p1, rfl, h0, h1⟩
  · simp [Table.kind] at hk

/-- A `SYM` slot is a table of legal rows. -/
theorem Slot.Fits.exists_sym {m : Slot} {n : Nat} (h : m.Fits 2 n) :
    2 ≤ n ∧ n ≤ 256 ∧ ∃ rows, m.table = .sym rows ∧ rows.length = n ∧ ∀ r ∈ rows, r.Ok n := by
  obtain ⟨hok, hk, rfl⟩ := h
  obtain ⟨_ | ⟨p0, p1⟩ | rows, l⟩ := m
  · simp [Table.kind] at hk
  · simp [Table.kind] at hk
  · obtain ⟨h2, h256, _, hrows⟩ := (Slot.ok_sym ..).1 hok
    exact ⟨h2, h256, rows, rfl, rfl, hrows⟩

/-! ### `BIN` slots -/

/-- The update of a probability keeps its range (R106, R107): near either end the shift by 5 moves it by nothing. -/
theorem probOk_adaptProb {p : Prob} (h : ProbOk p) (b : Bool) : ProbOk (adaptProb p b) := by
  obtain ⟨hlo, hhi⟩ := h
  cases b with
  | false =>
    simp only [ProbOk, adaptProb, probOne, probShift, BitVec.toNat_ofNat, Bool.false_eq_true, if_false, Nat.reducePow]
    rw [Nat.mod_eq_of_lt (by omega)]
    rcases Nat.eq_zero_or_pos (p.toNat / 32) with h0 | h0 <;> omega
  | true =>
    simp only [ProbOk, adaptProb, probOne, probShift, BitVec.toNat_ofNat, if_true, Nat.reducePow]
    rw [Nat.mod_eq_of_lt (by omega)]
    rcases Nat.eq_zero_or_pos ((4096 - p.toNat) / 32) with h0 | h0 <;> omega

/-- `UpdateBit` keeps a `BIN` slot's checks (R106, R107). -/
theorem Slot.Fits.updateBit {m : Slot} {n : Nat} (h : m.Fits 1 n) (ctx : Nat) (b : Bool) :
    (m.updateBit ctx b).Fits 1 n := by
  obtain ⟨rfl, p0, p1, ht, h0, h1⟩ := h.exists_bin
  have hb : (BitVec.ofNat 8 b.toNat).toNat < 2 := by cases b <;> decide
  unfold Slot.updateBit
  rw [ht]
  match ctx with
  | 0 => exact .bin (probOk_adaptProb h0 b) h1 hb
  | 1 => exact .bin h0 (probOk_adaptProb h1 b) hb
  | ctx + 2 => exact .bin h0 h1 hb

/-- A `BIN` slot has a legal probability in each of its contexts (R34, R107). -/
theorem Slot.Fits.prob {m : Slot} {n ctx : Nat} (h : m.Fits 1 n) (hctx : ctx < 2) :
    ∃ p, m.table.prob ctx = some p ∧ ProbOk p := by
  obtain ⟨-, p0, p1, ht, h0, h1⟩ := h.exists_bin
  match ctx, hctx with
  | 0, _ => exact ⟨p0, by simp [ht, Table.prob], h0⟩
  | 1, _ => exact ⟨p1, by simp [ht, Table.prob], h1⟩

/-- Both bits have a legal interval (R105). -/
theorem bitInterval_legal {p : Prob} (h : ProbOk p) (b : Bool) : (bitInterval p b).Legal := by
  obtain ⟨hlo, hhi⟩ := h
  cases b <;> constructor <;> simp only [bitInterval, probOne, if_true, Bool.false_eq_true, if_false] <;> omega

/-! ### `SYM` slots -/

theorem sumCounts_cons (f : Half) (l : List Half) : sumCounts (f :: l) = f.toNat + sumCounts l := by
  simp [sumCounts]

/-- An increment of one count adds to the sum, where no count leaves its 16 bits. -/
theorem sumCounts_modify {l : List Half} {j d : Nat} (hj : j < l.length) (hsum : sumCounts l + d < 2 ^ 16) :
    sumCounts (l.modify j fun f => BitVec.ofNat 16 (f.toNat + d)) = sumCounts l + d := by
  induction l generalizing j with
  | nil => simp at hj
  | cons f l ih =>
    rw [sumCounts_cons] at hsum ⊢
    cases j with
    | zero =>
      rw [List.modify_zero_cons, sumCounts_cons, BitVec.toNat_ofNat]
      omega
    | succ j =>
      rw [List.modify_succ_cons, sumCounts_cons, ih (by simpa using hj) (by omega)]
      omega

/-- After an increment every count is still at least 1, where none leaves its 16 bits. -/
theorem one_le_of_mem_modify {l : List Half} {j d : Nat} (hl : ∀ f ∈ l, 1 ≤ f.toNat) (hsum : sumCounts l + d < 2 ^ 16) :
    ∀ f ∈ l.modify j fun f => BitVec.ofNat 16 (f.toNat + d), 1 ≤ f.toNat := by
  induction l generalizing j with
  | nil => simp
  | cons f l ih =>
    rw [sumCounts_cons] at hsum
    obtain ⟨hf, hl⟩ := List.forall_mem_cons.1 hl
    cases j with
    | zero =>
      rw [List.modify_zero_cons, List.forall_mem_cons, BitVec.toNat_ofNat]
      exact ⟨by omega, hl⟩
    | succ j =>
      rw [List.modify_succ_cons, List.forall_mem_cons]
      exact ⟨hf, ih hl (by omega)⟩

theorem halveCount_toNat (f : Half) : (halveCount f).toNat = max 1 (f.toNat / 2) := by
  have := f.isLt
  simp only [halveCount, BitVec.toNat_ofNat]
  omega

/-- Halving with the floor of 1 leaves at most half of the sum, and one half more per count. -/
theorem sumCounts_map_halveCount_le {l : List Half} (hl : ∀ f ∈ l, 1 ≤ f.toNat) :
    2 * sumCounts (l.map halveCount) ≤ sumCounts l + l.length := by
  induction l with
  | nil => simp [sumCounts]
  | cons f l ih =>
    obtain ⟨hf, hl⟩ := List.forall_mem_cons.1 hl
    have := ih hl
    rw [List.map_cons, sumCounts_cons, sumCounts_cons, halveCount_toNat, List.length_cons]
    omega

/-- The update of a row keeps its checks (R109, R110). -/
theorem SymRow.Ok.update {n j : Nat} {r : SymRow} (h : r.Ok n) (hn : n ≤ 256) (hj : j < n) : (r.update j).Ok n := by
  obtain ⟨hlen, hsum, hceil, hall⟩ := h
  have hpos : ∀ f ∈ r.freq, 1 ≤ f.toNat := by simpa using hall
  have hinc : freqInc = 32 := rfl
  have hmax : freqCeil = 16383 := rfl
  have hlt : sumCounts r.freq + freqInc < 2 ^ 16 := by omega
  have hsum' := sumCounts_modify (hlen ▸ hj) hlt
  have hpos' := one_le_of_mem_modify (j := j) hpos hlt
  have hlen' : (r.freq.modify j fun f => BitVec.ofNat 16 (f.toNat + freqInc)).length = n := by simpa using hlen
  have hhalf := sumCounts_map_halveCount_le hpos'
  simp only [SymRow.update]
  generalize (r.freq.modify j fun f => BitVec.ofNat 16 (f.toNat + freqInc)) = freq at *
  split_ifs with hover
  · have htot : (BitVec.ofNat 16 (sumCounts (freq.map halveCount))).toNat = sumCounts (freq.map halveCount) := by
      rw [BitVec.toNat_ofNat]; omega
    refine ⟨by simpa using hlen', htot.symm, by rw [htot]; omega, ?_⟩
    simp [halveCount_toNat]
  · have htot : (BitVec.ofNat 16 (r.tot.toNat + freqInc)).toNat = r.tot.toNat + freqInc := by
      rw [BitVec.toNat_ofNat]; omega
    exact ⟨hlen', by rw [htot, ← hsum]; exact hsum', by rw [htot]; omega, by simpa using hpos'⟩

/-- `UpdateSym` keeps a `SYM` slot's checks (R109, R110). -/
theorem Slot.Fits.updateSym {m : Slot} {n j : Nat} (h : m.Fits 2 n) (ctx : Nat) (hj : j < n) :
    (m.updateSym ctx j).Fits 2 n := by
  obtain ⟨h2, h256, rows, ht, hlen, hrows⟩ := h.exists_sym
  have hl : (BitVec.ofNat 8 j).toNat < n := by rw [BitVec.toNat_ofNat]; omega
  unfold Slot.updateSym
  rw [ht]
  refine .sym (by simpa using hlen) h2 h256 hl fun r hr => ?_
  obtain ⟨i, hi⟩ := List.mem_iff_getElem?.1 hr
  rw [List.getElem?_modify] at hi
  obtain ⟨r', hr', rfl⟩ := Option.map_eq_some_iff.1 hi
  have hok := hrows r' (List.mem_of_getElem? hr')
  split_ifs
  · exact hok.update h256 hj
  · exact hok

/-- A `SYM` slot has a legal row in each of its contexts (R35). -/
theorem Slot.Fits.row {m : Slot} {n ctx : Nat} (h : m.Fits 2 n) (hctx : ctx < n) :
    ∃ r, m.table.row ctx = some r ∧ r.Ok n := by
  obtain ⟨-, -, rows, ht, rfl, hrows⟩ := h.exists_sym
  exact ⟨rows[ctx], by simp [ht, Table.row, hctx], hrows _ (List.getElem_mem hctx)⟩

/-- The counts up to and with symbol `j` are part of the sum. -/
theorem sumCounts_take_add_le {l : List Half} {j : Nat} (hj : j < l.length) :
    sumCounts (l.take j) + l[j].toNat ≤ sumCounts l := by
  induction l generalizing j with
  | nil => simp at hj
  | cons f l ih =>
    cases j with
    | zero => simp [sumCounts]
    | succ j =>
      have := ih (by simpa using hj)
      simp only [List.take_succ_cons, List.getElem_cons_succ, sumCounts_cons]
      omega

/-- Every symbol of the alphabet has a legal interval, on the scale of the row's total (R108). -/
theorem SymRow.Ok.interval {n j : Nat} {r : SymRow} (h : r.Ok n) (hj : j < n) :
    ∃ iv, r.interval j = some iv ∧ iv.Legal ∧ iv.tot = r.tot.toNat := by
  obtain ⟨rfl, hsum, hceil, hall⟩ := h
  have hpos : ∀ f ∈ r.freq, 1 ≤ f.toNat := by simpa using hall
  have hle := sumCounts_take_add_le hj
  simp only [freqCeil] at hceil
  refine ⟨{ cum := r.cum j, freq := r.freq[j].toNat, tot := r.tot.toNat },
    by simp only [SymRow.interval, List.getElem?_eq_getElem hj], ⟨hpos _ (List.getElem_mem hj), ?_, ?_⟩, rfl⟩
  · simpa only [SymRow.cum, hsum] using hle
  · simp only; omega

/-- The decoder finds a symbol of the alphabet for every value below the sum of the counts (R108). -/
theorem findSymbol_of_lt {l : List Half} {v : Nat} (hv : v < sumCounts l) :
    ∃ j, findSymbol l v = some j ∧ j < l.length := by
  induction l generalizing v with
  | nil => simp [sumCounts] at hv
  | cons f l ih =>
    rw [sumCounts_cons] at hv
    by_cases hf : v < f.toNat
    · exact ⟨0, by simp [findSymbol, hf], by simp⟩
    · obtain ⟨j, hj, hlt⟩ := ih (v := v - f.toNat) (by omega)
      exact ⟨j + 1, by simp [findSymbol, hf, hj], by simpa using hlt⟩

/-! ### The model commands -/

/-- The initial row of alphabet `n` meets its checks (R112). -/
theorem initialRow_ok {n : Nat} (h : n ≤ 256) :
    SymRow.Ok n { freq := List.replicate n 1#16, tot := BitVec.ofNat 16 n } := by
  have htot : (BitVec.ofNat 16 n).toNat = n := by rw [BitVec.toNat_ofNat]; omega
  refine ⟨by simp, by simp [sumCounts, htot], ?_, by simp⟩
  simp only [htot, freqCeil]
  omega

theorem initialSym_fits {n : Nat} (h2 : 2 ≤ n) (h256 : n ≤ 256) :
    ({ table := initialSym n, last := 0#8 } : Slot).Fits 2 n := by
  refine .sym (by simp) h2 h256 (by simp; omega) fun r hr => ?_
  rw [List.eq_of_mem_replicate hr]
  exact initialRow_ok h256

theorem initialBin_fits : ({ table := initialBin, last := 0#8 } : Slot).Fits 1 2 :=
  .bin (by decide) (by decide) (by decide)

/-- The initial table of a slot's own kind and alphabet meets the checks (R113). -/
theorem Slot.ok_initial {m : Slot} (h : m.ok = true) :
    ({ table := m.table.initial, last := 0#8 } : Slot).ok = true := by
  obtain ⟨_ | ⟨p0, p1⟩ | rows, l⟩ := m
  · rfl
  · exact initialBin_fits.ok
  · obtain ⟨h2, h256, -⟩ := (Slot.ok_sym ..).1 h
    exact (initialSym_fits h2 h256).ok

/-- A legal context may become the order-1 context (R114). -/
theorem Slot.ok_setLast {m : Slot} {k : Byte} (h : m.ok = true) (hk : k.toNat < m.table.alphabet) :
    ({ m with last := k } : Slot).ok = true := by
  obtain ⟨_ | ⟨p0, p1⟩ | rows, l⟩ := m
  · simp [Table.alphabet] at hk
  · obtain ⟨h0, h1, -⟩ := (Slot.ok_bin ..).1 h
    exact (Slot.ok_bin ..).2 ⟨h0, h1, hk⟩
  · obtain ⟨h2, h256, -, hrows⟩ := (Slot.ok_sym ..).1 h
    exact (Slot.ok_sym ..).2 ⟨h2, h256, hk, hrows⟩

end Sys2Proof.Machine
end

section
/-!
SUPPORT. No coding step faults on a channel and a slot that meet the invariant, and what it leaves meets it again
(rules R110, R121): first for the stream (`Shift`, `Renorm`), then for the steps with a slot, then for their runs.
-/

namespace Sys2Proof.Machine

/-! ### Streams -/

/-- A stream over a DMEM of the given size, in canonical form, with its window in DMEM and `ptr` inside the window: what
a raise keeps of the invariant. -/
structure Stream.Placed (size : Nat) (t : Stream) : Prop where
  wf : t.mem.wf = true
  size_eq : t.mem.size = size
  base_le : t.ch.base.toNat ≤ t.ch.ptr.toNat
  ptr_le : t.ch.ptr.toNat ≤ t.ch.limit.toNat
  limit_le : t.ch.limit.toNat ≤ size

/-- A stream that a coding step may begin on, and leaves when it ends with a value. -/
structure Stream.Ready (size : Nat) (t : Stream) : Prop where
  placed : t.Placed size
  isOpen : t.ch.Open
  interval : t.ch.IntervalOk

/-- A change of mode, interval or code keeps a stream placed. -/
theorem Stream.Placed.retune {size : Nat} {t : Stream} (h : t.Placed size) {c : Channel} (hb : c.base = t.ch.base)
    (hp : c.ptr = t.ch.ptr) (hl : c.limit = t.ch.limit) : Stream.Placed size { t with ch := c } :=
  ⟨h.wf, h.size_eq, by simpa only [hb, hp] using h.base_le, by simpa only [hp, hl] using h.ptr_le,
    by simpa only [hl] using h.limit_le⟩

/-- What `Shift` keeps and changes where it ends with a value (R119). -/
structure Stream.ShiftedOne (size : Nat) (t u : Stream) : Prop where
  placed : u.Placed size
  mode : u.ch.mode = t.ch.mode
  low : u.ch.low = t.ch.low
  range : u.ch.range = t.ch.range
  room : u.ch.room + 1 = t.ch.room

/-- On an open channel `Shift` moves one byte or raises (R119). -/
theorem Stream.Placed.shift {size : Nat} {t : Stream} (h : t.Placed size) (ho : t.ch.Open) :
    t.shift.Ends (fun _ u => t.ShiftedOne size u) (Stream.Placed size) := by
  obtain ⟨hwf, hsize, hbase, hptr, hlimit⟩ := id h
  by_cases hend : t.ch.limit.toNat ≤ t.ch.ptr.toNat
  · rcases ho with hm | hm <;> simpa [Stream.shift, hm, hend] using h
  · have hin : ¬ t.mem.size ≤ t.ch.ptr.toNat := by omega
    have hlim := t.ch.limit.isLt
    have hp : (t.ch.ptr + 1#32).toNat = t.ch.ptr.toNat + 1 := by
      rw [BitVec.toNat_add, BitVec.toNat_ofNat]; omega
    rcases ho with hm | hm <;> simp only [Stream.shift, hm, hend, hin, if_false, Coded.ends_ok]
    · exact ⟨⟨Dmem.wf_write _ _ hwf, by simp [hsize], by simp only [hp]; omega, by simp only [hp]; omega, hlimit⟩,
        hm.symm, rfl, rfl, by simp only [Channel.room, hp]; omega⟩
    · exact ⟨⟨hwf, hsize, by simp only [hp]; omega, by simp only [hp]; omega, hlimit⟩,
        hm.symm, rfl, rfl, by simp only [Channel.room, hp]; omega⟩

/-- `Shift` inside `Renorm`, after the cut of R118. -/
theorem Stream.Placed.shift_cut {size : Nat} {t : Stream} (h : t.Placed size) (ho : t.ch.Open) :
    (Stream.shift { t with ch := t.ch.cut }).Ends (fun _ u => Stream.ShiftedOne size { t with ch := t.ch.cut } u)
      (Stream.Placed size) :=
  Stream.Placed.shift (h.retune (by simp) (by simp) (by simp)) (by simpa [Channel.Open] using ho)

/-- `Renorm` from a narrowed interval ends with an open channel's interval, or raises; the bytes left in the window are
turns enough (R118, R121). -/
theorem Stream.Placed.renormLoop {size n : Nat} {t : Stream} (h : t.Placed size) (ho : t.ch.Open)
    (hi : t.ch.Narrowed) (hn : t.ch.room = n) :
    (t.renormLoop n).Ends (fun _ u => u.Ready size) (Stream.Placed size) := by
  induction n generalizing t with
  | zero =>
    unfold Stream.renormLoop
    split
    · next hs => exact ⟨h, ho, hi.intervalOk hs⟩
    · refine (h.shift_cut ho).bind fun _ u hu => ?_
      have hroom := hu.room
      simp only [Channel.room, Channel.cut_limit, Channel.cut_ptr] at hroom hn
      omega
  | succ n ih =>
    unfold Stream.renormLoop
    split
    · next hs => exact ⟨h, ho, hi.intervalOk hs⟩
    · next hs =>
      refine (h.shift_cut ho).bind fun _ u hu => ?_
      obtain ⟨hplaced, hmode, hlow, hrange, hroom⟩ := hu
      refine ih (hplaced.retune rfl rfl rfl) ?_ (hi.turn (by simpa using hs) (by simpa using hlow) hrange) ?_
      · simpa [Channel.Open, Channel.advance, hmode] using ho
      · simp only [Channel.room, Channel.cut_limit, Channel.cut_ptr, Channel.advance] at hroom hn ⊢
        omega

/-- `Narrow` by a legal interval and `Renorm` lead from a ready stream to a ready one, or raise. -/
theorem Stream.Ready.narrow_renorm {size : Nat} {t : Stream} (h : t.Ready size) {iv : Interval} (hiv : iv.Legal) :
    (Stream.renorm { t with ch := t.ch.narrow iv }).Ends (fun _ u => u.Ready size) (Stream.Placed size) :=
  Stream.Placed.renormLoop (t := { t with ch := t.ch.narrow iv }) (h.placed.retune rfl rfl rfl) h.isOpen
    (Channel.IntervalOk.narrow h.interval hiv) rfl

/-- `DecodeValue` (R120) answers a value below a legal total, or raises; the stream stays. -/
theorem Stream.Ready.decodeValue {size tot : Nat} {t : Stream} (h : t.Ready size) (hpos : 1 ≤ tot)
    (htot : tot ≤ 2 ^ 16) : (t.decodeValue tot).Ends (fun v u => v < tot ∧ u = t) fun u => u = t := by
  have hunit := (Channel.IntervalOk.unit_pos h.interval hpos htot).1
  have hne : t.ch.range / word tot ≠ 0#32 := fun hz => by rw [hz] at hunit; simp at hunit
  simp only [Stream.decodeValue, if_neg hne]
  split
  · rfl
  · next hv => exact ⟨Nat.lt_of_not_le hv, rfl⟩

/-! ### Steps with a slot -/

/-- A coder that a coding step on a slot of the given kind and alphabet may begin on, and leaves when it ends with a
value. -/
structure Coder.Ready (size kind n : Nat) (k : Coder) : Prop where
  str : k.str.Ready size
  slot : k.slot.Fits kind n

/-- What a raise of a coding step keeps of the invariant. -/
structure Coder.Placed (size : Nat) (k : Coder) : Prop where
  str : k.str.Placed size
  slot : k.slot.ok = true

theorem Coder.Ready.placed {size kind n : Nat} {k : Coder} (h : k.Ready size kind n) : k.Placed size :=
  ⟨h.str.placed, h.slot.ok⟩

theorem Coder.Ready.codeInterval {size kind n : Nat} {k : Coder} (h : k.Ready size kind n) {iv : Interval}
    (hiv : iv.Legal) {m : Slot} (hm : m.Fits kind n) :
    (k.codeInterval iv m).Ends (fun _ u => u.Ready size kind n) (Coder.Placed size) :=
  ((h.str.narrow_renorm hiv).mono (fun _ _ ht => ⟨ht, hm⟩) fun _ ht => ⟨ht, hm.ok⟩).lift

theorem Coder.Ready.encBit {size n ctx : Nat} {k : Coder} (h : k.Ready size 1 n) (hctx : ctx < 2) (b : Bool) :
    (k.encBit ctx b).Ends (fun _ u => u.Ready size 1 n) (Coder.Placed size) := by
  obtain ⟨p, hp, hok⟩ := h.slot.prob hctx
  simp only [Coder.encBit, hp]
  exact h.codeInterval (bitInterval_legal hok b) (h.slot.updateBit ctx b)

theorem Coder.Ready.decBit {size n ctx : Nat} {k : Coder} (h : k.Ready size 1 n) (hctx : ctx < 2) :
    (k.decBit ctx).Ends (fun _ u => u.Ready size 1 n) (Coder.Placed size) := by
  obtain ⟨p, hp, hok⟩ := h.slot.prob hctx
  simp only [Coder.decBit, hp]
  have hvalue := h.str.decodeValue (tot := probOne) (by decide) (by decide)
  refine (Coded.Ends.lift (P := fun _ u => u = k) (hvalue.mono ?_ ?_)).bind fun v u hu => ?_
  · rintro _ _ ⟨-, rfl⟩; rfl
  · rintro _ rfl; exact h.placed
  · subst hu
    exact (h.codeInterval (bitInterval_legal hok _) (h.slot.updateBit ctx _)).bind fun _ _ hu => hu

theorem Coder.Ready.encSym {size n ctx j : Nat} {k : Coder} (h : k.Ready size 2 n) (hctx : ctx < n) (hj : j < n) :
    (k.encSym ctx j).Ends (fun _ u => u.Ready size 2 n) (Coder.Placed size) := by
  obtain ⟨r, hr, hok⟩ := h.slot.row hctx
  obtain ⟨iv, hiv, hlegal, -⟩ := hok.interval hj
  have htot : iv.tot ≠ 0 := by have := hlegal.freq_pos; have := hlegal.sum_le; omega
  simp only [Coder.encSym, hr, Option.bind_some, hiv, if_neg htot]
  exact h.codeInterval hlegal (h.slot.updateSym ctx hj)

theorem Coder.Ready.decSym {size n ctx : Nat} {k : Coder} (h : k.Ready size 2 n) (hctx : ctx < n) :
    (k.decSym ctx).Ends (fun _ u => u.Ready size 2 n) (Coder.Placed size) := by
  obtain ⟨r, hr, hok⟩ := h.slot.row hctx
  obtain ⟨iv, -, hlegal, htot⟩ := hok.interval hctx
  have hpos : 1 ≤ r.tot.toNat := by have := hlegal.freq_pos; have := hlegal.sum_le; omega
  have hvalue := h.str.decodeValue hpos (htot ▸ hlegal.tot_le)
  simp only [Coder.decSym, hr]
  refine (Coded.Ends.lift (P := fun v u => v < r.tot.toNat ∧ u = k) (hvalue.mono ?_ ?_)).bind fun v u hu => ?_
  · rintro v _ ⟨hv, rfl⟩; exact ⟨hv, rfl⟩
  · rintro _ rfl; exact h.placed
  · obtain ⟨hv, rfl⟩ := hu
    obtain ⟨hlen, hsum, -⟩ := id hok
    obtain ⟨j, hj, hlt⟩ := findSymbol_of_lt (hsum ▸ hv)
    obtain ⟨iv', hiv', hlegal', -⟩ := hok.interval (hlen ▸ hlt)
    simp only [hj, hiv']
    exact (h.codeInterval hlegal' (h.slot.updateSym ctx (hlen ▸ hlt))).bind fun _ _ hu => hu

/-! ### Runs of steps on the chain -/

/-- The chain's context is a legal one (R104). -/
theorem Coder.Ready.last_lt {size kind n : Nat} {k : Coder} (h : k.Ready size kind n) (hk : kind ≠ 0) :
    k.slot.last.toNat < n := h.slot.last_lt hk

theorem Coder.Ready.last_lt_two {size n : Nat} {k : Coder} (h : k.Ready size 1 n) : k.slot.last.toNat < 2 :=
  h.slot.exists_bin.1 ▸ h.slot.last_lt (by decide)

theorem Coder.Ready.encBits {size n : Nat} {k : Coder} (h : k.Ready size 1 n) (bits : List Bool) :
    (Coder.encBits bits k).Ends (fun _ u => u.Ready size 1 n) (Coder.Placed size) := by
  induction bits generalizing k with
  | nil => exact h
  | cons b bits ih => exact (h.encBit h.last_lt_two b).bind fun _ _ hu => ih hu

theorem Coder.Ready.decContinue {size n : Nat} {k : Coder} (h : k.Ready size 1 n) (left count : Nat) :
    (Coder.decContinue left count k).Ends (fun _ u => u.Ready size 1 n) (Coder.Placed size) := by
  induction left generalizing count k with
  | zero => exact h.placed
  | succ left ih =>
    refine (h.decBit h.last_lt_two).bind fun b u hu => ?_
    cases b with
    | true => exact ih hu (count + 1)
    | false => exact hu

theorem Coder.Ready.decLow {size n : Nat} {k : Coder} (h : k.Ready size 1 n) (left v : Nat) :
    (Coder.decLow left v k).Ends (fun _ u => u.Ready size 1 n) (Coder.Placed size) := by
  induction left generalizing v k with
  | zero => exact h
  | succ left ih => exact (h.decBit h.last_lt_two).bind fun b _ hu => ih hu _

theorem Coder.Ready.decGamma {size n : Nat} {k : Coder} (h : k.Ready size 1 n) :
    k.decGamma.Ends (fun _ u => u.Ready size 1 n) (Coder.Placed size) :=
  (h.decContinue _ _).bind fun _ _ hu => hu.decLow _ _

theorem Coder.Ready.encSyms {size n : Nat} {k : Coder} (h : k.Ready size 2 n) (xs : List Byte)
    (hxs : ∀ j ∈ xs, j.toNat < n) : (Coder.encSyms xs k).Ends (fun _ u => u.Ready size 2 n) (Coder.Placed size) := by
  induction xs generalizing k with
  | nil => exact h
  | cons j xs ih =>
    obtain ⟨hj, hxs⟩ := List.forall_mem_cons.1 hxs
    exact (h.encSym (h.last_lt (by decide)) hj).bind fun _ _ hu => ih hu hxs

/-- A byte written to the destination of `RC_DSTREAM` keeps the coder ready. -/
theorem Coder.Ready.putByte {size kind n : Nat} {k : Coder} (h : k.Ready size kind n) (a : Nat) (b : Byte) :
    (k.putByte a b).Ready size kind n := by
  obtain ⟨⟨⟨hwf, hsize, hbase, hptr, hlimit⟩, hopen, hinterval⟩, hslot⟩ := h
  exact ⟨⟨⟨Dmem.wf_write a b hwf, (Dmem.write_size ..).trans hsize, hbase, hptr, hlimit⟩, hopen, hinterval⟩, hslot⟩

theorem Coder.Ready.decSyms {size n : Nat} {k : Coder} (h : k.Ready size 2 n) (count a : Nat) :
    (Coder.decSyms count a k).Ends (fun _ u => u.Ready size 2 n) (Coder.Placed size) := by
  induction count generalizing a k with
  | zero => exact h
  | succ count ih => exact (h.decSym (h.last_lt (by decide))).bind fun _ _ hu => ih (hu.putByte _ _) _

/-! ### Opening and flushing -/

/-- The bytes `RC_DINIT` takes into `code` leave the interval as it is (R129). -/
theorem Stream.Ready.shiftIn {size : Nat} {t : Stream} (h : t.Ready size) (n : Nat) :
    (Stream.shiftIn n t).Ends (fun _ u => u.Ready size) (Stream.Placed size) := by
  induction n generalizing t with
  | zero => exact h
  | succ n ih =>
    refine (h.placed.shift h.isOpen).bind fun _ u hu => ih ⟨hu.placed, ?_, ?_⟩
    · simpa only [Channel.Open, hu.mode] using h.isOpen
    · simpa only [Channel.IntervalOk, hu.low, hu.range] using h.interval

/-- The bytes `RC_EFLUSH` puts out keep the window and the mode (R138). -/
theorem Stream.Placed.flushOut {size : Nat} {t : Stream} (h : t.Placed size) (ho : t.ch.Open) (n : Nat) :
    (Stream.flushOut n t).Ends (fun _ u => u.Placed size) (Stream.Placed size) := by
  induction n generalizing t with
  | zero => exact h
  | succ n ih =>
    refine (h.shift ho).bind fun _ u hu => ih (hu.placed.retune rfl rfl rfl) ?_
    simpa only [Channel.Open, hu.mode] using ho

/-- A channel newly opened on a window of DMEM is ready (R128, R129). -/
theorem Stream.opened_ready {m : Dmem} {mode : ChMode} {base n : Nat} (hwf : m.wf = true) (hsize : m.size ≤ 2 ^ 20)
    (hin : m.inRange base n = true) (hopen : mode = .enc ∨ mode = .dec) :
    Stream.Ready m.size { ch := Channel.opened mode base n, mem := m } := by
  simp only [Dmem.inRange, decide_eq_true_eq] at hin
  have hbase : (word base).toNat = base := by simp only [word, BitVec.toNat_ofNat]; omega
  have hlimit : (word (base + n)).toNat = base + n := by simp only [word, BitVec.toNat_ofNat]; omega
  refine ⟨⟨hwf, rfl, ?_, ?_, ?_⟩, hopen, ?_⟩
  · exact Nat.le_refl _
  · simp only [Channel.opened, hbase, hlimit]; omega
  · simpa only [Channel.opened, hlimit] using hin
  · simp only [Channel.IntervalOk, Channel.opened]; decide

end Sys2Proof.Machine
end

section
/-!
SUPPORT. Every way a command can end, said once for all 28: `ExecEnd` lists them, `exec_end` proves that there is no
other. The statements about every command are then case splits over `ExecEnd`.
-/

namespace Sys2Proof.Machine

/-- Only the first `n` RES registers are written (the "RES" column of R72). -/
def ResultsBelow (n : Nat) (r : List Result) : Prop := ∀ p ∈ r, p.1.val < n

/-! ### Bulk commands -/

/-- What the plan of a command with `n` results keeps to: the results listed, an MTF table that is a permutation (R38),
and no scratch entry past `MAX_BLOCK` (R39). -/
structure Plan.Legal (s : State) (n : Nat) (q : Plan) : Prop where
  results : ResultsBelow n q.results
  mtf : ∀ l, q.mtf = some l → l.length = 256 ∧ l.Nodup
  scratch : ∀ ws, q.scratch = some ws → ws.length ≤ s.params.maxBlock

/-- A plan that touches neither the MTF table nor the scratch store. -/
theorem Plan.legal_of_results {s : State} {n : Nat} {writes : List (Nat × List Byte)} {r : List Result}
    (h : ResultsBelow n r) : Plan.Legal s n { writes := writes, results := r } :=
  ⟨h, nofun, nofun⟩

theorem insertIndex_length (s : List Byte) (i : Nat) (l : List Nat) :
    (insertIndex s i l).length = l.length + 1 := by
  induction l with
  | nil => rfl
  | cons j l ih => unfold insertIndex; split <;> simp [ih]

@[simp] theorem sortedOrder_length (s : List Byte) : (sortedOrder s).length = s.length := by
  have h (l : List Nat) : (l.foldr (insertIndex s) []).length = l.length := by
    induction l with
    | nil => rfl
    | cons i l ih => simp [insertIndex_length, ih]
  simpa [sortedOrder] using h (List.range s.length)

@[simp] theorem rankMap_length (l : List Byte) : (rankMap l).length = l.length := by simp [rankMap]

theorem identityTable_length : identityTable.length = 256 := by simp [identityTable]

/-- The reset value of the MTF table lists every byte once. -/
theorem identityTable_nodup : identityTable.Nodup := by
  refine List.Nodup.map_on (fun a ha b hb h => ?_) List.nodup_range
  rw [List.mem_range] at ha hb
  have := congrArg BitVec.toNat h
  simp only [BitVec.toNat_ofNat] at this
  omega

/-- Every byte stands in a table that lists 256 different ones. -/
theorem mem_of_nodup_length {table : List Byte} (hlen : table.length = 256) (hnd : table.Nodup) (b : Byte) :
    b ∈ table := by
  have hcard : (table.map BitVec.toFin).toFinset = Finset.univ := by
    refine Finset.eq_univ_of_card _ ?_
    rw [List.toFinset_card_of_nodup (hnd.map BitVec.toFin_injective), List.length_map, hlen, Fintype.card_fin]
  have hmem : b.toFin ∈ (table.map BitVec.toFin).toFinset := hcard ▸ Finset.mem_univ _
  rw [List.mem_toFinset, List.mem_map] at hmem
  obtain ⟨a, ha, hab⟩ := hmem
  exact BitVec.toFin_injective hab ▸ ha

/-- The move to the front of the entry at a position permutes the table (R86, R87). -/
theorem moveToFront_perm {table : List Byte} {r : Nat} (hr : r < table.length) :
    (moveToFront table r table[r]).Perm table := by
  have hsplit : table.take r ++ table[r] :: table.drop (r + 1) = table := by
    rw [← List.drop_eq_getElem_cons hr, List.take_append_drop]
  have hmove : (moveToFront table r table[r]).Perm (table.take r ++ table[r] :: table.drop (r + 1)) :=
    List.perm_middle.symm
  exact hmove.trans (.of_eq hsplit)

/-- An MTF pass over bytes leaves a permutation of the table it began with (R86). -/
theorem mtfEncodeFrom_perm {table : List Byte} (hlen : table.length = 256) (hnd : table.Nodup) (bs : List Byte) :
    (mtfEncodeFrom table bs).2.Perm table := by
  induction bs generalizing table with
  | nil => exact .refl _
  | cons b bs ih =>
    have hr := List.idxOf_lt_length_of_mem (mem_of_nodup_length hlen hnd b)
    have hperm : (moveToFront table (table.idxOf b) b).Perm table := by
      simpa only [List.getElem_idxOf] using moveToFront_perm hr
    exact (ih (hperm.length_eq.trans hlen) (hperm.nodup_iff.2 hnd)).trans hperm

/-- An inverse MTF pass leaves a permutation of the table it began with (R87). -/
theorem mtfDecodeFrom_perm {table : List Byte} (hlen : table.length = 256) (rs : List Byte) :
    (mtfDecodeFrom table rs).2.Perm table := by
  induction rs generalizing table with
  | nil => exact .refl _
  | cons r rs ih =>
    have hr : r.toNat < table.length := hlen ▸ r.isLt
    have hperm : (moveToFront table r.toNat (table.getD r.toNat 0#8)).Perm table := by
      simpa only [List.getD_eq_getElem _ _ hr] using moveToFront_perm hr
    exact (ih (hperm.length_eq.trans hlen)).trans hperm

section
variable {s : State} {q : Plan}

theorem State.planBwtFwd_legal (h : s.planBwtFwd = .ok q) : q.Legal s 1 := by
  simp only [State.planBwtFwd] at h
  split_ifs at h with hn
  cases h
  exact ⟨by simp [ResultsBelow], nofun, by simpa using hn⟩

theorem State.planBwtInv_legal (h : s.planBwtInv = .ok q) : q.Legal s 0 := by
  simp only [State.planBwtInv] at h
  split_ifs at h with _ hn
  cases h
  exact ⟨by simp [ResultsBelow], nofun, by simpa using hn⟩

theorem State.planMtfEnc_legal (h : s.planMtfEnc = .ok q) : q.Legal s 0 := by
  simp only [State.planMtfEnc] at h
  split_ifs at h
  cases h
  have hperm := mtfEncodeFrom_perm identityTable_length identityTable_nodup (s.dmem.readBytes (s.argNat 0) (s.argNat 2))
  refine ⟨by simp [ResultsBelow], ?_, nofun⟩
  rintro _ ⟨⟩
  exact ⟨hperm.length_eq.trans identityTable_length, hperm.nodup_iff.2 identityTable_nodup⟩

theorem State.planMtfDec_legal (h : s.planMtfDec = .ok q) : q.Legal s 0 := by
  simp only [State.planMtfDec] at h
  split_ifs at h
  cases h
  have hperm := mtfDecodeFrom_perm identityTable_length (s.dmem.readBytes (s.argNat 0) (s.argNat 2))
  refine ⟨by simp [ResultsBelow], ?_, nofun⟩
  rintro _ ⟨⟩
  exact ⟨hperm.length_eq.trans identityTable_length, hperm.nodup_iff.2 identityTable_nodup⟩

theorem State.planZrlSplit_legal (h : s.planZrlSplit = .ok q) : q.Legal s 2 := by
  simp only [State.planZrlSplit] at h
  split_ifs at h
  cases h
  exact Plan.legal_of_results (by simp [ResultsBelow])

theorem State.planZrlJoin_legal (h : s.planZrlJoin = .ok q) : q.Legal s 1 := by
  simp only [State.planZrlJoin] at h
  split_ifs at h
  cases h
  exact Plan.legal_of_results (by simp [ResultsBelow])

theorem State.planTierCls_legal (h : s.planTierCls = .ok q) : q.Legal s 2 := by
  simp only [State.planTierCls] at h
  split_ifs at h <;> cases h <;> exact Plan.legal_of_results (by simp [ResultsBelow])

theorem State.planTierUncls_legal (h : s.planTierUncls = .ok q) : q.Legal s 1 := by
  simp only [State.planTierUncls] at h
  split_ifs at h <;> cases h <;> exact Plan.legal_of_results (by simp [ResultsBelow])

theorem State.planTierSplit_legal (h : s.planTierSplit = .ok q) : q.Legal s 5 := by
  simp only [State.planTierSplit] at h
  split_ifs at h
  cases h
  exact Plan.legal_of_results (by simp [ResultsBelow])

theorem resultsBelow_tierCounts (syms : List Byte) : ResultsBelow 5 (tierCounts syms) := by
  simp [ResultsBelow, tierCounts]

theorem State.planTierCount_legal (h : s.planTierCount = .ok q) : q.Legal s 5 := by
  simp only [State.planTierCount] at h
  split_ifs at h
  cases h
  exact Plan.legal_of_results (resultsBelow_tierCounts _)

theorem State.planTierJoin_legal (h : s.planTierJoin = .ok q) : q.Legal s 5 := by
  simp only [State.planTierJoin] at h
  split_ifs at h
  cases h
  exact Plan.legal_of_results (resultsBelow_tierCounts _)

end

/-! ### Channel commands -/

/-- A stream that meets the invariant of a channel over a DMEM of the given size. -/
structure Stream.Sound (size : Nat) (t : Stream) : Prop where
  placed : t.Placed size
  interval : t.ch.Open → t.ch.IntervalOk

theorem Stream.Ready.sound {size : Nat} {t : Stream} (h : t.Ready size) : t.Sound size :=
  ⟨h.placed, fun _ => h.interval⟩

/-- A stream whose channel is not open meets the invariant wherever its window lies in DMEM. -/
theorem Stream.Placed.sound {size : Nat} {t : Stream} (h : t.Placed size) {mode : ChMode}
    (hmode : mode ≠ .enc ∧ mode ≠ .dec) : Stream.Sound size { t with ch := { t.ch with mode := mode } } :=
  ⟨h.retune rfl rfl rfl, fun ho => (ho.elim hmode.1 hmode.2).elim⟩

/-- A body either failed its checks, or did work that meets `P`. -/
def Body.Meets {σ : Type} (P : Coded σ (List Result) → Prop) : Body σ → Prop
  | .failed _ => True
  | .ran w => P w

/-- What is known of the work of a channel command without a slot, once its checks have passed. -/
structure StreamWork (i : Instr) (s : State) (c : ChanNo) (w : Coded Stream (List Result)) : Prop where
  chan : channelOf i = some c
  err : s.ch[c].mode = .err → i = .rcEinit c ∨ i = .rcDinit c
  results : ∀ r t, w = .ok r t → ResultsBelow (resultCount i) r
  ends : s.Inv → w.Ends (fun _ t => t.Sound s.dmem.size) (Stream.Placed s.dmem.size)

/-- What is known of the work of a coding command, once its checks have passed. -/
structure CoderWork (i : Instr) (s : State) (c : ChanNo) (m : SlotNo) (w : Coded Coder (List Result)) : Prop where
  chan : channelOf i = some c
  slot : slotOf i = some m
  err : s.ch[c].mode ≠ .err
  results : ∀ r k, w = .ok r k → ResultsBelow (resultCount i) r
  ends : s.Inv → w.Ends (fun _ k => k.str.Sound s.dmem.size ∧ k.slot.ok = true) (Coder.Placed s.dmem.size)

/-- The results a step ends with are those its value gives. -/
theorem Coded.results_of_bind {σ α : Type} {c : Coded σ α} {f : α → List Result} {g : α → σ → σ} {n : Nat}
    (hf : ∀ a, ResultsBelow n (f a)) {r : List Result} {u : σ} (h : (c.bind fun a k => .ok (f a) (g a k)) = .ok r u) :
    ResultsBelow n r := by
  obtain ⟨a, k, -, hk⟩ := Coded.bind_ok h
  cases hk
  exact hf a

theorem Channel.Open.ne_err {c : Channel} (h : c.Open) : c.mode ≠ .err := by
  rcases h with h | h <;> simp [h]

/-- A coding step with the results its value gives, as the work of a command. -/
theorem CoderWork.of_step {i : Instr} {s : State} {c : ChanNo} {m : SlotNo} {α : Type} {step : Coded Coder α}
    {f : α → List Result} {kind n : Nat} (hchan : channelOf i = some c) (hslot : slotOf i = some m)
    (hopen : s.ch[c].Open) (hf : ∀ a, ResultsBelow (resultCount i) (f a))
    (hends : s.Inv → step.Ends (fun _ k => k.Ready s.dmem.size kind n) (Coder.Placed s.dmem.size)) :
    CoderWork i s c m (step.bind fun a k => .ok (f a) k) where
  chan := hchan
  slot := hslot
  err := hopen.ne_err
  results _ _ h := Coded.results_of_bind hf h
  ends hs := (hends hs).bind fun _ _ hk => ⟨hk.str.sound, hk.slot.ok⟩

theorem State.checkBin_eq_none {s : State} {c : ChanNo} {m : SlotNo} {mode : ChMode}
    (h : s.checkBin c m mode = none) : s.ch[c].mode = mode ∧ s.slot[m].table.kind = 1 := by
  unfold State.checkBin at h
  split_ifs at h with hm hk
  exact ⟨not_not.1 hm, not_not.1 hk⟩

theorem State.checkSym_eq_none {s : State} {c : ChanNo} {m : SlotNo} {mode : ChMode}
    (h : s.checkSym c m mode = none) : s.ch[c].mode = mode ∧ s.slot[m].table.kind = 2 := by
  unfold State.checkSym at h
  split_ifs at h with hm hk
  exact ⟨not_not.1 hm, not_not.1 hk⟩

/-- The stream of an open channel is ready in every state of the invariant. -/
theorem State.Inv.stream_ready {s : State} (h : s.Inv) {c : ChanNo} (ho : s.ch[c].Open) :
    (s.stream c).Ready s.dmem.size := by
  obtain ⟨hbase, hptr, hlimit, hinterval⟩ := h.channels c
  exact ⟨⟨h.dmem, rfl, hbase, hptr, hlimit⟩, ho, hinterval ho⟩

/-- The coder of an open channel and a slot of some kind is ready in every state of the invariant. -/
theorem State.Inv.coder_ready {s : State} (h : s.Inv) {c : ChanNo} {m : SlotNo} {kind : Nat} (ho : s.ch[c].Open)
    (hk : s.slot[m].table.kind = kind) : (s.coder c m).Ready s.dmem.size kind s.slot[m].table.alphabet :=
  ⟨h.stream_ready ho, h.slots m, hk, rfl⟩

section
variable (s : State) (c : ChanNo) (m : SlotNo) (x : CtxSel)

theorem State.codeEinit_meets : (s.codeEinit c).Meets (StreamWork (.rcEinit c) s c) := by
  unfold State.codeEinit
  split
  · trivial
  · next hin =>
    refine ⟨rfl, fun _ => .inl rfl, by rintro _ _ ⟨⟩; simp [ResultsBelow], fun hs => ?_⟩
    exact (Stream.opened_ready hs.dmem hs.params.2.1 (not_not.1 hin) (.inl rfl)).sound

theorem State.codeDinit_meets : (s.codeDinit c).Meets (StreamWork (.rcDinit c) s c) := by
  unfold State.codeDinit
  split
  · trivial
  · next hin =>
    refine ⟨rfl, fun _ => .inr rfl, fun _ _ h => Coded.results_of_bind (g := fun _ t => t) (by simp [ResultsBelow]) h,
      fun hs => ?_⟩
    exact ((Stream.opened_ready hs.dmem hs.params.2.1 (not_not.1 hin) (.inr rfl)).shiftIn 4).bind fun _ _ ht => ht.sound

theorem State.codeEflush_meets : (s.codeEflush c).Meets (StreamWork (.rcEflush c) s c) := by
  unfold State.codeEflush
  split
  · trivial
  · next hmode =>
    have hmode : s.ch[c].mode = .enc := not_not.1 hmode
    refine ⟨rfl, fun he => (Channel.Open.ne_err (.inl hmode) he).elim, fun r t h => ?_, fun hs => ?_⟩
    · obtain ⟨_, _, -, hr⟩ := Coded.bind_ok h
      cases hr
      simp [ResultsBelow, resultCount]
    · have hready := hs.stream_ready (c := c) (.inl hmode)
      exact (hready.placed.flushOut hready.isOpen 4).bind fun _ _ ht => ht.sound (by simp)

theorem State.codeDfin_meets : (s.codeDfin c).Meets (StreamWork (.rcDfin c) s c) := by
  unfold State.codeDfin
  split
  · trivial
  · next hmode =>
    have hmode : s.ch[c].mode = .dec := not_not.1 hmode
    refine ⟨rfl, fun he => (Channel.Open.ne_err (.inr hmode) he).elim,
      by rintro _ _ ⟨⟩; simp [ResultsBelow, resultCount], fun hs => ?_⟩
    exact (hs.stream_ready (c := c) (.inr hmode)).placed.sound (by simp)

theorem State.codeEbit_meets (b : Bool) : (s.codeEbit c m x b).Meets (CoderWork (.rcEbit c m x b) s c m) := by
  unfold State.codeEbit
  split
  · trivial
  · next hcheck =>
    obtain ⟨hmode, hkind⟩ := State.checkBin_eq_none hcheck
    dsimp only
    split
    · trivial
    · next hctx =>
      exact .of_step (f := fun _ => []) rfl rfl (.inl hmode) (by simp [ResultsBelow]) fun hs =>
        (hs.coder_ready (.inl hmode) hkind).encBit (Nat.lt_of_not_le hctx) b

theorem State.codeDbit_meets : (s.codeDbit c m x).Meets (CoderWork (.rcDbit c m x) s c m) := by
  unfold State.codeDbit
  split
  · trivial
  · next hcheck =>
    obtain ⟨hmode, hkind⟩ := State.checkBin_eq_none hcheck
    dsimp only
    split
    · trivial
    · next hctx =>
      exact .of_step rfl rfl (.inr hmode) (by simp [ResultsBelow, resultCount]) fun hs =>
        (hs.coder_ready (.inr hmode) hkind).decBit (Nat.lt_of_not_le hctx)

theorem State.codeEsym_meets (j : Byte) : (s.codeEsym c m x j).Meets (CoderWork (.rcEsym c m x j) s c m) := by
  unfold State.codeEsym
  split
  · trivial
  · next hcheck =>
    obtain ⟨hmode, hkind⟩ := State.checkSym_eq_none hcheck
    dsimp only
    split_ifs with hctx hj
    · trivial
    · trivial
    · exact .of_step (f := fun _ => []) rfl rfl (.inl hmode) (by simp [ResultsBelow]) fun hs =>
        (hs.coder_ready (.inl hmode) hkind).encSym (Nat.lt_of_not_le hctx) (Nat.lt_of_not_le hj)

theorem State.codeDsym_meets : (s.codeDsym c m x).Meets (CoderWork (.rcDsym c m x) s c m) := by
  unfold State.codeDsym
  split
  · trivial
  · next hcheck =>
    obtain ⟨hmode, hkind⟩ := State.checkSym_eq_none hcheck
    dsimp only
    split
    · trivial
    · next hctx =>
      exact .of_step rfl rfl (.inr hmode) (by simp [ResultsBelow, resultCount]) fun hs =>
        (hs.coder_ready (.inr hmode) hkind).decSym (Nat.lt_of_not_le hctx)

theorem State.codeEgamma_meets : (s.codeEgamma c m).Meets (CoderWork (.rcEgamma c m) s c m) := by
  unfold State.codeEgamma
  split
  · trivial
  · next hcheck =>
    obtain ⟨hmode, hkind⟩ := State.checkBin_eq_none hcheck
    split
    · trivial
    · exact .of_step (f := fun _ => []) rfl rfl (.inl hmode) (by simp [ResultsBelow]) fun hs =>
        (hs.coder_ready (.inl hmode) hkind).encBits _

theorem State.codeDgamma_meets : (s.codeDgamma c m).Meets (CoderWork (.rcDgamma c m) s c m) := by
  unfold State.codeDgamma
  split
  · trivial
  · next hcheck =>
    obtain ⟨hmode, hkind⟩ := State.checkBin_eq_none hcheck
    exact .of_step rfl rfl (.inr hmode) (by simp [ResultsBelow, resultCount]) fun hs =>
      (hs.coder_ready (.inr hmode) hkind).decGamma

theorem State.codeEstream_meets : (s.codeEstream c m).Meets (CoderWork (.rcEstream c m) s c m) := by
  unfold State.codeEstream
  split
  · trivial
  · next hcheck =>
    obtain ⟨hmode, hkind⟩ := State.checkSym_eq_none hcheck
    dsimp only
    split
    · trivial
    · split
      · trivial
      · next hbyte =>
        exact .of_step (f := fun _ => []) rfl rfl (.inl hmode) (by simp [ResultsBelow]) fun hs =>
          (hs.coder_ready (.inl hmode) hkind).encSyms _ (by simpa using hbyte)

theorem State.codeDstream_meets : (s.codeDstream c m).Meets (CoderWork (.rcDstream c m) s c m) := by
  unfold State.codeDstream
  split
  · trivial
  · next hcheck =>
    obtain ⟨hmode, hkind⟩ := State.checkSym_eq_none hcheck
    split
    · trivial
    · exact .of_step (f := fun _ => []) rfl rfl (.inr hmode) (by simp [ResultsBelow]) fun hs =>
        (hs.coder_ready (.inr hmode) hkind).decSyms _ _

end

/-! ### Every command -/

/-- Every way the command `i` can end in the state `s`, with what is known of the parts it changed. Where the invariant
is a premise, that part is known from a state of the invariant only. -/
inductive ExecEnd (i : Instr) (s : State) : Host.Outcome State Fault Refusal → Prop
  /-- A failed check (R146). -/
  | failed (e : Cause) : ExecEnd i s (.next (s.raise e))
  /-- Completion with nothing changed but results. -/
  | completed (r : List Result) (hr : ResultsBelow (resultCount i) r) : ExecEnd i s (.next (s.complete r))
  /-- A bulk command's plan carried out. -/
  | plan (q : Plan) (hq : q.Legal s (resultCount i)) : ExecEnd i s (.next ((s.applyPlan q).complete q.results))
  /-- A model command's change of its slot. -/
  | slot (m : SlotNo) (u : Slot) (hm : slotOf i = some m) (hu : s.slot[m].ok = true → u.ok = true) :
      ExecEnd i s (.next ((s.setSlot m u).complete []))
  | stream (c : ChanNo) (t : Stream) (r : List Result) (hc : channelOf i = some c)
      (he : s.ch[c].mode = .err → i = .rcEinit c ∨ i = .rcDinit c) (hr : ResultsBelow (resultCount i) r)
      (ht : s.Inv → t.Sound s.dmem.size) : ExecEnd i s (.next ((s.putStream c t).complete r))
  /-- A channel error over the progress `t` (R150). -/
  | streamError (c : ChanNo) (t : Stream) (e : Cause) (hc : channelOf i = some c)
      (he : s.ch[c].mode = .err → i = .rcEinit c ∨ i = .rcDinit c) (ht : s.Inv → t.Placed s.dmem.size) :
      ExecEnd i s (.next ((s.putStream c t).raiseChannel c e))
  | coder (c : ChanNo) (m : SlotNo) (k : Coder) (r : List Result) (hc : channelOf i = some c) (hm : slotOf i = some m)
      (he : s.ch[c].mode ≠ .err) (hr : ResultsBelow (resultCount i) r)
      (hk : s.Inv → k.str.Sound s.dmem.size ∧ k.slot.ok = true) :
      ExecEnd i s (.next ((s.putCoder c m k).complete r))
  /-- A channel error over the progress `k` (R150). -/
  | coderError (c : ChanNo) (m : SlotNo) (k : Coder) (e : Cause) (hc : channelOf i = some c) (hm : slotOf i = some m)
      (he : s.ch[c].mode ≠ .err) (hk : s.Inv → k.Placed s.dmem.size) :
      ExecEnd i s (.next ((s.putCoder c m k).raiseChannel c e))
  /-- A stop of the model, in a state outside the invariant (log 13). -/
  | stopped (f : Fault) (hs : ¬ s.Inv) : ExecEnd i s (.fault f)

section
variable {i : Instr} {s : State}

theorem ExecEnd.of_plan {p : Except Cause Plan} (h : ∀ q, p = .ok q → q.Legal s (resultCount i)) :
    ExecEnd i s (s.finishPlan p) :=
  match p, h with
  | .error e, _ => .failed e
  | .ok q, h => .plan q (h q rfl)

theorem ExecEnd.of_stream {c : ChanNo} {b : Body Stream} (h : b.Meets (StreamWork i s c)) :
    ExecEnd i s (s.finishBody c (s.putStream c) b) :=
  match b, h with
  | .failed e, _ => .failed e
  | .ran (.ok r t), h => .stream c t r h.chan h.err (h.results r t rfl) h.ends
  | .ran (.raised e t), h => .streamError c t e h.chan h.err h.ends
  | .ran (.fault f), h => .stopped f h.ends

theorem ExecEnd.of_coder {c : ChanNo} {m : SlotNo} {b : Body Coder} (h : b.Meets (CoderWork i s c m)) :
    ExecEnd i s (s.finishBody c (s.putCoder c m) b) :=
  match b, h with
  | .failed e, _ => .failed e
  | .ran (.ok r k), h => .coder c m k r h.chan h.slot h.err (h.results r k rfl) h.ends
  | .ran (.raised e k), h => .coderError c m k e h.chan h.slot h.err h.ends
  | .ran (.fault f), h => .stopped f h.ends

end

theorem execMdlCfg_end (m : SlotNo) (val kind : Byte) (s : State) :
    ExecEnd (.mdlCfg m val kind) s (execMdlCfg m val kind s) := by
  unfold execMdlCfg
  split
  · exact .failed _
  · next hlegal =>
    refine .slot m _ rfl fun _ => ?_
    have hval := val.isLt
    simp only [cfgLegal, not_not] at hlegal
    split at hlegal
    · next hk => simp [hk]
    · next hk => simpa only [hk] using initialBin_fits.ok
    · next hk =>
      simp only [decide_eq_true_eq] at hlegal
      simpa only [hk] using (initialSym_fits (by omega) (by omega)).ok
    · simp at hlegal

theorem execMdlReset_end (m : SlotNo) (s : State) : ExecEnd (.mdlReset m) s (execMdlReset m s) := by
  unfold execMdlReset
  split
  · exact .failed _
  · exact .slot m _ rfl Slot.ok_initial

theorem execMdlSetctx_end (m : SlotNo) (k : Byte) (s : State) :
    ExecEnd (.mdlSetctx m k) s (execMdlSetctx m k s) := by
  unfold execMdlSetctx
  split_ifs with _ hk
  · exact .failed _
  · exact .failed _
  · exact .slot m _ rfl fun hok => Slot.ok_setLast hok (Nat.lt_of_not_le hk)

/-- A `SYM` slot that meets its checks has the entry `MDL_PEEK` asks for. -/
theorem Slot.exists_interval {m : Slot} {rows : List SymRow} (h : m.ok = true) (ht : m.table = .sym rows) {c j : Nat}
    (hc : c < rows.length) (hj : j < rows.length) :
    ∃ iv, ((m.table.row c).bind fun r => r.interval j) = some iv := by
  have hfits : m.Fits 2 rows.length := ⟨h, by rw [ht]; rfl, by rw [ht]; rfl⟩
  obtain ⟨r, hr, hok⟩ := hfits.row hc
  obtain ⟨iv, hiv, -⟩ := hok.interval hj
  exact ⟨iv, by rw [hr, Option.bind_some, hiv]⟩

theorem execMdlPeek_end (m : SlotNo) (s : State) : ExecEnd (.mdlPeek m) s (execMdlPeek m s) := by
  unfold execMdlPeek
  dsimp only
  split
  · exact .failed _
  · split
    · exact .failed _
    · exact .completed _ (by simp [ResultsBelow, resultCount])
  · next rows ht =>
    split_ifs with hc hj
    · exact .failed _
    · exact .failed _
    · split
      · next hnone =>
        refine .stopped _ fun hs => ?_
        obtain ⟨iv, hiv⟩ := Slot.exists_interval (hs.slots m) ht (Nat.lt_of_not_le hc) (Nat.lt_of_not_le hj)
        rw [hnone] at hiv
        cases hiv
      · exact .completed _ (by simp [ResultsBelow, resultCount])

/-- Every command ends in one of the ways of `ExecEnd`. -/
theorem exec_end (i : Instr) (s : State) : ExecEnd i s (exec i s) := by
  cases i with
  | nop => exact .completed [] (by simp [ResultsBelow])
  | bwtFwd => exact .of_plan fun _ => State.planBwtFwd_legal
  | bwtInv => exact .of_plan fun _ => State.planBwtInv_legal
  | mtfEnc => exact .of_plan fun _ => State.planMtfEnc_legal
  | mtfDec => exact .of_plan fun _ => State.planMtfDec_legal
  | zrlSplit => exact .of_plan fun _ => State.planZrlSplit_legal
  | zrlJoin => exact .of_plan fun _ => State.planZrlJoin_legal
  | tierCls => exact .of_plan fun _ => State.planTierCls_legal
  | tierUncls => exact .of_plan fun _ => State.planTierUncls_legal
  | tierSplit => exact .of_plan fun _ => State.planTierSplit_legal
  | tierCount => exact .of_plan fun _ => State.planTierCount_legal
  | tierJoin => exact .of_plan fun _ => State.planTierJoin_legal
  | mdlCfg m val kind => exact execMdlCfg_end m val kind s
  | mdlReset m => exact execMdlReset_end m s
  | mdlSetctx m k => exact execMdlSetctx_end m k s
  | mdlPeek m => exact execMdlPeek_end m s
  | rcEinit c => exact .of_stream (s.codeEinit_meets c)
  | rcDinit c => exact .of_stream (s.codeDinit_meets c)
  | rcEbit c m x b => exact .of_coder (s.codeEbit_meets c m x b)
  | rcDbit c m x => exact .of_coder (s.codeDbit_meets c m x)
  | rcEsym c m x j => exact .of_coder (s.codeEsym_meets c m x j)
  | rcDsym c m x => exact .of_coder (s.codeDsym_meets c m x)
  | rcEgamma c m => exact .of_coder (s.codeEgamma_meets c m)
  | rcDgamma c m => exact .of_coder (s.codeDgamma_meets c m)
  | rcEstream c m => exact .of_coder (s.codeEstream_meets c m)
  | rcDstream c m => exact .of_coder (s.codeDstream_meets c m)
  | rcEflush c => exact .of_stream (s.codeEflush_meets c)
  | rcDfin c => exact .of_stream (s.codeDfin_meets c)

end Sys2Proof.Machine
end

section
/-!
The invariant (O52, O53): one lemma for each operation of the state that a step is made of, then every command, every
port action, every step.
-/

namespace Sys2Proof.Machine

/-- A write to one entry of a register file leaves every other one. -/
theorem getElem_set_of_ne {α : Type} {n : Nat} (v : Vector α n) {i j : Fin n} (x : α) (h : j ≠ i) :
    (v.set i x i.isLt)[j] = v[j] :=
  Vector.getElem_set_ne _ _ fun he => h (Fin.ext he).symm

/-! ### Status -/

theorem State.StatusCoherent.complete {s : State} (h : s.StatusCoherent) (r : List Result) :
    (s.complete r).StatusCoherent := by
  obtain ⟨-, hcode, -, hclear, hinfo⟩ := h
  exact ⟨fun _ => rfl, hcode, nofun, hclear, hinfo⟩

theorem ErrCode.number_ne_zero (c : ErrCode) : c.number ≠ 0#8 := by cases c <;> decide

theorem Cause.sub_lt (e : Cause) : e.sub.toNat < 256 := by
  cases e with
  | illegal why => cases why <;> decide
  | _ => decide

/-- Error entry leaves a coherent status, whatever it was before (R150). -/
theorem State.statusCoherent_raise (s : State) (e : Cause) : (s.raise e).StatusCoherent :=
  ⟨fun _ => rfl, iff_of_true e.code.number_ne_zero rfl, nofun, nofun, e.sub_lt⟩

/-! ### The end of a command -/

section
variable {s : State}

/-- Completion keeps the invariant: it changes only results and status (R149). -/
theorem State.Inv.complete (h : s.Inv) (r : List Result) : (s.complete r).Inv :=
  { h with status := State.StatusCoherent.complete h.status r }

/-- Error entry keeps the invariant: it changes only the status and the registers that hold the error (R150). -/
theorem State.Inv.raise (h : s.Inv) (e : Cause) : (s.raise e).Inv :=
  { h with status := s.statusCoherent_raise e }

theorem State.Inv.applyPlan (h : s.Inv) {n : Nat} {q : Plan} (hq : q.Legal s n) : (s.applyPlan q).Inv where
  params := by simpa [State.ParamsLegal] using h.params
  dmem := wf_writeRanges _ h.dmem
  status := h.status
  channels := by simpa using h.channels
  slots := h.slots
  mtf := by
    cases hm : q.mtf with
    | none => simpa [hm] using h.mtf
    | some l => simpa [hm] using hq.mtf l hm
  scratch := by
    cases hw : q.scratch with
    | none => simpa [hw] using h.scratch
    | some ws => simpa [hw] using Scratch.store_length_le h.scratch (hq.scratch ws hw)

theorem State.Inv.setSlot (h : s.Inv) (m : SlotNo) {u : Slot} (hu : u.ok = true) : (s.setSlot m u).Inv :=
  { h with
    slots := fun d => by
      by_cases hd : d = m
      · subst hd; simpa using hu
      · rw [State.setSlot_slot, getElem_set_of_ne _ _ hd]
        exact h.slots d }

theorem State.Inv.putStream (h : s.Inv) (c : ChanNo) {t : Stream} (ht : t.Sound s.dmem.size) :
    (s.putStream c t).Inv where
  params := by simpa [State.ParamsLegal, ht.placed.size_eq] using h.params
  dmem := ht.placed.wf
  status := h.status
  channels d := by
    rw [State.putStream_dmem, ht.placed.size_eq, State.putStream_ch]
    by_cases hd : d = c
    · subst hd
      simpa using (⟨ht.placed.base_le, ht.placed.ptr_le, ht.placed.limit_le, ht.interval⟩ : t.ch.Ok s.dmem.size)
    · rw [getElem_set_of_ne _ _ hd]
      exact h.channels d
  slots := h.slots
  mtf := h.mtf
  scratch := h.scratch

theorem State.Inv.putCoder (h : s.Inv) (c : ChanNo) (m : SlotNo) {k : Coder} (hk : k.str.Sound s.dmem.size)
    (hslot : k.slot.ok = true) : (s.putCoder c m k).Inv :=
  (h.putStream c hk).setSlot m hslot

/-- A channel error over the progress `t` is error entry with that progress and the mode `ERR` put in place. -/
theorem State.putStream_raiseChannel (s : State) (c : ChanNo) (t : Stream) (e : Cause) :
    (s.putStream c t).raiseChannel c e = (s.putStream c { t with ch := { t.ch with mode := .err } }).raise e := by
  simp [State.raiseChannel, State.putStream, State.setChan]

theorem State.putCoder_raiseChannel (s : State) (c : ChanNo) (m : SlotNo) (k : Coder) (e : Cause) :
    (s.putCoder c m k).raiseChannel c e
      = (s.putCoder c m { k with str := { k.str with ch := { k.str.ch with mode := .err } } }).raise e := by
  simp [State.raiseChannel, State.putCoder, State.putStream, State.setChan, State.setSlot]

/-- A channel error keeps the invariant wherever the progress left the window in DMEM (R150). -/
theorem State.Inv.putStream_raiseChannel (h : s.Inv) (c : ChanNo) {t : Stream} (ht : t.Placed s.dmem.size) (e : Cause) :
    ((s.putStream c t).raiseChannel c e).Inv := by
  rw [State.putStream_raiseChannel]
  exact (h.putStream c (ht.sound (by simp))).raise e

theorem State.Inv.putCoder_raiseChannel (h : s.Inv) (c : ChanNo) (m : SlotNo) {k : Coder} (hk : k.Placed s.dmem.size)
    (e : Cause) : ((s.putCoder c m k).raiseChannel c e).Inv := by
  rw [State.putCoder_raiseChannel]
  refine State.Inv.raise ?_ e
  exact h.putCoder c m (hk.str.sound (by simp)) hk.slot

/-- Every end of a command keeps the invariant, and none is a stop of the model. -/
theorem ExecEnd.inv {i : Instr} {o : Host.Outcome State Fault Refusal} (he : ExecEnd i s o) (h : s.Inv) :
    ∃ t, o = .next t ∧ t.Inv := by
  cases he with
  | failed e => exact ⟨_, rfl, h.raise e⟩
  | completed r hr => exact ⟨_, rfl, h.complete r⟩
  | plan q hq => exact ⟨_, rfl, (h.applyPlan hq).complete _⟩
  | slot m u hm hu => exact ⟨_, rfl, (h.setSlot m (hu (h.slots m))).complete _⟩
  | stream c t r hc herr hr ht => exact ⟨_, rfl, (h.putStream c (ht h)).complete r⟩
  | streamError c t e hc herr ht =>
    exact ⟨_, rfl, h.putStream_raiseChannel c (ht h) e⟩
  | coder c m k r hc hm herr hr hk => exact ⟨_, rfl, (h.putCoder c m (hk h).1 (hk h).2).complete r⟩
  | coderError c m k e hc hm herr hk =>
    exact ⟨_, rfl, h.putCoder_raiseChannel c m (hk h) e⟩
  | stopped f hs => exact (hs h).elim

/-- The engine's step keeps the invariant, for a word that is no command too (R147). -/
theorem State.Inv.engineStep (h : s.Inv) : ∃ t, engineStep s = .next t ∧ t.Inv := by
  unfold Machine.engineStep
  split
  · exact ⟨_, rfl, h.raise _⟩
  · next i _ => exact (exec_end i s).inv h

/-! ### The port -/

theorem State.Inv.accept (h : s.Inv) (herr : s.status.err = false) (w : Word) : (s.accept w).Inv := by
  obtain ⟨-, hcode, -, hclear, hinfo⟩ := h.status
  exact { h with status := ⟨by simp [herr], hcode, fun _ => rfl, hclear, hinfo⟩ }

theorem State.Inv.reject (h : s.Inv) : s.reject.Inv :=
  { h with status := h.status }

theorem State.Inv.errClear (h : s.Inv) : s.errClear.Inv := by
  obtain ⟨-, -, hdone, -, -⟩ := h.status
  exact { h with status := ⟨nofun, by simp, hdone, fun _ => ⟨rfl, rfl⟩, by simp⟩ }

theorem State.Inv.doneClear (h : s.Inv) : s.doneClear.Inv := by
  obtain ⟨hbusy, hcode, -, hclear, hinfo⟩ := h.status
  exact { h with status := ⟨hbusy, hcode, fun _ => rfl, hclear, hinfo⟩ }

/-- Another DMEM of the same size in canonical form keeps the invariant. -/
theorem State.Inv.setDmem (h : s.Inv) {m : Dmem} (hwf : m.wf = true) (hsize : m.size = s.dmem.size) :
    State.Inv { s with dmem := m } where
  params := by simpa [State.ParamsLegal, hsize] using h.params
  dmem := hwf
  status := h.status
  channels := by simpa [hsize] using h.channels
  slots := h.slots
  mtf := h.mtf
  scratch := h.scratch

theorem channel_reset_ok (size : Nat) : Channel.reset.Ok size := by
  simp [Channel.reset, Channel.Ok, Channel.Open]

/-- Registers at their reset values meet the invariant beside any legal parameters and any canonical DMEM (R44). -/
theorem State.inv_resetRegisters (hparams : s.ParamsLegal) (hdmem : s.dmem.wf = true) : s.resetRegisters.Inv where
  params := hparams
  dmem := hdmem
  status := by simp [State.StatusCoherent, Status.reset]
  channels c := by simpa using channel_reset_ok s.dmem.size
  slots m := by simp [Slot.reset]
  mtf := ⟨identityTable_length, identityTable_nodup⟩
  scratch := Nat.zero_le _

theorem State.Inv.resetRegisters (h : s.Inv) : s.resetRegisters.Inv := State.inv_resetRegisters h.params h.dmem

/-- An aborted command leaves DMEM in canonical form, with its size (R162). -/
theorem State.abortedDmem_wf (h : s.dmem.wf = true) : s.abortedDmem.wf = true ∧ s.abortedDmem.size = s.dmem.size := by
  unfold State.abortedDmem
  split
  · split
    · exact ⟨Dmem.wf_blurRanges _ _ h, Dmem.blurRanges_size ..⟩
    · exact ⟨h, rfl⟩
  · exact ⟨h, rfl⟩

theorem State.Inv.softReset (h : s.Inv) : s.softReset.Inv := by
  obtain ⟨hwf, hsize⟩ := State.abortedDmem_wf h.dmem
  exact { h.resetRegisters.setDmem hwf hsize with }

theorem State.Inv.hardReset (h : s.Inv) : s.hardReset.Inv :=
  { h.resetRegisters.setDmem (m := { s.dmem with fill := s.draws, cells := [] }) rfl rfl with }

theorem State.Inv.writeCtrl (h : s.Inv) (v : Word) : (s.writeCtrl v).Inv := by
  have herr : (if v.getLsbD 1 then s.errClear else s).Inv := by split; exacts [h.errClear, h]
  unfold State.writeCtrl
  split
  · exact h.softReset
  · dsimp only
    split
    · exact { herr.doneClear with }
    · exact { herr with }

theorem State.Inv.writeRegister (h : s.Inv) (off : Nat) (v : Word) : (s.writeRegister off v).Inv := by
  rcases s.writeRegister_cases off v with hw | hw | ⟨i, hw⟩ | hw <;> rw [hw]
  · exact h.writeCtrl v
  · rcases s.writeCmd_cases v with ⟨-, herr, hw⟩ | ⟨-, hw⟩ <;> rw [hw]
    · exact h.accept herr v
    · exact h.reject
  · rcases s.writeArg_cases i v with ⟨-, hw⟩ | ⟨-, hw⟩ <;> rw [hw]
    · exact { h with }
    · exact h.reject
  · exact h

theorem State.Inv.writeAperture (h : s.Inv) (a width : Nat) (v : Word) : (s.writeAperture a width v).Inv := by
  unfold State.writeAperture
  split
  · exact h.reject
  · exact h.setDmem (Dmem.wf_writeBytes _ _ h.dmem) (Dmem.writeBytes_size ..)

theorem State.Inv.hostWrite (h : s.Inv) (addr width : Nat) (v : Word) : (s.hostWrite addr width v).Inv := by
  unfold State.hostWrite
  split
  · exact { h with }
  · exact { h with }
  · next off _ => exact { h.writeRegister off v with }
  · next a _ => exact { h.writeAperture a width v with }

theorem State.Inv.hostRead (h : s.Inv) (addr width : Nat) : (s.hostRead addr width).Inv := by
  obtain ⟨r, n, hr, -⟩ := s.hostRead_cases addr width
  rw [hr]
  exact { h with }

theorem State.Inv.portAction (h : s.Inv) (a : PortAction) : (s.portAction a).Inv := by
  match a with
  | .rst true => exact h.hardReset
  | .rst false => exact { h with }
  | .read addr width =>
    simp only [State.portAction]
    split
    · exact { h with }
    · exact h.hostRead addr width
  | .write addr width v =>
    simp only [State.portAction]
    split
    · exact { h with }
    · exact h.hostWrite addr width v

end

/-! ### The two statements -/

/-- Settles O52: the reset state is `State.resetRegisters` of itself, up to the scratch store's free value. -/
theorem resetMeetsTheInvariant : Obligations.ResetMeetsTheInvariant := by
  have hparams : State.reset.ParamsLegal := by
    simp [State.ParamsLegal, State.reset, Config.refMemSize, Config.refParams]
  exact { State.inv_resetRegisters (s := State.reset) hparams rfl with }

/-- Settles O53: a step is the engine's, the port's, or none, and each keeps the invariant. -/
theorem everyStepKeepsTheInvariant : Obligations.EveryStepKeepsTheInvariant := by
  intro s h
  rcases step_cases s with ⟨-, hstep⟩ | ⟨e, rest, -, hstep⟩ | ⟨-, -, hstep⟩
  · exact hstep ▸ h.engineStep
  · have hrest : State.Inv { s with port := rest } := { h with }
    exact ⟨_, hstep, hrest.portAction e.action⟩
  · exact ⟨s, hstep, h⟩

end Sys2Proof.Machine
end

section
/-!
The statements about every command (O47, O50), by the ends of `ExecEnd`.
-/

namespace Sys2Proof.Machine

/-- Registers at and past the given number keep their value under results below it (R28). -/
theorem getElem_writeResults_of_le {n : Nat} {r : List Result} (hr : ResultsBelow n r) (res : Vector Word 8) (k : Fin 8)
    (hk : n ≤ k.val) : (writeResults res r)[k] = res[k] := by
  induction r generalizing res with
  | nil => rfl
  | cons p r ih =>
    obtain ⟨i, v⟩ := p
    obtain ⟨hi, hr⟩ := List.forall_mem_cons.1 hr
    have hne : k ≠ i := fun h => absurd hi (by subst h; exact Nat.not_lt.2 hk)
    rw [writeResults, ih hr, getElem_set_of_ne _ _ hne]

section
variable {s u : State}

/-- A state in which a command's work changed neither status nor results nor anything of the host's, as every end of
`ExecEnd` finds it. -/
structure State.SameRegisters (s u : State) : Prop where
  status : u.status = s.status
  errinfo : u.errinfo = s.errinfo
  errcmd : u.errcmd = s.errcmd
  res : u.res = s.res
  host : s.SameHostSide u

theorem State.SameRegisters.refl (s : State) : s.SameRegisters s :=
  ⟨rfl, rfl, rfl, rfl, rfl, rfl, rfl, rfl, rfl, rfl, rfl, rfl⟩

theorem State.sameRegisters_applyPlan (s : State) (q : Plan) : s.SameRegisters (s.applyPlan q) :=
  ⟨rfl, rfl, rfl, rfl, rfl, rfl, rfl, rfl, rfl, rfl, rfl, rfl⟩

theorem State.sameRegisters_setSlot (s : State) (m : SlotNo) (v : Slot) : s.SameRegisters (s.setSlot m v) :=
  ⟨rfl, rfl, rfl, rfl, rfl, rfl, rfl, rfl, rfl, rfl, rfl, rfl⟩

theorem State.sameRegisters_putStream (s : State) (c : ChanNo) (t : Stream) : s.SameRegisters (s.putStream c t) :=
  ⟨rfl, rfl, rfl, rfl, rfl, rfl, rfl, rfl, rfl, rfl, rfl, rfl⟩

theorem State.sameRegisters_putCoder (s : State) (c : ChanNo) (m : SlotNo) (k : Coder) :
    s.SameRegisters (s.putCoder c m k) :=
  ⟨rfl, rfl, rfl, rfl, rfl, rfl, rfl, rfl, rfl, rfl, rfl, rfl⟩

/-- A command ends whole: it succeeds with at most its first `n` results, or fails (R149, R150). -/
def State.EndsWhole (s t : State) (n : Nat) : Prop :=
  (s.Succeeded t ∧ ∀ k : Fin 8, n ≤ k.val → t.res[k] = s.res[k]) ∨ ∃ e, s.Failed t e

theorem State.SameRegisters.complete (h : s.SameRegisters u) {n : Nat} {r : List Result} (hr : ResultsBelow n r) :
    s.EndsWhole (u.complete r) n := by
  obtain ⟨hstatus, hinfo, hcmd, hres, hhost⟩ := h
  refine .inl ⟨⟨?_, hinfo, hcmd, hhost⟩, fun k hk => ?_⟩
  · simp only [State.complete, hstatus]
  · exact hres ▸ getElem_writeResults_of_le hr u.res k hk

theorem State.SameRegisters.raise (h : s.SameRegisters u) (n : Nat) (e : Cause) : s.EndsWhole (u.raise e) n := by
  obtain ⟨hstatus, -, -, hres, hhost⟩ := h
  obtain ⟨-, -, hcmd, -⟩ := id hhost
  refine .inr ⟨e, ?_, rfl, hcmd, hres, hhost⟩
  simp only [State.raise, hstatus]

/-- A channel error differs from error entry in a channel's mode only. -/
theorem State.SameRegisters.raiseChannel (h : s.SameRegisters u) (n : Nat) (c : ChanNo) (e : Cause) :
    s.EndsWhole (u.raiseChannel c e) n :=
  State.SameRegisters.raise ⟨h.status, h.errinfo, h.errcmd, h.res, h.host⟩ n e

theorem ExecEnd.endsWhole {i : Instr} {t : State} (h : ExecEnd i s (.next t)) : s.EndsWhole t (resultCount i) := by
  cases h with
  | failed e => exact (State.SameRegisters.refl s).raise _ e
  | completed r hr => exact (State.SameRegisters.refl s).complete hr
  | plan q hq => exact (s.sameRegisters_applyPlan q).complete hq.results
  | slot m u hm hu => exact (s.sameRegisters_setSlot m u).complete (by simp [ResultsBelow])
  | stream c t r hc he hr ht => exact (s.sameRegisters_putStream c t).complete hr
  | streamError c t e hc he ht => exact (s.sameRegisters_putStream c t).raiseChannel _ c e
  | coder c m k r hc hm he hr hk => exact (s.sameRegisters_putCoder c m k).complete hr
  | coderError c m k e hc hm he hk => exact (s.sameRegisters_putCoder c m k).raiseChannel _ c e

/-! ### Channels and slots -/

/-- What `ChannelsAndSlotsAreIndependent` says of a command `i` that leads from `s` to `t` (R140, R150). -/
structure State.KeepsUnnamed (i : Instr) (s t : State) : Prop where
  channels : ∀ c : ChanNo, channelOf i ≠ some c → t.ch[c] = s.ch[c]
  slots : ∀ m : SlotNo, slotOf i ≠ some m → t.slot[m] = s.slot[m]
  err : ∀ c : ChanNo, s.ch[c].mode = .err → i ≠ .rcEinit c → i ≠ .rcDinit c → t.ch[c] = s.ch[c]

theorem State.keepsUnnamed_of_eq {i : Instr} {t : State} (hch : t.ch = s.ch) (hslot : t.slot = s.slot) :
    State.KeepsUnnamed i s t :=
  ⟨fun _ _ => by rw [hch], fun _ _ => by rw [hslot], fun _ _ _ _ => by rw [hch]⟩

/-- A command that names channel `c`, and was let work on it in mode `ERR` only to open it, may change it. -/
theorem State.keepsUnnamed_of_only {i : Instr} {t : State} {c : ChanNo} (hc : channelOf i = some c)
    (he : s.ch[c].mode = .err → i = .rcEinit c ∨ i = .rcDinit c) (hch : s.SameOtherChannels t c)
    (hslot : ∀ m : SlotNo, slotOf i ≠ some m → t.slot[m] = s.slot[m]) : State.KeepsUnnamed i s t where
  channels d hd := hch d fun h => hd (h ▸ hc)
  slots := hslot
  err d hmode hi hi' := hch d fun h => by
    subst h
    exact (he hmode).elim hi hi'

theorem State.sameOtherChannels_putStream (s : State) (c : ChanNo) (t : Stream) :
    s.SameOtherChannels (s.putStream c t) c := fun _ hd => getElem_set_of_ne _ _ hd

theorem State.SameOtherChannels.raiseChannel {c : ChanNo} (h : s.SameOtherChannels u c) (e : Cause) :
    s.SameOtherChannels (u.raiseChannel c e) c := fun d hd => by
  rw [← h d hd]
  exact getElem_set_of_ne _ _ hd

theorem ExecEnd.keepsUnnamed {i : Instr} {t : State} (h : ExecEnd i s (.next t)) : State.KeepsUnnamed i s t := by
  cases h with
  | failed e => exact State.keepsUnnamed_of_eq rfl rfl
  | completed r hr => exact State.keepsUnnamed_of_eq rfl rfl
  | plan q hq => exact State.keepsUnnamed_of_eq rfl rfl
  | slot m u hm hu =>
    exact ⟨fun _ _ => rfl, fun d hd => getElem_set_of_ne _ _ fun h => hd (h ▸ hm), fun _ _ _ _ => rfl⟩
  | stream c t r hc he hr ht =>
    exact State.keepsUnnamed_of_only hc he (s.sameOtherChannels_putStream c t) fun _ _ => rfl
  | streamError c t e hc he ht =>
    exact State.keepsUnnamed_of_only hc he (State.SameOtherChannels.raiseChannel (s.sameOtherChannels_putStream c t) e)
      fun _ _ => rfl
  | coder c m k r hc hm he hr hk =>
    exact State.keepsUnnamed_of_only hc (fun h => (he h).elim) (s.sameOtherChannels_putStream c k.str)
      fun d hd => getElem_set_of_ne _ _ fun h => hd (h ▸ hm)
  | coderError c m k e hc hm he hk =>
    exact State.keepsUnnamed_of_only hc (fun h => (he h).elim)
      (State.SameOtherChannels.raiseChannel (s.sameOtherChannels_putStream c k.str) e)
      fun d hd => getElem_set_of_ne _ _ fun h => hd (h ▸ hm)

end

/-- Settles O47: each end of `ExecEnd` is completion or error entry over work that kept every register. -/
theorem everyCommandSucceedsOrFailsWhole : Obligations.EveryCommandSucceedsOrFailsWhole :=
  fun i s _ h => ExecEnd.endsWhole (h ▸ exec_end i s)

/-- Settles O50: each end of `ExecEnd` puts back at most the channel and the slot the command names, and a channel in
`ERR` fails the mode check of every command but the two that open it. -/
theorem channelsAndSlotsAreIndependent : Obligations.ChannelsAndSlotsAreIndependent := by
  intro i s t h
  obtain ⟨hch, hslot, herr⟩ := ExecEnd.keepsUnnamed (h ▸ exec_end i s)
  exact ⟨hch, hslot, herr⟩

end Sys2Proof.Machine
end

section
/-!
The host port (O54, O55, O56, O58): what an access to a register or to the aperture reaches, said once, then the
statements about the port's writes, its reads and the two resets.
-/

namespace Sys2Proof.Machine

/-! ### What an access reaches -/

section
variable (s : State)

theorem State.target_register {off : Nat} (h : off < 0x400) (h4 : off % 4 = 0) :
    s.target (s.params.hostBase + off) 4 = .register off := by
  have hin : ¬ (s.params.hostBase + off < s.params.hostBase
      ∨ s.params.hostBase + regionSize ≤ s.params.hostBase + off) := by
    simp only [regionSize]; omega
  simp only [State.target, if_neg hin, Nat.add_sub_cancel_left, if_pos h, h4, and_self, if_true]

theorem State.target_aperture {off width : Nat} (h : PortTakes s.dmem.size off width) (hoff : 0x100000 ≤ off)
    (hsize : s.dmem.size ≤ 2 ^ 20) : s.target (s.params.hostBase + off) width = .dmem (off - 0x100000) := by
  obtain ⟨hlt, -⟩ | ⟨-, hend, hwidth⟩ := h
  · omega
  · have hin : ¬ (s.params.hostBase + off < s.params.hostBase
        ∨ s.params.hostBase + regionSize ≤ s.params.hostBase + off) := by
      simp only [regionSize]; omega
    have hal : apertureAligned off width = true := by simpa [apertureAligned, or_assoc] using hwidth
    simp only [State.target, if_neg hin, Nat.add_sub_cancel_left, apertureBase]
    rw [if_neg (by omega), if_pos ⟨hoff, hend, hal⟩]

variable {s}

theorem State.portAction_write_register (hrst : s.rst = false) {off : Nat} (h : off < 0x400) (h4 : off % 4 = 0)
    (w : Word) :
    s.portAction (.write (s.params.hostBase + off) 4 w) = { s.writeRegister off w with response := .ack } := by
  simp only [State.portAction, hrst, Bool.false_eq_true, if_false, State.hostWrite, s.target_register h h4]

theorem State.portAction_write_aperture (hrst : s.rst = false) {off width : Nat}
    (h : PortTakes s.dmem.size off width) (hoff : 0x100000 ≤ off) (hsize : s.dmem.size ≤ 2 ^ 20) (w : Word) :
    s.portAction (.write (s.params.hostBase + off) width w)
      = { s.writeAperture (off - 0x100000) width w with response := .ack } := by
  simp only [State.portAction, hrst, Bool.false_eq_true, if_false, State.hostWrite, s.target_aperture h hoff hsize]

/-- A register read returns the register, but for a view while a command runs (R65). -/
theorem State.portAction_read_register (hrst : s.rst = false) {off : Nat} (h : off < 0x400) (h4 : off % 4 = 0)
    (hview : s.status.busy = false ∨ isView off = false) :
    (s.portAction (.read (s.params.hostBase + off) 4)).response = .data (s.readRegister off) := by
  have hfree : (s.status.busy && isView off) = false := Bool.and_eq_false_iff.2 hview
  simp only [State.portAction, hrst, Bool.false_eq_true, if_false, State.hostRead, s.target_register h h4, hfree]

/-! ### Writes -/

theorem State.writeRegister_arg (i : Fin 8) (w : Word) : s.writeRegister (0x020 + 4 * i.val) w = s.writeArg i w := by
  have hi := i.isLt
  have hidx : Fin.ofNat 8 ((0x020 + 4 * i.val - 0x020) / 4) = i := Fin.ext (by simp)
  unfold State.writeRegister
  rw [if_neg (by omega), if_neg (by omega), if_pos (by omega), hidx]

theorem State.writeCmd_eq_accept (hbusy : s.status.busy = false) (herr : s.status.err = false) (w : Word) :
    s.writeCmd w = s.accept w := by
  simp [State.writeCmd, hbusy, herr]

theorem State.writeCmd_eq_reject (h : s.status.busy = true ∨ s.status.err = true) (w : Word) :
    s.writeCmd w = s.reject := by
  unfold State.writeCmd
  rw [if_pos (by simpa using h)]

theorem State.writeArg_of_idle (h : s.status.busy = false) (i : Fin 8) (w : Word) :
    s.writeArg i w = { s with arg := s.arg.set i w i.isLt } := by
  simp [State.writeArg, h]

theorem State.writeArg_of_busy (h : s.status.busy = true) (i : Fin 8) (w : Word) : s.writeArg i w = s.reject := by
  simp [State.writeArg, h]

theorem State.writeAperture_of_busy (h : s.status.busy = true) (a width : Nat) (w : Word) :
    s.writeAperture a width w = s.reject := by
  simp [State.writeAperture, h]

/-- `CTRL` without `SRST`: `ERRCLR`, then `DONECLR`, then `IE` (R22). -/
theorem State.writeCtrl_of_not_srst {w : Word} (h : w.getLsbD 3 = false) :
    s.writeCtrl w = { s with
      ie := w.getLsbD 0
      status :=
        { busy := s.status.busy
          done := s.status.done && !w.getLsbD 2
          err := s.status.err && !w.getLsbD 1
          rej := s.status.rej && !w.getLsbD 1
          errcode := if w.getLsbD 1 then 0#8 else s.status.errcode }
      errinfo := if w.getLsbD 1 then 0#32 else s.errinfo
      errcmd := if w.getLsbD 1 then 0#32 else s.errcmd } := by
  unfold State.writeCtrl
  rw [if_neg (Bool.not_eq_true _ ▸ h)]
  cases w.getLsbD 1 <;> cases w.getLsbD 2 <;> simp [State.errClear, State.doneClear]

/-- `CTRL` with `SRST` is the soft reset, whatever else it carries (R22). -/
theorem State.writeCtrl_of_srst {w : Word} (h : w.getLsbD 3 = true) : s.writeCtrl w = s.softReset := by
  unfold State.writeCtrl
  rw [if_pos h]

end

/-- Settles O54: each write reaches its register or the aperture, which accepts, stores or rejects it. -/
theorem writesAreAcceptedOrRejected : Obligations.WritesAreAcceptedOrRejected := by
  intro s w hrst write rejected
  have hcmd : write 0x00C = { s.writeCmd w with response := s.response } := by
    simp only [write, State.portAction_write_register hrst (off := 0x00C) (by decide) (by decide)]
    rfl
  have harg (i : Fin 8) : write (0x020 + 4 * i.val) = { s.writeArg i w with response := s.response } := by
    have hi := i.isLt
    simp only [write, State.portAction_write_register hrst (off := 0x020 + 4 * i.val) (by omega) (by omega),
      State.writeRegister_arg]
  refine ⟨fun hbusy herr => ?_, fun hstop => ?_, fun i hbusy => ?_, fun i hbusy => ?_,
    fun a width htakes hsize hbusy => ?_⟩
  · rw [hcmd, State.writeCmd_eq_accept hbusy herr]
    rfl
  · rw [hcmd, State.writeCmd_eq_reject hstop]
    rfl
  · rw [harg, State.writeArg_of_idle hbusy]
  · rw [harg, State.writeArg_of_busy hbusy]
    rfl
  · rw [Nat.add_assoc, State.portAction_write_aperture hrst htakes (Nat.le_add_right ..) hsize,
      State.writeAperture_of_busy hbusy]
    rfl

/-- Settles O55, by the exact state after a `CTRL` write without `SRST`. -/
theorem ctrlWriteActsInOrder : Obligations.CtrlWriteActsInOrder := by
  intro s w hrst hsrst
  rw [State.portAction_write_register hrst (off := 0x004) (by decide) (by decide)]
  have hctrl : s.writeRegister 0x004 w = s.writeCtrl w := rfl
  rw [hctrl, State.writeCtrl_of_not_srst hsrst]

/-! ### Resets -/

section
variable {s t : State}

/-- The engine's step leaves the reset input as it is. -/
theorem engineStep_rst (h : engineStep s = .next t) : t.rst = s.rst := by
  unfold engineStep at h
  split at h
  · cases h
    rfl
  · next i _ =>
    have hwhole : s.EndsWhole t (resultCount i) := ExecEnd.endsWhole (h ▸ exec_end i s)
    obtain ⟨⟨-, -, -, hhost⟩, -⟩ | ⟨e, -, -, -, -, hhost⟩ := hwhole
    · obtain ⟨-, -, -, -, hrst, -⟩ := hhost
      exact hrst
    · obtain ⟨-, -, -, -, hrst, -⟩ := hhost
      exact hrst

theorem State.atReset_softReset (s : State) : s.softReset.AtReset :=
  ⟨rfl, rfl, rfl, rfl, rfl, rfl, rfl, rfl⟩

theorem State.atReset_hardReset (s : State) : s.hardReset.AtReset :=
  ⟨rfl, rfl, rfl, rfl, rfl, rfl, rfl, rfl⟩

/-- No register write touches the reset input. -/
theorem State.writeRegister_rst (s : State) (off : Nat) (w : Word) : (s.writeRegister off w).rst = s.rst := by
  rcases s.writeRegister_cases off w with h | h | ⟨i, h⟩ | h <;> rw [h]
  · cases hsrst : w.getLsbD 3 with
    | true => rw [State.writeCtrl_of_srst hsrst, State.softReset_rst]
    | false => rw [State.writeCtrl_of_not_srst hsrst]
  · rcases s.writeCmd_cases w with ⟨-, -, h⟩ | ⟨-, h⟩ <;> rw [h] <;> rfl
  · rcases s.writeArg_cases i w with ⟨-, h⟩ | ⟨-, h⟩ <;> rw [h]
    rfl

theorem State.hostWrite_rst (s : State) (addr width : Nat) (w : Word) : (s.hostWrite addr width w).rst = s.rst := by
  unfold State.hostWrite
  split
  · rfl
  · rfl
  · exact s.writeRegister_rst _ w
  · unfold State.writeAperture
    split <;> rfl

theorem State.hostRead_rst (s : State) (addr width : Nat) : (s.hostRead addr width).rst = s.rst := by
  obtain ⟨r, n, h, -⟩ := s.hostRead_cases addr width
  rw [h]

/-- While `rst` is asserted an access changes the port's answer only (R161). -/
theorem State.portAction_read_of_rst (h : s.rst = true) (addr width : Nat) :
    s.portAction (.read addr width) = { s with response := .none } := by
  simp only [State.portAction, h, if_true]

theorem State.portAction_write_of_rst (h : s.rst = true) (addr width : Nat) (w : Word) :
    s.portAction (.write addr width w) = { s with response := .none } := by
  simp only [State.portAction, h, if_true]

/-- A port action keeps the registers at reset while `rst` is asserted. -/
theorem State.HeldInReset.portAction (h : s.HeldInReset) (a : PortAction) : (s.portAction a).HeldInReset := by
  match a with
  | .rst true => exact fun _ => s.atReset_hardReset
  | .rst false => exact nofun
  | .read addr width =>
    cases hr : s.rst with
    | true => rw [State.portAction_read_of_rst hr]; exact h
    | false =>
      have hfalse : (s.portAction (.read addr width)).rst = false := by
        simp only [State.portAction, hr, Bool.false_eq_true, if_false, s.hostRead_rst]
      exact fun htrue => by rw [hfalse] at htrue; cases htrue
  | .write addr width w =>
    cases hr : s.rst with
    | true => rw [State.portAction_write_of_rst hr]; exact h
    | false =>
      have hfalse : (s.portAction (.write addr width w)).rst = false := by
        simp only [State.portAction, hr, Bool.false_eq_true, if_false, s.hostWrite_rst]
      exact fun htrue => by rw [hfalse] at htrue; cases htrue

theorem State.HeldInReset.step (h : s.HeldInReset) (hstep : step s = .next t) : t.HeldInReset := by
  rcases step_cases s with ⟨hrun, hs⟩ | ⟨e, rest, -, hs⟩ | ⟨-, -, hs⟩
  · have hrst : s.rst = false := by
      simp only [State.running, Bool.and_eq_true, Bool.not_eq_true'] at hrun
      exact hrun.2
    have hfalse : t.rst = false := (engineStep_rst (hs ▸ hstep)).trans hrst
    exact fun htrue => by rw [hfalse] at htrue; cases htrue
  · rw [hs] at hstep
    cases hstep
    exact State.HeldInReset.portAction (s := { s with port := rest }) h e.action
  · rw [hs] at hstep
    cases hstep
    exact h

@[simp] theorem Dmem.blur_fill (m : Dmem) (d a n : Nat) : (m.blur d a n).fill = m.fill := by
  induction n generalizing m a with
  | zero => rfl
  | succ n ih => simp [Dmem.blur, ih]

@[simp] theorem Dmem.blurRanges_fill (m : Dmem) (d : Nat) (l : List Range) : (m.blurRanges d l).fill = m.fill := by
  induction l generalizing m with
  | nil => rfl
  | cons x l ih => obtain ⟨a, n⟩ := x; simp [Dmem.blurRanges, ih]

theorem State.abortedDmem_of_idle (h : s.status.busy = false) : s.abortedDmem = s.dmem := by
  simp [State.abortedDmem, h]

theorem State.abortedDmem_of_command (h : s.status.busy = true) {i : Instr} (hi : decode s.cmd = .ok i) :
    s.abortedDmem = s.dmem.blurRanges s.draws (s.couldWrite i) := by
  simp [State.abortedDmem, h, hi]

theorem State.abortedDmem_of_illegal (h : s.status.busy = true) {why : Illegal} (hw : decode s.cmd = .error why) :
    s.abortedDmem = s.dmem := by
  simp [State.abortedDmem, h, hw]

end

/-- Settles O56: `SRST` is the soft reset, and while `rst` is asserted every access ends in its ignored case. -/
theorem resetsRestoreTheRegisters : Obligations.ResetsRestoreTheRegisters := by
  refine ⟨fun s t => State.HeldInReset.step, ?_⟩
  intro s w i soft hard
  refine ⟨fun hrst hsrst => ?_, s.atReset_hardReset, rfl, rfl, rfl, rfl,
    fun addr width => ⟨_, State.portAction_read_of_rst rfl addr width⟩,
    fun addr width v => ⟨_, State.portAction_write_of_rst rfl addr width v⟩, rfl⟩
  have hsoft : soft = { s.softReset with response := .ack } := by
    simp only [soft, State.portAction_write_register hrst (off := 0x004) (by decide) (by decide)]
    rw [← State.writeCtrl_of_srst hsrst]
    rfl
  rw [hsoft]
  refine ⟨s.atReset_softReset, hrst, rfl, rfl, State.abortedDmem_of_idle, fun hbusy hi => ?_,
    fun hbusy why => State.abortedDmem_of_illegal hbusy⟩
  simp only [State.softReset_dmem, State.abortedDmem_of_command hbusy hi]
  exact ⟨Dmem.blurRanges_size .., Dmem.blurRanges_fill .., fun a ha => Dmem.read_blurRanges_outside _ _ _ a ha⟩

/-! ### Reads -/

theorem Status.word_toNat (st : Status) : st.word.toNat =
    st.busy.toNat + st.done.toNat * 2 + st.err.toNat * 4 + st.rej.toNat * 8 + st.errcode.toNat * 2 ^ 8 := by
  have := st.busy.toNat_le
  have := st.done.toNat_le
  have := st.err.toNat_le
  have := st.rej.toNat_le
  have := st.errcode.isLt
  rw [Status.word, BitVec.toNat_ofNat]
  omega

/-- The bits of `STATUS` (R23). -/
theorem Status.word_bits (st : Status) :
    st.word.getLsbD 0 = st.busy ∧ st.word.getLsbD 1 = st.done ∧ st.word.getLsbD 2 = st.err ∧ st.word.getLsbD 3 = st.rej
      ∧ st.word.toNat / 16 = st.errcode.toNat * 16 := by
  have h0 := st.busy.toNat_le
  have h1 := st.done.toNat_le
  have h2 := st.err.toNat_le
  have h3 := st.rej.toNat_le
  have hbit (k : Nat) (b : Bool) : st.word.getLsbD k = b ↔ (st.word.toNat / 2 ^ k % 2 = 1 ↔ b.toNat = 1) := by
    rw [BitVec.getLsbD, Nat.testBit_eq_decide_div_mod_eq, Bool.eq_iff_iff, decide_eq_true_iff, Bool.toNat_eq_one]
  simp only [hbit, st.word_toNat]
  refine ⟨?_, ?_, ?_, ?_, ?_⟩ <;> omega

section
variable (s : State)

theorem State.readRegister_arg (i : Fin 8) : s.readRegister (0x020 + 4 * i.val) = s.arg[i] := by
  have hi := i.isLt
  have hidx : Fin.ofNat 8 ((0x020 + 4 * i.val - 0x020) / 4) = i := Fin.ext (by simp)
  unfold State.readRegister
  rw [if_neg (by omega), if_neg (by omega), if_neg (by omega), if_neg (by omega), if_neg (by omega),
    if_pos (by omega)]
  exact congrArg (fun j : Fin 8 => s.arg[j]) hidx

theorem State.readRegister_res (i : Fin 8) : s.readRegister (0x040 + 4 * i.val) = s.res[i] := by
  have hi := i.isLt
  have hidx : Fin.ofNat 8 ((0x040 + 4 * i.val - 0x040) / 4) = i := Fin.ext (by simp)
  unfold State.readRegister
  rw [if_neg (by omega), if_neg (by omega), if_neg (by omega), if_neg (by omega), if_neg (by omega),
    if_neg (by omega), if_pos (by omega)]
  exact congrArg (fun j : Fin 8 => s.res[j]) hidx

theorem State.readRegister_channel (c : ChanNo) {k : Nat} (hk : k < 0x20) :
    s.readRegister (0x100 + 0x20 * c.val + k) = s.ch[c].view k := by
  have hc := c.isLt
  have hidx : Fin.ofNat 4 ((0x100 + 0x20 * c.val + k - 0x100) / 0x20) = c := Fin.ext (by rw [Fin.val_ofNat]; omega)
  have hoff : (0x100 + 0x20 * c.val + k - 0x100) % 0x20 = k := by omega
  unfold State.readRegister
  rw [if_neg (by omega), if_neg (by omega), if_neg (by omega), if_neg (by omega), if_neg (by omega),
    if_neg (by omega), if_neg (by omega), if_pos (by omega), hoff]
  exact congrArg (fun j : Fin 4 => s.ch[j].view k) hidx

theorem State.readRegister_slot (m : SlotNo) {k : Nat} (hk : k < 8) :
    s.readRegister (0x180 + 8 * m.val + k) = if k = 0 then s.slot[m].cfgWord else s.slot[m].lastWord := by
  have hm := m.isLt
  have hidx : Fin.ofNat 8 ((0x180 + 8 * m.val + k - 0x180) / 8) = m := Fin.ext (by rw [Fin.val_ofNat]; omega)
  have hoff : (0x180 + 8 * m.val + k - 0x180) % 8 = k := by omega
  unfold State.readRegister
  rw [if_neg (by omega), if_neg (by omega), if_neg (by omega), if_neg (by omega), if_neg (by omega),
    if_neg (by omega), if_neg (by omega), if_neg (by omega), if_pos (by omega), hoff]
  exact congrArg (fun j : Fin 8 => if k = 0 then s.slot[j].cfgWord else s.slot[j].lastWord) hidx

theorem State.readRegister_reserved {off : Nat}
    (h : (0x018 ≤ off ∧ off < 0x020) ∨ (0x060 ≤ off ∧ off < 0x100) ∨ (0x1C0 ≤ off ∧ off < 0x400)) :
    s.readRegister off = 0#32 := by
  unfold State.readRegister
  rw [if_neg (by omega), if_neg (by omega), if_neg (by omega), if_neg (by omega), if_neg (by omega),
    if_neg (by omega), if_neg (by omega), if_neg (by omega), if_neg (by omega)]

end

theorem isView_eq_false {off : Nat} (h : off < 0x100 ∨ 0x1C0 ≤ off) : isView off = false := by
  simp only [isView, Bool.and_eq_false_iff, decide_eq_false_iff_not]
  omega

/-- Settles O58: a read that is no busy view returns `State.readRegister`, which is evaluated by group of registers. -/
theorem registerMapReadsTheState : Obligations.RegisterMapReadsTheState := by
  intro s hrst reads
  have hreg {off : Nat} (h : off < 0x400) (h4 : off % 4 = 0) (hv : off < 0x100 ∨ 0x1C0 ≤ off) :
      reads off (s.readRegister off) := State.portAction_read_register hrst h h4 (.inr (isView_eq_false hv))
  have hfixed {off : Nat} (h : off < 0x100) (h4 : off % 4 = 0) : reads off (s.readRegister off) :=
    hreg (by omega) h4 (.inl h)
  refine ⟨hfixed (by decide) (by decide), ?_, ⟨_, hfixed (by decide) (by decide), s.status.word_bits⟩,
    hfixed (by decide) (by decide), hfixed (by decide) (by decide), hfixed (by decide) (by decide),
    fun i => ⟨?_, ?_⟩, fun off h4 h => ?_, fun hbusy c => ?_, fun hbusy m => ⟨?_, ?_⟩⟩
  · have hie : s.readRegister 0x004 = if s.ie then 1#32 else 0#32 := by
      cases h : s.ie <;> simp [State.readRegister, ctrlWord, h]
    exact hie ▸ hfixed (by decide) (by decide)
  · have hi := i.isLt
    exact s.readRegister_arg i ▸ hfixed (by omega) (by omega)
  · have hi := i.isLt
    exact s.readRegister_res i ▸ hfixed (by omega) (by omega)
  · exact s.readRegister_reserved h ▸ hreg (by omega) h4 (by omega)
  · intro view
    have hview {k : Nat} (hk : k < 0x20) (h4 : k % 4 = 0) : view k (s.ch[c].view k) := by
      have hc := c.isLt
      exact s.readRegister_channel c hk ▸ State.portAction_read_register hrst (by omega) (by omega) (.inl hbusy)
    exact ⟨hview (by decide) (by decide), hview (by decide) (by decide), hview (by decide) (by decide),
      hview (by decide) (by decide), hview (by decide) (by decide), hview (by decide) (by decide),
      hview (by decide) (by decide), hview (by decide) (by decide)⟩
  · have hm := m.isLt
    have hcfg : s.readRegister (0x180 + 8 * m.val) = word (s.slot[m].table.kind + 256 * s.slot[m].table.alphabet) := by
      rw [← Nat.add_zero (0x180 + 8 * m.val), s.readRegister_slot m (by decide), if_pos rfl]
      simp [Slot.cfgWord, word, Nat.mul_comm]
    exact hcfg ▸ State.portAction_read_register hrst (by omega) (by omega) (.inl hbusy)
  · have hm := m.isLt
    have hlast : s.readRegister (0x184 + 8 * m.val) = s.slot[m].last.setWidth 32 := by
      have hoff : 0x184 + 8 * m.val = 0x180 + 8 * m.val + 4 := by omega
      rw [hoff, s.readRegister_slot m (by decide), if_neg (by decide), Slot.lastWord]
    exact hlast ▸ State.portAction_read_register hrst (by omega) (by omega) (.inl hbusy)

end Sys2Proof.Machine
end

section
/-!
Where commands write DMEM (O51): what is known of every state a coding step can leave, a raise included, then the
commands. An encoder writes inside its window only (`Stream.Moves`), a decoder nothing (`Stream.Decoding`).
-/

namespace Sys2Proof.Machine

/-! ### DMEM outside ranges -/

theorem Dmem.sameOutside_refl (m : Dmem) (ranges : List Range) : m.SameOutside m ranges :=
  ⟨rfl, rfl, fun _ _ => rfl⟩

/-- The same outside some ranges is the same outside more of them. -/
theorem Dmem.SameOutside.mono {m m' : Dmem} {l l' : List Range} (h : m.SameOutside m' l) (hl : ∀ r ∈ l, r ∈ l') :
    m.SameOutside m' l' := by
  obtain ⟨hsize, hfill, hread⟩ := h
  exact ⟨hsize, hfill, fun a ha => hread a fun r hr => ha r (hl r hr)⟩

/-- A byte written inside a range keeps DMEM the same outside it. -/
theorem Dmem.SameOutside.write {m m' : Dmem} {a n x : Nat} (h : m.SameOutside m' [(a, n)]) (hx : a ≤ x)
    (hlt : x < a + n) (b : Byte) : m.SameOutside (m'.write x b) [(a, n)] := by
  obtain ⟨hsize, hfill, hread⟩ := h
  refine ⟨(Dmem.write_size ..).trans hsize, (Dmem.write_fill ..).trans hfill, fun y hy => ?_⟩
  have hne : y ≠ x := by
    simp only [OutsideRanges, List.forall_mem_singleton] at hy
    omega
  rw [Dmem.read_write_other _ _ hne, hread y hy]

/-! ### What a coding step leaves -/

/-- Whether a coding step ends with a value or raises, what it leaves meets `P`; a stop of the model leaves nothing. -/
def Coded.Leaves {σ α : Type} (P : σ → Prop) : Coded σ α → Prop
  | .ok _ s => P s
  | .raised _ s => P s
  | .fault _ => True

section
variable {σ τ α β : Type} {P Q : σ → Prop}

theorem Coded.Leaves.mono {c : Coded σ α} (h : c.Leaves P) (hPQ : ∀ s, P s → Q s) : c.Leaves Q := by
  cases c with
  | ok a s => exact hPQ s h
  | raised e s => exact hPQ s h
  | fault f => trivial

theorem Coded.Leaves.bind {c : Coded σ α} {f : α → σ → Coded σ β} (h : c.Leaves P)
    (hf : ∀ a s, P s → (f a s).Leaves P) : (c.bind f).Leaves P := by
  cases c with
  | ok a s => exact hf a s h
  | raised e s => exact h
  | fault g => trivial

theorem Coded.Leaves.lift {g : σ → τ} {c : Coded σ α} (P : τ → Prop) (h : c.Leaves fun s => P (g s)) :
    (c.lift g).Leaves P := by
  cases c <;> exact h

/-- The form in which the laws of the coding steps say what is left. -/
theorem Coded.leaves_of_ends {c : Coded σ Unit} (h : ∀ s, (c = .ok () s ∨ ∃ e, c = .raised e s) → P s) :
    c.Leaves P := by
  cases c with
  | ok a s => exact h s (.inl rfl)
  | raised e s => exact h s (.inr ⟨e, rfl⟩)
  | fault f => trivial

end

/-! ### Encoders -/

theorem Stream.shift_leaves_moves (t : Stream) : t.shift.Leaves t.Moves := by
  refine Coded.leaves_of_ends fun u hu => ?_
  obtain hok | ⟨e, hraised⟩ := hu
  · exact Stream.shift_moves hok
  · exact Stream.shift_raised hraised ▸ .refl t

theorem Coder.encBits_leaves_moves (bits : List Bool) (k : Coder) :
    (Coder.encBits bits k).Leaves fun u => k.str.Moves u.str := by
  induction bits generalizing k with
  | nil => exact .refl _
  | cons b bits ih =>
    refine Coded.Leaves.bind (Coded.leaves_of_ends fun u hu => (Coder.encBit_moves hu).1) fun _ u hu => ?_
    exact (ih u).mono fun _ hv => hu.trans hv

theorem Coder.encSyms_leaves_moves (xs : List Byte) (k : Coder) :
    (Coder.encSyms xs k).Leaves fun u => k.str.Moves u.str := by
  induction xs generalizing k with
  | nil => exact .refl _
  | cons j xs ih =>
    refine Coded.Leaves.bind (Coded.leaves_of_ends fun u hu => (Coder.encSym_moves hu).1) fun _ u hu => ?_
    exact (ih u).mono fun _ hv => hu.trans hv

theorem Stream.flushOut_leaves_moves (n : Nat) (t : Stream) : (Stream.flushOut n t).Leaves t.Moves := by
  induction n generalizing t with
  | zero => exact .refl t
  | succ n ih =>
    refine t.shift_leaves_moves.bind fun _ u hu => (ih _).mono fun v hv => ?_
    exact hu.trans ((Stream.Moves.retune u { u.ch with low := u.ch.low <<< 8 } rfl rfl rfl rfl).trans hv)

/-- What moves along a window writes DMEM in what was left of it only (R119). -/
theorem Stream.Moves.sameOutside {t u : Stream} (h : t.Moves u) : t.mem.SameOutside u.mem [t.ch.window] := by
  refine ⟨h.size, h.fill, fun a ha => h.mem a ?_⟩
  simp only [OutsideRanges, List.forall_mem_singleton, Channel.window] at ha
  omega

/-! ### Decoders -/

/-- A stream of a decoding channel, over a DMEM that meets `Q`. -/
structure Stream.Decoding (Q : Dmem → Prop) (t : Stream) : Prop where
  mode : t.ch.mode = .dec
  mem : Q t.mem

section
variable {Q : Dmem → Prop} {t : Stream} {k : Coder}

/-- A decoder's `Shift` reads DMEM and writes none of it (R119). -/
theorem Stream.Decoding.shift (h : t.Decoding Q) : t.shift.Leaves (Stream.Decoding Q) := by
  refine Coded.leaves_of_ends fun u hu => ?_
  obtain hok | ⟨e, hraised⟩ := hu
  · obtain ⟨-, -, ⟨henc, -⟩ | ⟨-, rfl⟩⟩ := Stream.shift_ok hok
    · cases h.mode.symm.trans henc
    · exact ⟨h.mode, h.mem⟩
  · exact Stream.shift_raised hraised ▸ h

theorem Stream.Decoding.cut (h : t.Decoding Q) : Stream.Decoding Q { t with ch := t.ch.cut } :=
  ⟨t.ch.cut_mode.trans h.mode, h.mem⟩

theorem Stream.Decoding.renormLoop (h : t.Decoding Q) (n : Nat) : (t.renormLoop n).Leaves (Stream.Decoding Q) := by
  induction n generalizing t with
  | zero =>
    unfold Stream.renormLoop
    split
    · exact h
    · exact h.cut.shift.bind fun _ _ _ => trivial
  | succ n ih =>
    unfold Stream.renormLoop
    split
    · exact h
    · exact h.cut.shift.bind fun _ u hu => ih ⟨hu.mode, hu.mem⟩

theorem Stream.Decoding.decodeValue (h : t.Decoding Q) (tot : Nat) :
    (t.decodeValue tot).Leaves (Stream.Decoding Q) := by
  simp only [Stream.decodeValue]
  split_ifs
  · trivial
  · exact h
  · exact h

theorem Stream.Decoding.codeInterval (h : k.str.Decoding Q) (iv : Interval) (m : Slot) :
    (k.codeInterval iv m).Leaves fun u => u.str.Decoding Q :=
  .lift (fun u : Coder => u.str.Decoding Q)
    (Stream.Decoding.renormLoop (t := { k.str with ch := k.str.ch.narrow iv }) ⟨h.mode, h.mem⟩ _)

/-- `DecodeValue` as a step of a coder. -/
theorem Stream.Decoding.decodeValue_lift (h : k.str.Decoding Q) (tot : Nat) :
    ((k.str.decodeValue tot).lift fun t => { k with str := t }).Leaves fun u => u.str.Decoding Q :=
  .lift (fun u : Coder => u.str.Decoding Q) (h.decodeValue tot)

theorem Stream.Decoding.decBit (h : k.str.Decoding Q) (ctx : Nat) :
    (k.decBit ctx).Leaves fun u => u.str.Decoding Q := by
  unfold Coder.decBit
  split
  · trivial
  · exact (h.decodeValue_lift _).bind fun _ _ hu => (hu.codeInterval _ _).bind fun _ _ hv => hv

theorem Stream.Decoding.decSym (h : k.str.Decoding Q) (ctx : Nat) :
    (k.decSym ctx).Leaves fun u => u.str.Decoding Q := by
  unfold Coder.decSym
  split
  · trivial
  · refine (h.decodeValue_lift _).bind fun v u hu => ?_
    split
    · trivial
    · split
      · trivial
      · exact (hu.codeInterval _ _).bind fun _ _ hv => hv

theorem Stream.Decoding.decContinue (h : k.str.Decoding Q) (left n : Nat) :
    (Coder.decContinue left n k).Leaves fun u => u.str.Decoding Q := by
  induction left generalizing n k with
  | zero => exact h
  | succ left ih =>
    refine (h.decBit _).bind fun b u hu => ?_
    cases b with
    | true => exact ih hu (n + 1)
    | false => exact hu

theorem Stream.Decoding.decLow (h : k.str.Decoding Q) (n v : Nat) :
    (Coder.decLow n v k).Leaves fun u => u.str.Decoding Q := by
  induction n generalizing v k with
  | zero => exact h
  | succ n ih => exact (h.decBit _).bind fun _ _ hu => ih hu _

theorem Stream.Decoding.decGamma (h : k.str.Decoding Q) : k.decGamma.Leaves fun u => u.str.Decoding Q :=
  (h.decContinue _ _).bind fun _ _ hu => hu.decLow _ _

theorem Stream.Decoding.shiftIn (h : t.Decoding Q) (n : Nat) : (Stream.shiftIn n t).Leaves (Stream.Decoding Q) := by
  induction n generalizing t with
  | zero => exact h
  | succ n ih => exact h.shift.bind fun _ _ hu => ih hu

/-- The symbols decoded into DMEM meet what a byte written to any of their addresses keeps (R137). -/
theorem Stream.Decoding.decSyms (h : k.str.Decoding Q) {n a : Nat}
    (hQ : ∀ m x b, a ≤ x → x < a + n → Q m → Q (m.write x b)) :
    (Coder.decSyms n a k).Leaves fun u => u.str.Decoding Q := by
  induction n generalizing a k with
  | zero => exact h
  | succ n ih =>
    refine (h.decSym _).bind fun j u hu => ?_
    have hput : (u.putByte a (BitVec.ofNat 8 j)).str.Decoding Q :=
      ⟨hu.mode, hQ _ a _ (Nat.le_refl a) (by omega) hu.mem⟩
    exact ih hput fun m x b hx hlt => hQ m x b (by omega) (by omega)

end

/-! ### The ends of commands -/

/-- What `CommandWritesOnlyItsRanges` says of a command `i` that leads from `s` to `t` (R54, R162). -/
structure State.WritesOnlyRanges (i : Instr) (s t : State) : Prop where
  outside : s.dmem.SameOutside t.dmem (s.couldWrite i)
  stores : storesNothing i = true → t.dmem = s.dmem

section
variable {i : Instr} {s t : State}

theorem State.writesOnlyRanges_of_eq (h : t.dmem = s.dmem) : State.WritesOnlyRanges i s t :=
  ⟨h ▸ s.dmem.sameOutside_refl _, fun _ => h⟩

/-- A bulk command with destinations writes them and nothing else, or fails and writes nothing. -/
theorem State.writesOnlyRanges_of_plan {p : Except Cause Plan} (hi : s.couldWrite i = planRanges p)
    (hstores : storesNothing i = false) (h : s.finishPlan p = .next t) : State.WritesOnlyRanges i s t := by
  obtain ⟨e, rfl, rfl⟩ | ⟨q, rfl, rfl⟩ := State.finishPlan_cases h
  · exact State.writesOnlyRanges_of_eq rfl
  · refine ⟨⟨writeRanges_size .., writeRanges_fill .., fun a ha => ?_⟩, fun hs => by simp [hstores] at hs⟩
    refine read_writeRanges_outside _ _ _ fun w hw => ?_
    exact ha (w.1, w.2.length) (by rw [hi]; exact List.mem_map_of_mem hw)

/-- A bulk command without a destination writes nothing. -/
theorem State.writesOnlyRanges_of_noWrites {p : Except Cause Plan} (hp : ∀ q, p = .ok q → q.writes = [])
    (h : s.finishPlan p = .next t) : State.WritesOnlyRanges i s t := by
  obtain ⟨e, rfl, rfl⟩ | ⟨q, rfl, rfl⟩ := State.finishPlan_cases h
  · exact State.writesOnlyRanges_of_eq rfl
  · have hw : writeRanges s.dmem q.writes = s.dmem := by rw [hp q rfl]; rfl
    exact State.writesOnlyRanges_of_eq hw

theorem State.planTierCls_writes {q : Plan} (h : s.planTierCls = .ok q) : q.writes = [] := by
  simp only [State.planTierCls] at h
  split_ifs at h <;> cases h <;> rfl

theorem State.planTierUncls_writes {q : Plan} (h : s.planTierUncls = .ok q) : q.writes = [] := by
  simp only [State.planTierUncls] at h
  split_ifs at h <;> cases h <;> rfl

theorem State.planTierCount_writes {q : Plan} (h : s.planTierCount = .ok q) : q.writes = [] := by
  simp only [State.planTierCount] at h
  split_ifs at h
  cases h
  rfl

/-- A channel command ends over the DMEM its work leaves, or over the one it began with where a check failed. -/
theorem State.finishBody_dmem {σ : Type} {c : ChanNo} {put : σ → State} {b : Body σ} {P : Dmem → Prop}
    (hs : P s.dmem) (hb : b.Meets fun w => w.Leaves fun k => P (put k).dmem) (h : s.finishBody c put b = .next t) :
    P t.dmem := by
  obtain ⟨e, rfl, rfl⟩ | ⟨r, k, rfl, rfl⟩ | ⟨e, k, rfl, rfl⟩ := State.finishBody_cases h
  · exact hs
  · exact hb
  · exact hb

/-- A channel command whose work stays inside the ranges its checks let it write. -/
theorem State.writesOnlyRanges_of_coding {σ : Type} {c : ChanNo} {put : σ → State} {b : Body σ}
    {ranges : List Range} (hi : s.couldWrite i = codingRanges b ranges) (hstores : storesNothing i = false)
    (hb : b.Meets fun w => w.Leaves fun k => s.dmem.SameOutside (put k).dmem ranges)
    (h : s.finishBody c put b = .next t) : State.WritesOnlyRanges i s t := by
  have hmeets : b.Meets fun w => w.Leaves fun k => s.dmem.SameOutside (put k).dmem (codingRanges b ranges) := by
    cases b with
    | failed e => trivial
    | ran w => exact hb
  refine ⟨?_, fun hs => by simp [hstores] at hs⟩
  rw [hi]
  exact State.finishBody_dmem (P := fun mem => s.dmem.SameOutside mem (codingRanges b ranges))
    (s.dmem.sameOutside_refl _) hmeets h

/-- A channel command whose work leaves DMEM as it was. -/
theorem State.writesOnlyRanges_of_reading {σ : Type} {c : ChanNo} {put : σ → State} {b : Body σ}
    (hb : b.Meets fun w => w.Leaves fun k => (put k).dmem = s.dmem) (h : s.finishBody c put b = .next t) :
    State.WritesOnlyRanges i s t :=
  State.writesOnlyRanges_of_eq (State.finishBody_dmem (P := (· = s.dmem)) rfl hb h)

end

/-! ### The channel commands -/

section
variable (s : State) (c : ChanNo) (m : SlotNo) (x : CtxSel)

/-- The results a step ends with do not change what it leaves. -/
theorem Coded.Leaves.withResults {σ α : Type} {P : σ → Prop} {w : Coded σ α} {f : α → List Result}
    (h : w.Leaves P) : (w.bind fun a k => .ok (f a) k).Leaves P := h.bind fun _ _ hk => hk

/-- Coding work that moves the channel's stream writes inside the window only. -/
theorem Coded.Leaves.insideWindow {w : Coded Coder Unit} (h : w.Leaves fun u => (s.stream c).Moves u.str) :
    w.noResult.Leaves fun u => s.dmem.SameOutside u.str.mem [s.ch[c].window] :=
  (h.mono fun _ hu => hu.sameOutside).withResults (f := fun _ => [])

/-- The work of a decoding command begins on a decoding channel over the state's DMEM. -/
theorem State.coder_decoding {s : State} {c : ChanNo} (Q : Dmem → Prop) (hmode : s.ch[c].mode = .dec)
    (hQ : Q s.dmem) : (s.coder c m).str.Decoding Q := ⟨hmode, hQ⟩

/-- Decoding work with the results its value gives, as what it leaves of DMEM. -/
theorem Coded.Leaves.decodes {α : Type} {w : Coded Coder α} {f : α → List Result} {Q : Dmem → Prop}
    (h : w.Leaves fun u => u.str.Decoding Q) : (w.bind fun a k => .ok (f a) k).Leaves fun u => Q u.str.mem :=
  (h.mono fun _ hu => hu.mem).withResults

theorem State.codeEbit_insideWindow (b : Bool) : (s.codeEbit c m x b).Meets fun w =>
    w.Leaves fun k => s.dmem.SameOutside k.str.mem [s.ch[c].window] := by
  unfold State.codeEbit
  split
  · trivial
  · dsimp only
    split
    · trivial
    · exact .insideWindow s c (Coded.leaves_of_ends fun u hu => (Coder.encBit_moves hu).1)

theorem State.codeEsym_insideWindow (j : Byte) : (s.codeEsym c m x j).Meets fun w =>
    w.Leaves fun k => s.dmem.SameOutside k.str.mem [s.ch[c].window] := by
  unfold State.codeEsym
  split
  · trivial
  · dsimp only
    split_ifs
    · trivial
    · trivial
    · exact .insideWindow s c (Coded.leaves_of_ends fun u hu => (Coder.encSym_moves hu).1)

theorem State.codeEgamma_insideWindow : (s.codeEgamma c m).Meets fun w =>
    w.Leaves fun k => s.dmem.SameOutside k.str.mem [s.ch[c].window] := by
  unfold State.codeEgamma
  split
  · trivial
  · split
    · trivial
    · exact .insideWindow s c (Coder.encBits_leaves_moves _ _)

theorem State.codeEstream_insideWindow : (s.codeEstream c m).Meets fun w =>
    w.Leaves fun k => s.dmem.SameOutside k.str.mem [s.ch[c].window] := by
  unfold State.codeEstream
  split
  · trivial
  · dsimp only
    split
    · trivial
    · split
      · trivial
      · exact .insideWindow s c (Coder.encSyms_leaves_moves _ _)

theorem State.codeEflush_insideWindow : (s.codeEflush c).Meets fun w =>
    w.Leaves fun t => s.dmem.SameOutside t.mem [s.ch[c].window] := by
  unfold State.codeEflush
  split
  · trivial
  · exact ((Stream.flushOut_leaves_moves 4 (s.stream c)).mono fun _ hu => hu.sameOutside).bind fun _ _ hu => hu

theorem State.codeEinit_mem : (s.codeEinit c).Meets fun w => w.Leaves fun t => t.mem = s.dmem := by
  unfold State.codeEinit
  split
  · trivial
  · rfl

theorem State.codeDinit_mem : (s.codeDinit c).Meets fun w => w.Leaves fun t => t.mem = s.dmem := by
  unfold State.codeDinit
  split
  · trivial
  · have hopened : Stream.Decoding (· = s.dmem)
        { s.stream c with ch := Channel.opened .dec (s.argNat 0) (s.argNat 1) } := ⟨rfl, rfl⟩
    exact ((hopened.shiftIn 4).mono fun _ ht => ht.mem).withResults (f := fun _ => [])

theorem State.codeDfin_mem : (s.codeDfin c).Meets fun w => w.Leaves fun t => t.mem = s.dmem := by
  unfold State.codeDfin
  split
  · trivial
  · rfl

theorem State.codeDbit_mem : (s.codeDbit c m x).Meets fun w => w.Leaves fun k => k.str.mem = s.dmem := by
  unfold State.codeDbit
  split
  · trivial
  · next hcheck =>
    dsimp only
    split
    · trivial
    · exact ((State.coder_decoding m (· = s.dmem) (State.checkBin_eq_none hcheck).1 rfl).decBit _).decodes

theorem State.codeDsym_mem : (s.codeDsym c m x).Meets fun w => w.Leaves fun k => k.str.mem = s.dmem := by
  unfold State.codeDsym
  split
  · trivial
  · next hcheck =>
    dsimp only
    split
    · trivial
    · exact ((State.coder_decoding m (· = s.dmem) (State.checkSym_eq_none hcheck).1 rfl).decSym _).decodes

theorem State.codeDgamma_mem : (s.codeDgamma c m).Meets fun w => w.Leaves fun k => k.str.mem = s.dmem := by
  unfold State.codeDgamma
  split
  · trivial
  · next hcheck =>
    exact (State.coder_decoding m (· = s.dmem) (State.checkBin_eq_none hcheck).1 rfl).decGamma.decodes

/-- `RC_DSTREAM` writes its destination and, of its window, nothing (R137). -/
theorem State.codeDstream_insideRanges : (s.codeDstream c m).Meets fun w =>
    w.Leaves fun k => s.dmem.SameOutside k.str.mem [s.ch[c].window, (s.argNat 0, s.argNat 1)] := by
  unfold State.codeDstream
  split
  · trivial
  · next hcheck =>
    split
    · trivial
    · have hstart := State.coder_decoding m (fun mem => s.dmem.SameOutside mem [(s.argNat 0, s.argNat 1)])
        (State.checkSym_eq_none hcheck).1 (s.dmem.sameOutside_refl _)
      have hwork := hstart.decSyms fun _ _ b hx hlt hm => Dmem.SameOutside.write hm hx hlt b
      exact (hwork.decodes (f := fun _ => [])).mono fun _ hk => Dmem.SameOutside.mono hk (List.subset_cons_self ..)

end

/-! ### The model commands -/

section
variable {s t : State} {m : SlotNo}

theorem execMdlCfg_dmem {val kind : Byte} (h : execMdlCfg m val kind s = .next t) : t.dmem = s.dmem := by
  unfold execMdlCfg at h
  split at h <;> cases h <;> rfl

theorem execMdlReset_dmem (h : execMdlReset m s = .next t) : t.dmem = s.dmem := by
  unfold execMdlReset at h
  split at h <;> cases h <;> rfl

theorem execMdlSetctx_dmem {k : Byte} (h : execMdlSetctx m k s = .next t) : t.dmem = s.dmem := by
  unfold execMdlSetctx at h
  split_ifs at h <;> cases h <;> rfl

theorem execMdlPeek_dmem (h : execMdlPeek m s = .next t) : t.dmem = s.dmem := by
  simp only [execMdlPeek] at h
  split at h
  · cases h; rfl
  · split at h <;> cases h <;> rfl
  · split_ifs at h
    · cases h; rfl
    · cases h; rfl
    · split at h <;> cases h
      rfl

end

/-! ### Every command -/

theorem exec_writesOnlyRanges (i : Instr) {s t : State} (h : exec i s = .next t) : State.WritesOnlyRanges i s t := by
  cases i with
  | nop => cases h; exact State.writesOnlyRanges_of_eq rfl
  | bwtFwd => exact State.writesOnlyRanges_of_plan rfl rfl h
  | bwtInv => exact State.writesOnlyRanges_of_plan rfl rfl h
  | mtfEnc => exact State.writesOnlyRanges_of_plan rfl rfl h
  | mtfDec => exact State.writesOnlyRanges_of_plan rfl rfl h
  | zrlSplit => exact State.writesOnlyRanges_of_plan rfl rfl h
  | zrlJoin => exact State.writesOnlyRanges_of_plan rfl rfl h
  | tierCls => exact State.writesOnlyRanges_of_noWrites (fun _ => State.planTierCls_writes) h
  | tierUncls => exact State.writesOnlyRanges_of_noWrites (fun _ => State.planTierUncls_writes) h
  | tierSplit => exact State.writesOnlyRanges_of_plan rfl rfl h
  | tierCount => exact State.writesOnlyRanges_of_noWrites (fun _ => State.planTierCount_writes) h
  | tierJoin => exact State.writesOnlyRanges_of_plan rfl rfl h
  | mdlCfg m val kind => exact State.writesOnlyRanges_of_eq (execMdlCfg_dmem h)
  | mdlReset m => exact State.writesOnlyRanges_of_eq (execMdlReset_dmem h)
  | mdlSetctx m k => exact State.writesOnlyRanges_of_eq (execMdlSetctx_dmem h)
  | mdlPeek m => exact State.writesOnlyRanges_of_eq (execMdlPeek_dmem h)
  | rcEinit c => exact State.writesOnlyRanges_of_reading (s.codeEinit_mem c) h
  | rcDinit c => exact State.writesOnlyRanges_of_reading (s.codeDinit_mem c) h
  | rcEbit c m x b => exact State.writesOnlyRanges_of_coding rfl rfl (s.codeEbit_insideWindow c m x b) h
  | rcDbit c m x => exact State.writesOnlyRanges_of_reading (s.codeDbit_mem c m x) h
  | rcEsym c m x j => exact State.writesOnlyRanges_of_coding rfl rfl (s.codeEsym_insideWindow c m x j) h
  | rcDsym c m x => exact State.writesOnlyRanges_of_reading (s.codeDsym_mem c m x) h
  | rcEgamma c m => exact State.writesOnlyRanges_of_coding rfl rfl (s.codeEgamma_insideWindow c m) h
  | rcDgamma c m => exact State.writesOnlyRanges_of_reading (s.codeDgamma_mem c m) h
  | rcEstream c m => exact State.writesOnlyRanges_of_coding rfl rfl (s.codeEstream_insideWindow c m) h
  | rcDstream c m => exact State.writesOnlyRanges_of_coding rfl rfl (s.codeDstream_insideRanges c m) h
  | rcEflush c => exact State.writesOnlyRanges_of_coding rfl rfl (s.codeEflush_insideWindow c) h
  | rcDfin c => exact State.writesOnlyRanges_of_reading (s.codeDfin_mem c) h

/-- Settles O51: a bulk command writes its plan's ranges, an encoder its window, `RC_DSTREAM` its destination, and every
other command nothing. -/
theorem commandWritesOnlyItsRanges : Obligations.CommandWritesOnlyItsRanges := by
  intro i s t h
  obtain ⟨houtside, hstores⟩ := exec_writesOnlyRanges i h
  exact ⟨houtside, hstores⟩

end Sys2Proof.Machine
end

section
/-!
Accesses through the port (O57, O59): what each access R51 lists or leaves out reaches, and what the aperture stores and
returns, byte by byte.
-/

namespace Sys2Proof.Machine

/-! ### Accesses without effect -/

section
variable {s : State} {off width : Nat}

/-- An offset below 2^21 lies in the block's region (R55). -/
theorem State.not_outside (s : State) (h : off < 2 ^ 21) : ¬ (s.params.hostBase + off < s.params.hostBase
    ∨ s.params.hostBase + regionSize ≤ s.params.hostBase + off) := by
  simp only [regionSize]
  omega

theorem apertureAligned_iff : apertureAligned off width = true ↔
    width = 1 ∨ (width = 2 ∧ off % 2 = 0) ∨ (width = 4 ∧ off % 4 = 0) := by
  simp [apertureAligned, or_assoc]

/-- Inside the region, an access that R51 does not list reaches nothing. -/
theorem State.target_error (hoff : off < 2 ^ 21) (h : ¬ PortTakes s.dmem.size off width) :
    s.target (s.params.hostBase + off) width = .error := by
  obtain ⟨hreg, hdmem⟩ := not_or.1 h
  simp only [State.target, if_neg (s.not_outside hoff), Nat.add_sub_cancel_left, apertureAligned_iff, apertureBase]
  by_cases hlow : off < 0x400
  · rw [if_pos hlow, if_neg fun hr => hreg ⟨hlow, hr⟩]
  · rw [if_neg hlow, if_neg hdmem]

/-- Inside the region, an access that R51 lists reaches a register or DMEM. -/
theorem State.target_taken (hoff : off < 2 ^ 21) (h : PortTakes s.dmem.size off width) :
    (∃ k, s.target (s.params.hostBase + off) width = .register k)
      ∨ ∃ a, s.target (s.params.hostBase + off) width = .dmem a := by
  simp only [State.target, if_neg (s.not_outside hoff), Nat.add_sub_cancel_left, apertureAligned_iff, apertureBase]
  obtain ⟨hlow, hr⟩ | hdmem := h
  · exact .inl ⟨off, by rw [if_pos hlow, if_pos hr]⟩
  · have hhigh : ¬ off < 0x400 := by omega
    exact .inr ⟨off - 0x100000, by rw [if_neg hhigh, if_pos hdmem]⟩

/-- Outside reset a read is `State.hostRead` and a write `State.hostWrite` (R161). -/
theorem State.portAction_read (hrst : s.rst = false) (addr width : Nat) :
    s.portAction (.read addr width) = s.hostRead addr width := by
  simp only [State.portAction, hrst, Bool.false_eq_true, if_false]

theorem State.portAction_write (hrst : s.rst = false) (addr width : Nat) (w : Word) :
    s.portAction (.write addr width w) = s.hostWrite addr width w := by
  simp only [State.portAction, hrst, Bool.false_eq_true, if_false]

/-- A read that the port takes answers with data and changes at most the count of draws besides (R53, R65). -/
theorem State.hostRead_data {addr : Nat}
    (h : (∃ k, s.target addr width = .register k) ∨ ∃ a, s.target addr width = .dmem a) :
    ∃ v n, s.hostRead addr width = { s with response := .data v, draws := n } := by
  unfold State.hostRead
  obtain ⟨k, hk⟩ | ⟨a, ha⟩ := h
  · rw [hk]
    dsimp only
    split
    · exact ⟨_, _, rfl⟩
    · exact ⟨_, s.draws, rfl⟩
  · rw [ha]
    dsimp only
    split
    · exact ⟨_, _, rfl⟩
    · exact ⟨_, s.draws, rfl⟩

/-- A write that the port takes is acknowledged, with or without an effect (log 9). -/
theorem State.hostWrite_ack {addr : Nat}
    (h : (∃ k, s.target addr width = .register k) ∨ ∃ a, s.target addr width = .dmem a) (w : Word) :
    (s.hostWrite addr width w).response = .ack := by
  unfold State.hostWrite
  obtain ⟨k, hk⟩ | ⟨a, ha⟩ := h
  · rw [hk]
  · rw [ha]

/-- A write to a register that is neither `CTRL` nor `CMD` nor an ARG register is ignored (R53). -/
theorem State.writeRegister_ignored (hctrl : off ≠ 0x004) (hcmd : off ≠ 0x00C)
    (harg : ¬ (0x020 ≤ off ∧ off < 0x040)) (w : Word) : s.writeRegister off w = s := by
  unfold State.writeRegister
  rw [if_neg hctrl, if_neg hcmd, if_neg harg]

end

/-- Settles O57: the accesses R51 lists are those that reach a register or DMEM, and any other reaches a bus error. -/
theorem accessesWithoutEffect : Obligations.AccessesWithoutEffect := by
  intro s off width w hrst hoff addr
  refine ⟨fun hnot => ?_, fun htakes => ?_, fun hlow h4 hctrl hcmd harg => ⟨.ack, ?_⟩⟩
  · have herror : s.target addr width = .error := State.target_error hoff hnot
    rw [State.portAction_read hrst, State.portAction_write hrst]
    exact ⟨by simp only [State.hostRead, herror], by simp only [State.hostWrite, herror]⟩
  · have hreach := State.target_taken hoff htakes
    rw [State.portAction_read hrst, State.portAction_write hrst, State.hostWrite_ack hreach]
    exact ⟨State.hostRead_data hreach, by simp⟩
  · rw [State.portAction_write_register hrst hlow h4, State.writeRegister_ignored hctrl hcmd harg]

/-! ### The aperture -/

/-- Byte `k` of a value's bytes is the one with `width - 1 - k` bytes below it (R47, R49). -/
theorem beBytes_getElem (v : Nat) {width k : Nat} (hk : k < (beBytes v width).length) :
    (beBytes v width)[k].toNat = v / 2 ^ (8 * (width - 1 - k)) % 256 := by
  induction width generalizing k with
  | zero => simp [beBytes] at hk
  | succ n ih =>
    cases k with
    | zero => simp [beBytes]
    | succ k =>
      have hpos : n + 1 - 1 - (k + 1) = n - 1 - k := by omega
      simp only [beBytes, List.getElem_cons_succ, hpos]
      exact ih _

/-- A value of `n` bytes is below 2^(8n). -/
theorem beValue_lt (bs : List Byte) : beValue bs < 2 ^ (8 * bs.length) := by
  induction bs with
  | nil => simp [beValue]
  | cons b bs ih =>
    have hb := b.isLt
    have hmul : (b.toNat + 1) * 2 ^ (8 * bs.length) ≤ 2 ^ 8 * 2 ^ (8 * bs.length) := Nat.mul_le_mul_right _ hb
    have hpow : 2 ^ (8 * (bs.length + 1)) = 2 ^ 8 * 2 ^ (8 * bs.length) := by ring
    rw [Nat.add_mul] at hmul
    rw [beValue, List.length_cons, hpow]
    omega

/-- The word an aperture read returns loses nothing of its bytes: an access is at most 4 of them. -/
theorem word_beValue_toNat {bs : List Byte} (h : bs.length ≤ 4) : (word (beValue bs)).toNat = beValue bs := by
  have hpow : 2 ^ (8 * bs.length) ≤ 2 ^ 32 := Nat.pow_le_pow_right (by decide) (by omega)
  rw [word, BitVec.toNat_ofNat, Nat.mod_eq_of_lt (Nat.lt_of_lt_of_le (beValue_lt bs) hpow)]

/-- Every access the port takes is of 8, 16 or 32 bits (R51). -/
theorem PortTakes.width_cases {size off width : Nat} (h : PortTakes size off width) :
    width = 1 ∨ width = 2 ∨ width = 4 := by
  omega

section
variable {s : State} {a width : Nat}

/-- With no command running, an aperture write stores its low bytes, most significant first (R49). -/
theorem State.portAction_write_idle_aperture (hrst : s.rst = false) (hbusy : s.status.busy = false)
    (hsize : s.dmem.size ≤ 2 ^ 20) (h : PortTakes s.dmem.size (0x100000 + a) width) (w : Word) :
    s.portAction (.write (s.params.hostBase + 0x100000 + a) width w)
      = { s with dmem := s.dmem.writeBytes a (beBytes w.toNat width), response := .ack } := by
  rw [Nat.add_assoc, State.portAction_write_aperture hrst h (Nat.le_add_right ..) hsize, Nat.add_sub_cancel_left]
  simp [State.writeAperture, hbusy]

/-- With no command running, an aperture read returns the value of the bytes it covers (R49). -/
theorem State.portAction_read_idle_aperture (hrst : s.rst = false) (hbusy : s.status.busy = false)
    (hsize : s.dmem.size ≤ 2 ^ 20) (h : PortTakes s.dmem.size (0x100000 + a) width) :
    (s.portAction (.read (s.params.hostBase + 0x100000 + a) width)).response
      = .data (word (beValue (s.dmem.readBytes a width))) := by
  rw [Nat.add_assoc, State.portAction_read hrst]
  simp [State.hostRead, s.target_aperture h (Nat.le_add_right ..) hsize, hbusy]

end

/-- Settles O59: a write and a read of the aperture are `writeBytes` and `readBytes` of the bytes they cover. -/
theorem apertureIsBigEndian : Obligations.ApertureIsBigEndian := by
  intro s a width w hrst hbusy hsize htakes at_ t byte
  have hwrite : t = { s with dmem := s.dmem.writeBytes a (beBytes w.toNat width), response := .ack } :=
    State.portAction_write_idle_aperture hrst hbusy hsize htakes w
  have hmem : t.dmem = s.dmem.writeBytes a (beBytes w.toNat width) := by rw [hwrite]
  have hlen := beBytes_length w.toNat width
  have hwidth : width = 1 ∨ width = 2 ∨ width = 4 := PortTakes.width_cases htakes
  have hend : a + width ≤ s.dmem.size := by omega
  have hback : t.dmem.readBytes a width = beBytes w.toNat width := by
    have hrw := s.dmem.readBytes_writeBytes a (beBytes w.toNat width) (by rwa [hlen])
    rwa [hlen, ← hmem] at hrw
  refine ⟨?_, ?_, fun k hk => ?_, ?_, ?_, _, State.portAction_read_idle_aperture hrst hbusy hsize htakes, ?_⟩
  · rw [hwrite]
  · rw [hmem]
    refine ⟨Dmem.writeBytes_size .., Dmem.writeBytes_fill .., fun x hx => ?_⟩
    exact Dmem.read_writeBytes_outside _ _ _ _ (by simpa [OutsideRanges] using hx)
  · have hk' : k < (beBytes w.toNat width).length := by rwa [hlen]
    rw [hmem, Dmem.read_writeBytes_inside _ _ _ _ hk' (by rwa [hlen]), beBytes_getElem]
  · have hsame : t.dmem.size = s.dmem.size := by rw [hmem, Dmem.writeBytes_size]
    have hread := State.portAction_read_idle_aperture (s := t) (a := a) (width := width) (by rw [hwrite]; exact hrst)
      (by rw [hwrite]; exact hbusy) (hsame ▸ hsize) (hsame ▸ htakes)
    rw [hback, beValue_beBytes] at hread
    rw [← hread, hwrite]
  · rintro rfl
    rw [Dmem.read32, hback, beValue_beBytes, Nat.mod_eq_of_lt w.isLt]
  · rw [word_beValue_toNat (by rw [Dmem.readBytes_length]; omega)]
    refine ⟨?_, ?_, ?_⟩
    · rintro rfl; simp [Dmem.readBytes, beValue, byte]
    · rintro rfl; simp [Dmem.readBytes, beValue, byte]
    · rintro rfl; simp [Dmem.readBytes, beValue, byte, Nat.add_assoc]

end Sys2Proof.Machine
end

section
/-!
The encoding (O1-O5): decoding and encoding undo each other field by field, and what a word raises that is no command.
-/

namespace Sys2Proof

/-! ### What a field names -/

section
variable {op ch slot x rsv val ctx : Nat} {f : Fields}

theorem Fields.chan_val (h : f.ch < 4) : (f.chan : Nat) = f.ch := Nat.mod_eq_of_lt h

theorem Fields.slotNo_val (h : f.slot < 8) : (f.slotNo : Nat) = f.slot := Nat.mod_eq_of_lt h

theorem Fields.valByte_toNat (h : f.val < 256) : f.valByte.toNat = f.val := Nat.mod_eq_of_lt h

theorem Fields.ctxByte_toNat (h : f.ctx < 256) : f.ctxByte.toNat = f.ctx := Nat.mod_eq_of_lt h

theorem Fields.xField_ctxSel (h : f.x < 2) : f.ctxSel.xField = f.x := by
  unfold Fields.ctxSel
  split
  · exact Eq.symm ‹_›
  · change 1 = f.x
    omega

theorem Fields.ctxField_ctxSel (hx : f.x = 0 → f.ctx = 0) (h : f.ctx < 256) : f.ctxSel.ctxField = f.ctx := by
  unfold Fields.ctxSel
  split
  · exact (hx ‹_›).symm
  · exact Fields.ctxByte_toNat h

@[simp] theorem Fields.chan_mk (c : ChanNo) : (Fields.mk op c slot x rsv val ctx).chan = c :=
  Fin.ext (Fields.chan_val c.isLt)

@[simp] theorem Fields.slotNo_mk (m : SlotNo) : (Fields.mk op ch m x rsv val ctx).slotNo = m :=
  Fin.ext (Fields.slotNo_val m.isLt)

@[simp] theorem Fields.valByte_mk (v : Byte) : (Fields.mk op ch slot x rsv v.toNat ctx).valByte = v :=
  BitVec.eq_of_toNat_eq (Fields.valByte_toNat v.isLt)

@[simp] theorem Fields.ctxByte_mk (k : Byte) : (Fields.mk op ch slot x rsv val k.toNat).ctxByte = k :=
  BitVec.eq_of_toNat_eq (Fields.ctxByte_toNat k.isLt)

/-- A context selection comes back from its two fields, which meet the constraint of R68. -/
@[simp] theorem Fields.withCtx_mk (s : CtxSel) (k : CtxSel → Instr) :
    (Fields.mk op ch slot s.xField rsv val s.ctxField).withCtx k = .ok (k s) := by
  cases s with
  | chain => rfl
  | explicit j => exact congrArg (Except.ok ∘ k ∘ CtxSel.explicit) (Fields.ctxByte_mk j)

/-- R68: under `X = 0` a non-zero `CTX` is `ILLEGAL`(2). -/
theorem Fields.withCtx_illegal (hx : f.x = 0) (hctx : f.ctx ≠ 0) (k : CtxSel → Instr) : f.withCtx k = .error .field :=
  if_pos ⟨hx, hctx⟩

theorem Fields.withCtx_eq_ok {k : CtxSel → Instr} {i : Instr} (h : f.withCtx k = .ok i) :
    (f.x = 0 → f.ctx = 0) ∧ i = k f.ctxSel := by
  unfold Fields.withCtx at h
  split at h
  · cases h
  · cases h
    exact ⟨by omega, rfl⟩

end

/-! ### The checks of R67 and R112 -/

theorem Uses.unusedZero_iff {u : Uses} {f : Fields} : u.unusedZero f = true ↔
    f.rsv = 0 ∧ (u.ch = false → f.ch = 0) ∧ (u.slot = false → f.slot = 0) ∧ (u.x = false → f.x = 0)
      ∧ (u.val = false → f.val = 0) ∧ (u.ctx = false → f.ctx = 0) := by
  simp [Uses.unusedZero, ← Bool.not_eq_true, or_iff_not_imp_left, and_assoc]

/-- R112, on numbers: `OFF` has no alphabet, `BIN` has two symbols, `SYM` at least two. -/
theorem cfgLegal_iff {val kind : Byte} : cfgLegal val kind = true ↔
    (kind.toNat = 0 ∧ val.toNat = 0) ∨ (kind.toNat = 1 ∧ val.toNat = 1) ∨ (kind.toNat = 2 ∧ 1 ≤ val.toNat) := by
  unfold cfgLegal
  split <;> simp_all [BitVec.toNat_eq]

/-! ### The fields of a command, decoded -/

/-- Every command's opcode has a row in R72, and the fields that row does not use are 0 in it (R67). -/
theorem Instr.exists_usesOf (i : Instr) : ∃ u, usesOf i.fields.op = some u ∧ u.unusedZero i.fields = true := by
  cases i <;> exact ⟨_, rfl, rfl⟩

theorem Instr.build_fields {i : Instr} (h : i.wellFormed = true) : i.fields.build = .ok i := by
  cases i with
  | mdlCfg m val kind =>
    have hlegal : cfgLegal val kind = true := h
    simp [Instr.fields, Fields.build, hlegal]
  | rcEbit c m x b => cases b <;> simp [Instr.fields, Fields.build]
  | _ => simp [Instr.fields, Fields.build]

/-! ### The command of a word's fields -/

/-- What the rows of R72 build has the fields it was built from: `RSV` and the unused ones are 0 on both sides, the used
ones come back from the command's arguments. -/
theorem Fields.fields_of_build {f : Fields} {u : Uses} {i : Instr} (hfit : Laws.FieldsFit f) (hu : usesOf f.op = some u)
    (hz : u.unusedZero f = true) (hi : f.build = .ok i) : i.fields = f ∧ i.wellFormed = true := by
  obtain ⟨-, hch, hslot, hx, -, hval, hctx⟩ := hfit
  have hchan := Fields.chan_val hch
  have hslotNo := Fields.slotNo_val hslot
  have hvalByte := Fields.valByte_toNat hval
  have hctxByte := Fields.ctxByte_toNat hctx
  have hxField := Fields.xField_ctxSel hx
  rw [Uses.unusedZero_iff] at hz
  obtain ⟨op, ch, slot, x, rsv, val, ctx⟩ := f
  unfold Fields.build at hi
  split at hi
  -- `MDL_CFG`
  case h_13 hop =>
    cases hop; cases hu
    split at hi
    · cases hi
      simp_all [Instr.fields, Instr.wellFormed]
    · cases hi
  -- `RC_EBIT`
  case h_19 hop =>
    cases hop; cases hu
    split at hi
    · cases hi
    · next hle =>
      obtain ⟨hlegal, rfl⟩ := Fields.withCtx_eq_ok hi
      have hsel := Fields.ctxField_ctxSel hlegal hctx
      have hbit : (val == 1).toNat = val := by
        obtain rfl | rfl : val = 0 ∨ val = 1 := Nat.le_one_iff_eq_zero_or_eq_one.1 (Nat.not_lt.1 hle)
        · rfl
        · rfl
      simp_all [Instr.fields, Instr.wellFormed]
  -- the other commands with an `X` field
  case h_20 hop | h_21 hop | h_22 hop =>
    cases hop; cases hu
    obtain ⟨hlegal, rfl⟩ := Fields.withCtx_eq_ok hi
    have hsel := Fields.ctxField_ctxSel hlegal hctx
    simp_all [Instr.fields, Instr.wellFormed]
  -- a reserved opcode
  case h_29 => cases hi
  all_goals
    rename_i hop
    cases hop; cases hu; cases hi
    simp_all [Instr.fields, Instr.wellFormed]

/-! ### The constraints of R72 -/

section
variable {f : Fields}

theorem Fields.build_cfg (h : f.op = 0x40) : f.build =
    if cfgLegal f.valByte f.ctxByte then .ok (.mdlCfg f.slotNo f.valByte f.ctxByte) else .error .config := by
  simp only [Fields.build, h]

theorem Fields.build_ebit (h : f.op = 0x52) : f.build =
    if 1 < f.val then .error .field else f.withCtx (.rcEbit f.chan f.slotNo · (f.val == 1)) := by
  simp only [Fields.build, h]

/-- R68: the four commands with an `X` field refuse a `CTX` under `X = 0`. -/
theorem Fields.build_illegal_ctx (h : f.op = 0x52 ∨ f.op = 0x53 ∨ f.op = 0x54 ∨ f.op = 0x55) (hx : f.x = 0)
    (hctx : f.ctx ≠ 0) : ∃ u, usesOf f.op = some u ∧ f.build = .error .field := by
  obtain h | h | h | h := h
  · refine ⟨_, congrArg usesOf h, ?_⟩
    rw [Fields.build_ebit h]
    split
    · rfl
    · exact Fields.withCtx_illegal hx hctx _
  all_goals
    refine ⟨_, congrArg usesOf h, ?_⟩
    simp only [Fields.build, h]
    exact Fields.withCtx_illegal hx hctx _

/-- R112: the kinds and alphabets that `MDL_CFG` does not take. -/
theorem Fields.build_illegal_config (h : f.op = 0x40) (hfit : Laws.FieldsFit f)
    (hbad : 2 < f.ctx ∨ (f.ctx = 0 ∧ f.val ≠ 0) ∨ (f.ctx = 1 ∧ f.val ≠ 1) ∨ (f.ctx = 2 ∧ f.val = 0)) :
    f.build = .error .config := by
  obtain ⟨-, -, -, -, -, hval, hctx⟩ := hfit
  have hrefused : ¬ cfgLegal f.valByte f.ctxByte = true := by
    rw [cfgLegal_iff, Fields.valByte_toNat hval, Fields.ctxByte_toNat hctx]
    omega
  rw [Fields.build_cfg h, if_neg hrefused]

end

/-! ### The commands of a row -/

/-- The fields of a word with opcode `op` and a 1 in every field its row uses. -/
def Uses.ones (u : Uses) (op : Nat) : Fields where
  op := op
  ch := u.ch.toNat
  slot := u.slot.toNat
  x := u.x.toNat
  val := u.val.toNat
  ctx := u.ctx.toNat

theorem Uses.ones_fit (u : Uses) {op : Nat} (h : op < 256) : Laws.FieldsFit (u.ones op) := by
  have hlt (b : Bool) : b.toNat < 2 := b.toNat_lt
  have hlt' (b : Bool) {n : Nat} (hn : 2 ≤ n) : b.toNat < n := (hlt b).trans_le hn
  exact ⟨h, hlt' _ (by decide), hlt' _ (by decide), hlt _, Nat.zero_lt_succ 3, hlt' _ (by decide), hlt' _ (by decide)⟩

theorem Uses.unusedZero_ones (u : Uses) (op : Nat) : u.unusedZero (u.ones op) = true := by
  simp +contextual [Uses.unusedZero_iff, Uses.ones]

/-- Every row of R72 has a command that differs from 0 in all the fields the row uses: with 1 in each of them the row's
constraints hold (`MDL_CFG` makes a `BIN` slot of two symbols). -/
theorem Uses.exists_fields_eq_ones {op : Nat} {u : Uses} (h : op < 256) (hu : usesOf op = some u) :
    ∃ i : Instr, i.fields = u.ones op ∧ i.wellFormed = true := by
  have hbuild : ∃ i, (u.ones op).build = .ok i := by
    unfold usesOf at hu
    split at hu <;> cases hu <;> exact ⟨_, rfl⟩
  obtain ⟨i, hi⟩ := hbuild
  exact ⟨i, Fields.fields_of_build (u.ones_fit h) hu (u.unusedZero_ones op) hi⟩

/-- A field that is 0 in the row's word of ones is not used, so it is 0 wherever the unused fields are. -/
theorem Uses.field_eq_zero {u : Uses} {f : Fields} {op : Nat} {g : Fields → Nat}
    (hg : g = Fields.rsv ∨ g = Fields.ch ∨ g = Fields.slot ∨ g = Fields.x ∨ g = Fields.val ∨ g = Fields.ctx)
    (hz : u.unusedZero f = true) (hones : g (u.ones op) = 0) : g f = 0 := by
  obtain ⟨hrsv, hch, hslot, hx, hval, hctx⟩ := Uses.unusedZero_iff.1 hz
  obtain rfl | rfl | rfl | rfl | rfl | rfl := hg
  · exact hrsv
  · exact hch (Bool.toNat_eq_zero.1 hones)
  · exact hslot (Bool.toNat_eq_zero.1 hones)
  · exact hx (Bool.toNat_eq_zero.1 hones)
  · exact hval (Bool.toNat_eq_zero.1 hones)
  · exact hctx (Bool.toNat_eq_zero.1 hones)

/-! ### The decoder -/

section
variable {w : Word} {u : Uses}

theorem fieldsOf_encode (i : Instr) : fieldsOf (encode i) = i.fields := Laws.fieldsOf_word _ (Laws.fields_fit i)

theorem fieldsOf_op (w : Word) : (fieldsOf w).op = w.toNat % 256 := by simp [fieldsOf, bitField]

theorem decode_eq_opcode (hu : usesOf (fieldsOf w).op = none) : decode w = .error .opcode := by simp only [decode, hu]

theorem decode_eq_build (hu : usesOf (fieldsOf w).op = some u) (hz : u.unusedZero (fieldsOf w) = true) :
    decode w = (fieldsOf w).build := by
  simp only [decode, hu, hz, if_true]

/-- R71: unused fields and the row's constraints on a field raise the same subcode, so their order does not matter. -/
theorem decode_eq_field (hu : usesOf (fieldsOf w).op = some u)
    (h : u.unusedZero (fieldsOf w) = true → (fieldsOf w).build = .error .field) : decode w = .error .field := by
  by_cases hz : u.unusedZero (fieldsOf w) = true
  · rw [decode_eq_build hu hz, h hz]
  · simp only [decode, hu, if_neg hz]

theorem exists_usesOf_of_decode {i : Instr} (h : decode w = .ok i) :
    ∃ u, usesOf (fieldsOf w).op = some u ∧ u.unusedZero (fieldsOf w) = true ∧ (fieldsOf w).build = .ok i := by
  cases hu : usesOf (fieldsOf w).op with
  | none =>
    rw [decode_eq_opcode hu] at h
    cases h
  | some u =>
    by_cases hz : u.unusedZero (fieldsOf w) = true
    · exact ⟨u, rfl, hz, decode_eq_build hu hz ▸ h⟩
    · rw [decode_eq_field hu fun h => absurd h hz] at h
      cases h

end

/-- R73: the rows of R72 leave out exactly the opcodes listed as reserved. -/
theorem usesOf_eq_none_iff {op : Nat} (h : op < 256) : usesOf op = none ↔ Machine.ReservedOpcode op := by
  unfold usesOf
  split
  case h_29 =>
    simp only [Machine.ReservedOpcode, true_iff, imp_false] at *
    omega
  all_goals decide

end Sys2Proof

namespace Sys2Proof.Machine

/-! ### A word that is no command -/

section
variable {s : State} {why : Illegal}

theorem State.failedUntouched_raise (s : State) (e : Cause) : s.FailedUntouched (s.raise e) e :=
  ⟨⟨rfl, rfl, rfl, rfl, rfl, rfl, rfl, rfl, rfl, rfl, rfl, rfl⟩, ⟨rfl, rfl, rfl, rfl⟩, rfl⟩

theorem step_of_engineMoves (h : s.EngineMoves) : step s = engineStep s := by
  obtain ⟨hrst, hbusy, hport⟩ := h
  have hrun : s.running = true := by rw [State.running, hbusy, hrst]; rfl
  cases hp : s.port with
  | nil => simp only [step, hp, hrun, if_true]
  | cons e rest =>
    have he : e.early = false := hport e (by rw [hp]; rfl)
    simp [step, hp, hrun, he]

theorem step_of_decode_error (h : s.EngineMoves) (hw : decode s.cmd = .error why) :
    step s = .next (s.raise (.illegal why)) := by
  rw [step_of_engineMoves h, engineStep, hw]

/-- R71, R150: a word that is no command ends in error entry with code 5, with nothing else changed. -/
theorem exists_step_of_decode_error (h : s.EngineMoves) (hw : decode s.cmd = .error why) :
    ∃ t, step s = .next t ∧ s.FailedUntouched t (.illegal why)
      ∧ t.status.errcode = 5#8 ∧ t.errinfo = (Cause.illegal why).sub ∧ t.errcmd = s.cmd :=
  ⟨_, step_of_decode_error h hw, s.failedUntouched_raise _, rfl, rfl, rfl⟩

end

/-! ### The statements -/

/-- Settles O1: the word of a command has the command's fields, and its row builds the command from them. -/
theorem decodeOfEncodeIsTheCommand : Obligations.DecodeOfEncodeIsTheCommand := by
  intro i hi
  obtain ⟨u, hu, hz⟩ := i.exists_usesOf
  rw [← fieldsOf_encode] at hu hz
  rw [decode_eq_build hu hz, fieldsOf_encode, Instr.build_fields hi]

/-- Settles O2: the command has the word's fields, and a word is given by its fields. -/
theorem encodeOfDecodeIsTheWord : Obligations.EncodeOfDecodeIsTheWord := by
  intro w i h
  obtain ⟨u, hu, hz, hbuild⟩ := exists_usesOf_of_decode h
  obtain ⟨hfields, hwf⟩ := Fields.fields_of_build (Laws.fieldsOf_fit w) hu hz hbuild
  exact ⟨by rw [encode, hfields, Laws.word_fieldsOf], hwf⟩

/-- Settles O3: each word is the encoding of its command. -/
theorem wordsOfTheSpecDecode : Obligations.WordsOfTheSpecDecode :=
  have h := decodeOfEncodeIsTheCommand
  ⟨h (.mdlCfg 1 0xFF#8 2#8) rfl, h (.mdlCfg 0 1#8 1#8) rfl, h (.rcEsym 2 1 (.explicit 7#8) 99#8) rfl,
    h (.rcEbit 1 0 .chain true) rfl, h (.rcDfin 1) rfl, h (.mdlSetctx 2 4#8) rfl, h (.rcDstream 1 1) rfl, h .zrlJoin rfl,
    h .bwtFwd rfl, h .mtfDec rfl⟩

/-- Settles O4, by the table of R72: a reserved opcode has no row, and every other one has a command. -/
theorem reservedOpcodeRaisesIllegalOne : Obligations.ReservedOpcodeRaisesIllegalOne := by
  have hdecode (w : Word) (h : ReservedOpcode (w.toNat % 256)) : decode w = .error .opcode := by
    rw [← usesOf_eq_none_iff (Nat.mod_lt _ (by decide)), ← fieldsOf_op] at h
    exact decode_eq_opcode h
  refine ⟨by decide +kernel, fun op hop => ?_, hdecode, fun s hs h => exists_step_of_decode_error hs (hdecode _ h)⟩
  rw [← usesOf_eq_none_iff hop]
  constructor
  · rintro hnone i rfl
    obtain ⟨u, hu, -⟩ := i.exists_usesOf
    rw [hnone] at hu
    cases hu
  · intro hall
    cases hu : usesOf op with
    | none => rfl
    | some u =>
      obtain ⟨i, hi, -⟩ := Uses.exists_fields_eq_ones hop hu
      exact absurd (congrArg Fields.op hi) (hall i)

/-- Settles O5, by the decoder's order of checks: the unused fields, then the row's constraints. -/
theorem illegalFieldsRaiseTheirSubcode : Obligations.IllegalFieldsRaiseTheirSubcode := by
  intro s hs w raises
  have hfit : Laws.FieldsFit w := Laws.fieldsOf_fit s.cmd
  have hfield (h : decode s.cmd = .error .field) : raises .field 2#32 := exists_step_of_decode_error hs h
  have hconfig (h : decode s.cmd = .error .config) : raises .config 3#32 := exists_step_of_decode_error hs h
  refine ⟨fun g hg hne ⟨i, _, hop⟩ hunused => hfield ?_, fun hop hval => hfield ?_, fun hop hx hctx => hfield ?_,
    fun hop hrsv hch hx hbad => hconfig ?_⟩
  · obtain ⟨u, hu, -⟩ := i.exists_usesOf
    rw [hop] at hu
    obtain ⟨j, hj, hwf⟩ := Uses.exists_fields_eq_ones hfit.1 hu
    have hones : g (u.ones w.op) = 0 := hj ▸ hunused j hwf (congrArg Fields.op hj :)
    exact decode_eq_field hu fun hz => absurd (Uses.field_eq_zero hg hz hones) hne
  · refine decode_eq_field (congrArg usesOf hop) fun _ => ?_
    rw [Fields.build_ebit hop, if_pos hval]
  · obtain ⟨u, hu, hbuild⟩ := Fields.build_illegal_ctx hop hx hctx
    exact decode_eq_field hu fun _ => hbuild
  · have hu := congrArg usesOf hop
    rw [decode_eq_build hu (Uses.unusedZero_iff.2 ⟨hrsv, fun _ => hch, nofun, fun _ => hx, nofun, nofun⟩)]
    exact Fields.build_illegal_config hop hfit hbad

end Sys2Proof.Machine
end

section
/-!
The BWT (O8-O10). Three ideas: `rankOf` is strictly increasing in `RowLt`, the stable order of the rows (R81);
`sortedOrder` is Mathlib's insertion sort by the key of R79; and the rank mapping sends the row of a rotation to a row
of the rotation one byte earlier, because both list the same sorted words (R82).
-/

namespace Sys2Proof.Machine

/-! ### The rank mapping (R81) -/

/-- Row `i` goes before row `j` in the stable order by byte value (R81). -/
abbrev RowLt (l : List Byte) (i j : Nat) : Prop :=
  (l.getD i 0#8).toNat < (l.getD j 0#8).toNat ∨ (l.getD i 0#8 = l.getD j 0#8 ∧ i < j)

section
variable {l : List Byte} {i j : Nat}

theorem rowLt_trichotomous (l : List Byte) (i j : Nat) : RowLt l i j ∨ i = j ∨ RowLt l j i := by
  unfold RowLt
  rcases lt_trichotomy (l.getD i 0#8).toNat (l.getD j 0#8).toNat with h | h | h
  · exact .inl (.inl h)
  · have hb := BitVec.eq_of_toNat_eq h
    rcases lt_trichotomy i j with hij | hij | hij
    · exact .inl (.inr ⟨hb, hij⟩)
    · exact .inr (.inl hij)
    · exact .inr (.inr (.inr ⟨hb.symm, hij⟩))
  · exact .inr (.inr (.inl h))

/-- The bytes below `x` and the copies of `x` are among those below any greater bound. -/
theorem countP_lt_add_count_le (l : List Byte) {x : Byte} {bound : Nat} (h : x.toNat < bound) :
    l.countP (fun b => decide (b.toNat < x.toNat)) + l.count x ≤ l.countP fun b => decide (b.toNat < bound) := by
  induction l with
  | nil => simp
  | cons b l ih =>
    simp only [List.countP_cons, List.count_cons, decide_eq_true_eq, beq_iff_eq]
    by_cases hb : b = x
    · subst hb; simp only [lt_irrefl, h, if_true, if_false]; omega
    · simp only [hb, if_false]; split_ifs <;> omega

/-- A byte occurs at its own index, so the bytes up to any later index hold more of it. -/
theorem count_take_lt (hij : i < j) (hj : j ≤ l.length) :
    (l.take i).count (l.getD i 0#8) < (l.take j).count (l.getD i 0#8) := by
  have hi : i < l.length := by omega
  have hsub : (l.take (i + 1)).Sublist (l.take j) := List.take_sublist_take_left (by omega)
  have hle := hsub.count_le (l.getD i 0#8)
  rw [List.take_succ_eq_append_getElem hi, List.count_append, ← List.getD_eq_getElem l 0#8 hi,
    List.count_singleton_self] at hle
  omega

/-- A row's rank is below any count of bytes that takes in the row's own byte and all smaller ones. -/
theorem rankOf_lt_countP (hi : i < l.length) {bound : Nat} (h : (l.getD i 0#8).toNat < bound) :
    rankOf l i < l.countP fun b => decide (b.toNat < bound) := by
  have hcount := count_take_lt hi le_rfl
  rw [List.take_length] at hcount
  have := countP_lt_add_count_le l h
  unfold rankOf
  omega

theorem rankOf_lt_length (hi : i < l.length) : rankOf l i < l.length :=
  (rankOf_lt_countP hi (l.getD i 0#8).isLt).trans_le List.countP_le_length

theorem rankOf_lt_rankOf (hi : i < l.length) (hj : j < l.length) (h : RowLt l i j) : rankOf l i < rankOf l j := by
  rcases h with hlt | ⟨heq, hij⟩
  · exact (rankOf_lt_countP hi hlt).trans_le (Nat.le_add_right ..)
  · have := count_take_lt hij hj.le
    unfold rankOf
    rw [← heq]
    omega

theorem rankOf_lt_rankOf_iff (hi : i < l.length) (hj : j < l.length) :
    rankOf l i < rankOf l j ↔ RowLt l i j := by
  refine ⟨fun h => ?_, rankOf_lt_rankOf hi hj⟩
  rcases rowLt_trichotomous l i j with hij | rfl | hji
  · exact hij
  · exact absurd h (lt_irrefl _)
  · exact absurd h (rankOf_lt_rankOf hj hi hji).not_gt

theorem rankMap_getD (hi : i < l.length) : (rankMap l).getD i 0 = rankOf l i := by
  simp [rankMap, hi]

theorem rankMap_nodup (l : List Byte) : (rankMap l).Nodup := by
  refine List.Nodup.map_on (fun i hi j hj h => ?_) List.nodup_range
  rw [List.mem_range] at hi hj
  rcases rowLt_trichotomous l i j with hij | hij | hji
  · exact absurd h (rankOf_lt_rankOf hi hj hij).ne
  · exact hij
  · exact absurd h (rankOf_lt_rankOf hj hi hji).ne'

/-- `T` of R81 is a permutation of the rows: `n` different ranks below `n`. -/
theorem rankMap_perm_range (l : List Byte) : (rankMap l).Perm (List.range l.length) := by
  have hsub : rankMap l ⊆ List.range l.length := by
    simp only [rankMap, List.subset_def, List.mem_map, List.mem_range]
    rintro _ ⟨i, hi, rfl⟩
    exact rankOf_lt_length hi
  exact ((rankMap_nodup l).subperm hsub).perm_of_length_le (by simp)

@[simp] theorem walkBack_length (l : List Byte) (t : List Nat) (k q : Nat) : (walkBack l t k q).length = k := by
  induction k generalizing q with
  | zero => rfl
  | succ k ih => simp [walkBack, ih]

@[simp] theorem ibwt_length (l : List Byte) (p : Nat) : (ibwt l p).length = l.length := walkBack_length ..

end

/-- Settles O10: `rankOf` is strictly increasing in the stable order of the rows. -/
theorem rankMapIsAStablePermutation : Obligations.RankMapIsAStablePermutation := by
  refine fun l => ⟨rankMap_perm_range l, fun i j hi hj => ?_, ibwt_length l⟩
  rw [rankMap_getD hi, rankMap_getD hj]
  exact rankOf_lt_rankOf_iff hi hj

/-! ### Byte sequences in order (R78) -/

/-- A byte sequence as unsigned numbers, whose lexicographic order is Mathlib's. -/
def unsignedBytes (s : List Byte) : List Nat := s.map BitVec.toNat

@[simp] theorem unsignedBytes_nil : unsignedBytes [] = [] := rfl

@[simp] theorem unsignedBytes_cons (b : Byte) (s : List Byte) :
    unsignedBytes (b :: s) = b.toNat :: unsignedBytes s := rfl

@[simp] theorem unsignedBytes_append (s t : List Byte) :
    unsignedBytes (s ++ t) = unsignedBytes s ++ unsignedBytes t := List.map_append

@[simp] theorem unsignedBytes_length (s : List Byte) : (unsignedBytes s).length = s.length := List.length_map ..

theorem unsignedBytes_injective : Function.Injective unsignedBytes :=
  List.map_injective_iff.2 fun _ _ => BitVec.eq_of_toNat_eq

theorem lex_iff_unsignedBytes_lt (s t : List Byte) :
    List.Lex (fun a b : Byte => a.toNat < b.toNat) s t ↔ unsignedBytes s < unsignedBytes t := by
  induction s generalizing t with
  | nil => cases t <;> simp
  | cons a s ih =>
    cases t with
    | nil => simp
    | cons b t => simp [List.cons_lex_cons_iff, List.cons_lt_cons_iff, ih, BitVec.toNat_inj]

theorem bytesLe_iff (s t : List Byte) : bytesLe s t = true ↔ unsignedBytes s ≤ unsignedBytes t := by
  rw [le_iff_lt_or_eq, unsignedBytes_injective.eq_iff]
  induction s generalizing t with
  | nil => cases t <;> simp [bytesLe]
  | cons a s ih =>
    cases t with
    | nil => simp [bytesLe]
    | cons b t =>
      simp only [bytesLe, Bool.or_eq_true, Bool.and_eq_true, decide_eq_true_eq, beq_iff_eq, ih, unsignedBytes_cons,
        List.cons_lt_cons_iff, BitVec.toNat_inj, List.cons.injEq]
      tauto

/-- Before sequences of one length, what is appended decides nothing. -/
theorem append_lt_append_of_lt {u v : List Nat} (h : u < v) (hlen : u.length = v.length) (x y : List Nat) :
    u ++ x < v ++ y := by
  induction u generalizing v with
  | nil => cases v <;> simp_all
  | cons a u ih =>
    cases v with
    | nil => simp at hlen
    | cons b v =>
      simp only [List.length_cons, Nat.add_right_cancel_iff] at hlen
      rw [List.cons_lt_cons_iff] at h
      rw [List.cons_append, List.cons_append, List.cons_lt_cons_iff]
      exact h.imp_right fun ⟨hab, huv⟩ => ⟨hab, ih huv hlen⟩

/-! ### The sorted order (R79) -/

/-- A rotation as a word of numbers, on which `≤` is the order of R78. -/
def rotWord (s : List Byte) (i : Nat) : List Nat := unsignedBytes (rot s i)

theorem rotWord_inj {s : List Byte} {i j : Nat} : rotWord s i = rotWord s j ↔ rot s i = rot s j :=
  unsignedBytes_injective.eq_iff

/-- The sort key of R79. -/
def rotKey (s : List Byte) (i : Nat) : List Nat ×ₗ Nat := toLex (rotWord s i, i)

section
variable (s : List Byte)

theorem rotKey_injective : Function.Injective (rotKey s) := fun _ _ h => congrArg (fun k => (ofLex k).2) h

theorem rotKey_lt_iff (i j : Nat) : rotKey s i < rotKey s j ↔
    List.Lex (fun a b : Byte => a.toNat < b.toNat) (rot s i) (rot s j) ∨ (rot s i = rot s j ∧ i < j) := by
  rw [rotKey, rotKey, Prod.Lex.toLex_lt_toLex, lex_iff_unsignedBytes_lt, rotWord_inj]
  rfl

theorem rotLe_iff (i j : Nat) : rotLe s i j = true ↔ rotKey s i ≤ rotKey s j := by
  rw [rotKey, rotKey, Prod.Lex.toLex_le_toLex, rotLe]
  split_ifs with h
  · simp [rotWord, h]
  · have hne : rotWord s i ≠ rotWord s j := mt rotWord_inj.1 h
    rw [bytesLe_iff, ← rotWord, ← rotWord, le_iff_lt_or_eq]
    simp [hne]

theorem insertIndex_eq_orderedInsert (i : Nat) (l : List Nat) :
    insertIndex s i l = l.orderedInsert (rotKey s ⁻¹'o (· ≤ ·)) i := by
  induction l with
  | nil => rfl
  | cons j l ih => simp only [insertIndex, List.orderedInsert_cons, Order.Preimage, rotLe_iff, ih]

theorem sortedOrder_eq_insertionSort :
    sortedOrder s = (List.range s.length).insertionSort (rotKey s ⁻¹'o (· ≤ ·)) := by
  rw [sortedOrder, funext₂ (insertIndex_eq_orderedInsert s)]
  rfl

theorem sortedOrder_perm_range : (sortedOrder s).Perm (List.range s.length) :=
  sortedOrder_eq_insertionSort s ▸ List.perm_insertionSort ..

theorem sortedOrder_nodup : (sortedOrder s).Nodup := (sortedOrder_perm_range s).nodup_iff.2 List.nodup_range

theorem mem_sortedOrder {i : Nat} : i ∈ sortedOrder s ↔ i < s.length := by
  rw [(sortedOrder_perm_range s).mem_iff, List.mem_range]

/-- No two start indices have one key, so the sorted order is strict. -/
theorem sortedOrder_pairwise_lt : (sortedOrder s).Pairwise fun i j => rotKey s i < rotKey s j := by
  have hle : (sortedOrder s).Pairwise (rotKey s ⁻¹'o (· ≤ ·)) :=
    sortedOrder_eq_insertionSort s ▸ List.pairwise_insertionSort ..
  exact hle.imp₂ (fun _ _ hle hne => lt_of_le_of_ne hle ((rotKey_injective s).ne hne)) (sortedOrder_nodup s)

end

/-! ### Rotations and the byte before each (R78, R80) -/

/-- The start index before `a`, cyclically. -/
def precedingIndex (s : List Byte) (a : Nat) : Nat := (a + s.length - 1) % s.length

section
variable {s : List Byte}

theorem rot_eq_rotate {i : Nat} (h : i ≤ s.length) : rot s i = s.rotate i := (List.rotate_eq_drop_append_take h).symm

theorem rot_zero (s : List Byte) : rot s 0 = s := by simp [rot]

theorem rot_length {i : Nat} (h : i ≤ s.length) : (rot s i).length = s.length := by
  rw [rot_eq_rotate h, List.length_rotate]

theorem precedingIndex_lt {a : Nat} (ha : a < s.length) : precedingIndex s a < s.length := Nat.mod_lt _ (by omega)

/-- One step back from a rotation takes its last byte to the front. -/
theorem exists_rot_eq_append {a : Nat} (ha : a < s.length) :
    ∃ u, u.length + 1 = s.length ∧ rot s (precedingIndex s a) = s.getD (precedingIndex s a) 0#8 :: u
      ∧ rot s a = u ++ [s.getD (precedingIndex s a) 0#8] := by
  have hp := precedingIndex_lt ha
  have hsucc : (precedingIndex s a + 1) % s.length = a := by
    rw [precedingIndex, Nat.mod_add_mod, show a + s.length - 1 + 1 = a + s.length by omega, Nat.add_mod_right,
      Nat.mod_eq_of_lt ha]
  have hfront : rot s (precedingIndex s a) = s.getD (precedingIndex s a) 0#8 ::
      (s.drop (precedingIndex s a + 1) ++ s.take (precedingIndex s a)) := by
    rw [rot, List.drop_eq_getElem_cons hp, List.getD_eq_getElem _ _ hp, List.cons_append]
  refine ⟨_, by simp only [List.length_append, List.length_drop, List.length_take]; omega, hfront, ?_⟩
  have hrot : rot s a = (rot s (precedingIndex s a)).rotate 1 := by
    rw [rot_eq_rotate ha.le, rot_eq_rotate hp.le, List.rotate_rotate, ← List.rotate_mod s (_ + 1), hsucc]
  rw [hrot, hfront, List.rotate_cons_succ, List.rotate_zero]

/-- Stepping back permutes the start indices. -/
theorem map_precedingIndex_perm (s : List Byte) :
    ((List.range s.length).map (precedingIndex s)).Perm (List.range s.length) := by
  have hrot : (List.range s.length).map (precedingIndex s) = (List.range s.length).rotate (s.length - 1) := by
    refine List.ext_getElem (by simp) fun k hk _ => ?_
    simp only [List.length_map, List.length_range] at hk
    simp only [List.getElem_map, List.getElem_range, List.getElem_rotate, List.length_range, precedingIndex]
    congr 1
    omega
  exact hrot ▸ List.rotate_perm _ _

theorem sortedOrder_getD_lt {k : Nat} (hk : k < s.length) : (sortedOrder s).getD k 0 < s.length := by
  rw [List.getD_eq_getElem _ _ (by simpa using hk)]
  exact (mem_sortedOrder s).1 (List.getElem_mem _)

theorem bwt_fst (s : List Byte) :
    (bwt s).1 = (sortedOrder s).map fun a => s.getD (precedingIndex s a) 0#8 := rfl

@[simp] theorem bwt_length (s : List Byte) : (bwt s).1.length = s.length := by simp [bwt_fst]

theorem bwt_getD {k : Nat} (hk : k < s.length) :
    (bwt s).1.getD k 0#8 = s.getD (precedingIndex s ((sortedOrder s).getD k 0)) 0#8 := by
  have hk' : k < (sortedOrder s).length := by simpa using hk
  rw [bwt_fst, List.getD_eq_getElem _ _ (by simpa using hk), List.getElem_map, List.getD_eq_getElem _ 0 hk']

theorem bwt_snd (hs : s ≠ []) : (bwt s).2 = (sortedOrder s).idxOf 0 := by
  have hlen : 0 < (sortedOrder s).length := by simpa using List.length_pos_of_ne_nil hs
  simp [bwt, primaryIndex, List.ne_nil_of_length_pos hlen]

theorem zero_mem_sortedOrder (hs : s ≠ []) : 0 ∈ sortedOrder s :=
  (mem_sortedOrder s).2 (List.length_pos_of_ne_nil hs)

theorem bwt_snd_lt (hs : s ≠ []) : (bwt s).2 < s.length := by
  rw [bwt_snd hs, ← sortedOrder_length s]
  exact List.idxOf_lt_length_of_mem (zero_mem_sortedOrder hs)

theorem sortedOrder_getElem?_bwt_snd (hs : s ≠ []) : (sortedOrder s)[(bwt s).2]? = some 0 := by
  rw [bwt_snd hs, List.getElem?_eq_getElem (List.idxOf_lt_length_of_mem (zero_mem_sortedOrder hs)), List.getElem_idxOf]

end

/-- Before an element's place in a strictly sorted list stand exactly the smaller elements. -/
theorem mem_take_iff_of_pairwise_lt {α β : Type} [Preorder β] {key : α → β} {l : List α}
    (h : l.Pairwise fun a b => key a < key b) {p : Nat} {x : α} (hp : l[p]? = some x) (a : α) :
    a ∈ l.take p ↔ a ∈ l ∧ key a < key x := by
  obtain ⟨hlt, rfl⟩ := List.getElem?_eq_some_iff.1 hp
  rw [List.pairwise_iff_getElem] at h
  constructor
  · intro ha
    obtain ⟨i, hi, rfl⟩ := List.mem_take_iff_getElem.1 ha
    exact ⟨List.getElem_mem _, h i p (by omega) hlt (by omega)⟩
  · rintro ⟨ha, hkey⟩
    obtain ⟨i, hi, rfl⟩ := List.getElem_of_mem ha
    rcases lt_trichotomy i p with hip | rfl | hpi
    · exact List.mem_take_iff_getElem.2 ⟨i, by omega, rfl⟩
    · exact absurd hkey (lt_irrefl _)
    · exact absurd hkey (h p i hlt hi hpi).not_gt

/-- The rows above the primary index are the rotations smaller than rotation 0: an equal one has a greater index. -/
theorem mem_take_bwt_snd {s : List Byte} (hs : s ≠ []) (i : Nat) : i ∈ (sortedOrder s).take (bwt s).2 ↔
    i < s.length ∧ List.Lex (fun a b : Byte => a.toNat < b.toNat) (rot s i) (rot s 0) := by
  rw [mem_take_iff_of_pairwise_lt (sortedOrder_pairwise_lt s) (sortedOrder_getElem?_bwt_snd hs), mem_sortedOrder,
    rotKey_lt_iff]
  simp

/-- Settles O8: `sortedOrder` is the insertion sort of the start indices by the key of R79, and the rows above that of
rotation 0 hold the smaller rotations. -/
theorem bwtIsTheSortedRotationTransform : Obligations.BwtIsTheSortedRotationTransform := by
  refine ⟨rfl, fun s hs => ⟨fun i k hi hk => ?_, sortedOrder_perm_range s, ?_, bwt_length s, fun k hk => ?_,
    bwt_snd_lt hs, sortedOrder_getElem?_bwt_snd hs, (sortedOrder s).take (bwt s).2, ?_, ?_, mem_take_bwt_snd hs⟩⟩
  · rw [rot_eq_rotate hi.le, List.getElem?_rotate hk, Nat.add_comm]
  · exact (sortedOrder_pairwise_lt s).imp fun h => (rotKey_lt_iff s _ _).1 h
  · have hp := precedingIndex_lt (sortedOrder_getD_lt hk)
    have h := bwt_getD hk
    rw [List.getD_eq_getElem _ _ (by simpa using hk), List.getD_eq_getElem _ _ hp] at h
    rw [List.getElem?_eq_getElem (by simpa using hk), h]
    exact (List.getElem?_eq_getElem hp).symm
  · exact (sortedOrder_nodup s).sublist (List.take_sublist _ _)
  · rw [List.length_take, sortedOrder_length, min_eq_left (bwt_snd_lt hs).le]

/-! ### The inverse law (R82) -/

/-- The rows taken by rank are all rows: `t.idxOf` inverts the ranking `t`. -/
theorem map_idxOf_perm_range {n : Nat} {t : List Nat} (ht : t.Perm (List.range n)) :
    ((List.range n).map t.idxOf).Perm (List.range n) := by
  have hlen : t.length = n := by simpa using ht.length_eq
  have hself : t.map t.idxOf = List.range n := by
    refine List.ext_getElem (by simpa using hlen) fun k _ _ => ?_
    rw [List.getElem_map, (ht.nodup_iff.2 List.nodup_range).idxOf_getElem, List.getElem_range]
  simpa only [hself] using (ht.map t.idxOf).symm

/-- Let `f` list the values of `g` in sorted order. A ranking `t` that puts no greater value of `g` before a smaller one
gives each its place in `f`: `f` and `g` by rank are both sorted, and permutations of each other. -/
theorem sorted_apply_rank {α : Type} [LinearOrder α] {n : Nat} {t : List Nat} {f g : Nat → α}
    (ht : t.Perm (List.range n)) (hf : ∀ i j, i < j → j < n → f i ≤ f j)
    (hg : ∀ i j, i < n → j < n → t.getD i 0 < t.getD j 0 → g i ≤ g j)
    (hperm : ((List.range n).map g).Perm ((List.range n).map f)) {k : Nat} (hk : k < n) : f (t.getD k 0) = g k := by
  have hlen : t.length = n := by simpa using ht.length_eq
  have hnd : t.Nodup := ht.nodup_iff.2 List.nodup_range
  have hmem {q : Nat} (hq : q ∈ List.range n) : q ∈ t := ht.mem_iff.2 hq
  have hsortedF : ((List.range n).map f).Pairwise (· ≤ ·) :=
    List.pairwise_map.2 (List.pairwise_lt_range.imp_of_mem fun _ hj hij => hf _ _ hij (List.mem_range.1 hj))
  have hsortedG : (((List.range n).map t.idxOf).map g).Pairwise (· ≤ ·) := by
    refine List.pairwise_map.2 (List.pairwise_map.2 (List.pairwise_lt_range.imp_of_mem fun {q q'} hq hq' hlt => ?_))
    obtain ⟨i, hi, rfl⟩ := List.getElem_of_mem (hmem hq)
    obtain ⟨j, hj, rfl⟩ := List.getElem_of_mem (hmem hq')
    rw [hnd.idxOf_getElem, hnd.idxOf_getElem]
    refine hg i j (hlen ▸ hi) (hlen ▸ hj) ?_
    rwa [List.getD_eq_getElem _ _ hi, List.getD_eq_getElem _ _ hj]
  have heq : (List.range n).map f = ((List.range n).map t.idxOf).map g :=
    List.Perm.eq_of_pairwise' hsortedF hsortedG (hperm.symm.trans ((map_idxOf_perm_range ht).map g).symm)
  rw [List.map_map, List.map_inj_left] at heq
  have hkt : k < t.length := hlen ▸ hk
  rw [List.getD_eq_getElem _ _ hkt, heq _ (ht.mem_iff.1 (List.getElem_mem hkt)), Function.comp_apply, hnd.idxOf_getElem]

section
variable {s : List Byte}

/-- The sorted order lists the rotations in the order of their bytes. -/
theorem rotWord_sortedOrder_le {i j : Nat} (hij : i < j) (hj : j < s.length) :
    rotWord s ((sortedOrder s).getD i 0) ≤ rotWord s ((sortedOrder s).getD j 0) := by
  have hj' : j < (sortedOrder s).length := by simpa using hj
  have hlt := List.pairwise_iff_getElem.1 (sortedOrder_pairwise_lt s) i j (hij.trans hj') hj' hij
  rw [List.getD_eq_getElem _ _ (hij.trans hj'), List.getD_eq_getElem _ _ hj']
  exact Prod.Lex.monotone_fst_ofLex hlt.le

/-- Rows rank as the rotations one byte earlier: those begin with the row's byte of `L` and go on as the row's own
rotation does. -/
theorem rotWord_precedingIndex_le {i j : Nat} (hi : i < s.length) (hj : j < s.length) (h : RowLt (bwt s).1 i j) :
    rotWord s (precedingIndex s ((sortedOrder s).getD i 0))
      ≤ rotWord s (precedingIndex s ((sortedOrder s).getD j 0)) := by
  obtain ⟨u, hulen, hu, hui⟩ := exists_rot_eq_append (sortedOrder_getD_lt hi)
  obtain ⟨v, hvlen, hv, hvj⟩ := exists_rot_eq_append (sortedOrder_getD_lt hj)
  rw [RowLt, bwt_getD hi, bwt_getD hj] at h
  rw [rotWord, rotWord, hu, hv, unsignedBytes_cons, unsignedBytes_cons]
  rcases h with hlt | ⟨heq, hij⟩
  · exact (List.cons_lt_cons_iff.2 (.inl hlt)).le
  · rw [heq]
    refine List.cons_le_cons _ (le_of_not_gt fun hvu => ?_)
    have hle := rotWord_sortedOrder_le hij hj
    rw [rotWord, rotWord, hui, hvj, unsignedBytes_append, unsignedBytes_append] at hle
    exact hle.not_gt (append_lt_append_of_lt hvu (by simp only [unsignedBytes_length]; omega) _ _)

theorem rankMap_bwt_getD_lt {k : Nat} (hk : k < s.length) : (rankMap (bwt s).1).getD k 0 < s.length := by
  have hk' : k < (bwt s).1.length := by simpa using hk
  simpa only [rankMap_getD hk', bwt_length] using rankOf_lt_length hk'

/-- The rows hold every rotation, and so do the rotations one byte earlier. -/
theorem map_rotWord_precedingIndex_perm (s : List Byte) :
    ((List.range s.length).map fun k => rotWord s (precedingIndex s ((sortedOrder s).getD k 0))).Perm
      ((List.range s.length).map fun k => rotWord s ((sortedOrder s).getD k 0)) := by
  have hrows : (List.range s.length).map (fun k => (sortedOrder s).getD k 0) = sortedOrder s :=
    List.ext_getElem (by simp) fun k _ hk => by
      rw [List.getElem_map, List.getElem_range, List.getD_eq_getElem _ _ hk]
  have hback : ((sortedOrder s).map (precedingIndex s)).Perm (sortedOrder s) :=
    ((sortedOrder_perm_range s).map _).trans ((map_precedingIndex_perm s).trans (sortedOrder_perm_range s).symm)
  have hword := hback.map (rotWord s)
  rw [← hrows] at hword
  simpa only [List.map_map, Function.comp_def] using hword

/-- The rank mapping leads from the row of a rotation to a row of the rotation one byte earlier (R81, R82). Which row,
where several hold equal rotations, is left free, so this speaks of rotations and not of start indices. -/
theorem rot_rankMap {k : Nat} (hk : k < s.length) :
    rot s ((sortedOrder s).getD ((rankMap (bwt s).1).getD k 0) 0)
      = rot s (precedingIndex s ((sortedOrder s).getD k 0)) := by
  have hranks : (rankMap (bwt s).1).Perm (List.range s.length) := by simpa using rankMap_perm_range (bwt s).1
  refine rotWord_inj.1 (sorted_apply_rank (f := fun q => rotWord s ((sortedOrder s).getD q 0)) hranks
    (fun i j => rotWord_sortedOrder_le) (fun i j hi hj h => rotWord_precedingIndex_le hi hj ?_)
    (map_rotWord_precedingIndex_perm s) hk)
  rw [← bwt_length s] at hi hj
  rwa [rankMap_getD hi, rankMap_getD hj, rankOf_lt_rankOf_iff hi hj] at h

/-- The walk of R81 from a row puts out the end of the row's rotation. -/
theorem walkBack_bwt {k q : Nat} (hk : k ≤ s.length) (hq : q < s.length) :
    walkBack (bwt s).1 (rankMap (bwt s).1) k q = (rot s ((sortedOrder s).getD q 0)).drop (s.length - k) := by
  induction k generalizing q with
  | zero => exact (List.drop_eq_nil_of_le (rot_length (sortedOrder_getD_lt hq).le).le).symm
  | succ k ih =>
    obtain ⟨u, hlen, hbefore, hrot⟩ := exists_rot_eq_append (sortedOrder_getD_lt hq)
    have hdrop : s.length - k = (s.length - (k + 1)) + 1 := by omega
    rw [walkBack, ih (by omega) (rankMap_bwt_getD_lt hq), rot_rankMap hq, hbefore, hrot, bwt_getD hq, hdrop,
      List.drop_succ_cons, List.drop_append_of_le_length (by omega)]

end

/-- Settles O9: the walk starts in the row of rotation 0, which is the input. -/
theorem bwtInverseLaw : Obligations.BwtInverseLaw := by
  intro s
  by_cases hs : s = []
  · subst hs; rfl
  · have hrow : (sortedOrder s).getD (bwt s).2 0 = 0 := by
      rw [List.getD_eq_getElem?_getD, sortedOrder_getElem?_bwt_snd hs, Option.getD_some]
    rw [ibwt, bwt_length, walkBack_bwt le_rfl (bwt_snd_lt hs), hrow, Nat.sub_self, List.drop_zero, rot_zero]

end Sys2Proof.Machine
end

section
/-!
The BWT commands (O11, O12): what the writes of a bulk command's plan leave in DMEM, then the two commands by the case
of their plan.
-/

namespace Sys2Proof.Machine

/-! ### The writes of a plan -/

theorem overlay_nil (m : Dmem) (a : Nat) : overlay m [] a = m.read a := rfl

/-- The first of several writes gives the byte only where no later one covers it. -/
theorem overlay_cons {m : Dmem} {w : Nat × List Byte} (h : w.1 + w.2.length ≤ m.size) (rest : List (Nat × List Byte))
    (a : Nat) : overlay m (w :: rest) a = overlay (m.writeBytes w.1 w.2) rest a := by
  have hfirst : (if w.1 ≤ a then w.2[a - w.1]? else none).getD (m.read a) = (m.writeBytes w.1 w.2).read a := by
    by_cases hin : w.1 ≤ a ∧ a < w.1 + w.2.length
    · have hread := Dmem.read_writeBytes_inside m w.1 w.2 (a - w.1) (by omega) h
      rw [Nat.add_sub_cancel' hin.1] at hread
      rw [if_pos hin.1, List.getElem?_eq_getElem (by omega), hread]
      rfl
    · rw [Dmem.read_writeBytes_outside _ _ _ _ (by omega)]
      split_ifs
      · rw [List.getElem?_eq_none (by omega)]; rfl
      · rfl
  rw [overlay, overlay, ← hfirst, List.reverse_cons, List.findSome?_append, List.findSome?_singleton, Option.getD_or]

/-- Ranges inside DMEM are written in their order, and nothing else is. -/
theorem Dmem.after_writeRanges {m : Dmem} {l : List (Nat × List Byte)} (h : ∀ w ∈ l, w.1 + w.2.length ≤ m.size) :
    m.After l (writeRanges m l) := by
  refine ⟨writeRanges_size .., writeRanges_fill .., fun a => ?_⟩
  induction l generalizing m with
  | nil => exact (overlay_nil m a).symm
  | cons w l ih =>
    obtain ⟨hw, hl⟩ := List.forall_mem_cons.1 h
    rw [overlay_cons hw, writeRanges]
    exact ih (by simpa using hl)

theorem Dmem.sameOutside_writeRanges (m : Dmem) (l : List (Nat × List Byte)) :
    m.SameOutside (writeRanges m l) (l.map fun w => (w.1, w.2.length)) :=
  ⟨writeRanges_size .., writeRanges_fill .., fun a ha => read_writeRanges_outside m l a fun w hw =>
    ha (w.1, w.2.length) (List.mem_map_of_mem hw)⟩

/-! ### Commands on a block -/

section
variable {s : State} {i : Instr} {p : Except Cause Plan}

/-- A bulk command whose checks fail does nothing (R146, R150). -/
theorem exists_failedUntouched_of_plan {e : Cause} (hi : exec i s = s.finishPlan p) (hp : p = .error e) :
    ∃ t, exec i s = .next t ∧ s.FailedUntouched t e := by
  subst hp
  exact ⟨_, hi, s.failedUntouched_raise e⟩

/-- `t` is `s` after a BWT command that wrote the bytes `bs` at `dst`, the results `r` and the scratch entries `rows`,
and nothing else (R84, R85). -/
structure State.BlockDone (s t : State) (dst : Nat) (bs : List Byte) (r : List Result) (rows : List Nat) : Prop where
  succeeded : s.Succeeded t
  after : s.dmem.After [(dst, bs)] t.dmem
  outside : s.dmem.SameOutside t.dmem [(dst, bs.length)]
  res : t.res = writeResults s.res r
  ch : t.ch = s.ch
  slot : t.slot = s.slot
  mtf : t.mtf = s.mtf
  written : ∀ k, k < rows.length → t.scratch.entry k = word (rows.getD k 0)
  kept : ∀ k, rows.length ≤ k → t.scratch.entry k = s.scratch.entry k

theorem exists_blockDone_of_plan {dst : Nat} {bs : List Byte} {r : List Result} {rows : List Nat}
    (hi : exec i s = s.finishPlan p)
    (hp : p = .ok { writes := [(dst, bs)], results := r, scratch := some (rows.map word) })
    (hfit : dst + bs.length ≤ s.dmem.size) : ∃ t, exec i s = .next t ∧ s.BlockDone t dst bs r rows := by
  subst hp
  refine ⟨_, hi, ?_⟩
  exact {
    succeeded := ⟨rfl, rfl, rfl, rfl, rfl, rfl, rfl, rfl, rfl, rfl, rfl⟩
    after := Dmem.after_writeRanges (by simpa using hfit)
    outside := Dmem.sameOutside_writeRanges s.dmem [(dst, bs)]
    res := rfl
    ch := rfl
    slot := rfl
    mtf := rfl
    written := fun k hk => (Scratch.entry_store ..).trans (by simp [hk])
    kept := fun k hk => (Scratch.entry_store ..).trans (by simp [hk]) }

end

/-! ### The plans of the two commands -/

section
variable {s : State}

theorem Dmem.inRange_iff {m : Dmem} {a n : Nat} : m.inRange a n = true ↔ a + n ≤ m.size := decide_eq_true_iff

theorem State.planBwtFwd_long (hn : s.params.maxBlock < s.argNat 2) : s.planBwtFwd = .error .blockTooLong := if_pos hn

theorem State.planBwtFwd_outside (hn : s.argNat 2 ≤ s.params.maxBlock)
    (hout : s.dmem.size < s.argNat 0 + s.argNat 2 ∨ s.dmem.size < s.argNat 1 + s.argNat 2) :
    s.planBwtFwd = .error .outOfBounds :=
  (if_neg hn.not_gt).trans (if_pos (by simp only [Dmem.inRange_iff]; omega))

theorem State.planBwtFwd_fits (hn : s.argNat 2 ≤ s.params.maxBlock) (hsrc : s.argNat 0 + s.argNat 2 ≤ s.dmem.size)
    (hdst : s.argNat 1 + s.argNat 2 ≤ s.dmem.size) : s.planBwtFwd = .ok {
      writes := [(s.argNat 1, (bwt (s.dmem.readBytes (s.argNat 0) (s.argNat 2))).1)]
      results := [(0, word (bwt (s.dmem.readBytes (s.argNat 0) (s.argNat 2))).2)]
      scratch := some ((sortedOrder (s.dmem.readBytes (s.argNat 0) (s.argNat 2))).map word) } :=
  (if_neg hn.not_gt).trans (if_neg (by simp only [Dmem.inRange_iff]; omega))

/-- R85's range of the primary index: below the length, and 0 for the empty block. -/
theorem badIndex_iff (n p : Nat) : ((0 < n ∧ n ≤ p) ∨ (n = 0 ∧ p ≠ 0)) ↔ ¬ (p < n ∨ (n = 0 ∧ p = 0)) := by omega

theorem State.planBwtInv_badIndex (hp : ¬ (s.argNat 3 < s.argNat 2 ∨ (s.argNat 2 = 0 ∧ s.argNat 3 = 0))) :
    s.planBwtInv = .error .badPrimaryIndex :=
  if_pos ((badIndex_iff ..).2 hp)

variable (hp : s.argNat 3 < s.argNat 2 ∨ (s.argNat 2 = 0 ∧ s.argNat 3 = 0))
include hp

theorem State.planBwtInv_long (hn : s.params.maxBlock < s.argNat 2) : s.planBwtInv = .error .blockTooLong :=
  (if_neg fun h => (badIndex_iff ..).1 h hp).trans (if_pos hn)

theorem State.planBwtInv_outside (hn : s.argNat 2 ≤ s.params.maxBlock)
    (hout : s.dmem.size < s.argNat 0 + s.argNat 2 ∨ s.dmem.size < s.argNat 1 + s.argNat 2) :
    s.planBwtInv = .error .outOfBounds :=
  (if_neg fun h => (badIndex_iff ..).1 h hp).trans
    ((if_neg hn.not_gt).trans (if_pos (by simp only [Dmem.inRange_iff]; omega)))

theorem State.planBwtInv_fits (hn : s.argNat 2 ≤ s.params.maxBlock) (hsrc : s.argNat 0 + s.argNat 2 ≤ s.dmem.size)
    (hdst : s.argNat 1 + s.argNat 2 ≤ s.dmem.size) : s.planBwtInv = .ok {
      writes := [(s.argNat 1, ibwt (s.dmem.readBytes (s.argNat 0) (s.argNat 2)) (s.argNat 3))]
      scratch := some ((rankMap (s.dmem.readBytes (s.argNat 0) (s.argNat 2))).map word) } :=
  (if_neg fun h => (badIndex_iff ..).1 h hp).trans
    ((if_neg hn.not_gt).trans (if_neg (by simp only [Dmem.inRange_iff]; omega)))

end

/-! ### The statements -/

theorem exec_bwtFwd_eq_finishPlan (s : State) : exec .bwtFwd s = s.finishPlan s.planBwtFwd := rfl

theorem exec_bwtInv_eq_finishPlan (s : State) : exec .bwtInv s = s.finishPlan s.planBwtInv := rfl

/-- Settles O11, by the case of R84's plan. -/
theorem bwtFwdCompletes : Obligations.BwtFwdCompletes := by
  intro s src dst n
  have hexec := exec_bwtFwd_eq_finishPlan s
  refine ⟨fun hn hsrc hdst => ?_, fun hn => exists_failedUntouched_of_plan hexec (State.planBwtFwd_long hn),
    fun hn hout => exists_failedUntouched_of_plan hexec (State.planBwtFwd_outside hn hout)⟩
  have hlen : (bwt (s.dmem.readBytes src n)).1.length = n := by simp
  have hrows : (sortedOrder (s.dmem.readBytes src n)).length = n := by simp
  obtain ⟨t, ht, h⟩ := exists_blockDone_of_plan hexec (State.planBwtFwd_fits hn hsrc hdst) (hlen.symm ▸ hdst)
  exact ⟨t, ht, h.succeeded, h.after, hlen ▸ h.outside, h.res, h.ch, h.slot, h.mtf,
    fun k hk => h.written k (hrows.symm ▸ hk), fun k hk _ => h.kept k (hrows.symm ▸ hk)⟩

/-- Settles O12, by the case of R85's plan. -/
theorem bwtInvCompletes : Obligations.BwtInvCompletes := by
  intro s src dst n p goodP
  have hexec := exec_bwtInv_eq_finishPlan s
  refine ⟨fun hp hn hsrc hdst => ?_, fun hp => exists_failedUntouched_of_plan hexec (State.planBwtInv_badIndex hp),
    fun hp hn => exists_failedUntouched_of_plan hexec (State.planBwtInv_long hp hn),
    fun hp hn hout => exists_failedUntouched_of_plan hexec (State.planBwtInv_outside hp hn hout)⟩
  have hlen : (ibwt (s.dmem.readBytes src n) p).length = n := by simp
  have hrows : (rankMap (s.dmem.readBytes src n)).length = n := by simp
  obtain ⟨t, ht, h⟩ := exists_blockDone_of_plan hexec (State.planBwtInv_fits hp hn hsrc hdst) (hlen.symm ▸ hdst)
  exact ⟨t, ht, h.succeeded, h.after, hlen ▸ h.outside, h.res, h.ch, h.slot, h.mtf,
    fun k hk => h.written k (hrows.symm ▸ hk), fun k hk _ => h.kept k (hrows.symm ▸ hk)⟩

end Sys2Proof.Machine
end

section
/-!
The move-to-front unit (O13, O14): a rank and its byte determine each other in a table that lists every byte once, so
the two passes undo each other; then both commands by the one plan they share.
-/

namespace Sys2Proof.Machine

/-! ### One rank of a pass -/

section
variable {table : List Byte}

/-- The entry at a rank, moved to the front, leaves a permutation of the table (R87). -/
theorem moveToFront_getD_perm (hlen : table.length = 256) (r : Byte) :
    (moveToFront table r.toNat (table.getD r.toNat 0#8)).Perm table := by
  have hr : r.toNat < table.length := hlen ▸ r.isLt
  simpa only [List.getD_eq_getElem _ _ hr] using moveToFront_perm hr

/-- A byte's rank fits in a byte: R86 writes it whole. -/
theorem toNat_ofNat_idxOf (hlen : table.length = 256) (hnd : table.Nodup) (b : Byte) :
    (BitVec.ofNat 8 (table.idxOf b)).toNat = table.idxOf b := by
  have hr := List.idxOf_lt_length_of_mem (mem_of_nodup_length hlen hnd b)
  rw [BitVec.toNat_ofNat, Nat.mod_eq_of_lt (hr.trans_eq hlen)]

theorem getD_idxOf (hlen : table.length = 256) (hnd : table.Nodup) (b : Byte) :
    table.getD (table.idxOf b) 0#8 = b := by
  have hr := List.idxOf_lt_length_of_mem (mem_of_nodup_length hlen hnd b)
  rw [List.getD_eq_getElem _ _ hr, List.getElem_idxOf]

theorem idxOf_getD_toNat (hlen : table.length = 256) (hnd : table.Nodup) (r : Byte) :
    table.idxOf (table.getD r.toNat 0#8) = r.toNat := by
  have hr : r.toNat < table.length := hlen ▸ r.isLt
  rw [List.getD_eq_getElem _ _ hr, hnd.idxOf_getElem]

end

/-! ### The passes -/

section
variable (table : List Byte)

theorem mtfEncodeFrom_cons_fst (b : Byte) (bs : List Byte) : (mtfEncodeFrom table (b :: bs)).1
    = BitVec.ofNat 8 (table.idxOf b) :: (mtfEncodeFrom (moveToFront table (table.idxOf b) b) bs).1 := rfl

theorem mtfDecodeFrom_cons_fst (r : Byte) (rs : List Byte) : (mtfDecodeFrom table (r :: rs)).1
    = table.getD r.toNat 0#8 :: (mtfDecodeFrom (moveToFront table r.toNat (table.getD r.toNat 0#8)) rs).1 := rfl

theorem mtfEncodeFrom_length (bs : List Byte) : (mtfEncodeFrom table bs).1.length = bs.length := by
  induction bs generalizing table with
  | nil => rfl
  | cons b bs ih => rw [mtfEncodeFrom_cons_fst, List.length_cons, ih, List.length_cons]

theorem mtfDecodeFrom_length (rs : List Byte) : (mtfDecodeFrom table rs).1.length = rs.length := by
  induction rs generalizing table with
  | nil => rfl
  | cons r rs ih => rw [mtfDecodeFrom_cons_fst, List.length_cons, ih, List.length_cons]

end

@[simp] theorem mtfEncode_length (bs : List Byte) : (mtfEncode bs).length = bs.length := mtfEncodeFrom_length _ bs

@[simp] theorem mtfDecode_length (rs : List Byte) : (mtfDecode rs).length = rs.length := mtfDecodeFrom_length _ rs

/-- Both passes make the same moves, so from one table the second undoes the first (R88). -/
theorem mtfDecodeFrom_mtfEncodeFrom {table : List Byte} (hlen : table.length = 256) (hnd : table.Nodup)
    (bs : List Byte) : (mtfDecodeFrom table (mtfEncodeFrom table bs).1).1 = bs := by
  induction bs generalizing table with
  | nil => rfl
  | cons b bs ih =>
    have hrank := toNat_ofNat_idxOf hlen hnd b
    have hbyte := getD_idxOf hlen hnd b
    have hperm := moveToFront_getD_perm hlen (BitVec.ofNat 8 (table.idxOf b))
    rw [hrank, hbyte] at hperm
    rw [mtfEncodeFrom_cons_fst, mtfDecodeFrom_cons_fst, hrank, hbyte,
      ih (hperm.length_eq.trans hlen) (hperm.nodup_iff.2 hnd)]

theorem mtfEncodeFrom_mtfDecodeFrom {table : List Byte} (hlen : table.length = 256) (hnd : table.Nodup)
    (rs : List Byte) : (mtfEncodeFrom table (mtfDecodeFrom table rs).1).1 = rs := by
  induction rs generalizing table with
  | nil => rfl
  | cons r rs ih =>
    have hperm := moveToFront_getD_perm hlen r
    rw [mtfDecodeFrom_cons_fst, mtfEncodeFrom_cons_fst, idxOf_getD_toNat hlen hnd, BitVec.ofNat_toNat,
      BitVec.setWidth_eq, ih (hperm.length_eq.trans hlen) (hperm.nodup_iff.2 hnd)]

/-! ### The plan of the two commands -/

/-- The plan that `MTF_ENC` and `MTF_DEC` share: the source recoded by `f`, and the table that `left` says. -/
def State.planRecode (s : State) (f left : List Byte → List Byte) : Except Cause Plan :=
  if ¬ (s.dmem.inRange (s.argNat 0) (s.argNat 2) ∧ s.dmem.inRange (s.argNat 1) (s.argNat 2)) then .error .outOfBounds
  else .ok {
    writes := [(s.argNat 1, f (s.dmem.readBytes (s.argNat 0) (s.argNat 2)))]
    mtf := some (left (s.dmem.readBytes (s.argNat 0) (s.argNat 2))) }

section
variable {s : State} {f left : List Byte → List Byte}

theorem exec_mtfEnc_eq_finishPlan (s : State) :
    exec .mtfEnc s = s.finishPlan (s.planRecode mtfEncode fun b => (mtfEncodeFrom identityTable b).2) := rfl

theorem exec_mtfDec_eq_finishPlan (s : State) :
    exec .mtfDec s = s.finishPlan (s.planRecode mtfDecode fun b => (mtfDecodeFrom identityTable b).2) := rfl

theorem State.planRecode_fits (hsrc : s.argNat 0 + s.argNat 2 ≤ s.dmem.size)
    (hdst : s.argNat 1 + s.argNat 2 ≤ s.dmem.size) : s.planRecode f left = .ok {
      writes := [(s.argNat 1, f (s.dmem.readBytes (s.argNat 0) (s.argNat 2)))]
      mtf := some (left (s.dmem.readBytes (s.argNat 0) (s.argNat 2))) } :=
  if_neg (not_not_intro ⟨Dmem.inRange_iff.2 hsrc, Dmem.inRange_iff.2 hdst⟩)

theorem State.planRecode_outside
    (h : ¬ (s.argNat 0 + s.argNat 2 ≤ s.dmem.size ∧ s.argNat 1 + s.argNat 2 ≤ s.dmem.size)) :
    s.planRecode f left = .error .outOfBounds :=
  if_pos (by simpa only [Dmem.inRange_iff] using h)

/-- Both commands run the shared plan, and recode as many bytes as they read. -/
theorem exists_exec_eq_planRecode {i : Instr} (h : (i = .mtfEnc ∧ f = mtfEncode) ∨ (i = .mtfDec ∧ f = mtfDecode)) :
    (∀ bs, (f bs).length = bs.length) ∧ ∃ left, ∀ s, exec i s = s.finishPlan (s.planRecode f left) := by
  obtain ⟨rfl, rfl⟩ | ⟨rfl, rfl⟩ := h
  · exact ⟨mtfEncode_length, _, exec_mtfEnc_eq_finishPlan⟩
  · exact ⟨mtfDecode_length, _, exec_mtfDec_eq_finishPlan⟩

end

/-- However a plan ends, what it leaves in DMEM, the status and the results does not depend on the table before. -/
theorem exists_finishPlan_mtf (s : State) (table : List Byte) (p : Except Cause Plan) :
    ∃ t t', s.finishPlan p = .next t ∧ { s with mtf := table }.finishPlan p = .next t'
      ∧ t'.dmem = t.dmem ∧ t'.status = t.status ∧ t'.res = t.res := by
  cases p with
  | error e => exact ⟨_, _, rfl, rfl, rfl, rfl, rfl⟩
  | ok q => exact ⟨_, _, rfl, rfl, rfl, rfl, rfl⟩

/-! ### The statements -/

/-- Settles O13: the passes undo each other from the identity table, and the shared plan does not read the table. -/
theorem mtfIsABijection : Obligations.MtfIsABijection := by
  refine ⟨fun bs => ⟨mtfDecodeFrom_mtfEncodeFrom identityTable_length identityTable_nodup bs, mtfEncode_length bs⟩,
    fun rs => ⟨mtfEncodeFrom_mtfDecodeFrom identityTable_length identityTable_nodup rs, mtfDecode_length rs⟩,
    fun s table i hi => ?_⟩
  have hcommand : ∃ f, (i = .mtfEnc ∧ f = mtfEncode) ∨ (i = .mtfDec ∧ f = mtfDecode) :=
    hi.elim (fun h => ⟨_, .inl ⟨h, rfl⟩⟩) fun h => ⟨_, .inr ⟨h, rfl⟩⟩
  obtain ⟨f, hf⟩ := hcommand
  obtain ⟨-, left, hexec⟩ := exists_exec_eq_planRecode hf
  have hplan : { s with mtf := table }.planRecode f left = s.planRecode f left := rfl
  rw [hexec, hexec, hplan]
  exact exists_finishPlan_mtf s table _

/-- Settles O14, by the case of the shared plan. -/
theorem mtfCommandsComplete : Obligations.MtfCommandsComplete := by
  intro s i f hf src dst n
  obtain ⟨hflen, left, hexec⟩ := exists_exec_eq_planRecode hf
  refine ⟨fun ⟨hsrc, hdst⟩ => ?_, fun hout => exists_failedUntouched_of_plan (hexec s) (State.planRecode_outside hout)⟩
  have hlen : (f (s.dmem.readBytes src n)).length = n := by simp [hflen]
  have hafter := Dmem.after_writeRanges (l := [(dst, f (s.dmem.readBytes src n))]) (by simpa [hlen] using hdst)
  have houtside := Dmem.sameOutside_writeRanges s.dmem [(dst, f (s.dmem.readBytes src n))]
  rw [List.map_singleton, hlen] at houtside
  rw [hexec, State.planRecode_fits hsrc hdst]
  exact ⟨_, rfl, ⟨rfl, rfl, rfl, rfl, rfl, rfl, rfl, rfl, rfl, rfl, rfl⟩, hafter, houtside, rfl, rfl, rfl, rfl⟩

end Sys2Proof.Machine
end

section
/-!
SUPPORT. The bulk commands by their plan: the first check that fails is what the command reports, and a plan that only
writes ranges and results does that and nothing else (R146, R149).
-/

namespace Sys2Proof.Machine

section
variable {s t : State} {i : Instr} {p rest : Except Cause Plan} {writes : List (Nat × List Byte)} {r : List Result}

/-- The first check of a plan: where it fails, the command reports its error with nothing done; where it is met, the
rest of the plan is what counts (R146). `c'` is the check as the plan spells it. -/
theorem report_check {c c' R : Prop} [Decidable c] [Decidable c'] {e : Cause} (hi : exec i s = s.finishPlan p)
    (hp : p = if c' then .error e else rest) (hc : c ↔ c') (hrest : ¬ c → p = rest → R) :
    if c then ∃ t, exec i s = .next t ∧ s.FailedUntouched t e else R := by
  by_cases h : c
  · rw [if_pos h]
    exact exists_failedUntouched_of_plan hi (hp.trans (if_pos (hc.1 h)))
  · rw [if_neg h]
    exact hrest h (hp.trans (if_neg fun h' => h (hc.2 h')))

/-- `t` is `s` after a command that wrote the given byte ranges in their order and the results `r`, and nothing else. -/
structure State.PlanDone (s t : State) (writes : List (Nat × List Byte)) (r : List Result) : Prop where
  succeeded : s.Succeeded t
  dmem : t.dmem = writeRanges s.dmem writes
  res : t.res = writeResults s.res r
  units : s.SameUnits t

theorem exists_planDone (hi : exec i s = s.finishPlan p) (hp : p = .ok { writes := writes, results := r }) :
    ∃ t, exec i s = .next t ∧ s.PlanDone t writes r := by
  subst hp
  refine ⟨_, hi, ?_⟩
  exact {
    succeeded := ⟨rfl, rfl, rfl, rfl, rfl, rfl, rfl, rfl, rfl, rfl, rfl⟩
    dmem := rfl
    res := rfl
    units := ⟨rfl, rfl, rfl, rfl⟩ }

theorem State.PlanDone.after (h : s.PlanDone t writes r) (hfit : ∀ w ∈ writes, w.1 + w.2.length ≤ s.dmem.size) :
    s.dmem.After writes t.dmem :=
  h.dmem ▸ Dmem.after_writeRanges hfit

theorem State.PlanDone.outside (h : s.PlanDone t writes r) :
    s.dmem.SameOutside t.dmem (writes.map fun w => (w.1, w.2.length)) :=
  h.dmem ▸ s.dmem.sameOutside_writeRanges writes

/-- A plan that writes no byte leaves its results as the command's only effect. -/
theorem exists_resultsOnly (hi : exec i s = s.finishPlan p) (hp : p = .ok { writes := [], results := r }) :
    ∃ t, exec i s = .next t ∧ s.Succeeded t ∧ t.res = writeResults s.res r ∧ s.SameUnits t ∧ t.dmem = s.dmem := by
  obtain ⟨t, ht, h⟩ := exists_planDone hi hp
  exact ⟨t, ht, h.succeeded, h.res, h.units, h.dmem⟩

end

theorem Dmem.not_inRange_iff {m : Dmem} {a n : Nat} : ¬ m.inRange a n = true ↔ m.size < a + n := by
  rw [Dmem.inRange_iff, Nat.not_le]

end Sys2Proof.Machine
end

section
/-!
The zero-run unit (O15, O16, O17): what a split is, by the run that the scan of R91 closes; what joining gives for any
slots and runs (R92, D18); and both commands, whose run lists stand in DMEM as big-endian words (R93).
-/

namespace Sys2Proof.Machine

/-! ### The equations of the scan and of the join -/

@[simp] theorem closeRun_zero (p : List Byte × List Nat) : closeRun 0 p = p := rfl

@[simp] theorem closeRun_succ (k : Nat) (p : List Byte × List Nat) :
    closeRun (k + 1) p = (0#8 :: p.1, (k + 1) :: p.2) := rfl

theorem splitFrom_nil (k : Nat) : splitFrom k [] = closeRun k ([], []) := rfl

theorem splitFrom_zero_cons (k : Nat) (s : List Byte) : splitFrom k (0#8 :: s) = splitFrom (k + 1) s := rfl

theorem splitFrom_cons_of_ne {b : Byte} (hb : b ≠ 0#8) (k : Nat) (s : List Byte) :
    splitFrom k (b :: s) = closeRun k (b :: (splitFrom 0 s).1, (splitFrom 0 s).2) := if_neg hb

theorem zeroJoin_zero_cons (slots : List Byte) (runs : List Nat) :
    zeroJoin (0#8 :: slots) runs = List.replicate (runs.headD 0) 0#8 ++ zeroJoin slots runs.tail := rfl

theorem zeroJoin_cons_of_ne {b : Byte} (hb : b ≠ 0#8) (slots : List Byte) (runs : List Nat) :
    zeroJoin (b :: slots) runs = b :: zeroJoin slots runs := if_neg hb

/-! ### Splits -/

/-- The slots and runs `p` are a split of `s`: they join to `s`, there is one run per zero slot, none is empty, and no
two zero slots are adjacent (R91, R92). -/
structure IsSplit (s : List Byte) (p : List Byte × List Nat) : Prop where
  join : zeroJoin p.1 p.2 = s
  count : p.2.length = p.1.count 0#8
  pos : ∀ r ∈ p.2, 1 ≤ r
  isolated : p.1.IsChain fun a b => ¬ (a = 0#8 ∧ b = 0#8)

section
variable {s : List Byte} {p : List Byte × List Nat}

theorem isSplit_nil : IsSplit [] ([], []) := ⟨rfl, rfl, nofun, .nil⟩

theorem IsSplit.cons_of_ne (h : IsSplit s p) {b : Byte} (hb : b ≠ 0#8) : IsSplit (b :: s) (b :: p.1, p.2) where
  join := by rw [zeroJoin_cons_of_ne hb, h.join]
  count := by rw [List.count_cons_of_ne hb, h.count]
  pos := h.pos
  isolated := h.isolated.cons fun _ _ h0 => hb h0.1

/-- A pending run closes as one zero slot before slots that do not begin with another. -/
theorem IsSplit.closeRun (h : IsSplit s p) (hhead : p.1.head? ≠ some 0#8) (k : Nat) :
    IsSplit (List.replicate k 0#8 ++ s) (closeRun k p) := by
  cases k with
  | zero => rwa [closeRun_zero, List.replicate_zero, List.nil_append]
  | succ k =>
    exact {
      join := by rw [closeRun_succ, zeroJoin_zero_cons, List.headD_cons, List.tail_cons, h.join]
      count := by rw [closeRun_succ, List.length_cons, h.count, List.count_cons_self]
      pos := List.forall_mem_cons.2 ⟨Nat.le_add_left 1 k, h.pos⟩
      isolated := h.isolated.cons fun b hb h0 => hhead (h0.2 ▸ hb) }

/-- The scan with `k` zeros of a run seen splits those zeros and what is still to come. -/
theorem isSplit_splitFrom (k : Nat) (s : List Byte) : IsSplit (List.replicate k 0#8 ++ s) (splitFrom k s) := by
  induction s generalizing k with
  | nil =>
    rw [splitFrom_nil]
    exact isSplit_nil.closeRun nofun k
  | cons b s ih =>
    by_cases hb : b = 0#8
    · subst hb
      rw [splitFrom_zero_cons, List.append_cons, ← List.replicate_succ']
      exact ih (k + 1)
    · rw [splitFrom_cons_of_ne hb]
      exact ((ih 0).cons_of_ne hb).closeRun (by simpa using hb) k

theorem isSplit_zeroSplit (s : List Byte) : IsSplit s (zeroSplit s) := isSplit_splitFrom 0 s

end

/-! ### Joins -/

theorem zeroJoin_length {slots : List Byte} {runs : List Nat} (h : slots.count 0#8 = runs.length) :
    (zeroJoin slots runs).length = slots.countP (fun b => b != 0#8) + runs.sum := by
  induction slots generalizing runs with
  | nil => simp [zeroJoin, List.length_eq_zero_iff.1 h.symm]
  | cons b slots ih =>
    by_cases hb : b = 0#8
    · subst hb
      obtain _ | ⟨r, runs⟩ := runs
      · simp at h
      · have hlen := ih (runs := runs) (by simpa using h)
        simp [zeroJoin_zero_cons, hlen]
        omega
    · rw [List.count_cons_of_ne hb] at h
      simp [zeroJoin_cons_of_ne hb, ih h, hb]
      omega

/-- Slot `i` joined: a zero slot as the run of its number among the zero slots, any other as itself (R92, D18). -/
theorem zeroJoin_eq_flatMap (slots : List Byte) (runs : List Nat) :
    zeroJoin slots runs = (List.range slots.length).flatMap fun i =>
      if slots.getD i 0#8 = 0#8 then List.replicate (runs.getD ((slots.take i).count 0#8) 0) 0#8
      else [slots.getD i 0#8] := by
  induction slots generalizing runs with
  | nil => rfl
  | cons b slots ih =>
    rw [List.length_cons, List.range_succ_eq_map, List.flatMap_cons, List.flatMap_map]
    by_cases hb : b = 0#8
    · subst hb
      rw [zeroJoin_zero_cons, ih]
      cases runs <;> simp
    · rw [zeroJoin_cons_of_ne hb, ih]
      simp [hb]

/-- Settles O15: a split is an `IsSplit`, and the lengths of both sides of its join agree. -/
theorem zeroRunLaws : Obligations.ZeroRunLaws := by
  refine ⟨fun s => ?_, fun slots runs _ _ => zeroJoin_eq_flatMap slots runs⟩
  obtain ⟨hjoin, hcount, hpos, hchain⟩ := isSplit_zeroSplit s
  have hlen := zeroJoin_length hcount.symm
  rw [hjoin, Nat.add_comm] at hlen
  exact ⟨hjoin, hcount, hpos, hlen.symm, hchain⟩

/-! ### Run lists in DMEM -/

theorem runBytes_cons (r : Nat) (runs : List Nat) : runBytes (r :: runs) = beBytes r 4 ++ runBytes runs := rfl

@[simp] theorem runBytes_length (runs : List Nat) : (runBytes runs).length = 4 * runs.length := by
  induction runs with
  | nil => rfl
  | cons r runs ih =>
    rw [runBytes_cons, List.length_append, ih, beBytes_length, List.length_cons, Nat.mul_succ, Nat.add_comm]

/-- The word at position `k` of a run list's bytes. -/
theorem runBytes_word {runs : List Nat} {k : Nat} (hk : k < runs.length) :
    ((runBytes runs).drop (4 * k)).take 4 = beBytes (runs.getD k 0) 4 := by
  induction runs generalizing k with
  | nil => simp at hk
  | cons r runs ih =>
    rw [runBytes_cons]
    cases k with
    | zero => exact List.take_left' (beBytes_length r 4)
    | succ k =>
      have hskip : 4 * (k + 1) = (beBytes r 4).length + 4 * k := by rw [beBytes_length]; omega
      rw [hskip, List.drop_length_add_append, List.getD_cons_succ]
      exact ih (by simpa using hk)

theorem Dmem.readBytes_slice (m : Dmem) (a : Nat) {i n len : Nat} (h : i + n ≤ len) :
    m.readBytes (a + i) n = ((m.readBytes a len).drop i).take n := by
  refine List.ext_getElem? fun j => ?_
  rw [List.getElem?_take, List.getElem?_drop, Dmem.readBytes_getElem?, Dmem.readBytes_getElem?, Nat.add_assoc]
  split_ifs
  · rfl
  · omega
  · rfl

/-- A run list written in range reads back word by word (R47, R93). -/
theorem Dmem.read32_writeBytes_runBytes {m : Dmem} {a k : Nat} {runs : List Nat} (hk : k < runs.length)
    (hfit : a + 4 * runs.length ≤ m.size) (hrun : runs.getD k 0 < 2 ^ 32) :
    (m.writeBytes a (runBytes runs)).read32 (a + 4 * k) = runs.getD k 0 := by
  have hslice := (m.writeBytes a (runBytes runs)).readBytes_slice a (i := 4 * k) (n := 4)
    (len := (runBytes runs).length) (by rw [runBytes_length]; omega)
  rw [Dmem.readBytes_writeBytes _ _ _ (by simpa using hfit), runBytes_word hk] at hslice
  rw [Dmem.read32, hslice, beValue_beBytes]
  exact Nat.mod_eq_of_lt hrun

theorem Dmem.readRuns_eq_map (m : Dmem) (a n : Nat) :
    m.readRuns a n = (List.range n).map fun k => m.read32 (a + 4 * k) := by
  induction n generalizing a with
  | zero => rfl
  | succ n ih =>
    rw [Dmem.readRuns, ih, List.range_succ_eq_map, List.map_cons, List.map_map]
    simp only [Function.comp_def, Nat.succ_eq_add_one, Nat.mul_add, Nat.mul_one, Nat.mul_zero, Nat.add_zero,
      Nat.add_assoc, Nat.add_comm 4]

@[simp] theorem Dmem.readRuns_length (m : Dmem) (a n : Nat) : (m.readRuns a n).length = n := by
  simp [Dmem.readRuns_eq_map]

/-- No run of a split is longer than what was split. -/
theorem zeroSplit_run_le (s : List Byte) (k : Nat) : (zeroSplit s).2.getD k 0 ≤ s.length := by
  obtain ⟨hjoin, hcount, -, -⟩ := isSplit_zeroSplit s
  have hlen := zeroJoin_length hcount.symm
  rw [hjoin] at hlen
  have hrun : (zeroSplit s).2.getD k 0 ≤ (zeroSplit s).2.sum := by
    rw [List.getD_eq_getElem?_getD]
    cases hk : (zeroSplit s).2[k]? with
    | none => exact Nat.zero_le _
    | some r => exact List.le_sum_of_mem (List.mem_of_getElem? hk)
  omega

/-! ### The two commands -/

section
variable {s : State}

theorem exec_zrlSplit_eq_finishPlan (s : State) : exec .zrlSplit s = s.finishPlan s.planZrlSplit := rfl

theorem exec_zrlJoin_eq_finishPlan (s : State) : exec .zrlJoin s = s.finishPlan s.planZrlJoin := rfl

/-- The ranges of `ZRL_SPLIT` lie in DMEM: its source, and the places of its slots and runs (R97). -/
abbrev State.ZrlSplitFits (s : State) : Prop :=
  s.argNat 0 + s.argNat 1 ≤ s.dmem.size
    ∧ s.argNat 2 + (zeroSplit (s.dmem.readBytes (s.argNat 0) (s.argNat 1))).1.length ≤ s.dmem.size
    ∧ s.argNat 3 + 4 * (zeroSplit (s.dmem.readBytes (s.argNat 0) (s.argNat 1))).2.length ≤ s.dmem.size

theorem State.planZrlSplit_fits (h : s.ZrlSplitFits) :
    let parts := zeroSplit (s.dmem.readBytes (s.argNat 0) (s.argNat 1))
    s.planZrlSplit = .ok {
      writes := [(s.argNat 2, parts.1), (s.argNat 3, runBytes parts.2)]
      results := [(0, word parts.1.length), (1, word parts.2.length)] } := by
  obtain ⟨hsrc, hslots, hruns⟩ := h
  simp only [State.planZrlSplit, Dmem.inRange_iff, hsrc, hslots, hruns, and_self, not_true_eq_false, if_false]

theorem State.planZrlSplit_outside (h : ¬ s.ZrlSplitFits) : s.planZrlSplit = .error .outOfBounds := by
  simp only [State.planZrlSplit, Dmem.inRange_iff]
  split_ifs with hsrc hdst
  · exact absurd ⟨hsrc, hdst⟩ h
  · rfl
  · rfl

end

/-- Settles O16, by the case of R97's plan. -/
theorem zrlSplitCompletes : Obligations.ZrlSplitCompletes := by
  intro s src n sd rd parts fits
  have hexec := exec_zrlSplit_eq_finishPlan s
  refine ⟨fun hfits => ?_, fun hout => exists_failedUntouched_of_plan hexec (State.planZrlSplit_outside hout)⟩
  obtain ⟨t, ht, h⟩ := exists_planDone hexec (State.planZrlSplit_fits hfits)
  obtain ⟨-, hslots, hruns⟩ := hfits
  have houtside := h.outside
  simp only [List.map_cons, List.map_nil, runBytes_length] at houtside
  refine ⟨t, ht, h.succeeded, h.after ?_, houtside, fun k hk => ?_, h.res, h.units⟩
  · simpa using ⟨hslots, hruns⟩
  · rw [h.dmem]
    refine Dmem.read32_writeBytes_runBytes hk (by simpa using hruns) ?_
    have hrun := zeroSplit_run_le (s.dmem.readBytes src n) k
    rw [Dmem.readBytes_length] at hrun
    exact hrun.trans_lt (s.arg[1]).isLt

/-- Settles O17: each check of R98's plan in its order, then the plan. -/
theorem zrlJoinCompletes : Obligations.ZrlJoinCompletes := by
  intro s sp ns rp nr dst cap slots runs total fails
  have hexec := exec_zrlJoin_eq_finishPlan s
  have hruns : s.dmem.readRuns rp nr = runs := s.dmem.readRuns_eq_map rp nr
  have htotal : slots.countP (fun b => decide (b ≠ 0#8)) + (s.dmem.readRuns rp nr).sum = total := by
    rw [hruns]
    exact congrArg (· + runs.sum) (List.countP_congr fun b _ => by simp)
  refine report_check hexec rfl (by simp only [Dmem.inRange_iff]; omega) fun _ hplan => ?_
  refine report_check hexec hplan .rfl fun hcount hplan => ?_
  refine report_check hexec hplan (hruns ▸ .rfl) fun _ hplan => ?_
  refine report_check hexec hplan (htotal ▸ .rfl) fun _ hplan => ?_
  refine report_check hexec hplan (htotal ▸ Dmem.not_inRange_iff.symm) fun hdst hplan => ?_
  have hlen : (zeroJoin slots runs).length = total := zeroJoin_length (by simpa [runs] using hcount)
  obtain ⟨t, ht, h⟩ := exists_planDone (writes := [(dst, zeroJoin slots runs)]) (r := [(0, word total)]) hexec
    (by rw [hplan, ← htotal, ← hruns])
  exact ⟨t, ht, h.succeeded, h.after (by simpa [hlen] using hdst), hlen ▸ h.outside, h.res, h.units⟩

end Sys2Proof.Machine
end

section
/-!
The tier classifier (O18, O19) and its commands on slot sequences (O20, O21, O22, O23): the table of R94 as an interval
per tier; the streams that a split makes and a merge takes, as one family indexed by the tier.
-/

namespace Sys2Proof.Machine

/-! ### The tiers -/

theorem tierOf_mem (v : Nat) : 1 ≤ tierOf v ∧ tierOf v ≤ 4 := by
  unfold tierOf
  split_ifs <;> decide

/-- The tier of a value is the one whose interval holds it (R94, R95). -/
theorem tierOf_eq_iff {v t : Nat} (hv : 1 ≤ v) (hv' : v ≤ 255) (ht : 1 ≤ t) (ht' : t ≤ 4) :
    tierOf v = t ↔ tierBase t ≤ v ∧ v < tierBase t + tierSize t := by
  unfold tierOf
  obtain rfl | rfl | rfl | rfl : t = 1 ∨ t = 2 ∨ t = 3 ∨ t = 4 := by omega
  all_goals
    simp only [tierBase, tierSize]
    split_ifs <;> omega

theorem tierBase_pos_and_end_le {t : Nat} (ht : 1 ≤ t) (ht' : t ≤ 4) :
    1 ≤ tierBase t ∧ tierBase t + tierSize t ≤ 256 := by
  obtain rfl | rfl | rfl | rfl : t = 1 ∨ t = 2 ∨ t = 3 ∨ t = 4 := by omega
  all_goals decide

/-- A value lies in the interval of its tier. -/
theorem tierOf_interval {v : Nat} (hv : 1 ≤ v) (hv' : v ≤ 255) :
    tierBase (tierOf v) ≤ v ∧ v < tierBase (tierOf v) + tierSize (tierOf v) :=
  (tierOf_eq_iff hv hv' (tierOf_mem v).1 (tierOf_mem v).2).1 rfl

theorem classify_add {t o : Nat} (ht : 1 ≤ t) (ht' : t ≤ 4) (ho : o < tierSize t) :
    classify (tierBase t + o) = (t, o) := by
  obtain ⟨hbase, hend⟩ := tierBase_pos_and_end_le ht ht'
  have htier : tierOf (tierBase t + o) = t := (tierOf_eq_iff (by omega) (by omega) ht ht').2 (by omega)
  rw [classify, htier, Nat.add_sub_cancel_left]

/-- Settles O18: the intervals of R94 hold every value once. -/
theorem tierClassifyIsInverse : Obligations.TierClassifyIsInverse := by
  refine ⟨fun v hv hv' => ?_, fun t o ht ht' ho => ?_, rfl, rfl⟩
  · obtain ⟨hlo, hhi⟩ := tierOf_mem v
    have hin := tierOf_interval hv hv'
    have hback : tierBase (tierOf v) + (v - tierBase (tierOf v)) = v := Nat.add_sub_cancel' hin.1
    refine ⟨⟨tierOf v, ⟨hlo, hhi, hin⟩, fun t ⟨ht, ht', h⟩ => ((tierOf_eq_iff hv hv' ht ht').2 h).symm⟩,
      hlo, hhi, hback, ?_, hback⟩
    simp only [classify]
    omega
  · obtain ⟨hbase, hend⟩ := tierBase_pos_and_end_le ht ht'
    refine ⟨classify_add ht ht' ho, ?_, ?_⟩
    all_goals
      unfold unclassify
      omega

/-! ### The commands on one value -/

section
variable {s : State}

theorem exec_tierCls_eq_finishPlan (s : State) : exec .tierCls s = s.finishPlan s.planTierCls := rfl

theorem exec_tierUncls_eq_finishPlan (s : State) : exec .tierUncls s = s.finishPlan s.planTierUncls := rfl

theorem State.planTierCls_zero (h : s.argNat 0 = 0) :
    s.planTierCls = .ok { writes := [], results := [(0, 0#32), (1, 0#32)] } := by
  simp [State.planTierCls, h]

theorem State.planTierCls_tier {t o : Nat} (ht : 1 ≤ t) (ht' : t ≤ 4) (ho : o < tierSize t)
    (h : s.argNat 0 = tierBase t + o) :
    s.planTierCls = .ok { writes := [], results := [(0, word t), (1, word o)] } := by
  obtain ⟨hbase, hend⟩ := tierBase_pos_and_end_le ht ht'
  simp only [State.planTierCls, h]
  rw [if_neg (by omega), if_neg (by omega), classify_add ht ht' ho]

theorem State.planTierCls_large (h : 255 < s.argNat 0) : s.planTierCls = .error .tierValueTooLarge := if_pos h

theorem State.planTierUncls_zero (h : s.argNat 0 = 0 ∧ s.argNat 1 = 0) :
    s.planTierUncls = .ok { writes := [], results := [(0, 0#32)] } := if_pos h

theorem State.planTierUncls_tier
    (h : 1 ≤ s.argNat 0 ∧ s.argNat 0 ≤ 4 ∧ s.argNat 1 < tierSize (s.argNat 0)) :
    s.planTierUncls = .ok { writes := [], results := [(0, word (tierBase (s.argNat 0) + s.argNat 1))] } :=
  (if_neg (by omega)).trans (if_pos h)

theorem State.planTierUncls_bad (h0 : ¬ (s.argNat 0 = 0 ∧ s.argNat 1 = 0))
    (h : ¬ (1 ≤ s.argNat 0 ∧ s.argNat 0 ≤ 4 ∧ s.argNat 1 < tierSize (s.argNat 0))) :
    s.planTierUncls = .error .badTierPair :=
  (if_neg h0).trans (if_neg h)

end

/-- Settles O19, by the case of R99's and R100's plans. -/
theorem tierValueCommandsComplete : Obligations.TierValueCommandsComplete := by
  intro s v o completes
  have hcls := exec_tierCls_eq_finishPlan s
  have huncls := exec_tierUncls_eq_finishPlan s
  exact ⟨fun h => exists_resultsOnly hcls (State.planTierCls_zero h),
    fun _ _ ht ht' ho h => exists_resultsOnly hcls (State.planTierCls_tier ht ht' ho h),
    fun h => exists_failedUntouched_of_plan hcls (State.planTierCls_large h),
    fun h => exists_resultsOnly huncls (State.planTierUncls_zero h),
    fun h => exists_resultsOnly huncls (State.planTierUncls_tier h),
    fun h => exists_failedUntouched_of_plan huncls (State.planTierUncls_bad h.1 h.2)⟩

/-! ### Structure symbols and offset streams (R96) -/

theorem one_le_toNat {b : Byte} (hb : b ≠ 0#8) : 1 ≤ b.toNat :=
  Nat.one_le_iff_ne_zero.2 fun h => hb (BitVec.eq_of_toNat_eq h)

/-- A slot that is not 0 lies in the interval of its tier. -/
theorem tierOf_toNat_interval {b : Byte} (hb : b ≠ 0#8) :
    tierBase (tierOf b.toNat) ≤ b.toNat ∧ b.toNat < tierBase (tierOf b.toNat) + tierSize (tierOf b.toNat) :=
  tierOf_interval (one_le_toNat hb) (Nat.le_of_lt_succ b.isLt)

theorem structSymbol_zero : structSymbol 0#8 = 0 := rfl

theorem structSymbol_of_ne {b : Byte} (hb : b ≠ 0#8) : structSymbol b = tierOf b.toNat := if_neg hb

theorem structSymbol_le (b : Byte) : structSymbol b ≤ 4 := by
  unfold structSymbol
  split_ifs
  · exact Nat.zero_le 4
  · exact (tierOf_mem _).2

theorem structSymbol_eq_zero_iff {b : Byte} : structSymbol b = 0 ↔ b = 0#8 := by
  refine ⟨fun h => ?_, fun h => h ▸ structSymbol_zero⟩
  by_contra hb
  rw [structSymbol_of_ne hb] at h
  have hpos := (tierOf_mem b.toNat).1
  omega

/-- A structure symbol is a byte. -/
theorem toNat_ofNat_structSymbol (b : Byte) : (BitVec.ofNat 8 (structSymbol b)).toNat = structSymbol b :=
  Nat.mod_eq_of_lt ((structSymbol_le b).trans_lt (by decide))

/-- The structure symbols of a slot sequence. -/
abbrev structSymbols (slots : List Byte) : List Byte := slots.map fun b => BitVec.ofNat 8 (structSymbol b)

/-- The offset of a slot value in its tier, as the byte that goes into the tier's stream. -/
def offsetByte (b : Byte) : Byte := BitVec.ofNat 8 (classify b.toNat).2

theorem offsetByte_toNat (b : Byte) : (offsetByte b).toNat = b.toNat - tierBase (tierOf b.toNat) :=
  Nat.mod_eq_of_lt ((Nat.sub_le ..).trans_lt b.isLt)

theorem tierOffsets_cons (t : Nat) (b : Byte) (slots : List Byte) : tierOffsets t (b :: slots) =
    if structSymbol b = t then offsetByte b :: tierOffsets t slots else tierOffsets t slots := by
  by_cases h : structSymbol b = t
  · simp [tierOffsets, offsetByte, h]
  · simp [tierOffsets, h]

theorem tierOffsets_length (t : Nat) (slots : List Byte) :
    (tierOffsets t slots).length = slots.countP fun b => decide (structSymbol b = t) := by
  rw [tierOffsets, List.length_map, List.countP_eq_length_filter]

theorem count_zero_eq_countP (slots : List Byte) :
    slots.count 0#8 = slots.countP fun b => decide (structSymbol b = 0) := by
  rw [List.count]
  exact List.countP_congr fun b _ => by simp [structSymbol_eq_zero_iff]

/-- Every slot has one structure symbol (R96). -/
theorem count_zero_add_tierOffsets_length (slots : List Byte) :
    slots.count 0#8 + (tierOffsets 1 slots).length + (tierOffsets 2 slots).length + (tierOffsets 3 slots).length
      + (tierOffsets 4 slots).length = slots.length := by
  simp only [count_zero_eq_countP, tierOffsets_length]
  induction slots with
  | nil => rfl
  | cons b slots ih =>
    have hle := structSymbol_le b
    obtain h | h | h | h | h : structSymbol b = 0 ∨ structSymbol b = 1 ∨ structSymbol b = 2 ∨ structSymbol b = 3
      ∨ structSymbol b = 4 := by omega
    all_goals
      simp [h]
      omega

/-- The stream of a tier, said by the slots that lie in the tier. -/
theorem tierOffsets_eq_filter {t : Nat} (ht : 1 ≤ t) (slots : List Byte) : tierOffsets t slots =
    (slots.filter fun b => b != 0#8 && tierOf b.toNat == t).map fun b => BitVec.ofNat 8 (b.toNat - tierBase t) := by
  have hmem (b : Byte) : structSymbol b = t ↔ b ≠ 0#8 ∧ tierOf b.toNat = t := by
    by_cases hb : b = 0#8
    · subst hb
      simp [structSymbol_zero]
      omega
    · simp [structSymbol_of_ne hb, hb]
  have hfilter : (slots.filter fun b => decide (structSymbol b = t))
      = slots.filter fun b => b != 0#8 && tierOf b.toNat == t :=
    List.filter_congr fun b _ => by rw [Bool.eq_iff_iff]; simp [hmem]
  rw [tierOffsets, hfilter]
  refine List.map_congr_left fun b hb => ?_
  have htier : tierOf b.toNat = t := (by simpa using (List.mem_filter.1 hb).2 : b ≠ 0#8 ∧ tierOf b.toNat = t).2
  rw [classify, htier]

/-! ### The merge -/

/-- The merge on a family of streams, of which it takes those of the tiers 1 to 4. -/
def mergeStreams (syms : List Byte) (l : Nat → List Byte) : List Byte := tierMerge syms (l 1) (l 2) (l 3) (l 4)

/-- The slot that symbol `x` gives before the rest of its stream `l`. -/
def mergedSlot (x : Byte) (l : List Byte) : Byte :=
  if 1 ≤ x.toNat ∧ x.toNat ≤ 4 then BitVec.ofNat 8 (unclassify x.toNat (l.headD 0#8).toNat) else 0#8

/-- A symbol takes the head of its own stream and leaves the other streams alone (R103). -/
theorem mergeStreams_cons (x : Byte) (syms : List Byte) (l : Nat → List Byte) :
    mergeStreams (x :: syms) l =
      mergedSlot x (l x.toNat) :: mergeStreams syms (Function.update l x.toNat (l x.toNat).tail) := by
  unfold mergeStreams mergedSlot
  rw [tierMerge]
  generalize x.toNat = k
  match k with
  | 0 | 1 | 2 | 3 | 4 => rfl
  | k + 5 => simp [Function.update]

theorem mergeStreams_length (syms : List Byte) (l : Nat → List Byte) :
    (mergeStreams syms l).length = syms.length := by
  induction syms generalizing l with
  | nil => rfl
  | cons x syms ih => rw [mergeStreams_cons, List.length_cons, ih, List.length_cons]

@[simp] theorem tierMerge_length (syms l1 l2 l3 l4 : List Byte) :
    (tierMerge syms l1 l2 l3 l4).length = syms.length :=
  mergeStreams_length syms fun t => [[], l1, l2, l3, l4].getD t []

theorem mergeStreams_getElem? (syms : List Byte) (l : Nat → List Byte) (i : Nat) (x : Byte) (hx : syms[i]? = some x) :
    (mergeStreams syms l)[i]? = some (mergedSlot x ((l x.toNat).drop ((syms.take i).count x))) := by
  induction syms generalizing l i with
  | nil => simp at hx
  | cons y syms ih =>
    rw [mergeStreams_cons]
    cases i with
    | zero =>
      obtain rfl : y = x := by simpa using hx
      simp
    | succ i =>
      rw [List.getElem?_cons_succ, ih _ _ (by simpa using hx), List.take_succ_cons]
      by_cases hy : y = x
      · subst hy
        rw [Function.update_self, List.count_cons_self, List.drop_tail]
      · rw [Function.update_of_ne (fun h => hy (BitVec.eq_of_toNat_eq h.symm)), List.count_cons_of_ne hy]

theorem mergedSlot_zero (l : List Byte) : mergedSlot 0#8 l = 0#8 := rfl

/-- What a slot's structure symbol and offset give back is the slot. -/
theorem mergedSlot_offsetByte {b : Byte} (hb : b ≠ 0#8) (rest : List Byte) :
    mergedSlot (BitVec.ofNat 8 (structSymbol b)) (offsetByte b :: rest) = b := by
  have hin := tierOf_toNat_interval hb
  rw [mergedSlot, toNat_ofNat_structSymbol, structSymbol_of_ne hb, if_pos (tierOf_mem _), List.headD_cons,
    offsetByte_toNat, unclassify, Nat.add_sub_cancel' hin.1, BitVec.ofNat_toNat, BitVec.setWidth_eq]

/-- With a slot's offset taken from its stream, the streams are those of the slots behind it. -/
theorem update_tierOffsets_cons (b : Byte) (slots : List Byte) :
    Function.update (fun t => tierOffsets t (b :: slots)) (structSymbol b)
        (tierOffsets (structSymbol b) (b :: slots)).tail = fun t => tierOffsets t slots := by
  funext t
  by_cases ht : t = structSymbol b
  · rw [ht, Function.update_self, tierOffsets_cons, if_pos rfl, List.tail_cons]
  · rw [Function.update_of_ne ht, tierOffsets_cons, if_neg (Ne.symm ht)]

theorem mergeStreams_tierOffsets (slots : List Byte) :
    mergeStreams (structSymbols slots) (fun t => tierOffsets t slots) = slots := by
  induction slots with
  | nil => rfl
  | cons b slots ih =>
    rw [structSymbols, List.map_cons, mergeStreams_cons, toNat_ofNat_structSymbol, update_tierOffsets_cons, ih]
    by_cases hb : b = 0#8
    · subst hb
      rw [structSymbol_zero, mergedSlot_zero]
    · rw [tierOffsets_cons, if_pos rfl, mergedSlot_offsetByte hb]

theorem countSymbol_structSymbols (t : Nat) (slots : List Byte) :
    countSymbol t (structSymbols slots) = (tierOffsets t slots).length := by
  rw [countSymbol, List.countP_map, tierOffsets_length]
  exact List.countP_congr fun b _ => by simp only [Function.comp_apply, toNat_ofNat_structSymbol]

theorem toNat_lt_tierSize_of_mem_tierOffsets {t : Nat} (ht : 1 ≤ t) {slots : List Byte} {o : Byte}
    (ho : o ∈ tierOffsets t slots) : o.toNat < tierSize t := by
  obtain ⟨b, hb, rfl⟩ := List.mem_map.1 ho
  obtain rfl : structSymbol b = t := of_decide_eq_true (List.mem_filter.1 hb).2
  have hne : b ≠ 0#8 := fun h => by simp [structSymbol_eq_zero_iff.2 h] at ht
  have hin := tierOf_toNat_interval hne
  refine (offsetByte_toNat b).trans_lt ?_
  rw [structSymbol_of_ne hne]
  omega

/-- Settles O23: the merge symbol by symbol, and slot by slot over the streams of a split. -/
theorem tierMergeUndoesTheSplit : Obligations.TierMergeUndoesTheSplit := by
  refine ⟨fun syms l i x hx hle => ?_, fun slots => ⟨mergeStreams_tierOffsets slots, fun x hx => ?_,
    fun t ht _ => ⟨countSymbol_structSymbols t slots, fun o => toNat_lt_tierSize_of_mem_tierOffsets ht⟩⟩⟩
  · refine (mergeStreams_getElem? syms l i x hx).trans (congrArg some ?_)
    by_cases h0 : x = 0#8
    · rw [h0, mergedSlot_zero, if_pos rfl]
    · rw [mergedSlot, if_pos ⟨one_le_toNat h0, hle⟩, if_neg h0, unclassify, List.headD_eq_head?_getD, List.head?_drop,
        List.getD_eq_getElem?_getD]
  · obtain ⟨b, -, rfl⟩ := List.mem_map.1 hx
    exact (toNat_ofNat_structSymbol b).trans_le (structSymbol_le b)

/-! ### The commands on slot sequences -/

section
variable {s : State}

theorem exec_tierSplit_eq_finishPlan (s : State) : exec .tierSplit s = s.finishPlan s.planTierSplit := rfl

theorem exec_tierCount_eq_finishPlan (s : State) : exec .tierCount s = s.finishPlan s.planTierCount := rfl

theorem exec_tierJoin_eq_finishPlan (s : State) : exec .tierJoin s = s.finishPlan s.planTierJoin := rfl

/-- The bytes that `TIER_SPLIT` reads as slots (R101) and `TIER_COUNT` as structure symbols (R102). -/
abbrev State.tierSource (s : State) : List Byte := s.dmem.readBytes (s.argNat 0) (s.argNat 1)

/-- The ranges of `TIER_SPLIT` lie in DMEM: its source, and the places of its five streams (R101). -/
abbrev State.TierSplitFits (s : State) : Prop :=
  s.argNat 0 + s.argNat 1 ≤ s.dmem.size ∧ s.argNat 2 + s.argNat 1 ≤ s.dmem.size
    ∧ s.argNat 3 + (tierOffsets 1 s.tierSource).length ≤ s.dmem.size
    ∧ s.argNat 4 + (tierOffsets 2 s.tierSource).length ≤ s.dmem.size
    ∧ s.argNat 5 + (tierOffsets 3 s.tierSource).length ≤ s.dmem.size
    ∧ s.argNat 6 + (tierOffsets 4 s.tierSource).length ≤ s.dmem.size

theorem State.planTierSplit_fits (h : s.TierSplitFits) : s.planTierSplit = .ok {
    writes := [(s.argNat 2, structSymbols s.tierSource), (s.argNat 3, tierOffsets 1 s.tierSource),
      (s.argNat 4, tierOffsets 2 s.tierSource), (s.argNat 5, tierOffsets 3 s.tierSource),
      (s.argNat 6, tierOffsets 4 s.tierSource)]
    results := [(0, word (s.tierSource.count 0#8)), (1, word (tierOffsets 1 s.tierSource).length),
      (2, word (tierOffsets 2 s.tierSource).length), (3, word (tierOffsets 3 s.tierSource).length),
      (4, word (tierOffsets 4 s.tierSource).length)] } := by
  obtain ⟨hsrc, hsyms, hoffsets⟩ := h
  simp only [← Dmem.inRange_iff] at hsrc hsyms hoffsets
  exact (if_neg (not_not_intro ⟨hsrc, hsyms⟩)).trans (if_neg (not_not_intro hoffsets))

theorem State.planTierSplit_outside (h : ¬ s.TierSplitFits) : s.planTierSplit = .error .outOfBounds := by
  simp only [State.planTierSplit, Dmem.inRange_iff]
  split_ifs with hsrc hdst
  · exact absurd ⟨hsrc.1, hsrc.2, hdst⟩ h
  · rfl
  · rfl

theorem count_eq_countSymbol (b : Byte) (syms : List Byte) : syms.count b = countSymbol b.toNat syms := by
  rw [List.count, countSymbol]
  exact List.countP_congr fun x _ => by simp [BitVec.toNat_inj]

theorem State.planTierCount_outside (h : s.dmem.size < s.argNat 0 + s.argNat 1) :
    s.planTierCount = .error .outOfBounds :=
  if_pos (Dmem.not_inRange_iff.2 h)

theorem State.planTierCount_bad (h : s.argNat 0 + s.argNat 1 ≤ s.dmem.size) (hbad : ∃ x ∈ s.tierSource, 4 < x.toNat) :
    s.planTierCount = .error .badStructure :=
  (if_neg (not_not_intro (Dmem.inRange_iff.2 h))).trans (if_pos (by simpa using hbad))

theorem State.planTierCount_counts (h : s.argNat 0 + s.argNat 1 ≤ s.dmem.size) (hle : ∀ x ∈ s.tierSource, x.toNat ≤ 4) :
    s.planTierCount = .ok { writes := [], results := tierCounts s.tierSource } :=
  (if_neg (not_not_intro (Dmem.inRange_iff.2 h))).trans (if_neg (by simpa using hle))

end

/-- Settles O20, by the case of R101's plan. -/
theorem tierSplitCompletes : Obligations.TierSplitCompletes := by
  intro s
  simp only [← tierOffsets_eq_filter, Nat.le_refl, Nat.one_le_ofNat]
  have hexec := exec_tierSplit_eq_finishPlan s
  refine ⟨fun hfits => ?_, fun hout => exists_failedUntouched_of_plan hexec (State.planTierSplit_outside hout)⟩
  obtain ⟨t, ht, h⟩ := exists_planDone hexec (State.planTierSplit_fits hfits)
  obtain ⟨-, hsyms, h1, h2, h3, h4⟩ := hfits
  have hcount := count_zero_add_tierOffsets_length s.tierSource
  have houtside := h.outside
  simp only [List.map_cons, List.map_nil, List.length_map, Dmem.readBytes_length] at houtside
  rw [Dmem.readBytes_length] at hcount
  refine ⟨t, ht, h.succeeded, h.after ?_, houtside, h.res, hcount, h.units⟩
  simpa using ⟨hsyms, h1, h2, h3, h4⟩

/-- Settles O21, by the case of R102's plan. -/
theorem tierCountCompletes : Obligations.TierCountCompletes := by
  intro s
  simp only [count_eq_countSymbol]
  have hexec := exec_tierCount_eq_finishPlan s
  exact ⟨fun h => exists_failedUntouched_of_plan hexec (State.planTierCount_outside h),
    fun h hbad => exists_failedUntouched_of_plan hexec (State.planTierCount_bad h hbad),
    fun h hle => exists_resultsOnly hexec (State.planTierCount_counts h hle)⟩

/-- Settles O22: each check of R103's plan in its order, then the plan. -/
theorem tierJoinCompletes : Obligations.TierJoinCompletes := by
  intro s
  simp only [count_eq_countSymbol, BitVec.reduceToNat]
  have hexec := exec_tierJoin_eq_finishPlan s
  refine report_check hexec rfl (by simp only [Dmem.inRange_iff]; omega) fun hdst hplan => ?_
  refine report_check hexec hplan .rfl fun _ hplan => ?_
  refine report_check hexec hplan (by simp only [Dmem.inRange_iff]; omega) fun _ hplan => ?_
  refine report_check hexec hplan .rfl fun _ hplan => ?_
  obtain ⟨t, ht, h⟩ := exists_planDone hexec hplan
  have houtside := h.outside
  simp only [List.map_cons, List.map_nil, tierMerge_length, Dmem.readBytes_length] at houtside
  refine ⟨t, ht, h.succeeded, h.after ?_, houtside, h.res, h.units⟩
  simpa using (not_or.1 hdst).2

end Sys2Proof.Machine
end

section
/-!
SUPPORT. The loop of `Renorm` (R118, R119): the turns it makes, that three of them are enough, how it raises, and which
bytes an encoder writes on the way.
-/

namespace Sys2Proof.Machine

/-! ### Ends of a step, by what they hold -/

/-- A step that ended with a value, or in a raise, over what it has done. -/
def Coded.ended {σ α : Type} (e : Option Cause) (a : α) (s : σ) : Coded σ α :=
  match e with
  | none => .ok a s
  | some e => .raised e s

theorem Stream.codes_iff {t u : Stream} {iv : Interval} {e : Option Cause} :
    t.Codes iv e u ↔ Stream.renorm { t with ch := t.ch.narrow iv } = .ended e () u := by
  cases e <;> rfl

@[simp] theorem Coded.lift_ended {σ τ α : Type} (g : σ → τ) (e : Option Cause) (a : α) (s : σ) :
    (Coded.ended e a s).lift g = .ended e a (g s) := by
  cases e <;> rfl

/-- A last step that only gives another value does not change how a step ended. -/
@[simp] theorem Coded.ended_bind_ok {σ α β : Type} (f : α → β) (e : Option Cause) (a : α) (s : σ) :
    ((Coded.ended e a s).bind fun a s => .ok (f a) s) = .ended e (f a) s := by
  cases e <;> rfl

/-! ### The turns of the loop -/

section
variable {t u v : Stream} {c : Channel} {size n : Nat}

/-- Where `Renorm` goes on, the interval after the cut of R118 stays inside the block of 2^24 that `low` lies in, and
is part of the one before. -/
theorem Channel.Narrowed.cut_bounds (h : c.Narrowed) (hs : c.settled = false) :
    c.low.toNat % 2 ^ 24 + c.cut.range.toNat ≤ 2 ^ 24 ∧ 1 ≤ c.cut.range.toNat ∧ c.cut.range.toNat < 2 ^ 24
      ∧ c.cut.range.toNat ≤ c.range.toNat := by
  obtain ⟨hle, heq, hpos⟩ := h
  have hlt := c.low.isLt
  rw [Channel.cut_range_toNat]
  rcases Bool.eq_false_or_eq_true c.topFixed with ht | ht
  · have := (Channel.topFixed_iff c).1 ht
    rw [if_pos ht]
    omega
  · have hcross : c.low.toNat / 2 ^ 24 ≠ (c.low.toNat + c.range.toNat) % 2 ^ 32 / 2 ^ 24 := fun hc => by
      simp [(Channel.topFixed_iff c).2 hc] at ht
    have hshort : c.range.toNat < 2 ^ 16 := by
      by_contra hc
      simp [(Channel.settled_iff c).2 ⟨ht, by omega⟩] at hs
    rw [if_neg (by simp [ht])]
    omega

@[simp] theorem Channel.advance_low_toNat (c : Channel) : c.advance.low.toNat = c.low.toNat % 2 ^ 24 * 2 ^ 8 := by
  simp only [Channel.advance, BitVec.toNat_shiftLeft, Nat.shiftLeft_eq]
  omega

@[simp] theorem Channel.advance_range_toNat (c : Channel) :
    c.advance.range.toNat = c.range.toNat % 2 ^ 24 * 2 ^ 8 := by
  simp only [Channel.advance, BitVec.toNat_shiftLeft, Nat.shiftLeft_eq]
  omega

/-- From `t` to `u` in some turns of the loop of `Renorm` (R118), each with its cut, its `Shift` and its advance. -/
inductive Stream.Turns : Stream → Stream → Prop
  | done (t : Stream) : Turns t t
  | turn {t v u : Stream} (hs : t.ch.settled = false) (hv : Stream.shift { t with ch := t.ch.cut } = .ok () v)
      (hu : Turns { v with ch := v.ch.advance } u) : Turns t u

/-- `Renorm` ends with turns that settle the interval. -/
theorem Stream.turns_of_renormLoop_ok (h : t.renormLoop n = .ok () u) : t.Turns u ∧ u.ch.settled = true := by
  induction n generalizing t with
  | zero =>
    unfold Stream.renormLoop at h
    split at h
    · next hs => cases h; exact ⟨.done _, hs⟩
    · obtain ⟨_, _, -, h⟩ := Coded.bind_ok h
      cases h
  | succ n ih =>
    unfold Stream.renormLoop at h
    split at h
    · next hs => cases h; exact ⟨.done _, hs⟩
    · next hs =>
      obtain ⟨_, v, hv, h⟩ := Coded.bind_ok h
      obtain ⟨hturns, hsettled⟩ := ih h
      exact ⟨.turn (by simpa using hs) hv hturns, hsettled⟩

/-- `Renorm` raises at a `Shift`, after some turns and the cut of one more. -/
theorem Stream.turns_of_renormLoop_raised {e : Cause} (h : t.renormLoop n = .raised e u) :
    ∃ v, t.Turns v ∧ Stream.shift { v with ch := v.ch.cut } = .raised e u := by
  induction n generalizing t with
  | zero =>
    unfold Stream.renormLoop at h
    split at h
    · cases h
    · obtain h | ⟨_, _, -, h⟩ := Coded.bind_raised h
      · exact ⟨t, .done t, h⟩
      · cases h
  | succ n ih =>
    unfold Stream.renormLoop at h
    split at h
    · cases h
    · next hs =>
      obtain h | ⟨_, v, hv, h⟩ := Coded.bind_raised h
      · exact ⟨t, .done t, h⟩
      · obtain ⟨w, hturns, hw⟩ := ih h
        exact ⟨w, .turn (by simpa using hs) hv hturns, hw⟩

/-- A byte shifted moves `ptr` on by one (R119). -/
theorem Stream.shift_ptr (h : t.shift = .ok () u) : u.ch.ptr.toNat = t.ch.ptr.toNat + 1 := by
  obtain ⟨hlt, -, hu⟩ := Stream.shift_ok h
  have hlimit := t.ch.limit.isLt
  have hp : (t.ch.ptr + 1#32).toNat = t.ch.ptr.toNat + 1 := by
    rw [BitVec.toNat_add, BitVec.toNat_ofNat]; omega
  obtain ⟨-, rfl⟩ | ⟨-, rfl⟩ := hu <;> exact hp

/-- From `t` to `u` the stream's `ptr` moved up, and no DMEM byte but those it moved over changed (R119). -/
structure Stream.Puts (t u : Stream) : Prop where
  up : t.ch.ptr.toNat ≤ u.ch.ptr.toNat
  size : u.mem.size = t.mem.size
  fill : u.mem.fill = t.mem.fill
  read : ∀ a, a < t.ch.ptr.toNat ∨ u.ch.ptr.toNat ≤ a → u.mem.read a = t.mem.read a

theorem Stream.Puts.retune (t : Stream) {c : Channel} (hp : c.ptr = t.ch.ptr) : t.Puts { t with ch := c } :=
  ⟨Nat.le_of_eq (congrArg _ hp.symm), rfl, rfl, fun _ _ => rfl⟩

theorem Stream.Puts.refl (t : Stream) : t.Puts t := .retune t rfl

theorem Stream.Puts.trans (h : t.Puts u) (k : u.Puts v) : t.Puts v where
  up := h.up.trans k.up
  size := k.size.trans h.size
  fill := k.fill.trans h.fill
  read a ha := by
    have := h.up
    have := k.up
    rw [k.read a (by omega), h.read a (by omega)]

theorem Stream.Puts.sameOutside (h : t.Puts u) :
    t.mem.SameOutside u.mem [(t.ch.ptr.toNat, u.ch.ptr.toNat - t.ch.ptr.toNat)] := by
  refine ⟨h.size, h.fill, fun a ha => h.read a ?_⟩
  have := h.up
  simp only [OutsideRanges, List.forall_mem_singleton] at ha
  omega

theorem Stream.puts_of_shift (h : t.shift = .ok () u) : t.Puts u := by
  have hptr := Stream.shift_ptr h
  obtain ⟨-, -, ⟨-, rfl⟩ | ⟨-, rfl⟩⟩ := Stream.shift_ok h
  · exact ⟨by omega, Dmem.write_size .., Dmem.write_fill .., fun a ha => Dmem.read_write_other _ _ (by omega)⟩
  · exact ⟨by omega, rfl, rfl, fun _ _ => rfl⟩

/-- One turn: the cut, the byte, the advance. -/
theorem Stream.puts_of_turn (h : Stream.shift { t with ch := t.ch.cut } = .ok () v) :
    t.Puts { v with ch := v.ch.advance } :=
  (Stream.Puts.retune t t.ch.cut_ptr).trans ((Stream.puts_of_shift h).trans (.retune v rfl))

theorem Stream.Turns.puts (h : t.Turns u) : t.Puts u := by
  induction h with
  | done t => exact .refl t
  | turn _ hv _ ih => exact (Stream.puts_of_turn hv).trans ih

/-- The loop makes the turns that settle the interval, where its bound allows as many. -/
theorem Stream.Turns.renormLoop (h : t.Turns u) (hs : u.ch.settled = true)
    (hn : u.ch.ptr.toNat ≤ t.ch.ptr.toNat + n) : t.renormLoop n = .ok () u := by
  induction h generalizing n with
  | done t => cases n <;> exact if_pos hs
  | turn hunsettled hv hu ih =>
    have hptr := Stream.shift_ptr hv
    have hup := hu.puts.up
    simp only [Channel.cut_ptr, Channel.advance] at hptr hup
    cases n with
    | zero => omega
    | succ n =>
      rw [Stream.renormLoop, if_neg (by simp [hunsettled]), hv]
      exact ih hs (by simp only [Channel.advance]; omega)

/-! ### Three turns are enough -/

/-- The interval after `j` turns of the loop: its ends are multiples of `256^j`. -/
structure Channel.Coarse (j : Nat) (c : Channel) : Prop where
  low : c.low.toNat % 2 ^ (8 * j) = 0
  range : c.range.toNat % 2 ^ (8 * j) = 0

theorem Channel.coarse_zero (c : Channel) : c.Coarse 0 := ⟨Nat.mod_one _, Nat.mod_one _⟩

/-- After three turns the range is at least 2^24, too long for a fixed top byte. -/
theorem Channel.Narrowed.settled_of_coarse (h : c.Narrowed) (hc : c.Coarse 3) : c.settled = true := by
  by_contra hs
  have hb := h.cut_bounds (by simpa using hs)
  have hr := Channel.cut_range_toNat c
  obtain ⟨-, hrange⟩ := hc
  have hpos := h.pos
  have hnot : c.topFixed ≠ true := fun ht => by rw [if_pos ht] at hr; omega
  exact hs ((Channel.settled_iff c).2 ⟨by simpa using hnot, by omega⟩)

/-- A turn makes the interval coarser by a byte. -/
theorem Channel.Coarse.advance {d : Channel} {j : Nat} (h : c.Coarse j) (hj : j < 3) (hlow : d.low = c.low)
    (hrange : d.range = c.cut.range) : d.advance.Coarse (j + 1) := by
  obtain ⟨hcl, hcr⟩ := h
  have hcut : c.cut.range.toNat % 2 ^ (8 * j) = 0 := by
    rw [Channel.cut_range_toNat]
    split
    · exact hcr
    · interval_cases j <;> omega
  constructor
  · rw [Channel.advance_low_toNat, hlow]
    interval_cases j <;> omega
  · rw [Channel.advance_range_toNat, hrange]
    interval_cases j <;> omega

/-- `Shift` gives a byte where the window has one (R119). -/
theorem Stream.Placed.exists_shift (h : t.Placed size) (ho : t.ch.Open) (hroom : 0 < t.ch.room) :
    ∃ u, t.shift = .ok () u ∧ t.ShiftedOne size u := by
  have hends := h.shift ho
  have hlt : t.ch.ptr.toNat < t.ch.limit.toNat := Nat.lt_of_sub_pos hroom
  have hin : t.ch.ptr.toNat < t.mem.size := h.size_eq ▸ hlt.trans_le h.limit_le
  have hok : ∃ u, t.shift = .ok () u := by
    obtain hm | hm := ho <;> simp only [Stream.shift, hm, if_neg hlt.not_ge, if_neg hin.not_ge] <;> exact ⟨_, rfl⟩
  obtain ⟨u, hu⟩ := hok
  exact ⟨u, hu, by simpa [hu] using hends⟩

/-- From a narrowed interval that is already coarse, the loop needs at most the turns that are left of three. -/
theorem Stream.Placed.exists_turns (h : t.Placed size) (ho : t.ch.Open) (hi : t.ch.Narrowed) {j k : Nat}
    (hj : j + k = 3) (hc : t.ch.Coarse j) (hroom : k ≤ t.ch.room) :
    ∃ u, t.Turns u ∧ u.ch.settled = true ∧ u.ch.ptr.toNat ≤ t.ch.ptr.toNat + k := by
  induction k generalizing t j with
  | zero => exact ⟨t, .done t, hi.settled_of_coarse (hj ▸ hc), Nat.le_refl _⟩
  | succ k ih =>
    by_cases hs : t.ch.settled = true
    · exact ⟨t, .done t, hs, by omega⟩
    · have hs : t.ch.settled = false := by simpa using hs
      obtain ⟨v, hv, hplaced, hmode, hlow, hrange, hvroom⟩ :=
        Stream.Placed.exists_shift (t := { t with ch := t.ch.cut }) (h.retune (by simp) (by simp) (by simp))
          (by simpa [Channel.Open] using ho)
          (by simp only [Channel.room, Channel.cut_limit, Channel.cut_ptr] at *; omega)
      have hptr := Stream.shift_ptr hv
      simp only [Channel.room, Channel.cut_limit, Channel.cut_ptr, Channel.cut_low] at *
      obtain ⟨u, hturns, hsettled, hle⟩ := ih (t := { v with ch := v.ch.advance }) (j := j + 1)
        (hplaced.retune rfl rfl rfl) (by simpa [Channel.Open, Channel.advance, hmode] using ho)
        (hi.turn hs hlow hrange) (by omega) (hc.advance (by omega) hlow hrange)
        (by simp only [Channel.advance]; omega)
      exact ⟨u, .turn hs hv hturns, hsettled, by simp only [Channel.advance] at hle; omega⟩

/-! ### A coding step's `Narrow` and `Renorm` -/

section
variable {iv : Interval} {e : Cause}

/-- With three bytes of room a coding step's `Renorm` ends, within them (R121). -/
theorem Stream.Ready.exists_codes (h : t.Ready size) (hiv : iv.Legal) (hroom : 3 ≤ t.ch.room) :
    ∃ u, t.Codes iv none u ∧ u.ch.ptr.toNat ≤ t.ch.ptr.toNat + 3 := by
  have hplaced : Stream.Placed size { t with ch := t.ch.narrow iv } := h.placed.retune rfl rfl rfl
  obtain ⟨u, hturns, hsettled, hle⟩ :=
    hplaced.exists_turns h.isOpen (h.interval.narrow hiv) rfl (Channel.coarse_zero _) hroom
  refine ⟨u, hturns.renormLoop hsettled ?_, hle⟩
  simp only [Channel.room, Channel.narrow_ptr, Channel.narrow_limit] at hroom hle ⊢
  omega

theorem Stream.Codes.turns (h : t.Codes iv none u) :
    Stream.Turns { t with ch := t.ch.narrow iv } u ∧ u.ch.settled = true :=
  Stream.turns_of_renormLoop_ok h

theorem Stream.Codes.moves {e : Option Cause} (h : t.Codes iv e u) : t.Moves u := by
  refine (Stream.Moves.retune t (t.ch.narrow iv) rfl rfl rfl rfl).trans (Stream.renorm_moves ?_)
  cases e with
  | none => exact .inl h
  | some e => exact .inr ⟨e, h⟩

theorem Stream.Codes.puts {e : Option Cause} (h : t.Codes iv e u) : t.Puts u := by
  refine (Stream.Puts.retune t (t.ch.narrow_ptr iv)).trans ?_
  cases e with
  | none => exact h.turns.1.puts
  | some e =>
    obtain ⟨v, hv, hu⟩ := Stream.turns_of_renormLoop_raised h
    exact hv.puts.trans (Stream.shift_raised hu ▸ .retune v v.ch.cut_ptr)

/-- What a raise of `Shift` means: the window is used up (R119). -/
theorem Stream.shift_raised_cause (h : t.shift = .raised e u) (hlimit : t.ch.limit.toNat ≤ t.mem.size) :
    t.ch.limit.toNat ≤ t.ch.ptr.toNat ∧ (t.ch.mode = .enc → e = .windowFull)
      ∧ (t.ch.mode = .dec → e = .streamExhausted) := by
  have hfull : t.ch.limit.toNat ≤ t.ch.ptr.toNat := by
    by_contra hlt
    have hin : ¬ t.mem.size ≤ t.ch.ptr.toNat := by omega
    cases hm : t.ch.mode <;> simp [Stream.shift, hm, hlt, hin] at h
  cases hm : t.ch.mode <;> simp_all [Stream.shift]

/-- A coding step that raises does so at the end of the window, with the cause of the channel's mode (R119). -/
theorem Stream.Codes.raised (h : t.Codes iv (some e) u) (hplaced : t.Placed size) :
    u.ch.ptr = t.ch.limit ∧ (t.ch.mode = .enc → e = .windowFull) ∧ (t.ch.mode = .dec → e = .streamExhausted) := by
  have hmoves := h.moves
  obtain ⟨v, hv, hu⟩ := Stream.turns_of_renormLoop_raised h
  obtain rfl := Stream.shift_raised hu
  have hsize := hmoves.size
  have hlimit := congrArg BitVec.toNat hmoves.limit
  have hle := hplaced.limit_le
  have hsize' := hplaced.size_eq
  obtain ⟨hfull, henc, hdec⟩ := Stream.shift_raised_cause hu (by omega)
  have hinside := hmoves.inside
  have hptr := hplaced.ptr_le
  refine ⟨BitVec.eq_of_toNat_eq ?_, fun hm => henc (hmoves.mode.trans hm), fun hm => hdec (hmoves.mode.trans hm)⟩
  obtain hin | hin := hinside
  · omega
  · rw [hin] at hfull ⊢
    omega

/-- A decoder's `Renorm` leaves DMEM as it was (R119). -/
theorem Stream.Codes.mem_of_dec {e : Option Cause} (h : t.Codes iv e u) (hmode : t.ch.mode = .dec) : u.mem = t.mem := by
  have hleaves := Stream.Decoding.renormLoop (Q := (· = t.mem)) (t := { t with ch := t.ch.narrow iv }) ⟨hmode, rfl⟩
    (t.ch.limit.toNat - t.ch.ptr.toNat)
  rw [Stream.codes_iff, Stream.renorm, Channel.narrow_limit, Channel.narrow_ptr] at h
  rw [h] at hleaves
  cases e <;> exact hleaves.mem

end
end

end Sys2Proof.Machine
end

section
/-!
The models (O24 to O29): the laws of a bit model and of a symbol row, then the four model commands.
-/

namespace Sys2Proof.Machine

/-! ### Bit models (R106, R107) -/

theorem Slot.updateBit_zero {m : Slot} {p0 p1 : Prob} (h : m.table = .bin p0 p1) (b : Bool) :
    m.updateBit 0 b = { table := .bin (adaptProb p0 b) p1, last := BitVec.ofNat 8 b.toNat } := by
  simp only [Slot.updateBit, h]

theorem Slot.updateBit_one {m : Slot} {p0 p1 : Prob} (h : m.table = .bin p0 p1) (b : Bool) :
    m.updateBit 1 b = { table := .bin p0 (adaptProb p1 b), last := BitVec.ofNat 8 b.toNat } := by
  simp only [Slot.updateBit, h]

/-- The formulas of R106 on numbers: a probability stays below 2^12. -/
theorem adaptProb_toNat (p : Prob) (b : Bool) :
    (adaptProb p b).toNat = if b then p.toNat + (4096 - p.toNat) / 32 else p.toNat - p.toNat / 32 := by
  have := p.isLt
  cases b <;> simp only [adaptProb, probOne, probShift, BitVec.toNat_ofNat, if_true, Bool.false_eq_true, if_false,
    Nat.reducePow] <;> omega

/-- Where every step but the one at the fixed point `q` lowers a measure, enough of them lead to `q` and stay. -/
theorem exists_iterate_eq {α : Type} {f : α → α} {P : α → Prop} {q : α} (μ : α → Nat) (hq : f q = q)
    (hstep : ∀ a, P a → a ≠ q → P (f a) ∧ μ (f a) < μ a) {a : α} (ha : P a) : ∃ n, ∀ k, n ≤ k → f^[k] a = q := by
  induction hμ : μ a using Nat.strong_induction_on generalizing a with
  | _ d ih =>
    by_cases haq : a = q
    · exact ⟨0, fun k _ => haq ▸ Function.iterate_fixed hq k⟩
    · obtain ⟨hP, hlt⟩ := hstep a ha haq
      obtain ⟨n, hn⟩ := ih _ (hμ ▸ hlt) hP rfl
      refine ⟨n + 1, fun k hk => ?_⟩
      obtain ⟨k, rfl⟩ := Nat.exists_eq_add_of_le' (Nat.le_of_add_left_le hk)
      exact hn k (by omega)

/-- A legal probability other than 4065 grows under a 1 bit (R107). -/
theorem lt_adaptProb_true {p : Prob} (h : ProbOk p) (hne : p ≠ 4065#12) : p.toNat < (adaptProb p true).toNat := by
  have hne : p.toNat ≠ 4065 := fun he => hne (BitVec.eq_of_toNat_eq he)
  rw [adaptProb_toNat, if_pos rfl]
  obtain ⟨-, hhi⟩ := h
  omega

/-- A legal probability other than 31 falls under a 0 bit (R107). -/
theorem adaptProb_false_lt {p : Prob} (h : ProbOk p) (hne : p ≠ 31#12) : (adaptProb p false).toNat < p.toNat := by
  have hne : p.toNat ≠ 31 := fun he => hne (BitVec.eq_of_toNat_eq he)
  rw [adaptProb_toNat, if_neg Bool.false_ne_true]
  obtain ⟨hlo, -⟩ := h
  omega

/-- Settles O27, by the two formulas on numbers. -/
theorem bitModelFollowsItsLaw : Obligations.BitModelFollowsItsLaw := by
  refine ⟨fun m p0 p1 b ht => ?_, rfl, by decide, fun p b h => ?_, fun p h => ?_, fun p h => ?_⟩
  · have hlast : BitVec.ofNat 8 b.toNat = if b then 1#8 else 0#8 := by cases b <;> rfl
    exact ⟨⟨_, hlast ▸ Slot.updateBit_zero ht b, adaptProb_toNat p0 b⟩,
      ⟨_, hlast ▸ Slot.updateBit_one ht b, adaptProb_toNat p1 b⟩⟩
  · obtain ⟨hfreq, hsum, -⟩ := bitInterval_legal h b
    exact ⟨probOk_adaptProb h b, hfreq, hsum⟩
  · refine exists_iterate_eq (P := ProbOk) (fun q => 4096 - q.toNat) (by decide) (fun q hq hne => ?_) h
    have := lt_adaptProb_true hq hne
    exact ⟨probOk_adaptProb hq true, by omega⟩
  · exact exists_iterate_eq (P := ProbOk) (fun q => q.toNat) (by decide)
      (fun q hq hne => ⟨probOk_adaptProb hq false, adaptProb_false_lt hq hne⟩) h

/-! ### Symbol rows (R108, R109) -/

section
variable {r : SymRow} {n j : Nat}

theorem sumCounts_take_succ {l : List Half} (hj : j < l.length) :
    sumCounts (l.take (j + 1)) = sumCounts (l.take j) + l[j].toNat := by
  simp only [sumCounts, List.map_take]
  rw [List.sum_take_succ _ _ (by simpa using hj), List.getElem_map]

theorem sumCounts_take_mono (l : List Half) {i j : Nat} (h : i ≤ j) : sumCounts (l.take i) ≤ sumCounts (l.take j) := by
  induction h with
  | refl => exact Nat.le_refl _
  | @step j _ ih =>
    refine ih.trans ?_
    by_cases hj : j < l.length
    · rw [sumCounts_take_succ hj]; omega
    · rw [List.take_of_length_le (by omega), List.take_of_length_le (by omega)]

/-- The interval of a symbol says what R108 says of it, and ends where the next one starts. -/
theorem SymRow.interval_eq_some {iv : Interval} (h : r.interval j = some iv) :
    ∃ hj : j < r.freq.length, iv.cum = r.cum j ∧ iv.freq = r.freq[j].toNat ∧ iv.tot = r.tot.toNat
      ∧ r.cum (j + 1) = iv.cum + iv.freq := by
  unfold SymRow.interval at h
  split at h
  · next f hf =>
    cases h
    obtain ⟨hj, rfl⟩ := List.getElem?_eq_some_iff.1 hf
    exact ⟨hj, rfl, rfl, rfl, sumCounts_take_succ hj⟩
  · cases h

/-- A value lies in the interval of one symbol only (R108). -/
theorem SymRow.interval_unique {j' v : Nat} {iv iv' : Interval} (h : r.interval j = some iv)
    (h' : r.interval j' = some iv') (hlo : iv.cum ≤ v) (hhi : v < iv.cum + iv.freq) (hlo' : iv'.cum ≤ v)
    (hhi' : v < iv'.cum + iv'.freq) : j' = j := by
  obtain ⟨-, hcum, -, -, hnext⟩ := SymRow.interval_eq_some h
  obtain ⟨-, hcum', -, -, hnext'⟩ := SymRow.interval_eq_some h'
  obtain hlt | heq | hgt := Nat.lt_trichotomy j j'
  · have : r.cum (j + 1) ≤ r.cum j' := sumCounts_take_mono r.freq hlt
    omega
  · exact heq.symm
  · have : r.cum (j' + 1) ≤ r.cum j := sumCounts_take_mono r.freq hgt
    omega

/-- The decoder finds a symbol for every value below the total, and its interval holds the value (R108). -/
theorem SymRow.Ok.exists_findSymbol (h : r.Ok n) {v : Nat} (hv : v < r.tot.toNat) :
    ∃ j iv, findSymbol r.freq v = some j ∧ j < n ∧ r.interval j = some iv ∧ iv.cum ≤ v ∧ v < iv.cum + iv.freq := by
  obtain ⟨hlen, hsum, -⟩ := id h
  obtain ⟨j, hj, hlt⟩ := findSymbol_of_lt (hsum ▸ hv)
  obtain ⟨f, hf, hlo, hhi⟩ := findSymbol_some hj
  exact ⟨j, { cum := r.cum j, freq := f.toNat, tot := r.tot.toNat }, hj, hlen ▸ hlt, by simp only [SymRow.interval, hf],
    hlo, hhi⟩

/-- Settles O29: the decoder's symbol has an interval that holds the value, and no two intervals share one. -/
theorem symIntervalsPartition : Obligations.SymIntervalsPartition := by
  refine fun n r h => ⟨fun v hv => ?_, rfl, fun j hj => ?_⟩
  · obtain ⟨j, iv, hfind, hj, hiv, hlo, hhi⟩ := SymRow.Ok.exists_findSymbol h hv
    exact ⟨j, iv, hfind, hj, hiv, hlo, hhi, fun _ _ hiv' => SymRow.interval_unique hiv hiv' hlo hhi⟩
  · obtain ⟨iv, hiv, ⟨hfreq, hsum, -⟩, -⟩ := SymRow.Ok.interval h hj
    obtain ⟨hlt, hcum, hf, htot, hnext⟩ := SymRow.interval_eq_some hiv
    exact ⟨iv, hiv, hcum, hfreq, by simp [hf, hlt], hnext.symm, hnext ▸ hsum, htot⟩

/-- An increment of one count, entry by entry, where no count leaves its 16 bits. -/
theorem getD_modify_toNat {l : List Half} {i d : Nat} (hi : i < l.length) (hsum : sumCounts l + d < 2 ^ 16) :
    ((l.modify j fun f => BitVec.ofNat 16 (f.toNat + d)).getD i 0#16).toNat
      = (l.getD i 0#16).toNat + if i = j then d else 0 := by
  have hle := sumCounts_take_add_le hi
  by_cases hij : i = j
  · subst hij
    rw [List.getD_eq_getElem _ _ (by simpa using hi), List.getD_eq_getElem _ _ hi, List.getElem_modify_eq, if_pos rfl,
      BitVec.toNat_ofNat]
    omega
  · simp [hij, Ne.symm hij, hi]

/-- Each count is the total less at least 1 for every other symbol (R110). -/
theorem SymRow.Ok.freq_bounds (h : r.Ok n) {f : Half} (hf : f ∈ r.freq) :
    1 ≤ f.toNat ∧ f.toNat + n ≤ r.tot.toNat + 1 := by
  obtain ⟨hlen, hsum, -, hall⟩ := h
  have hpos : ∀ f ∈ r.freq, 1 ≤ f.toNat := by simpa using hall
  have hperm : sumCounts r.freq = f.toNat + sumCounts (r.freq.erase f) := by
    rw [← sumCounts_cons]
    exact ((List.perm_cons_erase hf).map BitVec.toNat).sum_eq
  have hrest : (r.freq.erase f).length ≤ sumCounts (r.freq.erase f) := by
    have hle := List.length_le_sum_of_one_le ((r.freq.erase f).map BitVec.toNat)
      (List.forall_mem_map.2 fun g hg => hpos g (List.mem_of_mem_erase hg))
    simpa only [List.length_map, sumCounts] using hle
  rw [List.length_erase_of_mem hf] at hrest
  have := hpos f hf
  omega

/-- Settles O28: the two branches of R109, on a row that keeps its checks. -/
theorem symUpdateKeepsTheTable : Obligations.SymUpdateKeepsTheTable := by
  intro n r j h2 h256 hok hj bumped u
  have hu : u.Ok n := SymRow.Ok.update hok h256 hj
  obtain ⟨hlen, hsum, hceil, -⟩ := id hok
  obtain ⟨hulen, husum, huceil, -⟩ := id hu
  have hinc : freqInc = 32 := rfl
  have hmax : freqCeil = 16383 := rfl
  have hbumped (i : Nat) (hi : i < n) :
      ((r.freq.modify j fun f => BitVec.ofNat 16 (f.toNat + freqInc)).getD i 0#16).toNat = bumped i :=
    getD_modify_toNat (hlen ▸ hi) (by omega)
  refine ⟨hu, fun hle => ?_, fun hlt => ⟨husum.symm, fun i hi => ?_⟩, ?_, fun f hf => ?_⟩
  · have hu : u = { freq := r.freq.modify j fun f => BitVec.ofNat 16 (f.toNat + freqInc)
                    tot := BitVec.ofNat 16 (r.tot.toNat + freqInc) } := if_neg (by omega)
    refine ⟨?_, fun i hi => by rw [hu]; exact hbumped i hi⟩
    rw [hu, BitVec.toNat_ofNat]
    omega
  · have hu : u.freq = (r.freq.modify j fun f => BitVec.ofNat 16 (f.toNat + freqInc)).map halveCount :=
      congrArg SymRow.freq (if_pos (by omega))
    rw [hu, ← hbumped i hi, ← halveCount_toNat, List.getD_eq_getElem _ _ (by simpa [hlen] using hi),
      List.getD_eq_getElem _ _ (by simpa [hlen] using hi), List.getElem_map]
  · have := SymRow.Ok.freq_bounds hu (List.getElem_mem (hulen.symm ▸ hj))
    omega
  · have := SymRow.Ok.freq_bounds hu hf
    omega

end

/-! ### The model commands (R112 to R115) -/

section
variable {s : State} {m : SlotNo}

/-- `t` is `s` after a command that gave slot `m` the value `u`, and did nothing else. -/
structure State.SlotDone (s t : State) (m : SlotNo) (u : Slot) : Prop where
  quiet : s.SucceededQuietly t
  only : s.OnlySlot t m
  slot : t.slot = s.slot.set m u m.isLt

theorem State.SlotDone.slot_self {t : State} {u : Slot} (h : s.SlotDone t m u) : t.slot[m] = u := by
  rw [h.slot]
  exact Vector.getElem_set_self _

theorem State.slotDone_setSlot (s : State) (m : SlotNo) (u : Slot) : s.SlotDone ((s.setSlot m u).complete []) m u where
  quiet := ⟨⟨rfl, rfl, rfl, rfl, rfl, rfl, rfl, rfl, rfl, rfl, rfl⟩, rfl, rfl⟩
  only := ⟨rfl, fun _ hd => getElem_set_of_ne _ _ hd, rfl, rfl, rfl⟩
  slot := rfl

/-- `MDL_CFG` with a legal kind and alphabet gives the slot the fresh table of its kind (R112). -/
theorem exists_exec_mdlCfg {val kind : Byte} (s : State) (m : SlotNo) (h : cfgLegal val kind = true) :
    ∃ table t, exec (.mdlCfg m val kind) s = .next t ∧ s.SlotDone t m { table := table, last := 0#8 }
      ∧ (kind = 0#8 → table = .off) ∧ (kind = 1#8 → table = initialBin)
      ∧ (kind = 2#8 → table = initialSym (val.toNat + 1)) := by
  refine ⟨_, _, if_neg (not_not_intro h), s.slotDone_setSlot m _, ?_, ?_, ?_⟩ <;> rintro rfl <;> rfl

/-- Settles O24, by the fresh table of each kind. -/
theorem mdlCfgInitialises : Obligations.MdlCfgInitialises := by
  intro s m val kind h
  obtain ⟨table, t, ht, hdone, hoff, hbin, hsym⟩ := exists_exec_mdlCfg s m h
  have hslot := hdone.slot_self
  refine ⟨t, ht, hdone.quiet, hdone.only, by rw [hslot], fun hk => by rw [hslot]; exact hoff hk,
    fun hk => by rw [hslot]; exact hbin hk, fun hk => ?_⟩
  rw [hslot, hsym hk]
  refine ⟨rfl, by simp [initialSym, Table.alphabet], fun c hc =>
    ⟨_, List.getElem?_replicate_of_lt (Nat.lt_succ_of_le hc), ?_, rfl⟩⟩
  have := val.isLt
  rw [BitVec.toNat_ofNat]
  omega

theorem exists_exec_mdlReset (h : s.slot[m].table ≠ .off) : ∃ t, exec (.mdlReset m) s = .next t
    ∧ s.SlotDone t m { table := s.slot[m].table.initial, last := 0#8 } :=
  ⟨_, if_neg h, s.slotDone_setSlot m _⟩

/-- The initial table of a slot's kind and alphabet is the one `MDL_CFG` gives for them (R113). -/
theorem exists_exec_mdlCfg_initial (s : State) (m : SlotNo) {u : Slot} (hok : u.ok = true) :
    ∃ t, exec (.mdlCfg m (BitVec.ofNat 8 (u.table.alphabet - 1)) (BitVec.ofNat 8 u.table.kind)) s = .next t
      ∧ s.SlotDone t m { table := u.table.initial, last := 0#8 } := by
  obtain ⟨_ | ⟨p0, p1⟩ | rows, l⟩ := u
  · obtain ⟨_, t, ht, hdone, hoff, -, -⟩ := exists_exec_mdlCfg (val := 0#8) (kind := 0#8) s m rfl
    obtain rfl := hoff rfl
    exact ⟨t, ht, hdone⟩
  · obtain ⟨_, t, ht, hdone, -, hbin, -⟩ := exists_exec_mdlCfg (val := 1#8) (kind := 1#8) s m rfl
    obtain rfl := hbin rfl
    exact ⟨t, ht, hdone⟩
  · obtain ⟨h2, h256, -⟩ := (Slot.ok_sym ..).1 hok
    have hval : (BitVec.ofNat 8 (rows.length - 1)).toNat = rows.length - 1 := by rw [BitVec.toNat_ofNat]; omega
    obtain ⟨_, t, ht, hdone, -, -, hsym⟩ := 
      exists_exec_mdlCfg (val := BitVec.ofNat 8 (rows.length - 1)) (kind := 2#8) s m
      (decide_eq_true (by omega))
    rw [hsym rfl, hval, Nat.sub_add_cancel (by omega)] at hdone
    exact ⟨t, ht, hdone⟩

/-- Settles O25: each command by its checks in their order. -/
theorem mdlResetAndSetctxComplete : Obligations.MdlResetAndSetctxComplete := by
  intro s m k n
  refine ⟨fun hoff => ⟨⟨_, if_pos hoff, s.failedUntouched_raise _⟩, _, if_pos hoff, s.failedUntouched_raise _⟩,
    fun hok hne => ?_, fun hne hk => ⟨_, (if_neg hne).trans (if_pos hk), s.failedUntouched_raise _⟩, fun hne hk => ?_⟩
  · obtain ⟨t, ht, hreset⟩ := exists_exec_mdlReset hne
    obtain ⟨u, hu, hcfg⟩ := exists_exec_mdlCfg_initial s m hok
    exact ⟨t, u, ht, hreset.quiet, hreset.only, hu, hreset.slot.trans hcfg.slot.symm⟩
  · have hdone := s.slotDone_setSlot m { s.slot[m] with last := k }
    exact ⟨_, (if_neg hne).trans (if_neg (Nat.not_le_of_lt hk)), hdone.quiet, hdone.only, hdone.slot_self⟩

theorem exec_mdlPeek_off (h : s.slot[m].table = .off) : exec (.mdlPeek m) s = .next (s.raise .slotKind) := by
  simp only [exec, execMdlPeek, h]

theorem exec_mdlPeek_bin {p0 p1 : Prob} (h : s.slot[m].table = .bin p0 p1) : exec (.mdlPeek m) s =
    if 2 ≤ s.argNat 0 then .next (s.raise .badPeek)
    else .next (s.complete [(0, (if s.argNat 0 = 0 then p0 else p1).setWidth 32), (1, 4096#32), (2, 0#32),
      (3, s.slot[m].lastWord)]) := by
  simp only [exec, execMdlPeek, h]
  rfl

theorem exec_mdlPeek_sym_outside {rows : List SymRow} (h : s.slot[m].table = .sym rows)
    (hout : rows.length ≤ s.argNat 0 ∨ rows.length ≤ s.argNat 1) :
    exec (.mdlPeek m) s = .next (s.raise .badPeek) := by
  simp only [exec, execMdlPeek, h]
  split_ifs
  · rfl
  · rfl
  · omega

theorem exec_mdlPeek_sym {rows : List SymRow} {iv : Interval} (h : s.slot[m].table = .sym rows)
    (hc : s.argNat 0 < rows.length) (hj : s.argNat 1 < rows.length)
    (hiv : ((s.slot[m].table.row (s.argNat 0)).bind fun r => r.interval (s.argNat 1)) = some iv) :
    exec (.mdlPeek m) s = .next (s.complete [(0, word iv.freq), (1, word iv.tot), (2, word iv.cum),
      (3, s.slot[m].lastWord)]) := by
  rw [h] at hiv
  simp only [exec, execMdlPeek, h, hiv, if_neg hc.not_ge, if_neg hj.not_ge]

/-- A completion with nothing but results (R149). -/
theorem State.succeeded_complete (s : State) (r : List Result) :
    s.Succeeded (s.complete r) ∧ s.SameUnits (s.complete r) ∧ (s.complete r).dmem = s.dmem
      ∧ (s.complete r).res = writeResults s.res r :=
  ⟨⟨rfl, rfl, rfl, rfl, rfl, rfl, rfl, rfl, rfl, rfl, rfl⟩, ⟨rfl, rfl, rfl, rfl⟩, rfl, rfl⟩

/-- Settles O26: by the slot's kind, and for a table by the checks of R115. -/
theorem mdlPeekReadsTheTable : Obligations.MdlPeekReadsTheTable := by
  intro s m c j slot last reads fails
  refine ⟨fun hoff => ⟨_, exec_mdlPeek_off hoff, s.failedUntouched_raise _⟩, fun p0 p1 hbin => ?_,
    fun rows hsym hok => ?_⟩
  · have hexec := exec_mdlPeek_bin hbin
    refine ⟨fun hc => ?_, fun hc => ?_, fun hc => ⟨_, hexec.trans (if_pos hc), s.failedUntouched_raise _⟩⟩
    · rw [if_neg (by omega), if_pos hc] at hexec
      exact ⟨_, hexec, s.succeeded_complete _⟩
    · rw [if_neg (by omega), if_neg (by omega)] at hexec
      exact ⟨_, hexec, s.succeeded_complete _⟩
  · refine ⟨fun hout => ⟨_, exec_mdlPeek_sym_outside hsym hout, s.failedUntouched_raise _⟩, fun row f hrow hf => ?_⟩
    obtain ⟨hc, rfl⟩ := List.getElem?_eq_some_iff.1 hrow
    obtain ⟨hj, rfl⟩ := List.getElem?_eq_some_iff.1 hf
    have hrow : slot.table.row c = some rows[c] := by rw [hsym]; exact hrow
    obtain ⟨-, -, -, hrows⟩ : 2 ≤ rows.length ∧ rows.length ≤ 256 ∧ slot.last.toNat < rows.length
        ∧ ∀ r ∈ rows, r.Ok rows.length := by
      refine (Slot.ok_sym ..).1 ?_
      rw [← hsym]
      exact hok
    obtain ⟨hlen, -⟩ := hrows _ (List.getElem_mem hc)
    have hiv : rows[c].interval j
        = some ⟨sumCounts (rows[c].freq.take j), rows[c].freq[j].toNat, rows[c].tot.toNat⟩ := by
      simp only [SymRow.interval, hf, SymRow.cum]
    have hexec := exec_mdlPeek_sym hsym hc (hlen ▸ hj) (by rw [hrow, Option.bind_some, hiv])
    simp only [word, BitVec.ofNat_toNat] at hexec
    exact ⟨_, hexec, s.succeeded_complete _⟩

end

end Sys2Proof.Machine
end

section
/-!
SUPPORT. The coding steps of the machine from the relations of Safety.lean that say them from the rules: where a
relation holds, the step ends as it says. With Laws/CodingSteps.lean, a step and its relation say the same.
-/

namespace Sys2Proof.Machine

theorem Coded.bind_ok_eq {σ α β : Type} (a : α) (s : σ) (f : α → σ → Coded σ β) : (Coded.ok a s).bind f = f a s := rfl

theorem Coded.lift_ok_eq {σ τ α : Type} (g : σ → τ) (a : α) (s : σ) : (Coded.ok a s).lift g = .ok a (g s) := rfl

section
variable {k u : Coder} {size n ctx j : Nat} {b : Bool} {e : Option Cause}

/-- The common tail of the coding steps ends as `Narrow` and `Renorm` do, over the updated slot. -/
theorem Coder.codeInterval_of_codes {iv : Interval} {m : Slot} (h : k.str.Codes iv e u.str) (hm : u.slot = m) :
    k.codeInterval iv m = .ended e () u := by
  subst hm
  rw [Coder.codeInterval, Stream.codes_iff.1 h, Coded.lift_ended]

theorem Coder.EncodesBit.encBit (h : k.EncodesBit ctx b e u) : k.encBit ctx b = .ended e () u := by
  obtain ⟨p, hp, hcodes, hslot⟩ := h
  simp only [Coder.encBit, hp]
  exact Coder.codeInterval_of_codes hcodes hslot

/-- In an open interval `DecodeValue` does not divide by 0 (R120, R121). -/
theorem Channel.IntervalOk.decodeValue_ne_fault {t : Stream} (h : t.ch.IntervalOk) {tot : Nat} (hpos : 1 ≤ tot)
    (htot : tot ≤ 2 ^ 16) : t.decodeValue tot ≠ .fault .divideByZero := by
  have hunit := (Channel.IntervalOk.unit_pos h hpos htot).1
  have hne : t.ch.range / word tot ≠ 0#32 := fun hz => by rw [hz] at hunit; simp at hunit
  simp only [Stream.decodeValue, if_neg hne]
  split <;> exact nofun

/-- In an open interval `DecodeValue` answers a position below the total (R120). -/
theorem Channel.IntervalOk.decodeValue_of_lt {t : Stream} (h : t.ch.IntervalOk) {tot : Nat} (htot : tot ≤ 2 ^ 16)
    (hv : t.ch.position tot < tot) : t.decodeValue tot = .ok (t.ch.position tot) t := by
  obtain hf | ⟨-, hok⟩ | ⟨hle, -⟩ := t.decodeValue_cases (show tot < 2 ^ 32 by omega)
  · exact (h.decodeValue_ne_fault (by omega) htot hf).elim
  · exact hok
  · omega

/-- In an open interval `DecodeValue` raises at a position at or beyond the total (R120). -/
theorem Channel.IntervalOk.decodeValue_of_le {t : Stream} (h : t.ch.IntervalOk) {tot : Nat} (hpos : 1 ≤ tot)
    (htot : tot ≤ 2 ^ 16) (hv : tot ≤ t.ch.position tot) : t.decodeValue tot = .raised .corruptValue t := by
  obtain hf | ⟨hlt, -⟩ | ⟨-, hraised⟩ := t.decodeValue_cases (show tot < 2 ^ 32 by omega)
  · exact (h.decodeValue_ne_fault hpos htot hf).elim
  · omega
  · exact hraised

theorem Coder.DecodesBit.decBit (h : k.DecodesBit ctx b e u) (hi : k.str.ch.IntervalOk) :
    k.decBit ctx = .ended e b u := by
  obtain ⟨p, hp, hv, hb, hcodes, hslot⟩ := h
  have hvalue := hi.decodeValue_of_lt (tot := probOne) (by decide) hv
  have hbit : decide (k.str.ch.position probOne < p.toNat) = b := hb.symm
  simp only [Coder.decBit, hp, hvalue, Coded.lift_ok_eq, Coded.bind_ok_eq, hbit,
    Coder.codeInterval_of_codes hcodes hslot, Coded.ended_bind_ok fun _ => b]

/-- A position beyond the model's scale raises and changes nothing (R120, R123). -/
theorem Coder.decBit_corrupt {p : Prob} (hp : k.slot.table.prob ctx = some p) (hi : k.str.ch.IntervalOk)
    (hv : 4096 ≤ k.str.ch.position 4096) : k.decBit ctx = .raised .corruptValue k := by
  have hvalue := hi.decodeValue_of_le (tot := probOne) (by decide) (by decide) hv
  simp only [Coder.decBit, hp, hvalue, Coded.lift, Coded.bind]

/-- What R109 says of the slot after a symbol determines it. -/
theorem Slot.SymUpdated.eq_updateSym {m m' : Slot} {row : SymRow} (h : m.SymUpdated m' ctx j)
    (hrow : m.table.row ctx = some row) : m' = m.updateSym ctx j := by
  obtain ⟨hlast, halpha, hat, hother⟩ := h
  obtain ⟨hlast', halpha', hat', hother'⟩ := Slot.updateSym_symUpdated (j := j) hrow
  have hsym (w : Slot) (hw : w.table.row ctx = some (row.update j)) : ∃ rows, w.table = .sym rows := by
    cases ht : w.table with
    | sym rows => exact ⟨rows, rfl⟩
    | off => simp [ht, Table.row] at hw
    | bin p0 p1 => simp [ht, Table.row] at hw
  obtain ⟨rows, ht⟩ := hsym m' (hat row hrow)
  obtain ⟨rows', ht'⟩ := hsym _ (hat' row hrow)
  have hrows : rows = rows' := by
    refine List.ext_getElem? fun d => ?_
    have hd : m'.table.row d = (m.updateSym ctx j).table.row d := by
      by_cases hc : d = ctx
      · subst hc; rw [hat row hrow, hat' row hrow]
      · rw [hother d hc, hother' d hc]
    simpa only [ht, ht', Table.row] using hd
  have htable : m'.table = (m.updateSym ctx j).table := by rw [ht, hrows, ht']
  exact congrArg₂ Slot.mk htable (hlast.trans hlast'.symm)

/-- Every interval of a legal row is legal, and its symbol is one of the alphabet (R108). -/
theorem SymRow.Ok.interval_legal {r : SymRow} {iv : Interval} (h : r.Ok n) (hiv : r.interval j = some iv) :
    j < n ∧ iv.Legal ∧ iv.tot = r.tot.toNat := by
  obtain ⟨hj, -⟩ := SymRow.interval_eq_some hiv
  obtain ⟨hlen, -⟩ := id h
  obtain ⟨iv', hiv', hlegal⟩ := SymRow.Ok.interval h (hlen ▸ hj)
  obtain rfl : iv' = iv := Option.some.inj (hiv'.symm.trans hiv)
  exact ⟨hlen ▸ hj, hlegal⟩

theorem Slot.Fits.row_ok {m : Slot} {row : SymRow} (h : m.Fits 2 n) (hrow : m.table.row ctx = some row) : row.Ok n := by
  obtain ⟨-, -, rows, ht, -, hrows⟩ := h.exists_sym
  rw [ht] at hrow
  exact hrows row (List.mem_of_getElem? hrow)

theorem Coder.EncodesSym.encSym (h : k.EncodesSym ctx j e u) (hk : k.slot.Fits 2 n) :
    k.encSym ctx j = .ended e () u := by
  obtain ⟨row, iv, hrow, hiv, hcodes, hslot⟩ := h
  obtain ⟨-, ⟨hfreq, hsum, -⟩, -⟩ := (hk.row_ok hrow).interval_legal hiv
  simp only [Coder.encSym, hrow, Option.bind_some, hiv, if_neg (show iv.tot ≠ 0 by omega)]
  exact Coder.codeInterval_of_codes hcodes (hslot.eq_updateSym hrow)

/-- The decoder finds the symbol whose interval holds the position (R108). -/
theorem SymRow.Ok.findSymbol_eq {r : SymRow} {iv : Interval} {v : Nat} (h : r.Ok n) (hiv : r.interval j = some iv)
    (hlo : iv.cum ≤ v) (hhi : v < iv.cum + iv.freq) : findSymbol r.freq v = some j := by
  obtain ⟨-, ⟨-, hsum, -⟩, htot⟩ := h.interval_legal hiv
  obtain ⟨j', iv', hfind, -, hiv', hlo', hhi'⟩ := SymRow.Ok.exists_findSymbol h (show v < r.tot.toNat by omega)
  rw [hfind, SymRow.interval_unique hiv hiv' hlo hhi hlo' hhi']

theorem Coder.DecodesSym.decSym (h : k.DecodesSym ctx j e u) (hk : k.slot.Fits 2 n) (hi : k.str.ch.IntervalOk) :
    k.decSym ctx = .ended e j u := by
  obtain ⟨row, iv, hrow, hiv, hlo, hhi, hcodes, hslot⟩ := h
  have hok := hk.row_ok hrow
  obtain ⟨-, ⟨-, hsum, hle⟩, htot⟩ := hok.interval_legal hiv
  have hvalue := hi.decodeValue_of_lt (htot ▸ hle) (hhi.trans_le (htot ▸ hsum))
  simp only [Coder.decSym, hrow, hvalue, Coded.lift_ok_eq, Coded.bind_ok_eq, hok.findSymbol_eq hiv hlo hhi, hiv,
    Coder.codeInterval_of_codes hcodes (hslot.eq_updateSym hrow), Coded.ended_bind_ok fun _ => j]

/-- A position beyond the row's total raises and changes nothing (R120, R125). -/
theorem Coder.decSym_corrupt {row : SymRow} (hrow : k.slot.table.row ctx = some row) (hk : k.slot.Fits 2 n)
    (hi : k.str.ch.IntervalOk) (hv : row.tot.toNat ≤ k.str.ch.position row.tot.toNat) :
    k.decSym ctx = .raised .corruptValue k := by
  obtain ⟨hn, -⟩ := hk.exists_sym
  have hok := hk.row_ok hrow
  obtain ⟨iv, -, ⟨hfreq, hsum, hle⟩, htot⟩ := SymRow.Ok.interval hok (show 0 < n by omega)
  have hvalue := hi.decodeValue_of_le (show 1 ≤ row.tot.toNat by omega) (htot ▸ hle) hv
  simp only [Coder.decSym, hrow, hvalue, Coded.lift, Coded.bind]

end

end Sys2Proof.Machine
end

section
/-!
The commands on one bit or symbol (O34 to O37): what a coding command leaves in the state from the end of its step, then
each command from the relation its step meets.
-/

namespace Sys2Proof.Machine

/-! ### From the end of a step to the end of the command -/

section
variable {i : Instr} {s t : State} {c : ChanNo} {m : SlotNo} {u : Coder}

theorem State.SameRegisters.succeeded (h : s.SameRegisters t) (r : List Result) : s.Succeeded (t.complete r) := by
  obtain ⟨hstatus, hinfo, hcmd, -, hhost⟩ := h
  exact ⟨by rw [State.complete, hstatus], hinfo, hcmd, hhost⟩

theorem State.SameRegisters.failed (h : s.SameRegisters t) (c : ChanNo) (e : Cause) :
    s.Failed (t.raiseChannel c e) e := by
  obtain ⟨hstatus, -, -, hres, hhost⟩ := h
  obtain ⟨-, -, hcmd, -⟩ := id hhost
  exact ⟨by rw [State.raiseChannel, State.raise, State.setChan_status, hstatus], rfl, hcmd, hres, hhost⟩

theorem State.putCoder_ch_self (s : State) (c : ChanNo) (m : SlotNo) (u : Coder) :
    (s.putCoder c m u).ch[c] = u.str.ch :=
  Vector.getElem_set_self _

theorem State.putCoder_slot_self (s : State) (c : ChanNo) (m : SlotNo) (u : Coder) :
    (s.putCoder c m u).slot[m] = u.slot :=
  Vector.getElem_set_self _

theorem State.coder_putCoder (s : State) (c : ChanNo) (m : SlotNo) (u : Coder) : (s.putCoder c m u).coder c m = u := by
  rw [State.coder, State.stream, State.putCoder_ch_self, State.putCoder_slot_self]
  rfl

theorem State.sameOtherSlots_putCoder (s : State) (c : ChanNo) (m : SlotNo) (u : Coder) :
    s.SameOtherSlots (s.putCoder c m u) m := fun _ hd => getElem_set_of_ne _ _ hd

/-- A coding command whose step ends with results completes with them over what the step left (R149). -/
theorem exists_succeededCoding {r : List Result} (hexec : exec i s = s.finishBody c (s.putCoder c m) (.ran (.ok r u)))
    (hmoves : (s.stream c).Moves u.str) :
    ∃ t, exec i s = .next t ∧ s.SucceededCoding t c m u ∧ t.res = writeResults s.res r := by
  have hch := s.putCoder_ch_self c m u
  have honly : s.OnlyCoder (s.putCoder c m u) c m :=
    ⟨s.sameOtherChannels_putStream c u.str, s.sameOtherSlots_putCoder c m u, rfl, rfl,
      (congrArg Channel.mode hch).trans hmoves.mode, (congrArg Channel.base hch).trans hmoves.base,
      (congrArg Channel.limit hch).trans hmoves.limit⟩
  exact ⟨(s.putCoder c m u).complete r, hexec,
    ⟨(s.sameRegisters_putCoder c m u).succeeded r, s.coder_putCoder c m u, honly⟩, rfl⟩

/-- A coding command whose step raises ends in a channel error over what the step left (R150). -/
theorem exists_failedCoding {e : Cause} (hexec : exec i s = s.finishBody c (s.putCoder c m) (.ran (.raised e u))) :
    ∃ t, exec i s = .next t ∧ s.FailedCoding t c m e u := by
  have hch : ((s.putCoder c m u).raiseChannel c e).ch[c] = { u.str.ch with mode := .err } := by
    rw [← s.putCoder_ch_self c m u]
    exact Vector.getElem_set_self _
  have hslot : ((s.putCoder c m u).raiseChannel c e).slot[m] = u.slot := by
    rw [State.raiseChannel_slot, State.putCoder_slot_self]
  have hother : s.SameOtherSlots ((s.putCoder c m u).raiseChannel c e) m := fun d hd => by
    rw [State.raiseChannel_slot, s.sameOtherSlots_putCoder c m u d hd]
  exact ⟨(s.putCoder c m u).raiseChannel c e, hexec, (s.sameRegisters_putCoder c m u).failed c e, hch, hslot, rfl,
    (s.sameOtherChannels_putStream c u.str).raiseChannel e, hother,
    (State.raiseChannel_mtf ..).trans (State.putCoder_mtf ..),
    (State.raiseChannel_scratch ..).trans (State.putCoder_scratch ..)⟩

/-- What the coder in a state holds is what its channel, slot and DMEM are. -/
theorem State.of_coder_eq (h : t.coder c m = u) : t.ch[c] = u.str.ch ∧ t.slot[m] = u.slot ∧ t.dmem = u.str.mem := by
  subst h
  exact ⟨rfl, rfl, rfl⟩

/-- The DMEM a command leaves is its old one but for the bytes its channel shifted out. -/
theorem State.sameOutside_shifted (h : (s.stream c).Puts u.str) (hptr : t.ch[c].ptr = u.str.ch.ptr)
    (hmem : t.dmem = u.str.mem) : s.dmem.SameOutside t.dmem [shifted s t c] := by
  rw [shifted, hptr, hmem]
  exact h.sameOutside

end

/-! ### Commands of one coding step -/

/-- The relation `R`, written from the rules, says how the one coding step of a command ends: with the value `a`, or
in a raise, over the coder `u`. -/
structure StepMeets {α : Type} (s : State) (c : ChanNo) (step : Coded Coder α) (R : α → Option Cause → Coder → Prop) :
    Prop where
  ended : ∀ a e u, R a e u → step = .ended e a u
  codes : ∀ a e u, R a e u → ∃ iv, (s.stream c).Codes iv e u.str

section
variable {α : Type} {i : Instr} {s : State} {c : ChanNo} {m : SlotNo} {u : Coder} {step : Coded Coder α}
  {R : α → Option Cause → Coder → Prop} {f : α → List Result} {a : α}

/-- Where the step ends with a value, the command completes. -/
theorem StepMeets.succeeds (h : StepMeets s c step R) (hR : R a none u)
    (hexec : exec i s = s.finishBody c (s.putCoder c m) (.ran (step.bind fun a k => .ok (f a) k))) :
    ∃ t, exec i s = .next t ∧ s.SucceededCoding t c m u ∧ t.res = writeResults s.res (f a) := by
  obtain ⟨iv, hcodes⟩ := h.codes a none u hR
  rw [h.ended a none u hR, Coded.ended_bind_ok] at hexec
  exact exists_succeededCoding hexec hcodes.moves

/-- Where the step raises, the command ends in a channel error at the window's end. -/
theorem StepMeets.fails {e : Cause} (h : StepMeets s c step R) (hR : R a (some e) u) (hs : s.Inv) (ho : s.ch[c].Open)
    (hexec : exec i s = s.finishBody c (s.putCoder c m) (.ran (step.bind fun a k => .ok (f a) k))) :
    (∃ t, exec i s = .next t ∧ s.FailedCoding t c m e u) ∧ u.str.ch.ptr = s.ch[c].limit
      ∧ (s.ch[c].mode = .enc → e = .windowFull) ∧ (s.ch[c].mode = .dec → e = .streamExhausted) := by
  obtain ⟨iv, hcodes⟩ := h.codes a (some e) u hR
  rw [h.ended a (some e) u hR, Coded.ended_bind_ok] at hexec
  exact ⟨exists_failedCoding hexec, hcodes.raised (hs.stream_ready ho).placed⟩

end

section
variable {i : Instr} {s : State} {c : ChanNo} {m : SlotNo} {u : Coder} {step : Coded Coder Unit}
  {R : Unit → Option Cause → Coder → Prop}

/-- An encoding command of one step that completes shifts its bytes out and changes nothing else of DMEM. -/
theorem StepMeets.encodes (h : StepMeets s c step R) (hR : R () none u)
    (hexec : exec i s = s.finishBody c (s.putCoder c m) (.ran step.noResult)) :
    ∃ t, exec i s = .next t ∧ s.SucceededCoding t c m u ∧ t.res = s.res
      ∧ s.dmem.SameOutside t.dmem [shifted s t c] := by
  obtain ⟨t, ht, hdone, hres⟩ := h.succeeds (f := fun _ => []) hR hexec
  obtain ⟨iv, hcodes⟩ := h.codes () none u hR
  obtain ⟨-, hcoder, -⟩ := id hdone
  obtain ⟨hch, -, hmem⟩ := State.of_coder_eq hcoder
  exact ⟨t, ht, hdone, hres, State.sameOutside_shifted hcodes.puts (congrArg Channel.ptr hch) hmem⟩

/-- An encoding command of one step that can end within three bytes does. -/
theorem StepMeets.encodes_within (h : StepMeets s c step R)
    (hroom : ∃ u, R () none u ∧ u.str.ch.ptr.toNat ≤ s.ch[c].ptr.toNat + 3)
    (hexec : exec i s = s.finishBody c (s.putCoder c m) (.ran step.noResult)) :
    ∃ t u, exec i s = .next t ∧ R () none u ∧ s.SucceededCoding t c m u ∧ t.res = s.res
      ∧ t.ch[c].ptr.toNat ≤ s.ch[c].ptr.toNat + 3 ∧ s.dmem.SameOutside t.dmem [shifted s t c] := by
  obtain ⟨u, hu, hle⟩ := hroom
  obtain ⟨t, ht, hdone, hres, hmem⟩ := h.encodes hu hexec
  obtain ⟨-, hcoder, -⟩ := id hdone
  obtain ⟨hch, -⟩ := State.of_coder_eq hcoder
  exact ⟨t, u, ht, hu, hdone, hres, by rw [hch]; exact hle, hmem⟩

/-- An encoding command of one step that raises has filled its window. -/
theorem StepMeets.fillsTheWindow {e : Cause} (h : StepMeets s c step R) (hR : R () (some e) u) (hs : s.Inv)
    (hmode : s.ch[c].mode = .enc) (hexec : exec i s = s.finishBody c (s.putCoder c m) (.ran step.noResult)) :
    ∃ t, exec i s = .next t ∧ e = .windowFull ∧ s.FailedCoding t c m .windowFull u ∧ t.ch[c].ptr = s.ch[c].limit
      ∧ s.dmem.SameOutside t.dmem [shifted s t c] := by
  obtain ⟨⟨t, ht, hfailed⟩, hptr, henc, -⟩ := h.fails (f := fun _ => []) hR hs (.inl hmode) hexec
  obtain ⟨iv, hcodes⟩ := h.codes () (some e) u hR
  obtain rfl := henc hmode
  obtain ⟨-, hch, -, hmem, -⟩ := id hfailed
  have hch := congrArg Channel.ptr hch
  exact ⟨t, ht, rfl, hfailed, hch.trans hptr, State.sameOutside_shifted hcodes.puts hch hmem⟩

end

section
variable {α : Type} {i : Instr} {s : State} {c : ChanNo} {m : SlotNo} {u : Coder} {step : Coded Coder α}
  {R : α → Option Cause → Coder → Prop} {f : α → List Result} {a : α}

/-- A decoding command of one step that completes writes its results and no DMEM byte. -/
theorem StepMeets.decodes (h : StepMeets s c step R) (hR : R a none u) (hmode : s.ch[c].mode = .dec)
    (hexec : exec i s = s.finishBody c (s.putCoder c m) (.ran (step.bind fun a k => .ok (f a) k))) :
    ∃ t, exec i s = .next t ∧ s.SucceededCoding t c m u ∧ t.res = writeResults s.res (f a) ∧ t.dmem = s.dmem := by
  obtain ⟨t, ht, hdone, hres⟩ := h.succeeds hR hexec
  obtain ⟨iv, hcodes⟩ := h.codes a none u hR
  obtain ⟨-, hcoder, -⟩ := id hdone
  obtain ⟨-, -, hmem⟩ := State.of_coder_eq hcoder
  exact ⟨t, ht, hdone, hres, hmem.trans (hcodes.mem_of_dec hmode)⟩

/-- A decoding command of one step that raises in `Renorm` has used up its window. -/
theorem StepMeets.exhaustsTheStream {e : Cause} (h : StepMeets s c step R) (hR : R a (some e) u) (hs : s.Inv)
    (hmode : s.ch[c].mode = .dec)
    (hexec : exec i s = s.finishBody c (s.putCoder c m) (.ran (step.bind fun a k => .ok (f a) k))) :
    ∃ t, exec i s = .next t ∧ e = .streamExhausted ∧ s.FailedCoding t c m .streamExhausted u ∧ t.dmem = s.dmem := by
  obtain ⟨⟨t, ht, hfailed⟩, -, -, hdec⟩ := h.fails hR hs (.inr hmode) hexec
  obtain ⟨iv, hcodes⟩ := h.codes a (some e) u hR
  obtain rfl := hdec hmode
  obtain ⟨-, -, -, hmem, -⟩ := id hfailed
  exact ⟨t, ht, rfl, hfailed, hmem.trans (hcodes.mem_of_dec hmode)⟩

/-- A decoding command of one step that meets a corrupt position changes nothing but the channel's mode. -/
theorem exists_failedCoding_corrupt (hstep : step = .raised .corruptValue (s.coder c m))
    (hexec : exec i s = s.finishBody c (s.putCoder c m) (.ran (step.bind fun a k => .ok (f a) k))) :
    ∃ t, exec i s = .next t ∧ s.FailedCoding t c m .corruptValue (s.coder c m) ∧ t.dmem = s.dmem := by
  rw [hstep] at hexec
  obtain ⟨t, ht, hfailed⟩ := exists_failedCoding hexec
  obtain ⟨-, -, -, hmem, -⟩ := id hfailed
  exact ⟨t, ht, hfailed, hmem⟩

end

/-! ### The four commands -/

section
variable {s : State} {c : ChanNo} {m : SlotNo} {x : CtxSel}

theorem State.checkBin_of {mode : ChMode} (hmode : s.ch[c].mode = mode) (hkind : s.slot[m].table.kind = 1) :
    s.checkBin c m mode = none := by
  simp only [State.checkBin, hmode, hkind, ne_eq, not_true_eq_false, if_false]

theorem State.checkSym_of {mode : ChMode} (hmode : s.ch[c].mode = mode) (hkind : s.slot[m].table.kind = 2) :
    s.checkSym c m mode = none := by
  simp only [State.checkSym, hmode, hkind, ne_eq, not_true_eq_false, if_false]

theorem exec_rcEbit_of_checks (b : Bool) (hmode : s.ch[c].mode = .enc) (hkind : s.slot[m].table.kind = 1)
    (hctx : contextOf x s.slot[m] < 2) : exec (.rcEbit c m x b) s
      = s.finishBody c (s.putCoder c m) (.ran ((s.coder c m).encBit (contextOf x s.slot[m]) b).noResult) := by
  simp only [exec, execRcEbit, State.codeEbit, State.checkBin_of hmode hkind, if_neg hctx.not_ge]

theorem exec_rcDbit_of_checks (hmode : s.ch[c].mode = .dec) (hkind : s.slot[m].table.kind = 1)
    (hctx : contextOf x s.slot[m] < 2) : exec (.rcDbit c m x) s = s.finishBody c (s.putCoder c m)
      (.ran (((s.coder c m).decBit (contextOf x s.slot[m])).bind fun b k => .ok [(0, word b.toNat)] k)) := by
  simp only [exec, execRcDbit, State.codeDbit, State.checkBin_of hmode hkind, if_neg hctx.not_ge]

theorem exec_rcEsym_of_checks (j : Byte) (hmode : s.ch[c].mode = .enc) (hkind : s.slot[m].table.kind = 2)
    (hctx : contextOf x s.slot[m] < s.slot[m].table.alphabet) (hj : j.toNat < s.slot[m].table.alphabet) :
    exec (.rcEsym c m x j) s
      = s.finishBody c (s.putCoder c m) (.ran ((s.coder c m).encSym (contextOf x s.slot[m]) j.toNat).noResult) := by
  simp only [exec, execRcEsym, State.codeEsym, State.checkSym_of hmode hkind, if_neg hctx.not_ge, if_neg hj.not_ge]

theorem exec_rcDsym_of_checks (hmode : s.ch[c].mode = .dec) (hkind : s.slot[m].table.kind = 2)
    (hctx : contextOf x s.slot[m] < s.slot[m].table.alphabet) : exec (.rcDsym c m x) s
      = s.finishBody c (s.putCoder c m)
          (.ran (((s.coder c m).decSym (contextOf x s.slot[m])).bind fun j k => .ok [(0, word j)] k)) := by
  simp only [exec, execRcDsym, State.codeDsym, State.checkSym_of hmode hkind, if_neg hctx.not_ge]

end

/-- With three bytes of room some end of the encoding of a bit is a value (R121, R122). -/
theorem Coder.Ready.exists_encodesBit {size n ctx : Nat} {k : Coder} (h : k.Ready size 1 n) (hctx : ctx < 2) (b : Bool)
    (hroom : 3 ≤ k.str.ch.room) :
    ∃ u, k.EncodesBit ctx b none u ∧ u.str.ch.ptr.toNat ≤ k.str.ch.ptr.toNat + 3 := by
  obtain ⟨p, hp, hok⟩ := h.slot.prob hctx
  obtain ⟨u, hu, hle⟩ := h.str.exists_codes (bitInterval_legal hok b) hroom
  exact ⟨⟨u, _⟩, ⟨p, hp, hu, rfl⟩, hle⟩

/-- Settles O34: the step ends as `EncodesBit` says, and three bytes of room are enough for its `Renorm`. -/
theorem ebitCompletesOrFillsTheWindow : Obligations.EbitCompletesOrFillsTheWindow := by
  intro s c m x b ctx k hs hmode hkind hctx
  have hready := hs.coder_ready (.inl hmode) hkind (m := m)
  have hexec := exec_rcEbit_of_checks b hmode hkind hctx
  have hmeets : StepMeets s c (k.encBit ctx b) fun _ => k.EncodesBit ctx b := by
    refine ⟨fun _ _ _ h => h.encBit, fun _ _ _ h => ?_⟩
    obtain ⟨p, -, hcodes, -⟩ := h
    exact ⟨_, hcodes⟩
  exact ⟨fun hroom => hmeets.encodes_within (hready.exists_encodesBit hctx b hroom) hexec,
    fun u hu => hmeets.encodes hu hexec, fun e u hu => hmeets.fillsTheWindow hu hs hmode hexec⟩

/-- Settles O35: the step ends as `DecodesBit` says where the position is on the model's scale, and raises beyond it. -/
theorem dbitCompletesOrRaisesDecode : Obligations.DbitCompletesOrRaisesDecode := by
  intro s c m x ctx k v hs hmode hkind hctx
  have hready := hs.coder_ready (.inr hmode) hkind (m := m)
  have hexec := exec_rcDbit_of_checks hmode hkind hctx
  obtain ⟨p, hp, hok⟩ := hready.slot.prob hctx
  have hmeets : StepMeets s c (k.decBit ctx) (k.DecodesBit ctx) := by
    refine ⟨fun _ _ _ h => h.decBit hready.str.interval, fun _ _ _ h => ?_⟩
    obtain ⟨p, -, -, -, hcodes, -⟩ := h
    exact ⟨_, hcodes⟩
  have hresult (b : Bool) : word b.toNat = if b then 1#32 else 0#32 := by cases b <;> rfl
  have hdone : ∀ b u, k.DecodesBit ctx b none u → ∃ t, exec (.rcDbit c m x) s = .next t ∧ s.SucceededCoding t c m u
      ∧ t.res = s.res.set 0 (if b then 1#32 else 0#32) ∧ t.dmem = s.dmem := fun b u hu => by
    rw [← hresult b]
    exact hmeets.decodes hu hmode hexec
  refine ⟨fun hv hroom => ?_, hdone, fun b e u hu => hmeets.exhaustsTheStream hu hs hmode hexec,
    fun hv => exists_failedCoding_corrupt (Coder.decBit_corrupt hp hready.str.interval hv) hexec⟩
  obtain ⟨u, hu, -⟩ := hready.str.exists_codes (bitInterval_legal hok (decide (v < p.toNat))) hroom
  have hbit : k.DecodesBit ctx (decide (v < p.toNat)) none ⟨u, _⟩ := ⟨p, hp, hv, rfl, hu, rfl⟩
  obtain ⟨t, ht, hrest⟩ := hdone _ _ hbit
  exact ⟨t, _, _, ht, hbit, hrest⟩

/-- With three bytes of room some end of the encoding of a symbol is a value (R121, R124). -/
theorem Coder.Ready.exists_encodesSym {size n ctx j : Nat} {k : Coder} (h : k.Ready size 2 n) (hctx : ctx < n)
    (hj : j < n) (hroom : 3 ≤ k.str.ch.room) :
    ∃ u, k.EncodesSym ctx j none u ∧ u.str.ch.ptr.toNat ≤ k.str.ch.ptr.toNat + 3 := by
  obtain ⟨row, hrow, hok⟩ := h.slot.row hctx
  obtain ⟨iv, hiv, hlegal, -⟩ := hok.interval hj
  obtain ⟨u, hu, hle⟩ := h.str.exists_codes hlegal hroom
  exact ⟨⟨u, _⟩, ⟨row, iv, hrow, hiv, hu, Slot.updateSym_symUpdated hrow⟩, hle⟩

/-- Settles O36: the step ends as `EncodesSym` says, and three bytes of room are enough for its `Renorm`. -/
theorem esymCompletesOrFillsTheWindow : Obligations.EsymCompletesOrFillsTheWindow := by
  intro s c m x j ctx k hs hmode hkind hctx hj
  have hready := hs.coder_ready (.inl hmode) hkind (m := m)
  have hexec := exec_rcEsym_of_checks j hmode hkind hctx hj
  have hmeets : StepMeets s c (k.encSym ctx j.toNat) fun _ => k.EncodesSym ctx j.toNat := by
    refine ⟨fun _ _ _ h => h.encSym hready.slot, fun _ _ _ h => ?_⟩
    obtain ⟨row, iv, -, -, hcodes, -⟩ := h
    exact ⟨iv, hcodes⟩
  exact ⟨fun hroom => hmeets.encodes_within (hready.exists_encodesSym hctx hj hroom) hexec,
    fun u hu => hmeets.encodes hu hexec, fun e u hu => hmeets.fillsTheWindow hu hs hmode hexec⟩

/-- A slot with a row in a context is a `SYM` slot, and the context one of its alphabet. -/
theorem Table.of_row_eq_some {t : Table} {ctx : Nat} {row : SymRow} (h : t.row ctx = some row) :
    t.kind = 2 ∧ ctx < t.alphabet := by
  cases t with
  | off => cases h
  | bin p0 p1 => cases h
  | sym rows => exact ⟨rfl, (List.getElem?_eq_some_iff.1 h).1⟩

/-- Settles O37: the step ends as `DecodesSym` says below the row's total, and raises from there. -/
theorem dsymCompletesOrRaisesDecode : Obligations.DsymCompletesOrRaisesDecode := by
  intro s c m x row ctx k v hs hmode hrow
  obtain ⟨hkind, hctx⟩ := Table.of_row_eq_some hrow
  have hready := hs.coder_ready (.inr hmode) hkind (m := m)
  have hexec := exec_rcDsym_of_checks hmode hkind hctx
  have hmeets : StepMeets s c (k.decSym ctx) (k.DecodesSym ctx) := by
    refine ⟨fun _ _ _ h => h.decSym hready.slot hready.str.interval, fun _ _ _ h => ?_⟩
    obtain ⟨row, iv, -, -, -, -, hcodes, -⟩ := h
    exact ⟨iv, hcodes⟩
  have hdone : ∀ j u, k.DecodesSym ctx j none u → ∃ t, exec (.rcDsym c m x) s = .next t ∧ s.SucceededCoding t c m u
      ∧ t.res = s.res.set 0 (word j) ∧ t.dmem = s.dmem := fun j u hu => hmeets.decodes hu hmode hexec
  refine ⟨fun hv hroom => ?_, hdone, fun j e u hu => hmeets.exhaustsTheStream hu hs hmode hexec,
    fun hv => exists_failedCoding_corrupt (Coder.decSym_corrupt hrow hready.slot hready.str.interval hv) hexec⟩
  have hok := hready.slot.row_ok hrow
  obtain ⟨j, iv, -, -, hiv, hlo, hhi⟩ := SymRow.Ok.exists_findSymbol hok hv
  obtain ⟨-, hlegal, -⟩ := hok.interval_legal hiv
  obtain ⟨u, hu, -⟩ := hready.str.exists_codes hlegal hroom
  have hsym : k.DecodesSym ctx j none ⟨u, _⟩ := ⟨row, iv, hrow, hiv, hlo, hhi, hu, Slot.updateSym_symUpdated hrow⟩
  obtain ⟨t, ht, hrest⟩ := hdone _ _ hsym
  exact ⟨t, _, _, ht, hsym, hrest⟩

end Sys2Proof.Machine
end

section
/-!
SUPPORT. Decoder and encoder in lock-step (R111, R121 items 5 and 6). Read from the end, each turn of an encoder's
`Renorm` and each `Narrow` puts the bytes that follow inside its interval (`Stream.Yields`); so a decoder that begins in
the same interval on these bytes (`Stream.Tracks`) finds the encoded bits and symbols and ends where the encoder did.
-/

namespace Sys2Proof.Machine

/-! ### Words of four bytes -/

theorem Dmem.read32_eq (m : Dmem) (a : Nat) : m.read32 a = (m.read a).toNat * 2 ^ 24 + (m.read (a + 1)).toNat * 2 ^ 16
    + (m.read (a + 2)).toNat * 2 ^ 8 + (m.read (a + 3)).toNat := by
  simp [Dmem.read32, Dmem.readBytes, beValue, Nat.add_assoc]

theorem Dmem.read32_lt (m : Dmem) (a : Nat) : m.read32 a < 2 ^ 32 := by
  rw [Dmem.read32_eq]
  omega

theorem Dmem.read32_div (m : Dmem) (a : Nat) : m.read32 a / 2 ^ 24 = (m.read a).toNat := by
  rw [Dmem.read32_eq]
  omega

/-- The word one byte on. -/
theorem Dmem.read32_succ (m : Dmem) (a : Nat) :
    m.read32 (a + 1) = m.read32 a % 2 ^ 24 * 2 ^ 8 + (m.read (a + 4)).toNat := by
  simp only [Dmem.read32_eq, Nat.add_assoc, Nat.reduceAdd]
  omega

/-- A byte taken into `code` (R119). -/
theorem toNat_shiftLeft_or_byte (w : Word) (b : Byte) :
    ((w <<< 8) ||| b.setWidth 32).toNat = w.toNat % 2 ^ 24 * 2 ^ 8 + b.toNat := by
  have hw : w.toNat <<< 8 % 2 ^ 32 = (w.toNat % 2 ^ 24) <<< 8 := by
    simp only [Nat.shiftLeft_eq]
    omega
  have hb : b.toNat % 2 ^ 32 = b.toNat := Nat.mod_eq_of_lt (b.isLt.trans (by decide))
  rw [BitVec.toNat_or, BitVec.toNat_shiftLeft, BitVec.toNat_setWidth, hw, hb, ← Nat.shiftLeft_add_eq_or_of_lt b.isLt,
    Nat.shiftLeft_eq]

/-- The byte an encoder puts out (R119). -/
theorem toNat_top_byte (w : Word) : ((w >>> 24).setWidth 8).toNat = w.toNat / 2 ^ 24 := by
  have := w.isLt
  simp only [BitVec.toNat_setWidth, BitVec.toNat_ushiftRight, Nat.shiftRight_eq_div_pow]
  omega

/-! ### The turns of the loop, of an encoder and of a decoder -/

theorem Stream.Turns.moves {t u : Stream} (h : t.Turns u) : t.Moves u := by
  induction h with
  | done t => exact .refl t
  | @turn t v u _ hv _ ih =>
    exact (Stream.Moves.retune t t.ch.cut (by simp) (by simp) (by simp) (by simp)).trans
      ((Stream.shift_moves hv).trans ((Stream.Moves.retune v v.ch.advance rfl rfl rfl rfl).trans ih))

/-- `Shift` leaves the interval (R119). -/
theorem Stream.shift_interval {t v : Stream} (h : t.shift = .ok () v) :
    v.ch.low = t.ch.low ∧ v.ch.range = t.ch.range := by
  obtain ⟨-, -, ⟨-, rfl⟩ | ⟨-, rfl⟩⟩ := Stream.shift_ok h <;> exact ⟨rfl, rfl⟩

/-- The byte that an encoder's `Shift` wrote. -/
theorem Stream.read_of_shift_enc {t v : Stream} (h : t.shift = .ok () v) (hmode : t.ch.mode = .enc) :
    v.mem.read t.ch.ptr.toNat = (t.ch.low >>> 24).setWidth 8 := by
  obtain ⟨-, hin, ⟨-, rfl⟩ | ⟨hdec, -⟩⟩ := Stream.shift_ok h
  · exact Dmem.read_write_same _ _ hin
  · cases hmode.symm.trans hdec

/-- `M` is a DMEM that holds a finished stream, flushed from address `fin` on. The encoder `t` yields it: it has
written what `M` holds below its `ptr`, and the four bytes that follow there lie in its interval (R121 item 5). -/
structure Stream.Yields (M : Dmem) (fin : Nat) (t : Stream) : Prop where
  mode : t.ch.mode = .enc
  written : ∀ a, a < t.ch.ptr.toNat → M.read a = t.mem.read a
  low_le : t.ch.low.toNat ≤ M.read32 t.ch.ptr.toNat
  lt_add : M.read32 t.ch.ptr.toNat < t.ch.low.toNat + t.ch.range.toNat
  ptr_le : t.ch.ptr.toNat ≤ fin

/-- The decoder `d` is where the encoder `t` was: in the same interval, with the four bytes at the encoder's place of
the stream in `code`, and the rest of the stream in its window (R121 item 6). -/
structure Stream.Tracks (M : Dmem) (fin : Nat) (t d : Stream) : Prop where
  mode : d.ch.mode = .dec
  low : d.ch.low = t.ch.low
  range : d.ch.range = t.ch.range
  code : d.ch.code.toNat = M.read32 t.ch.ptr.toNat
  left : d.ch.ptr.toNat + fin = d.ch.limit.toNat + t.ch.ptr.toNat
  bytes : ∀ i, d.ch.ptr.toNat + i < d.ch.limit.toNat →
    d.mem.read (d.ch.ptr.toNat + i) = M.read (t.ch.ptr.toNat + 4 + i)
  limit_le : d.ch.limit.toNat ≤ d.mem.size

section
variable {M : Dmem} {fin : Nat} {t u v d : Stream}

/-- What an encoder yields after one turn of the loop it yielded before it. -/
theorem Stream.Yields.of_turn (hu : Stream.Yields M fin { v with ch := v.ch.advance }) (hi : t.ch.Narrowed)
    (hs : t.ch.settled = false) (hv : Stream.shift { t with ch := t.ch.cut } = .ok () v) : t.Yields M fin := by
  obtain ⟨hmode, hwritten, hlow, hadd, hle⟩ := hu
  have hmode : t.ch.mode = .enc := t.ch.cut_mode.symm.trans ((Stream.shift_moves hv).mode.symm.trans hmode)
  have hputs := Stream.puts_of_turn hv
  have hptr := Stream.shift_ptr hv
  have hbyte := Stream.read_of_shift_enc hv (t.ch.cut_mode.trans hmode)
  obtain ⟨hvlow, hvrange⟩ := Stream.shift_interval hv
  simp only [Channel.cut_ptr, Channel.cut_low] at hptr hbyte hvlow
  have hptr' : v.ch.advance.ptr.toNat = t.ch.ptr.toNat + 1 := hptr
  have hbounds := hi.cut_bounds hs
  have hin : (M.read t.ch.ptr.toNat).toNat = t.ch.low.toNat / 2 ^ 24 := by
    rw [hwritten _ (by simp only; omega), hbyte, toNat_top_byte]
  have hdiv := M.read32_div t.ch.ptr.toNat
  have hbyte' := (M.read (t.ch.ptr.toNat + 4)).isLt
  simp only [hptr', M.read32_succ, Channel.advance_low_toNat, Channel.advance_range_toNat, hvlow, hvrange]
    at hlow hadd hle
  refine ⟨hmode, fun a ha => ?_, by omega, by omega, by omega⟩
  rw [hwritten a (by simp only; omega), hputs.read a (.inl ha)]

theorem Stream.Turns.yields (h : t.Turns u) (hi : t.ch.Narrowed) (hu : u.Yields M fin) : t.Yields M fin := by
  induction h with
  | done t => exact hu
  | turn hs hv _ ih =>
    obtain ⟨hlow, hrange⟩ := Stream.shift_interval hv
    exact (ih (hi.turn hs (hlow.trans (Channel.cut_low _)) hrange) hu).of_turn hi hs hv

/-- Whether the loop goes on and what the cut leaves depend on the interval only (R118). -/
theorem Channel.settled_cut_congr {c d : Channel} (hlow : d.low = c.low) (hrange : d.range = c.range) :
    d.settled = c.settled ∧ d.cut.range = c.cut.range := by
  have htop : d.topFixed = c.topFixed := by rw [Channel.topFixed, Channel.topFixed, hlow, hrange]
  refine ⟨by rw [Channel.settled, Channel.settled, htop, hrange], ?_⟩
  rw [Channel.cut, Channel.cut, htop]
  split
  · exact hrange
  · exact congrArg (fun w => (0#32 - w) &&& (coderBot - 1#32)) hlow

/-- A decoder that tracks an encoder makes the same turn (R119). -/
theorem Stream.Tracks.turn (h : Stream.Tracks M fin t d) (hs : t.ch.settled = false)
    (hv : Stream.shift { t with ch := t.ch.cut } = .ok () v) (hfin : t.ch.ptr.toNat < fin) :
    ∃ w, Stream.shift { d with ch := d.ch.cut } = .ok () w ∧ d.ch.settled = false
      ∧ Stream.Tracks M fin { v with ch := v.ch.advance } { w with ch := w.ch.advance } := by
  obtain ⟨hmode, hlow, hrange, hcode, hleft, hbytes, hlimit⟩ := h
  obtain ⟨hsettled, hcut⟩ := Channel.settled_cut_congr hlow hrange
  have hlt : d.ch.ptr.toNat < d.ch.limit.toNat := by omega
  have hptr := Stream.shift_ptr hv
  obtain ⟨hvlow, hvrange⟩ := Stream.shift_interval hv
  simp only [Channel.cut_ptr, Channel.cut_low] at hptr hvlow
  have hw : Stream.shift { d with ch := d.ch.cut } = .ok () { d with ch := { d.ch.cut with
      code := (d.ch.code <<< 8) ||| (d.mem.read d.ch.ptr.toNat).setWidth 32, ptr := d.ch.ptr + 1#32 } } := by
    simp only [Stream.shift, Channel.cut_mode, hmode, Channel.cut_limit, Channel.cut_ptr, Channel.cut_code,
      if_neg hlt.not_ge, if_neg (hlt.trans_le hlimit).not_ge]
  have hwptr := Stream.shift_ptr hw
  simp only [Channel.cut_ptr] at hwptr
  refine ⟨_, hw, hsettled.trans hs, ?_⟩
  constructor
  · exact d.ch.cut_mode.trans hmode
  · exact congrArg (fun w : Word => w <<< 8) ((d.ch.cut_low.trans hlow).trans hvlow.symm)
  · exact congrArg (fun w : Word => w <<< 8) (hcut.trans hvrange.symm)
  · simp only [Channel.advance, toNat_shiftLeft_or_byte, hptr, M.read32_succ, hcode]
    rw [← hbytes 0 hlt]
    rfl
  · simp only [Channel.advance, Channel.cut_limit, hptr, hwptr]
    omega
  · intro i hi
    simp only [Channel.advance, Channel.cut_limit, hptr, hwptr] at hi ⊢
    have := hbytes (i + 1) (by omega)
    rwa [show d.ch.ptr.toNat + (i + 1) = d.ch.ptr.toNat + 1 + i by omega,
      show t.ch.ptr.toNat + 4 + (i + 1) = t.ch.ptr.toNat + 1 + 4 + i by omega] at this
  · simpa only [Channel.advance, Channel.cut_limit] using hlimit

theorem Stream.Tracks.turns (h : Stream.Tracks M fin t d) (hturns : t.Turns u) (hfin : u.ch.ptr.toNat ≤ fin) :
    ∃ e, d.Turns e ∧ Stream.Tracks M fin u e := by
  induction hturns generalizing d with
  | done t => exact ⟨d, .done d, h⟩
  | turn hs hv hu ih =>
    have hptr := Stream.shift_ptr hv
    have hup := hu.puts.up
    simp only [Channel.cut_ptr, Channel.advance] at hptr hup
    obtain ⟨w, hw, hsettled, htracks⟩ := h.turn hs hv (by omega)
    obtain ⟨e, he, htracks⟩ := ih htracks hfin
    exact ⟨e, .turn hsettled hw he, htracks⟩

/-! ### One coding step -/

/-- `Narrow` on numbers, without wrapping (R117). -/
theorem Channel.IntervalOk.narrow_toNat {c : Channel} {iv : Interval} (h : c.IntervalOk) (hiv : iv.Legal) :
    1 ≤ c.range.toNat / iv.tot ∧ (iv.cum + iv.freq) * (c.range.toNat / iv.tot) ≤ c.range.toNat
      ∧ (c.narrow iv).low.toNat = c.low.toNat + iv.cum * (c.range.toNat / iv.tot)
      ∧ (c.narrow iv).range.toNat = iv.freq * (c.range.toNat / iv.tot) := by
  obtain ⟨hfreq, hsum, htot⟩ := hiv
  obtain ⟨hr, hle⟩ := Channel.IntervalOk.unit_pos h (show 1 ≤ iv.tot by omega) htot
  obtain ⟨hend, -⟩ := h
  have hword (n : Nat) (hn : n ≤ 2 ^ 16) : (word n).toNat = n := by
    rw [word, BitVec.toNat_ofNat]
    omega
  have hrange := c.range.isLt
  have hdiv : (c.range / word iv.tot).toNat = c.range.toNat / iv.tot := by rw [BitVec.toNat_udiv, hword _ htot]
  simp only [Channel.narrow, BitVec.toNat_add, BitVec.toNat_mul, hdiv, hword iv.cum (by omega),
    hword iv.freq (by omega)] at hr hle ⊢
  have hcf : (iv.cum + iv.freq) * (c.range.toNat / iv.tot) ≤ iv.tot * (c.range.toNat / iv.tot) :=
    Nat.mul_le_mul_right _ hsum
  have hf : 1 * 1 ≤ iv.freq * (c.range.toNat / iv.tot) := Nat.mul_le_mul hfreq hr
  refine ⟨hr, hcf.trans hle, ?_, ?_⟩ <;> rw [Nat.add_mul] at hcf
  · rw [Nat.mod_eq_of_lt (a := iv.cum * _) (by omega), Nat.mod_eq_of_lt (by omega)]
  · exact Nat.mod_eq_of_lt (by omega)

/-- What an encoder yields after `Narrow` it yielded before: the new interval is part of the old one (R117). -/
theorem Stream.Yields.of_narrow {iv : Interval} (h : Stream.Yields M fin { t with ch := t.ch.narrow iv })
    (hi : t.ch.IntervalOk) (hiv : iv.Legal) : t.Yields M fin := by
  obtain ⟨hmode, hwritten, hlow, hadd, hle⟩ := h
  obtain ⟨-, hpart, hnlow, hnrange⟩ := hi.narrow_toNat hiv
  simp only [hnlow, hnrange, Channel.narrow_ptr] at hlow hadd
  rw [Nat.add_mul] at hpart
  exact ⟨hmode, hwritten, by omega, by omega, hle⟩

/-- A decoder that tracks the encoder before `Narrow` finds the position in the interval that it narrows to (R120). -/
theorem Stream.Tracks.position {iv : Interval} (h : Stream.Tracks M fin t d)
    (hy : Stream.Yields M fin { t with ch := t.ch.narrow iv }) (hi : t.ch.IntervalOk) (hiv : iv.Legal) :
    iv.cum ≤ d.ch.position iv.tot ∧ d.ch.position iv.tot < iv.cum + iv.freq := by
  obtain ⟨hr, -, hnlow, hnrange⟩ := hi.narrow_toNat hiv
  have hlow := hy.low_le
  have hadd := hy.lt_add
  simp only [hnlow, hnrange, Channel.narrow_ptr, ← h.code] at hlow hadd
  have hsub : (d.ch.code - t.ch.low).toNat = d.ch.code.toNat - t.ch.low.toNat :=
    BitVec.toNat_sub_of_le (BitVec.le_def.2 (by omega))
  rw [Channel.position, h.low, h.range, hsub, Nat.le_div_iff_mul_le hr, Nat.div_lt_iff_lt_mul hr, Nat.add_mul]
  omega

/-- A coding step of a decoder that tracks an encoder keeps it in track. -/
theorem Stream.Tracks.codes {iv : Interval} (h : Stream.Tracks M fin t d) (hu : t.Codes iv none u)
    (hfin : u.ch.ptr.toNat ≤ fin) : ∃ e, d.Codes iv none e ∧ Stream.Tracks M fin u e := by
  obtain ⟨hturns, hsettled⟩ := hu.turns
  have hnarrow : Stream.Tracks M fin { t with ch := t.ch.narrow iv } { d with ch := d.ch.narrow iv } := by
    obtain ⟨hmode, hlow, hrange, hcode, hleft, hbytes, hlimit⟩ := h
    exact ⟨hmode, by simp only [Channel.narrow, hlow, hrange], by simp only [Channel.narrow, hrange], hcode, hleft,
      hbytes, hlimit⟩
  obtain ⟨e, he, htracks⟩ := hnarrow.turns hturns hfin
  refine ⟨e, he.renormLoop ((Channel.settled_cut_congr htracks.low htracks.range).1.trans hsettled) ?_, htracks⟩
  have hlimit := congrArg BitVec.toNat he.moves.limit
  have hleft := htracks.left
  simp only [Channel.narrow_limit, Channel.narrow_ptr] at hlimit ⊢
  omega

/-- What an encoder yields after a coding step it yielded after its `Narrow` and before it. -/
theorem Stream.Codes.yields {size : Nat} {iv : Interval} (h : t.Codes iv none u) (ht : t.Ready size) (hiv : iv.Legal)
    (hu : u.Yields M fin) : Stream.Yields M fin { t with ch := t.ch.narrow iv } ∧ t.Yields M fin := by
  have hy := h.turns.1.yields (ht.interval.narrow hiv) hu
  exact ⟨hy, hy.of_narrow ht.interval hiv⟩

end

end Sys2Proof.Machine
end

section
/-!
SUPPORT. Runs of coding steps, of an encoder and of a decoder that tracks it (R104, R111): the decoder finds the encoded
bits and symbols. And what a run of the relations of Safety.lean makes the machine's own runs do.
-/

namespace Sys2Proof.Machine

/-- The decoder `d` is where the encoder `k` was, with the slot as it was there (R121 item 6). -/
structure Coder.Tracks (M : Dmem) (fin : Nat) (k d : Coder) : Prop where
  str : Stream.Tracks M fin k.str d.str
  slot : d.slot = k.slot

section
variable {M : Dmem} {fin size n ctx j a : Nat} {k u d e : Coder} {b : Bool} {bits : List Bool} {xs : List Byte}

/-! ### One step -/

/-- What a step that ends with a value leaves is ready for the next one. -/
theorem Coded.Ends.of_ended {σ α : Type} {P : α → σ → Prop} {R : σ → Prop} {c : Coded σ α} {v : α} {s : σ}
    (h : c.Ends P R) (hc : c = .ended none v s) : P v s := by
  subst hc
  exact h

theorem Coder.Ready.of_encodesBit (h : k.Ready size 1 n) (hctx : ctx < 2) (hu : k.EncodesBit ctx b none u) :
    u.Ready size 1 n :=
  (h.encBit hctx b).of_ended hu.encBit

theorem Coder.Ready.of_encodesSym (h : k.Ready size 2 n) (hctx : ctx < n) (hu : k.EncodesSym ctx j none u) :
    u.Ready size 2 n := by
  have hj : j < n := by
    obtain ⟨row, iv, hrow, hiv, -⟩ := id hu
    exact ((h.slot.row_ok hrow).interval_legal hiv).1
  exact (h.encSym hctx hj).of_ended (hu.encSym h.slot)

theorem Coder.Ready.of_decodesBit (h : d.Ready size 1 n) (hctx : ctx < 2) (hu : d.DecodesBit ctx b none u) :
    u.Ready size 1 n :=
  (h.decBit hctx).of_ended (hu.decBit h.str.interval)

theorem Coder.Ready.of_decodesSym (h : d.Ready size 2 n) (hctx : ctx < n) (hu : d.DecodesSym ctx j none u) :
    u.Ready size 2 n :=
  (h.decSym hctx).of_ended (hu.decSym h.slot h.str.interval)

/-- A position in a bit's interval is one of that bit (R105). -/
theorem bit_of_position {p : Prob} {v : Nat} (hlo : (bitInterval p b).cum ≤ v)
    (hhi : v < (bitInterval p b).cum + (bitInterval p b).freq) : b = decide (v < p.toNat) ∧ v < 4096 := by
  have := p.isLt
  cases b <;> simp only [bitInterval, probOne, if_true, Bool.false_eq_true, if_false] at hlo hhi
  · exact ⟨(decide_eq_false (by omega)).symm, by omega⟩
  · exact ⟨(decide_eq_true (by omega)).symm, by omega⟩

/-- The decoder that tracks an encoder of a bit finds that bit, and tracks what the encoder leaves. -/
theorem Coder.EncodesBit.tracked (h : k.EncodesBit ctx b none u) (hk : k.Ready size 1 n) (hctx : ctx < 2)
    (hu : u.str.Yields M fin) :
    k.str.Yields M fin ∧ ∀ d, Coder.Tracks M fin k d → ∃ e, d.DecodesBit ctx b none e ∧ Coder.Tracks M fin u e := by
  obtain ⟨p, hp, hcodes, hslot⟩ := h
  obtain ⟨p', hp', hok⟩ := hk.slot.prob hctx
  obtain rfl : p' = p := Option.some.inj (hp'.symm.trans hp)
  have hlegal := bitInterval_legal hok b
  obtain ⟨hnarrow, hyields⟩ := hcodes.yields hk.str hlegal hu
  refine ⟨hyields, fun d hd => ?_⟩
  obtain ⟨hlo, hhi⟩ := hd.str.position hnarrow hk.str.interval hlegal
  obtain ⟨e, he, htracks⟩ := hd.str.codes hcodes hu.ptr_le
  have htot : (bitInterval p' b).tot = 4096 := by cases b <;> rfl
  rw [htot] at hlo hhi
  obtain ⟨hbit, hlt⟩ := bit_of_position hlo hhi
  exact ⟨⟨e, u.slot⟩, ⟨p', hd.slot ▸ hp, hlt, hbit, he, hd.slot ▸ hslot⟩, htracks, rfl⟩

/-- The decoder that tracks an encoder of a symbol finds that symbol, and tracks what the encoder leaves. -/
theorem Coder.EncodesSym.tracked (h : k.EncodesSym ctx j none u) (hk : k.Ready size 2 n) (hu : u.str.Yields M fin) :
    k.str.Yields M fin ∧ ∀ d, Coder.Tracks M fin k d → ∃ e, d.DecodesSym ctx j none e ∧ Coder.Tracks M fin u e := by
  obtain ⟨row, iv, hrow, hiv, hcodes, hslot⟩ := h
  obtain ⟨-, hlegal, htot⟩ := (hk.slot.row_ok hrow).interval_legal hiv
  obtain ⟨hnarrow, hyields⟩ := hcodes.yields hk.str hlegal hu
  refine ⟨hyields, fun d hd => ?_⟩
  obtain ⟨hlo, hhi⟩ := hd.str.position hnarrow hk.str.interval hlegal
  obtain ⟨e, he, htracks⟩ := hd.str.codes hcodes hu.ptr_le
  rw [htot] at hlo hhi
  exact ⟨⟨e, u.slot⟩, ⟨row, iv, hd.slot ▸ hrow, hiv, hlo, hhi, he, hd.slot ▸ hslot⟩, htracks, rfl⟩

/-! ### Runs on the chain -/

/-- Bits that an encoder put out are what a decoder that tracks it finds (R121 item 6). -/
theorem Coder.EncodesBits.tracked (h : Coder.EncodesBits bits k u) (hk : k.Ready size 1 n) (hu : u.str.Yields M fin) :
    k.str.Yields M fin ∧ ∀ d, Coder.Tracks M fin k d → ∃ e, Coder.DecodesBits bits d e ∧ Coder.Tracks M fin u e := by
  induction bits generalizing k with
  | nil =>
    obtain rfl : u = k := h
    exact ⟨hu, fun d hd => ⟨d, rfl, hd⟩⟩
  | cons b bits ih =>
    obtain ⟨k', hbit, hrest⟩ := h
    obtain ⟨hyields', hrun⟩ := ih hrest (hk.of_encodesBit hk.last_lt_two hbit)
    obtain ⟨hyields, hstep⟩ := hbit.tracked hk hk.last_lt_two hyields'
    refine ⟨hyields, fun d hd => ?_⟩
    obtain ⟨d', hd', htracks'⟩ := hstep d hd
    obtain ⟨e, he, htracks⟩ := hrun d' htracks'
    exact ⟨e, ⟨d', hd.slot ▸ hd', he⟩, htracks⟩

/-- A byte written outside what is left of its window does not put a decoder off the track. -/
theorem Coder.Tracks.putByte (h : Coder.Tracks M fin k d) {x : Byte}
    (ha : a < d.str.ch.ptr.toNat ∨ d.str.ch.limit.toNat ≤ a) : Coder.Tracks M fin k (d.putByte a x) := by
  obtain ⟨⟨hmode, hlow, hrange, hcode, hleft, hbytes, hlimit⟩, hslot⟩ := h
  refine ⟨⟨hmode, hlow, hrange, hcode, hleft, fun i hi => ?_, hlimit.trans_eq (Dmem.write_size ..).symm⟩, hslot⟩
  exact (Dmem.read_write_other _ _ (by simp only [Coder.putByte] at hi ⊢; omega)).trans (hbytes i hi)

/-- Symbols that an encoder put out are what a decoder that tracks it finds, where it writes them outside what is left
of its window (R121 item 6, R137). -/
theorem Coder.EncodesSyms.tracked (h : Coder.EncodesSyms xs k u) (hk : k.Ready size 2 n) (hu : u.str.Yields M fin) :
    k.str.Yields M fin ∧ ∀ a d, Coder.Tracks M fin k d →
      (∀ x, a ≤ x → x < a + xs.length → x < d.str.ch.ptr.toNat ∨ d.str.ch.limit.toNat ≤ x) →
      ∃ e, Coder.DecodesSyms xs a d e ∧ Coder.Tracks M fin u e := by
  induction xs generalizing k with
  | nil =>
    obtain rfl : u = k := h
    exact ⟨hu, fun a d hd _ => ⟨d, rfl, hd⟩⟩
  | cons j xs ih =>
    obtain ⟨k', hsym, hrest⟩ := h
    obtain ⟨hyields', hrun⟩ := ih hrest (hk.of_encodesSym (hk.last_lt (by decide)) hsym)
    obtain ⟨hyields, hstep⟩ := hsym.tracked hk hyields'
    refine ⟨hyields, fun a d hd hout => ?_⟩
    obtain ⟨d', hd', htracks'⟩ := hstep d hd
    obtain ⟨_, _, -, -, -, -, hcodes, -⟩ := id hd'
    have hup := hcodes.moves.up
    have hlimit := congrArg BitVec.toNat hcodes.moves.limit
    have hout' (x : Nat) (hx : a ≤ x) (hlt : x < a + (xs.length + 1)) :
        x < d'.str.ch.ptr.toNat ∨ d'.str.ch.limit.toNat ≤ x := by
      have := hout x hx hlt
      omega
    obtain ⟨e, he, htracks⟩ := hrun (a + 1) (d'.putByte a j) (htracks'.putByte (hout' a (by omega) (by omega)))
      fun x hx hlt => hout' x (by omega) (by omega)
    exact ⟨e, ⟨d', hd.slot ▸ hd', he⟩, htracks⟩

/-! ### The machine's runs -/

/-- Symbols decoded from the rules are what the machine decodes (R137). -/
theorem Coder.DecodesSyms.decSyms (h : Coder.DecodesSyms xs a d e) (hd : d.Ready size 2 n) :
    Coder.decSyms xs.length a d = .ok () e := by
  induction xs generalizing a d with
  | nil =>
    obtain rfl : e = d := h
    rfl
  | cons j xs ih =>
    obtain ⟨d', hsym, hrest⟩ := h
    have hj : BitVec.ofNat 8 j.toNat = j := by rw [BitVec.ofNat_toNat, BitVec.setWidth_eq]
    rw [List.length_cons, Coder.decSyms, hsym.decSym hd.slot hd.str.interval, Coded.ended, Coded.bind_ok_eq, hj]
    exact ih hrest ((hd.of_decodesSym (hd.last_lt (by decide)) hsym).putByte a j)

/-- Symbols decoded stand at the destination, and nothing else of DMEM changed (R137). -/
theorem Coder.DecodesSyms.mem (h : Coder.DecodesSyms xs a d e) (hmode : d.str.ch.mode = .dec) :
    e.str.mem = d.str.mem.writeBytes a xs := by
  induction xs generalizing a d with
  | nil =>
    obtain rfl : e = d := h
    rfl
  | cons j xs ih =>
    obtain ⟨d', ⟨_, _, -, -, -, -, hcodes, -⟩, hrest⟩ := h
    have hmem := hcodes.mem_of_dec hmode
    rw [Dmem.writeBytes, ← hmem]
    exact ih hrest (hcodes.moves.mode.trans hmode)

/-- The continue bits and the stop bit of a gamma code, read by the machine (R127). -/
theorem Coder.DecodesBits.decContinue {rest : List Bool} {count left i : Nat}
    (h : Coder.DecodesBits (List.replicate count true ++ false :: rest) d e) (hd : d.Ready size 1 n)
    (hleft : count < left) :
    ∃ d', Coder.decContinue left i d = .ok (i + count) d' ∧ Coder.DecodesBits rest d' e ∧ d'.Ready size 1 n := by
  induction count generalizing left i d with
  | zero =>
    obtain ⟨d', hbit, hrest⟩ := h
    obtain ⟨left, rfl⟩ := Nat.exists_eq_add_of_lt hleft
    refine ⟨d', ?_, hrest, hd.of_decodesBit hd.last_lt_two hbit⟩
    rw [Nat.zero_add, Coder.decContinue, hbit.decBit hd.str.interval]
    rfl
  | succ count ih =>
    obtain ⟨d', hbit, hrest⟩ := h
    obtain ⟨left, rfl⟩ := Nat.exists_eq_add_of_lt hleft
    obtain ⟨d'', hrun, hlow, hready⟩ := ih (i := i + 1) (left := count + 1 + left) hrest
      (hd.of_decodesBit hd.last_lt_two hbit) (by omega)
    refine ⟨d'', ?_, hlow, hready⟩
    rw [Coder.decContinue, hbit.decBit hd.str.interval, show i + (count + 1) = i + 1 + count by omega, ← hrun]
    rfl

/-- The low bits of a gamma code, read by the machine (R127). -/
theorem Coder.DecodesBits.decLow {v count w : Nat} (h : Coder.DecodesBits (lowBits v count) d e)
    (hd : d.Ready size 1 n) :
    Coder.decLow count w d = .ok (w * 2 ^ count + v % 2 ^ count) e := by
  induction count generalizing w d with
  | zero =>
    obtain rfl : e = d := h
    simp [Coder.decLow, Nat.mod_one]
  | succ count ih =>
    obtain ⟨d', hbit, hrest⟩ := h
    rw [Coder.decLow, hbit.decBit hd.str.interval, Coded.ended, Coded.bind_ok_eq,
      ih hrest (hd.of_decodesBit hd.last_lt_two hbit)]
    have hmod : v % 2 ^ (count + 1) = (v.testBit count).toNat * 2 ^ count + v % 2 ^ count := by
      rw [Nat.mod_pow_succ, Nat.toNat_testBit, Nat.mul_comm, Nat.add_comm]
    rw [hmod, Nat.pow_succ, Nat.add_mul, ← Nat.add_assoc]
    congr 2
    ring

/-- The code of a value of 32 bits, decoded from the rules, is the value the machine decodes (R127). -/
theorem Coder.DecodesBits.decGamma {v : Nat} (h : Coder.DecodesBits (gammaBits v) d e) (hd : d.Ready size 1 n)
    (hpos : 1 ≤ v) (hv : v < 2 ^ 32) : d.decGamma = .ok v e := by
  have hlog : v.log2 < 32 := (Nat.log2_lt (by omega)).2 hv
  obtain ⟨d', hrun, hlow, hready⟩ := Coder.DecodesBits.decContinue (i := 0) h hd (show v.log2 < gammaMaxK + 1 from hlog)
  have hvalue : 1 * 2 ^ v.log2 + v % 2 ^ v.log2 = v := by
    have hle := Nat.log2_self_le (show v ≠ 0 by omega)
    have hlt : v < 2 ^ (v.log2 + 1) := Nat.lt_log2_self
    rw [Nat.pow_succ] at hlt
    rw [Nat.mod_eq_sub_mod hle, Nat.mod_eq_of_lt (by omega)]
    omega
  rw [Coder.decGamma, hrun, Coded.bind_ok_eq, Nat.zero_add, hlow.decLow hready, hvalue]

end

end Sys2Proof.Machine
end

section
/-!
The round trips (O45, O46): what `RC_EFLUSH` and `RC_DINIT` do to the bytes of a stream, then the two pairs of commands,
by the decoder that tracks the encoder.
-/

namespace Sys2Proof.Machine

/-! ### Flushing and opening -/

/-- What `RC_EFLUSH` puts out: the bytes of `low`, one after another from `ptr` on (R138). -/
theorem Stream.flushOut_ok {n : Nat} {t u : Stream} (h : Stream.flushOut n t = .ok () u) (hmode : t.ch.mode = .enc) :
    t.Puts u ∧ u.ch.ptr.toNat = t.ch.ptr.toNat + n ∧ u.ch.base = t.ch.base
      ∧ ∀ i, i < n → u.mem.read (t.ch.ptr.toNat + i) = ((t.ch.low <<< (8 * i)) >>> 24).setWidth 8 := by
  induction n generalizing t with
  | zero =>
    simp only [Stream.flushOut, Coded.ok.injEq, true_and] at h
    subst h
    exact ⟨.refl t, rfl, rfl, nofun⟩
  | succ n ih =>
    obtain ⟨_, v, hv, hrest⟩ := Coded.bind_ok h
    have hptr := Stream.shift_ptr hv
    have hbyte := Stream.read_of_shift_enc hv hmode
    obtain ⟨hlow, -⟩ := Stream.shift_interval hv
    obtain ⟨hputs, hend, hbase, hbytes⟩ := ih hrest ((Stream.shift_moves hv).mode.trans hmode)
    simp only [hptr] at hend hbytes
    have hputs' := hputs.read
    simp only [hptr] at hputs'
    have hshifted := Stream.Puts.retune v (c := { v.ch with low := v.ch.low <<< 8 }) rfl
    refine ⟨(Stream.puts_of_shift hv).trans (hshifted.trans hputs), by omega,
      hbase.trans (Stream.shift_moves hv).base, fun i hi => ?_⟩
    cases i with
    | zero => simpa using (hputs' _ (.inl (by omega))).trans hbyte
    | succ i =>
      rw [show t.ch.ptr.toNat + (i + 1) = t.ch.ptr.toNat + 1 + i by omega, hbytes i (by omega), hlow,
        ← BitVec.shiftLeft_add, show 8 + 8 * i = 8 * (i + 1) by omega]

/-- A flushed encoder yields the DMEM it leaves: the four bytes that follow are its `low` (R121 item 4). -/
theorem Stream.yields_of_flushOut {t u : Stream} (h : Stream.flushOut 4 t = .ok () u) (hmode : t.ch.mode = .enc)
    (hi : t.ch.IntervalOk) : t.Yields u.mem t.ch.ptr.toNat := by
  obtain ⟨hputs, -, -, hbytes⟩ := Stream.flushOut_ok h hmode
  obtain ⟨-, -, hrange⟩ := hi
  have hlow : u.mem.read32 t.ch.ptr.toNat = t.ch.low.toNat := by
    have hlt := t.ch.low.isLt
    have hbyte (i : Nat) (hi : i < 4) :
        (u.mem.read (t.ch.ptr.toNat + i)).toNat = t.ch.low.toNat * 2 ^ (8 * i) % 2 ^ 32 / 2 ^ 24 := by
      rw [hbytes i hi, toNat_top_byte, BitVec.toNat_shiftLeft, Nat.shiftLeft_eq]
    have h0 := hbyte 0 (by decide)
    have h1 := hbyte 1 (by decide)
    have h2 := hbyte 2 (by decide)
    have h3 := hbyte 3 (by decide)
    rw [Dmem.read32_eq]
    simp only [Nat.add_zero, Nat.mul_zero, Nat.mul_one, Nat.reduceMul, Nat.reducePow] at h0 h1 h2 h3 hlt ⊢
    omega
  exact ⟨hmode, fun a ha => hputs.read a (.inl ha), hlow.ge, by omega, Nat.le_refl _⟩

/-- `repeat n times: Shift` on a decoder with as many bytes in its window takes them into `code` (R129). -/
theorem Stream.shiftIn_dec {n : Nat} {t : Stream} (hmode : t.ch.mode = .dec)
    (hroom : t.ch.ptr.toNat + n ≤ t.ch.limit.toNat) (hlimit : t.ch.limit.toNat ≤ t.mem.size) : ∃ code ptr : Word,
      Stream.shiftIn n t = .ok () { t with ch := { t.ch with code := code, ptr := ptr } }
        ∧ ptr.toNat = t.ch.ptr.toNat + n
        ∧ code.toNat = (t.ch.code.toNat * 2 ^ (8 * n) + beValue (t.mem.readBytes t.ch.ptr.toNat n)) % 2 ^ 32 := by
  induction n generalizing t with
  | zero =>
    refine ⟨t.ch.code, t.ch.ptr, rfl, rfl, ?_⟩
    rw [Dmem.readBytes, beValue, Nat.mul_zero, Nat.pow_zero, Nat.mul_one, Nat.add_zero, Nat.mod_eq_of_lt t.ch.code.isLt]
  | succ n ih =>
    have hshift : t.shift = .ok () { t with ch := { t.ch with
        code := (t.ch.code <<< 8) ||| (t.mem.read t.ch.ptr.toNat).setWidth 32, ptr := t.ch.ptr + 1#32 } } := by
      simp only [Stream.shift, hmode, if_neg (show ¬ t.ch.limit.toNat ≤ t.ch.ptr.toNat by omega),
        if_neg (show ¬ t.mem.size ≤ t.ch.ptr.toNat by omega)]
    have hptr := Stream.shift_ptr hshift
    simp only at hptr
    obtain ⟨code, ptr, hrun, hend, hcode⟩ := ih (t := { t with ch := { t.ch with
      code := (t.ch.code <<< 8) ||| (t.mem.read t.ch.ptr.toNat).setWidth 32, ptr := t.ch.ptr + 1#32 } }) hmode
      (by simp only [hptr]; omega) hlimit
    refine ⟨code, ptr, ?_, by simp only [hptr] at hend; omega, ?_⟩
    · rw [Stream.shiftIn, hshift, Coded.bind_ok_eq, hrun]
    · simp only [hptr, toNat_shiftLeft_or_byte] at hcode
      have hstep : t.ch.code.toNat % 2 ^ 24 * 2 ^ 8 + (t.mem.read t.ch.ptr.toNat).toNat
          ≡ t.ch.code.toNat * 2 ^ 8 + (t.mem.read t.ch.ptr.toNat).toNat [MOD 2 ^ 32] := by
        unfold Nat.ModEq
        omega
      rw [hcode, (hstep.mul_right (2 ^ (8 * n))).add_right (beValue _), Dmem.readBytes, beValue, Dmem.readBytes_length]
      congr 1
      ring

theorem State.putStream_ch_self (s : State) (c : ChanNo) (t : Stream) : (s.putStream c t).ch[c] = t.ch :=
  Vector.getElem_set_self _

/-- A decoder newly opened on the window of `n` bytes at `a`, with the first four of them in `code` (R129). -/
structure Stream.OpenedOn (a n : Nat) (t : Stream) : Prop where
  mode : t.ch.mode = .dec
  low : t.ch.low = 0#32
  range : t.ch.range = 0xFFFFFFFF#32
  code : t.ch.code.toNat = t.mem.read32 a
  ptr : t.ch.ptr.toNat = a + 4
  limit : t.ch.limit.toNat = a + n
  limit_le : a + n ≤ t.mem.size

/-- `RC_DINIT` on a window in DMEM of at least four bytes opens the channel on it (R129). -/
theorem exists_exec_rcDinit {s : State} {c : ChanNo} (hfit : s.argNat 0 + s.argNat 1 ≤ s.dmem.size)
    (hsize : s.dmem.size ≤ 2 ^ 20) (hlen : 4 ≤ s.argNat 1) :
    ∃ t, exec (.rcDinit c) s = .next t ∧ s.SucceededQuietly t ∧ s.OnlyChannel t c
      ∧ (t.stream c).OpenedOn (s.argNat 0) (s.argNat 1) := by
  have hword (n : Nat) (hn : n ≤ 2 ^ 20) : (word n).toNat = n := by
    rw [word, BitVec.toNat_ofNat]
    omega
  have hptr : (word (s.argNat 0)).toNat = s.argNat 0 := hword _ (by omega)
  have hlimit : (word (s.argNat 0 + s.argNat 1)).toNat = s.argNat 0 + s.argNat 1 := hword _ (by omega)
  obtain ⟨code, ptr, hrun, hend, hcode⟩ := Stream.shiftIn_dec (n := 4)
    (t := { s.stream c with ch := Channel.opened .dec (s.argNat 0) (s.argNat 1) }) rfl
    (by simp only [Channel.opened, hptr, hlimit]; omega)
    (by simpa only [Channel.opened, hlimit, State.stream] using hfit)
  simp only [Channel.opened, hptr, State.stream, BitVec.toNat_zero, Nat.zero_mul, Nat.zero_add] at hend hcode
  refine ⟨(s.putStream c { s.stream c with ch :=
      { Channel.opened .dec (s.argNat 0) (s.argNat 1) with code := code, ptr := ptr } }).complete [], ?_,
    ⟨(s.sameRegisters_putStream c _).succeeded [], rfl, rfl⟩, ⟨s.sameOtherChannels_putStream c _, rfl, rfl, rfl⟩, ?_⟩
  · simp only [exec, execRcDinit, State.codeDinit, Dmem.inRange_iff.2 hfit, not_true_eq_false, if_false, hrun,
      Coded.noResult, Coded.bind_ok_eq]
    rfl
  · rw [State.stream, State.complete_ch, State.putStream_ch_self]
    exact ⟨rfl, rfl, rfl, hcode.trans (Nat.mod_eq_of_lt (Dmem.read32_lt ..)), hend, hlimit, hfit⟩

/-- A decoder opened on a finished stream is where the encoder began (R121 item 6). -/
theorem Stream.OpenedOn.tracks {M : Dmem} {fin a len : Nat} {t d : Stream} (h : d.OpenedOn a len)
    (hlow : t.ch.low = 0#32) (hrange : t.ch.range = 0xFFFFFFFF#32) (hfin : len + t.ch.ptr.toNat = fin + 4)
    (hlen : 4 ≤ len) (hbytes : d.mem.readBytes a len = M.readBytes t.ch.ptr.toNat len) : Stream.Tracks M fin t d := by
  have hbyte (i : Nat) (hi : i < len) : d.mem.read (a + i) = M.read (t.ch.ptr.toNat + i) := by
    have := congrArg (fun l => l[i]?) hbytes
    simpa only [Dmem.readBytes_getElem?, if_pos hi, Option.some.injEq] using this
  obtain ⟨hmode, hdlow, hdrange, hcode, hptr, hlimit, hle⟩ := h
  refine ⟨hmode, hdlow.trans hlow.symm, hdrange.trans hrange.symm, ?_, by omega, fun i hi => ?_, by omega⟩
  · have h0 := hbyte 0 (by omega)
    rw [Nat.add_zero, Nat.add_zero] at h0
    rw [hcode, Dmem.read32_eq, Dmem.read32_eq, h0, hbyte 1 (by omega), hbyte 2 (by omega), hbyte 3 (by omega)]
  · rw [hptr, Nat.add_assoc, Nat.add_assoc]
    exact hbyte (4 + i) (by omega)

/-! ### Commands that ended without an error -/

/-- A channel command that left no error standing passed its checks and completed (R146, R150). -/
theorem State.finishBody_of_no_error {σ : Type} {s t : State} {c : ChanNo} {put : σ → State} {b : Body σ}
    (h : s.finishBody c put b = .next t) (herr : t.status.err = false) :
    ∃ r k, b = .ran (.ok r k) ∧ t = (put k).complete r := by
  obtain ⟨e, -, rfl⟩ | hok | ⟨e, k, -, rfl⟩ := State.finishBody_cases h
  · cases herr
  · exact hok
  · cases herr

/-- `s1` is what a coding command that completed without results left of `s`: its step or run led to `u`. -/
structure State.EncodedTo (s s1 : State) (c : ChanNo) (m : SlotNo) (kind : Nat) (u : Coder) : Prop where
  mode : s.ch[c].mode = .enc
  ready : ∃ n, (s.coder c m).Ready s.dmem.size kind n ∧ u.Ready s.dmem.size kind n
  moves : (s.stream c).Moves u.str
  eq : s1 = (s.putCoder c m u).complete []

section
variable {s s1 s2 : State} {c : ChanNo} {m : SlotNo}

/-- `RC_ESTREAM` that left no error encoded its source (R136). -/
theorem exists_encodesSyms_of_exec (hs : s.Inv) (h : exec (.rcEstream c m) s = .next s1)
    (herr : s1.status.err = false) : ∃ u, s.EncodedTo s1 c m 2 u ∧ s.slot[m].table.kind = 2
      ∧ Coder.EncodesSyms (s.dmem.readBytes (s.argNat 0) (s.argNat 1)) (s.coder c m) u := by
  obtain ⟨r, u, hbody, rfl⟩ := State.finishBody_of_no_error h herr
  unfold State.codeEstream at hbody
  split at hbody
  · cases hbody
  · next hcheck =>
    obtain ⟨hmode, hkind⟩ := State.checkSym_eq_none hcheck
    have hready := hs.coder_ready (.inl hmode) hkind
    dsimp only at hbody
    split_ifs at hbody with hin hany
    obtain ⟨_, k, hrun, hk⟩ := Coded.bind_ok (Body.ran.inj hbody)
    cases hk
    have hends := hready.encSyms (s.dmem.readBytes (s.argNat 0) (s.argNat 1)) (by simpa using hany)
    have hmoves := Coder.encSyms_leaves_moves (s.dmem.readBytes (s.argNat 0) (s.argNat 1)) (s.coder c m)
    rw [hrun] at hends hmoves
    exact ⟨u, ⟨hmode, ⟨_, hready, hends⟩, hmoves, rfl⟩, hkind, Coder.encSyms_encodes hrun⟩

/-- `RC_EGAMMA` that left no error encoded the code of a value from 1 on (R134). -/
theorem exists_encodesBits_of_exec (hs : s.Inv) (h : exec (.rcEgamma c m) s = .next s1)
    (herr : s1.status.err = false) : ∃ u, s.EncodedTo s1 c m 1 u ∧ s.slot[m].table.kind = 1 ∧ 1 ≤ s.argNat 0
      ∧ Coder.EncodesBits (gammaBits (s.argNat 0)) (s.coder c m) u := by
  obtain ⟨r, u, hbody, rfl⟩ := State.finishBody_of_no_error h herr
  unfold State.codeEgamma at hbody
  split at hbody
  · cases hbody
  · next hcheck =>
    obtain ⟨hmode, hkind⟩ := State.checkBin_eq_none hcheck
    have hready := hs.coder_ready (.inl hmode) hkind
    split_ifs at hbody with hzero
    obtain ⟨_, k, hrun, hk⟩ := Coded.bind_ok (Body.ran.inj hbody)
    cases hk
    have hends := hready.encBits (gammaBits (s.argNat 0))
    have hmoves := Coder.encBits_leaves_moves (gammaBits (s.argNat 0)) (s.coder c m)
    rw [Coder.encGamma] at hrun
    rw [hrun] at hends hmoves
    exact ⟨u, ⟨hmode, ⟨_, hready, hends⟩, hmoves, rfl⟩, hkind, Nat.one_le_iff_ne_zero.2 hzero,
      Coder.encBits_encodes hrun⟩

/-- `RC_EFLUSH` that left no error put out the four bytes and reported the stream's length (R138). -/
theorem exists_flushOut_of_exec (h : exec (.rcEflush c) s1 = .next s2) (herr : s2.status.err = false) :
    ∃ u, Stream.flushOut 4 (s1.stream c) = .ok () u ∧ s2.dmem = u.mem ∧ s2.slot = s1.slot
      ∧ s2.res[0] = u.ch.ptr - u.ch.base := by
  obtain ⟨r, v, hbody, rfl⟩ := State.finishBody_of_no_error h herr
  unfold State.codeEflush at hbody
  split_ifs at hbody with hmode
  obtain ⟨_, u, hrun, hu⟩ := Coded.bind_ok (Body.ran.inj hbody)
  cases hu
  exact ⟨u, hrun, rfl, rfl, Vector.getElem_set_self _⟩

/-- The flush after an encoder's command: DMEM then holds the stream that the encoder yields, from `base` on, and `RES0`
its length. -/
theorem State.EncodedTo.flushed {kind : Nat} {k : Coder} (h : s.EncodedTo s1 c m kind k)
    (hflush : exec (.rcEflush c) s1 = .next s2) (herr : s2.status.err = false) :
    k.str.Yields s2.dmem k.str.ch.ptr.toNat ∧ s2.slot[m] = k.slot
      ∧ s2.res[0].toNat + s.ch[c].base.toNat = k.str.ch.ptr.toNat + 4 := by
  obtain ⟨hmode, ⟨n, -, hready⟩, hmoves, rfl⟩ := h
  obtain ⟨u, hrun, hmem, hslot, hres⟩ := exists_flushOut_of_exec hflush herr
  have hstream : ((s.putCoder c m k).complete []).stream c = k.str := congrArg Coder.str (s.coder_putCoder c m k)
  rw [hstream] at hrun
  have hkmode : k.str.ch.mode = .enc := hmoves.mode.trans hmode
  obtain ⟨-, hptr, hbase, -⟩ := Stream.flushOut_ok hrun hkmode
  refine ⟨hmem ▸ Stream.yields_of_flushOut hrun hkmode hready.str.interval, ?_, ?_⟩
  · rw [hslot]
    exact s.putCoder_slot_self c m k
  · have hle := hready.str.placed.base_le
    rw [hres, hbase, BitVec.toNat_sub_of_le (BitVec.le_def.2 (by rw [hptr]; omega)), hptr,
      ← show k.str.ch.base = s.ch[c].base from hmoves.base]
    omega

end

section
variable {s s1 u : State} {c d : ChanNo} {m m' : SlotNo}

/-- `RC_DINIT` on a window that holds the stream opens a decoder that is where the encoder began, in every state that
has its channel and DMEM and the encoder's slot. -/
theorem State.EncodedTo.exists_dinit {kind len : Nat} {k : Coder} {M : Dmem} (h : s.EncodedTo s1 c m kind k)
    (hopened : s.ch[c] = Channel.opened .enc s.ch[c].base.toNat s.ch[c].room)
    (hlen : len + s.ch[c].base.toNat = k.str.ch.ptr.toNat + 4) (hu : u.Inv) (harg : u.argNat 1 = len)
    (hfit : u.argNat 0 + len ≤ u.dmem.size)
    (hbytes : u.dmem.readBytes (u.argNat 0) len = M.readBytes s.ch[c].base.toNat len) (hslot : u.slot[m'] = s.slot[m]) :
    ∃ u1, exec (.rcDinit d) u = .next u1 ∧ u.Succeeded u1
      ∧ ∀ v : State, v.ch[d] = u1.ch[d] → v.slot[m'] = u1.slot[m'] → v.dmem = u1.dmem →
        Coder.Tracks M k.str.ch.ptr.toNat (s.coder c m) (v.coder d m')
          ∧ u.argNat 0 ≤ v.ch[d].ptr.toNat ∧ v.ch[d].limit.toNat = u.argNat 0 + len := by
  have hup := h.moves.up
  have hstart : (s.stream c).ch.ptr.toNat = s.ch[c].base.toNat := by
    rw [State.stream, hopened]
    rfl
  obtain ⟨u1, hexec, ⟨hdone, -, hmem⟩, ⟨-, hslots, -⟩, hon⟩ :=
    exists_exec_rcDinit (c := d) (harg ▸ hfit) hu.params.2.1 (by omega)
  rw [harg] at hon
  refine ⟨u1, hexec, hdone, fun v hch hvslot hvmem => ?_⟩
  have hstream : v.stream d = u1.stream d := congrArg₂ Stream.mk hch hvmem
  rw [← hstream] at hon
  have htracks := hon.tracks (t := s.stream c) (M := M) (fin := k.str.ch.ptr.toNat)
    (by rw [State.stream, hopened]; rfl) (by rw [State.stream, hopened]; rfl) (hstart ▸ hlen) (by omega)
    (by rw [hstart, ← hbytes, ← hmem, ← hvmem]; rfl)
  exact ⟨⟨htracks, hvslot.trans ((congrArg (·[m']) hslots).trans hslot)⟩, hon.ptr ▸ Nat.le_add_right .., hon.limit⟩

/-- A decoder that tracks the encoder to the end of the stream has read its window to the end (R121 item 6). -/
theorem Stream.Tracks.ptr_eq_limit {M : Dmem} {t e : Stream} (h : Stream.Tracks M t.ch.ptr.toNat t e) :
    e.ch.ptr = e.ch.limit :=
  BitVec.eq_of_toNat_eq (by have := h.left; omega)

theorem exec_rcDstream_of_decSyms {v : State} {e : Coder} (hmode : v.ch[d].mode = .dec)
    (hkind : v.slot[m'].table.kind = 2) (hin : v.argNat 0 + v.argNat 1 ≤ v.dmem.size)
    (hrun : Coder.decSyms (v.argNat 1) (v.argNat 0) (v.coder d m') = .ok () e) :
    exec (.rcDstream d m') v = .next ((v.putCoder d m' e).complete []) := by
  simp only [exec, execRcDstream, State.codeDstream, State.checkSym_of hmode hkind, Dmem.inRange_iff.2 hin,
    not_true_eq_false, if_false, hrun, Coded.noResult, Coded.bind_ok_eq, State.finishBody]

theorem exec_rcDgamma_of_decGamma {v : State} {e : Coder} {n : Nat} (hmode : v.ch[d].mode = .dec)
    (hkind : v.slot[m'].table.kind = 1) (hrun : (v.coder d m').decGamma = .ok n e) :
    exec (.rcDgamma d m') v = .next ((v.putCoder d m' e).complete [(0, word n)]) := by
  simp only [exec, execRcDgamma, State.codeDgamma, State.checkBin_of hmode hkind, hrun, Coded.bind_ok_eq,
    State.finishBody]

theorem State.argNat_lt (s : State) (i : Fin 8) : s.argNat i < 2 ^ 32 := s.arg[i].isLt

theorem State.word_argNat (s : State) (i : Fin 8) : word (s.argNat i) = s.arg[i] :=
  BitVec.eq_of_toNat_eq (Nat.mod_eq_of_lt (s.argNat_lt i))

/-- Settles O45: the decoder that `RC_DINIT` opens tracks the encoder from its first symbol to its last. -/
theorem decodedStreamIsTheEncodedOne : Obligations.DecodedStreamIsTheEncodedOne := by
  intro s s1 s2 u c d m m' base len hs hopened henc herr1 hflush herr2 hu harg hfit hbytes hslot
  obtain ⟨k, hto, hkind, hsyms⟩ := exists_encodesSyms_of_exec hs henc herr1
  obtain ⟨hyields, hslot2, hlen⟩ := hto.flushed hflush herr2
  obtain ⟨u1, hdinit, hdone, htracks⟩ := hto.exists_dinit (d := d) hopened hlen hu harg hfit hbytes hslot
  refine ⟨u1, hdinit, hdone, fun v hv hvch hvslot hvmem hcount hdst hapart => ?_⟩
  obtain ⟨htracks, hptr, hlimit⟩ := htracks v hvch hvslot hvmem
  obtain ⟨n, hk, -⟩ := hto.ready
  have hxs : (s.dmem.readBytes (s.argNat 0) (s.argNat 1)).length = v.argNat 1 := by
    rw [Dmem.readBytes_length, hcount]
  obtain ⟨e, hrun, hend⟩ := (hsyms.tracked hk hyields).2 (v.argNat 0) _ htracks fun x hx hlt => by
    simp only [Apart] at hapart
    rw [hxs] at hlt
    simp only [State.coder, State.stream, hlimit]
    omega
  have hmode : v.ch[d].mode = .dec := htracks.str.mode
  have hvkind : v.slot[m'].table.kind = 2 := (congrArg (·.table.kind) htracks.slot).trans hkind
  have hmem := hrun.mem hmode
  have hdec := hrun.decSyms (hv.coder_ready (.inr hmode) hvkind)
  rw [hxs] at hdec
  refine ⟨_, exec_rcDstream_of_decSyms hmode hvkind hdst hdec, (v.sameRegisters_putCoder d m' e).succeeded [],
    ?_, ?_, ?_⟩
  · rw [State.complete_dmem, State.putCoder_dmem, hmem, ← hxs]
    exact Dmem.readBytes_writeBytes _ _ _ (hxs ▸ hdst)
  · rw [State.complete_slot, State.putCoder_slot_self, hend.slot, hslot2]
  · rw [State.complete_ch, State.putCoder_ch_self]
    exact hend.str.ptr_eq_limit

/-- Settles O46: the decoder that `RC_DINIT` opens tracks the encoder over the bits of the code, and the code of a value
decodes to it. -/
theorem decodedGammaIsTheEncodedValue : Obligations.DecodedGammaIsTheEncodedValue := by
  intro s s1 s2 u c d m m' base len hs hopened henc herr1 hflush herr2 hu harg hfit hbytes hslot
  obtain ⟨k, hto, hkind, hpos, hbits⟩ := exists_encodesBits_of_exec hs henc herr1
  obtain ⟨hyields, hslot2, hlen⟩ := hto.flushed hflush herr2
  obtain ⟨u1, hdinit, hdone, htracks⟩ := hto.exists_dinit (d := d) hopened hlen hu harg hfit hbytes hslot
  refine ⟨u1, hdinit, hdone, fun v hv hvch hvslot hvmem => ?_⟩
  obtain ⟨htracks, -, -⟩ := htracks v hvch hvslot hvmem
  obtain ⟨n, hk, -⟩ := hto.ready
  obtain ⟨e, hrun, hend⟩ := (hbits.tracked hk hyields).2 _ htracks
  have hmode : v.ch[d].mode = .dec := htracks.str.mode
  have hvkind : v.slot[m'].table.kind = 1 := (congrArg (·.table.kind) htracks.slot).trans hkind
  have hdec := hrun.decGamma (hv.coder_ready (.inr hmode) hvkind) hpos (s.argNat_lt 0)
  refine ⟨_, exec_rcDgamma_of_decGamma hmode hvkind hdec, (v.sameRegisters_putCoder d m' e).succeeded _, ?_, ?_, ?_⟩
  · rw [State.complete_res, State.putCoder_res, s.word_argNat 0]
    rfl
  · rw [State.complete_slot, State.putCoder_slot_self, hend.slot, hslot2]
  · rw [State.complete_ch, State.putCoder_ch_self]
    exact hend.str.ptr_eq_limit

end

end Sys2Proof.Machine
end

section
/-!
Channels and their bytes (O30 to O32): `Narrow` on numbers, each way `Shift` can end, and the turns of the loop of
`Renorm` on the interval alone and on a stream.
-/

namespace Sys2Proof.Machine

/-- Settles O30: `Narrow` on numbers, with the new interval part of the old one. -/
theorem narrowNestsTheInterval : Obligations.NarrowNestsTheInterval := by
  intro c iv hi hfreq hsum htot r d
  have hiv : iv.Legal := ⟨hfreq, hsum, by omega⟩
  obtain ⟨hr, hpart, hlow, hrange⟩ := hi.narrow_toNat hiv
  obtain ⟨-, hstart, -⟩ := hi.narrow hiv
  have hend : d.low.toNat + d.range.toNat = c.low.toNat + (iv.cum + iv.freq) * r := by
    rw [hlow, hrange, Nat.add_mul, Nat.add_assoc]
  refine ⟨hr, hlow, hrange, hlow ▸ Nat.le_add_right .., hend ▸ Nat.add_le_add_left hpart _, hstart, rfl, rfl,
    rfl, rfl, rfl, ?_⟩
  intro iv' htot' hfreq' hsum' hle
  obtain ⟨-, -, hlow', -⟩ := hi.narrow_toNat (iv := iv') ⟨hfreq', hsum', by omega⟩
  rw [htot'] at hlow'
  rw [hend, hlow']
  exact Nat.add_le_add_left (Nat.mul_le_mul_right r hle) _

/-! ### One byte through `Shift` -/

section
variable {t u v : Stream} {n : Nat}

theorem Stream.shift_enc (hmode : t.ch.mode = .enc) (hlt : t.ch.ptr.toNat < t.ch.limit.toNat)
    (hlimit : t.ch.limit.toNat ≤ t.mem.size) : t.shift = .ok ()
      { ch := { t.ch with ptr := t.ch.ptr + 1#32 }
        mem := t.mem.write t.ch.ptr.toNat ((t.ch.low >>> 24).setWidth 8) } := by
  simp only [Stream.shift, hmode, if_neg hlt.not_ge, if_neg (hlt.trans_le hlimit).not_ge]

theorem Stream.shift_dec (hmode : t.ch.mode = .dec) (hlt : t.ch.ptr.toNat < t.ch.limit.toNat)
    (hlimit : t.ch.limit.toNat ≤ t.mem.size) : t.shift = .ok () { t with ch := { t.ch with
      ptr := t.ch.ptr + 1#32, code := (t.ch.code <<< 8) ||| (t.mem.read t.ch.ptr.toNat).setWidth 32 } } := by
  simp only [Stream.shift, hmode, if_neg hlt.not_ge, if_neg (hlt.trans_le hlimit).not_ge]

theorem Stream.shift_enc_full (hmode : t.ch.mode = .enc) (hfull : t.ch.limit.toNat ≤ t.ch.ptr.toNat) :
    t.shift = .raised .windowFull t := by
  simp only [Stream.shift, hmode, if_pos hfull]

theorem Stream.shift_dec_full (hmode : t.ch.mode = .dec) (hfull : t.ch.limit.toNat ≤ t.ch.ptr.toNat) :
    t.shift = .raised .streamExhausted t := by
  simp only [Stream.shift, hmode, if_pos hfull]

/-- Settles O32: each way `Shift` can end, with the byte on numbers. -/
theorem shiftMovesOneByte : Obligations.ShiftMovesOneByte := by
  intro t hlimit
  refine ⟨Stream.shift_enc_full, Stream.shift_dec_full, fun hmode hlt => ?_, fun hmode hlt => ?_⟩
  · have hshift := Stream.shift_enc hmode hlt hlimit
    refine ⟨_, hshift, ?_, ?_⟩
    · rw [Dmem.read_write_same _ _ (hlt.trans_le hlimit), toNat_top_byte]
    · exact (t.mem.sameOutside_refl _).write (Nat.le_refl _) (Nat.lt_add_one _) _
  · refine ⟨_, Stream.shift_dec hmode hlt hlimit, ?_⟩
    rw [toNat_shiftLeft_or_byte]
    omega

/-! ### Several bytes -/

theorem Dmem.writeBytes_concat (m : Dmem) (a : Nat) (bs : List Byte) (b : Byte) :
    m.writeBytes a (bs ++ [b]) = (m.writeBytes a bs).write (a + bs.length) b := by
  induction bs generalizing m a with
  | nil => rfl
  | cons x bs ih =>
    rw [List.cons_append, Dmem.writeBytes, Dmem.writeBytes, ih, List.length_cons, Nat.add_assoc, Nat.add_comm 1]

theorem Dmem.readBytes_succ (m : Dmem) (a n : Nat) : m.readBytes a (n + 1) = m.readBytes a n ++ [m.read (a + n)] := by
  induction n generalizing a with
  | zero => rfl
  | succ n ih =>
    rw [Dmem.readBytes, ih, Dmem.readBytes, List.cons_append, Nat.add_assoc, Nat.add_comm 1]

theorem beValue_concat (bs : List Byte) (b : Byte) : beValue (bs ++ [b]) = beValue bs * 2 ^ 8 + b.toNat := by
  induction bs with
  | nil => simp [beValue]
  | cons x bs ih =>
    rw [List.cons_append, beValue, beValue, ih, List.length_append, List.length_singleton, Nat.mul_add, Nat.pow_add]
    ring

/-- The bytes of a word stand on its top byte one after another, as the word is shifted left (R119, R138). -/
theorem beBytes_take_succ (w : Word) (hn : n < 4) :
    (beBytes w.toNat 4).take (n + 1) = (beBytes w.toNat 4).take n ++ [((w <<< (8 * n)) >>> 24).setWidth 8] := by
  have hlen : n < (beBytes w.toNat 4).length := by rwa [beBytes_length]
  have hbyte : (beBytes w.toNat 4)[n] = ((w <<< (8 * n)) >>> 24).setWidth 8 := by
    have hw := w.isLt
    apply BitVec.eq_of_toNat_eq
    rw [beBytes_getElem, toNat_top_byte, BitVec.toNat_shiftLeft, Nat.shiftLeft_eq]
    interval_cases n <;> omega
  rw [List.take_succ_eq_append_getElem hlen, hbyte]

theorem Dmem.writeBytes_take_succ (m : Dmem) (a : Nat) (w : Word) (hn : n < 4) :
    (m.writeBytes a ((beBytes w.toNat 4).take n)).write (a + n) (((w <<< (8 * n)) >>> 24).setWidth 8)
      = m.writeBytes a ((beBytes w.toNat 4).take (n + 1)) := by
  have hlen : ((beBytes w.toNat 4).take n).length = n := by
    rw [List.length_take, beBytes_length, Nat.min_eq_left hn.le]
  rw [beBytes_take_succ w hn, Dmem.writeBytes_concat, hlen]

/-- From `t` to `u` the stream put `n` bytes, at most four, through `Shift`, with `low` shifted a byte after each: an
encoder wrote the leading bytes of `low`, a decoder took the next bytes of its window into `code` (R118, R119). -/
structure Stream.MovedBytes (t u : Stream) (n : Nat) : Prop where
  mode : u.ch.mode = t.ch.mode
  base : u.ch.base = t.ch.base
  limit : u.ch.limit = t.ch.limit
  low : u.ch.low = t.ch.low <<< (8 * n)
  ptr : u.ch.ptr.toNat = t.ch.ptr.toNat + n
  enc : t.ch.mode = .enc → u.ch.code = t.ch.code
    ∧ u.mem = t.mem.writeBytes t.ch.ptr.toNat ((beBytes t.ch.low.toNat 4).take n)
  dec : t.ch.mode = .dec → u.mem = t.mem
    ∧ u.ch.code.toNat = (t.ch.code.toNat * 2 ^ (8 * n) + beValue (t.mem.readBytes t.ch.ptr.toNat n)) % 2 ^ 32

theorem Stream.MovedBytes.zero (t : Stream) : t.MovedBytes t 0 where
  mode := rfl
  base := rfl
  limit := rfl
  low := (BitVec.shiftLeft_zero _).symm
  ptr := rfl
  enc _ := ⟨rfl, rfl⟩
  dec _ := ⟨rfl, by simp [Dmem.readBytes, beValue, Nat.mod_eq_of_lt t.ch.code.isLt]⟩

/-- The cut of R118 moves no byte. -/
theorem Stream.MovedBytes.cut (h : t.MovedBytes u n) : t.MovedBytes { u with ch := u.ch.cut } n :=
  ⟨u.ch.cut_mode.trans h.mode, u.ch.cut_base.trans h.base, u.ch.cut_limit.trans h.limit, u.ch.cut_low.trans h.low,
    u.ch.cut_ptr ▸ h.ptr, fun he => u.ch.cut_code ▸ h.enc he, fun hd => u.ch.cut_code ▸ h.dec hd⟩

/-- One more byte, and `low` shifted after it. -/
theorem Stream.MovedBytes.shift (h : t.MovedBytes u n) (hn : n < 4) (ho : t.ch.Open)
    (hroom : t.ch.ptr.toNat + n < t.ch.limit.toNat) (hin : t.ch.limit.toNat ≤ t.mem.size) :
    ∃ v, u.shift = .ok () v ∧ v.ch.range = u.ch.range
      ∧ ∀ r, t.MovedBytes { v with ch := { v.ch with low := v.ch.low <<< 8, range := r } } (n + 1) := by
  obtain ⟨hmode, hbase, hlimit, hlow, hptr, henc, hdec⟩ := h
  have hlt : u.ch.ptr.toNat < u.ch.limit.toNat := by rw [hptr, hlimit]; exact hroom
  have hnext : (u.ch.ptr + 1#32).toNat = t.ch.ptr.toNat + (n + 1) := by
    have := u.ch.limit.isLt
    rw [BitVec.toNat_add, BitVec.toNat_ofNat]
    omega
  have hlow' : u.ch.low <<< 8 = t.ch.low <<< (8 * (n + 1)) := by rw [hlow, ← BitVec.shiftLeft_add, Nat.mul_succ]
  obtain he | hd := ho
  · obtain ⟨hcode, hmem⟩ := henc he
    have hshift := Stream.shift_enc (hmode.trans he) hlt (by rw [hlimit, hmem, Dmem.writeBytes_size]; exact hin)
    refine ⟨_, hshift, rfl, fun r => ⟨hmode, hbase, hlimit, hlow', hnext, fun _ => ⟨hcode, ?_⟩, fun hd => ?_⟩⟩
    · simp only [hmem, hlow, hptr]
      exact Dmem.writeBytes_take_succ _ _ _ hn
    · cases he.symm.trans hd
  · obtain ⟨hmem, hcode⟩ := hdec hd
    have hshift := Stream.shift_dec (hmode.trans hd) hlt (by rw [hlimit, hmem]; exact hin)
    refine ⟨_, hshift, rfl, fun r => ⟨hmode, hbase, hlimit, hlow', hnext, fun he => ?_, fun _ => ⟨hmem, ?_⟩⟩⟩
    · cases hd.symm.trans he
    · have hpow : 2 ^ (8 * (n + 1)) = 2 ^ (8 * n) * 2 ^ 8 := by rw [Nat.mul_succ, Nat.pow_add]
      simp only [toNat_shiftLeft_or_byte, hmem, hptr, Dmem.readBytes_succ, beValue_concat, hcode, hpow, ← Nat.mul_assoc,
        ← Nat.add_assoc, ← Nat.add_mul]
      omega

end

/-! ### The loop of `Renorm` on the interval -/

/-- The interval of a channel as the statement about `Renorm` has it. -/
def Channel.interval (c : Channel) : Nat × Nat := (c.low.toNat, c.range.toNat)

/-- One turn of the loop of R118 but for the byte shifted. -/
def Channel.turn (c : Channel) : Channel := c.cut.advance

theorem Channel.settled_iff_renormExits (c : Channel) : c.settled = true ↔ RenormExits c.interval := by
  simp [RenormExits, Channel.settled, Channel.topFixed, coderTop, coderBot, Channel.interval, BitVec.toNat_add]

theorem Channel.interval_cut (c : Channel) : c.cut.interval = cutInterval c.interval := by
  simp only [Channel.interval, cutInterval, Channel.cut_low, Channel.cut_range_toNat, Channel.topFixed_iff,
    xor_lt_two_pow_iff]
  split_ifs <;> rfl

theorem Channel.interval_turn (c : Channel) : c.turn.interval = renormTurn c.interval := by
  rw [renormTurn, ← Channel.interval_cut]
  simp [Channel.turn, Channel.interval, Channel.advance, BitVec.toNat_shiftLeft, Nat.shiftLeft_eq]

theorem Channel.interval_iterate_turn (c : Channel) (n : Nat) :
    (Channel.turn^[n] c).interval = renormTurn^[n] c.interval :=
  (Function.Semiconj.iterate_right (f := Channel.interval) Channel.interval_turn n) c

/-- Of an interval that is already coarse, the loop makes at most the turns that are left of three (R121 item 3). -/
theorem Channel.Narrowed.exists_settled {c : Channel} (h : c.Narrowed) {j k : Nat} (hj : j + k = 3) (hc : c.Coarse j) :
    ∃ i, i ≤ k ∧ (Channel.turn^[i] c).settled = true := by
  induction k generalizing c j with
  | zero => exact ⟨0, Nat.le_refl 0, h.settled_of_coarse (hj ▸ hc)⟩
  | succ k ih =>
    by_cases hs : c.settled = true
    · exact ⟨0, Nat.zero_le _, hs⟩
    · have hnext : c.turn.Narrowed := h.turn (by simpa using hs) c.cut_low rfl
      obtain ⟨i, hi, hsettled⟩ := ih hnext (by omega) (hc.advance (by omega) c.cut_low rfl)
      exact ⟨i + 1, Nat.succ_le_succ hi, hsettled⟩

/-- The loop exits after at most three turns, and not before (R121 item 3). -/
theorem Channel.Narrowed.exists_first_exit {c : Channel} (h : c.Narrowed) :
    ∃ j, j ≤ 3 ∧ RenormExits (renormTurn^[j] c.interval) ∧ ∀ k, k < j → ¬ RenormExits (renormTurn^[k] c.interval) := by
  classical
  obtain ⟨i, hi, hsettled⟩ := h.exists_settled (Nat.zero_add 3) c.coarse_zero
  rw [Channel.settled_iff_renormExits, Channel.interval_iterate_turn] at hsettled
  have hex : ∃ j, RenormExits (renormTurn^[j] c.interval) := ⟨i, hsettled⟩
  exact ⟨Nat.find hex, (Nat.find_min' hex hsettled).trans hi, Nat.find_spec hex, fun k hk => Nat.find_min hex hk⟩

/-! ### The loop of `Renorm` on a stream -/

section
variable {t u v : Stream} {n : Nat}

theorem Stream.Turns.snoc (h : t.Turns u) (hs : u.ch.settled = false)
    (hv : Stream.shift { u with ch := u.ch.cut } = .ok () v) : t.Turns { v with ch := v.ch.advance } := by
  induction h with
  | done t => exact .turn hs hv (.done _)
  | turn hs' hv' _ ih => exact .turn hs' hv' (ih hs hv)

theorem Stream.Turns.narrowed (h : t.Turns u) (hi : t.ch.Narrowed) : u.ch.Narrowed := by
  induction h with
  | done t => exact hi
  | turn hs hv _ ih =>
    obtain ⟨hlow, hrange⟩ := Stream.shift_interval hv
    exact ih (hi.turn hs (hlow.trans (Channel.cut_low _)) hrange)

/-- The loop goes on from where some turns of it led. -/
theorem Stream.Turns.renormLoop_eq (h : t.Turns u) {m : Nat} (hn : u.ch.ptr.toNat = t.ch.ptr.toNat + n) :
    t.renormLoop (n + m) = u.renormLoop m := by
  induction h generalizing n with
  | done t =>
    obtain rfl : n = 0 := by omega
    rw [Nat.zero_add]
  | turn hunsettled hv hu ih =>
    have hptr := Stream.shift_ptr hv
    have hup := hu.puts.up
    simp only [Channel.cut_ptr, Channel.advance] at hptr hup
    obtain ⟨n, rfl⟩ : ∃ k, n = k + 1 := ⟨n - 1, by omega⟩
    rw [Nat.add_right_comm, Stream.renormLoop, if_neg (by simp [hunsettled]), hv]
    exact ih (by simp only [Channel.advance]; omega)

/-- While the interval does not leave the loop and the window has bytes, the loop makes its turns, a byte each
(R118). -/
theorem Stream.exists_turns_of_unsettled (ho : t.ch.Open) (hin : t.ch.limit.toNat ≤ t.mem.size) (hn : n ≤ 3)
    (hroom : t.ch.ptr.toNat + n ≤ t.ch.limit.toNat)
    (hgo : ∀ k, k < n → ¬ RenormExits (renormTurn^[k] t.ch.interval)) :
    ∃ u, t.Turns u ∧ t.MovedBytes u n ∧ u.ch.interval = renormTurn^[n] t.ch.interval := by
  induction n with
  | zero => exact ⟨t, .done t, .zero t, rfl⟩
  | succ n ih =>
    obtain ⟨u, hturns, hmoved, hint⟩ := ih (by omega) (by omega) fun k hk => hgo k (by omega)
    have hs : u.ch.settled = false := by
      rw [← Bool.not_eq_true, Channel.settled_iff_renormExits, hint]
      exact hgo n (Nat.lt_succ_self n)
    obtain ⟨v, hv, hrange, hnext⟩ := hmoved.cut.shift (by omega) ho (by omega) hin
    refine ⟨_, hturns.snoc hs hv, hnext _, ?_⟩
    obtain ⟨hlow, -⟩ := Stream.shift_interval hv
    rw [Function.iterate_succ_apply', ← hint, ← Channel.interval_turn]
    simp only [Channel.interval, Channel.turn, Channel.advance, hlow, hrange]

/-- What the turns of the loop leave, in the words of the statement about `Renorm`. -/
theorem Stream.MovedBytes.shiftedBy (h : t.MovedBytes u n) (hroom : t.ch.ptr.toNat + n ≤ t.mem.size) :
    t.ShiftedBy u n u.ch.interval := by
  refine ⟨rfl, h.ptr, h.mode, h.base, h.limit, fun he => ?_, h.dec⟩
  obtain ⟨hcode, hmem⟩ := h.enc he
  refine ⟨hcode, hmem ▸ Dmem.after_writeRanges (l := [(t.ch.ptr.toNat, (beBytes t.ch.low.toNat 4).take n)]) ?_⟩
  simp only [List.forall_mem_singleton, List.length_take]
  omega

/-- At the window's end `Shift` raises by the channel's mode (R119). -/
theorem Stream.shift_full (ho : t.ch.Open) (hfull : t.ch.limit.toNat ≤ t.ch.ptr.toNat) :
    t.shift = .raised (if t.ch.mode = .enc then .windowFull else .streamExhausted) t := by
  obtain he | hd := ho
  · rw [Stream.shift_enc_full he hfull, if_pos he]
  · rw [Stream.shift_dec_full hd hfull, if_neg (by rw [hd]; decide)]

end

/-- Settles O31: the turns of the interval alone are those of the stream, as far as the window has bytes. -/
theorem renormRestoresTheInterval : Obligations.RenormRestoresTheInterval := by
  intro t ho hle heq hpos hptr hin turns
  have hi : t.ch.Narrowed := ⟨hle, heq, hpos⟩
  obtain ⟨j, hj, hexit, hgo⟩ := hi.exists_first_exit
  refine ⟨j, hj, hexit, hgo, fun hroom => ?_, fun hroom => ?_, ?_⟩
  · rw [Channel.room] at hroom
    obtain ⟨u, hturns, hmoved, hint⟩ := Stream.exists_turns_of_unsettled ho hin hj (by omega) hgo
    have hsettled : u.ch.settled = true := by rwa [Channel.settled_iff_renormExits, hint]
    refine ⟨u, hturns.renormLoop hsettled (by have := hmoved.ptr; omega), ?_, (hturns.narrowed hi).intervalOk hsettled⟩
    exact (show turns j = u.ch.interval from hint.symm) ▸ hmoved.shiftedBy (by omega)
  · rw [Channel.room] at hroom
    have hend : t.ch.ptr.toNat + t.ch.room = t.ch.limit.toNat := Nat.add_sub_cancel' hptr
    obtain ⟨u, hturns, hmoved, hint⟩ := Stream.exists_turns_of_unsettled (n := t.ch.room) ho hin
      (by rw [Channel.room]; omega) hend.le fun k hk => hgo k (hk.trans hroom)
    have hs : ¬ u.ch.settled = true := by
      rw [Channel.settled_iff_renormExits, hint]
      exact hgo _ hroom
    have hcut := hmoved.cut
    have hmode := hcut.mode
    have hlimit := hcut.limit
    have hraise := Stream.shift_full (t := { u with ch := u.ch.cut }) (ho.imp hmode.trans hmode.trans)
      (by rw [hcut.ptr, hlimit, hend])
    refine ⟨{ u with ch := u.ch.cut }, ?_, ?_, BitVec.eq_of_toNat_eq (hcut.ptr.trans hend)⟩
    · rw [Stream.renorm, ← Channel.room, ← Nat.add_zero t.ch.room, hturns.renormLoop_eq hmoved.ptr, Stream.renormLoop,
        if_neg hs, hraise, hmode]
      rfl
    · have hturn : cutInterval (turns t.ch.room) = u.ch.cut.interval := by rw [Channel.interval_cut, hint]; rfl
      exact hturn ▸ hcut.shiftedBy (by omega)
  · rintro rfl
    have hs : t.ch.settled = true := (Channel.settled_iff_renormExits _).2 hexit
    exact (Stream.Turns.done t).renormLoop hs (Nat.le_add_right ..)

end Sys2Proof.Machine
end

section
/-!
The channel commands without a slot (O33, O42, O43): what a channel command leaves in the state from the end of its
work, then `RC_EINIT`, `RC_DINIT`, `RC_EFLUSH` and `RC_DFIN`.
-/

namespace Sys2Proof.Machine

/-! ### From the end of the work to the end of the command -/

section
variable {i : Instr} {s : State} {c : ChanNo} {e : Cause} {u : Stream} {r : List Result}

/-- A channel command whose checks fail does nothing (R146, R150). -/
theorem exists_failedUntouched_of_body {σ : Type} {put : σ → State} {b : Body σ}
    (hexec : exec i s = s.finishBody c put b) (hb : b = .failed e) :
    ∃ t, exec i s = .next t ∧ s.FailedUntouched t e := by
  subst hb
  exact ⟨_, hexec, s.failedUntouched_raise e⟩

/-- A channel command whose work ends with results completes with them over what the work left (R149). -/
theorem exists_succeeded_of_stream (hexec : exec i s = s.finishBody c (s.putStream c) (.ran (.ok r u))) :
    ∃ t, exec i s = .next t ∧ s.Succeeded t ∧ s.OnlyChannel t c ∧ t.res = writeResults s.res r ∧ t.ch[c] = u.ch
      ∧ t.dmem = u.mem :=
  ⟨(s.putStream c u).complete r, hexec, (s.sameRegisters_putStream c u).succeeded r,
    ⟨s.sameOtherChannels_putStream c u, rfl, rfl, rfl⟩, rfl, s.putStream_ch_self c u, rfl⟩

/-- A channel command whose work raises ends in a channel error over what the work left (R150). -/
theorem exists_failed_of_stream (hexec : exec i s = s.finishBody c (s.putStream c) (.ran (.raised e u))) :
    ∃ t, exec i s = .next t ∧ s.Failed t e ∧ s.OnlyChannel t c ∧ t.ch[c] = { u.ch with mode := .err }
      ∧ t.dmem = u.mem := by
  have hch : ((s.putStream c u).raiseChannel c e).ch[c] = { u.ch with mode := .err } := by
    rw [← s.putStream_ch_self c u]
    exact Vector.getElem_set_self _
  exact ⟨(s.putStream c u).raiseChannel c e, hexec, (s.sameRegisters_putStream c u).failed c e,
    ⟨(s.sameOtherChannels_putStream c u).raiseChannel e, rfl, rfl, rfl⟩, hch, rfl⟩

end

/-! ### Opening and closing -/

section
variable {s : State} {c : ChanNo}

theorem sub_eq_word {x y : Word} (h : y.toNat ≤ x.toNat) : x - y = word (x.toNat - y.toNat) := by
  have := x.isLt
  apply BitVec.eq_of_toNat_eq
  rw [BitVec.toNat_sub_of_le (BitVec.le_def.2 h), word, BitVec.toNat_ofNat]
  omega

theorem State.toNat_word_window (hfit : s.argNat 0 + s.argNat 1 ≤ s.dmem.size) (hsize : s.dmem.size ≤ 2 ^ 20) :
    (word (s.argNat 0 + s.argNat 1)).toNat = s.argNat 0 + s.argNat 1 := by
  rw [word, BitVec.toNat_ofNat]
  omega

/-- Settles O43: the checks of R128 and R139, then what each command puts back. -/
theorem einitOpensAndDfinCloses : Obligations.EinitOpensAndDfinCloses := by
  intro s c hs
  obtain ⟨hbase, hptr, -⟩ := hs.channels c
  refine ⟨fun hfit => ?_, fun hout => ?_, fun hmode => ?_, fun hmode => ?_⟩
  · obtain ⟨t, ht, hdone, honly, hres, hch, hmem⟩ := exists_succeeded_of_stream (i := .rcEinit c) (s := s) (c := c)
      (congrArg (s.finishBody c (s.putStream c)) (if_neg (not_not.2 (Dmem.inRange_iff.2 hfit))))
    refine ⟨t, ht, ⟨hdone, hres, hmem⟩, honly, ?_⟩
    rw [hch]
    exact ⟨rfl, rfl, rfl, rfl, s.word_argNat 0, s.word_argNat 0, State.toNat_word_window hfit hs.params.2.1⟩
  · exact exists_failedUntouched_of_body (i := .rcEinit c) (c := c) rfl (if_pos (Dmem.not_inRange_iff.2 hout))
  · obtain ⟨t, ht, hdone, honly, hres, hch, hmem⟩ := exists_succeeded_of_stream (i := .rcDfin c) (s := s) (c := c)
      (congrArg (s.finishBody c (s.putStream c)) (if_neg (not_not.2 hmode)))
    exact ⟨t, ht, hdone, honly, hmem, by rw [hres, ← sub_eq_word hbase, ← sub_eq_word hptr]; rfl, hch⟩
  · exact exists_failedUntouched_of_body (i := .rcDfin c) (c := c) rfl (if_pos hmode)

theorem exec_rcDinit_of_fit (hfit : s.argNat 0 + s.argNat 1 ≤ s.dmem.size) : exec (.rcDinit c) s
    = s.finishBody c (s.putStream c) (.ran (Stream.shiftIn 4
        { s.stream c with ch := Channel.opened .dec (s.argNat 0) (s.argNat 1) }).noResult) :=
  congrArg (s.finishBody c (s.putStream c)) (if_neg (not_not.2 (Dmem.inRange_iff.2 hfit)))

theorem Stream.shiftIn_add (n m : Nat) (t : Stream) :
    Stream.shiftIn (n + m) t = (Stream.shiftIn n t).bind fun _ u => Stream.shiftIn m u := by
  induction n generalizing t with
  | zero => rw [Nat.zero_add]; rfl
  | succ n ih =>
    rw [Nat.add_right_comm, Stream.shiftIn, Stream.shiftIn]
    cases t.shift with
    | ok _ u => exact ih u
    | raised e u => rfl
    | fault f => rfl

/-- The first bytes of a window, taken into `code` by a decoder newly opened on it (R129). -/
theorem exists_shiftIn_opened {k : Nat} (hfit : s.argNat 0 + s.argNat 1 ≤ s.dmem.size) (hsize : s.dmem.size ≤ 2 ^ 20)
    (hk : k ≤ s.argNat 1) (hk4 : k ≤ 4) : ∃ code ptr : Word,
      Stream.shiftIn k { s.stream c with ch := Channel.opened .dec (s.argNat 0) (s.argNat 1) }
          = .ok () { s.stream c with ch :=
              { Channel.opened .dec (s.argNat 0) (s.argNat 1) with code := code, ptr := ptr } }
        ∧ ptr.toNat = s.argNat 0 + k ∧ code.toNat = beValue (s.dmem.readBytes (s.argNat 0) k) := by
  have hbase : (word (s.argNat 0)).toNat = s.argNat 0 := congrArg BitVec.toNat (s.word_argNat 0)
  have hlimit := State.toNat_word_window hfit hsize
  obtain ⟨code, ptr, hrun, hptr, hcode⟩ := Stream.shiftIn_dec (n := k)
    (t := { s.stream c with ch := Channel.opened .dec (s.argNat 0) (s.argNat 1) }) rfl
    (by simp only [Channel.opened, hbase, hlimit]; omega)
    (by simpa only [Channel.opened, hlimit, State.stream] using hfit)
  have hvalue : beValue (s.dmem.readBytes (s.argNat 0) k) < 2 ^ 32 := by
    have hlt := beValue_lt (s.dmem.readBytes (s.argNat 0) k)
    rw [Dmem.readBytes_length] at hlt
    exact hlt.trans_le (Nat.pow_le_pow_right (by decide) (by omega))
  simp only [Channel.opened, hbase, State.stream, BitVec.toNat_zero, Nat.zero_mul, Nat.zero_add,
    Nat.mod_eq_of_lt hvalue] at hptr hcode
  exact ⟨code, ptr, hrun, hptr, hcode⟩

/-- Settles O33: four bytes, or as many as the window has and a raise at its end. -/
theorem dinitReadsFourBytes : Obligations.DinitReadsFourBytes := by
  intro s c hsize base n opened
  refine ⟨fun hfit hlen => ?_, fun hfit hlen => ?_, fun hout => ?_⟩
  · obtain ⟨code, ptr, hrun, hptr, hcode⟩ := exists_shiftIn_opened (c := c) hfit hsize hlen (Nat.le_refl 4)
    have hexec := exec_rcDinit_of_fit (c := c) hfit
    rw [hrun] at hexec
    obtain ⟨t, ht, hdone, honly, hres, hch, hmem⟩ := exists_succeeded_of_stream hexec
    refine ⟨t, ht, ⟨hdone, hres, hmem⟩, honly, ?_⟩
    dsimp only [opened]
    rw [hch]
    exact ⟨rfl, rfl, rfl, hcode, s.word_argNat 0, hptr, State.toNat_word_window hfit hsize⟩
  · obtain ⟨code, ptr, hrun, hptr, hcode⟩ := exists_shiftIn_opened (c := c) hfit hsize (Nat.le_refl n) hlen.le
    have hlimit := State.toNat_word_window hfit hsize
    have hfull := Stream.shift_dec_full (t := { s.stream c with ch :=
      { Channel.opened .dec (s.argNat 0) (s.argNat 1) with code := code, ptr := ptr } }) rfl (hlimit.trans hptr.symm).le
    have hexec := exec_rcDinit_of_fit (c := c) hfit
    obtain ⟨m, hm⟩ : ∃ m, 4 = n + (m + 1) := ⟨3 - n, by omega⟩
    rw [hm, Stream.shiftIn_add, hrun, Coded.bind_ok_eq, Stream.shiftIn, hfull] at hexec
    obtain ⟨t, ht, hfailed, honly, hch, hmem⟩ := exists_failed_of_stream hexec
    refine ⟨t, ht, hfailed, honly, hmem, ?_⟩
    dsimp only [opened]
    rw [hch]
    exact ⟨rfl, rfl, rfl, hcode, s.word_argNat 0, hptr, hlimit⟩
  · exact exists_failedUntouched_of_body (i := .rcDinit c) (c := c) rfl (if_pos (Dmem.not_inRange_iff.2 hout))

end

/-! ### Flushing -/

section
variable {t u : Stream} {n : Nat}

theorem Stream.flushOut_add (n m : Nat) (t : Stream) :
    Stream.flushOut (n + m) t = (Stream.flushOut n t).bind fun _ u => Stream.flushOut m u := by
  induction n generalizing t with
  | zero => rw [Nat.zero_add]; rfl
  | succ n ih =>
    rw [Nat.add_right_comm, Stream.flushOut, Stream.flushOut]
    cases t.shift with
    | ok _ u => exact ih _
    | raised e u => rfl
    | fault f => rfl

/-- The flush of as many bytes as the window has, at most four (R138). -/
theorem Stream.exists_flushOut (hmode : t.ch.mode = .enc) (hin : t.ch.limit.toNat ≤ t.mem.size) (hn : n ≤ 4)
    (hroom : t.ch.ptr.toNat + n ≤ t.ch.limit.toNat) :
    ∃ u, Stream.flushOut n t = .ok () u ∧ t.MovedBytes u n ∧ u.ch.range = t.ch.range := by
  induction n with
  | zero => exact ⟨t, rfl, .zero t, rfl⟩
  | succ n ih =>
    obtain ⟨u, hrun, hmoved, hrange⟩ := ih (by omega) (by omega)
    obtain ⟨v, hv, hvrange, hnext⟩ := hmoved.shift (by omega) (.inl hmode) (by omega) hin
    refine ⟨_, ?_, hnext v.ch.range, hvrange.trans hrange⟩
    rw [Stream.flushOut_add, hrun, Coded.bind_ok_eq, Stream.flushOut, hv]
    rfl

/-- An encoder's channel and DMEM after a flush of `n` bytes. -/
theorem Stream.MovedBytes.flushed (h : t.MovedBytes u n) (hmode : t.ch.mode = .enc) (hrange : u.ch.range = t.ch.range)
    (hn : n ≤ 4) (hroom : t.ch.ptr.toNat + n ≤ t.mem.size) {p : Word} (hp : p.toNat = t.ch.ptr.toNat + n) :
    u.ch = { t.ch with low := t.ch.low <<< (8 * n), ptr := p }
      ∧ t.mem.After [(t.ch.ptr.toNat, (beBytes t.ch.low.toNat 4).take n)] u.mem
      ∧ t.mem.SameOutside u.mem [(t.ch.ptr.toNat, n)] := by
  obtain ⟨hmode', hbase, hlimit, hlow, hptr, henc, -⟩ := id h
  obtain ⟨hcode, hmem⟩ := henc hmode
  have hptr' : u.ch.ptr = p := BitVec.eq_of_toNat_eq (hptr.trans hp.symm)
  have hlen : ((beBytes t.ch.low.toNat 4).take n).length = n := by
    rw [List.length_take, beBytes_length, Nat.min_eq_left hn]
  refine ⟨?_, ?_, ?_⟩
  · rw [← hlow, ← hptr']
    dsimp only
    rw [← hmode', ← hbase, ← hlimit, ← hrange, ← hcode]
  · exact hmem ▸ Dmem.after_writeRanges (l := [(t.ch.ptr.toNat, (beBytes t.ch.low.toNat 4).take n)])
      (List.forall_mem_singleton.2 (by rw [hlen]; exact hroom))
  · have hout := t.mem.sameOutside_writeRanges [(t.ch.ptr.toNat, (beBytes t.ch.low.toNat 4).take n)]
    rw [List.map_singleton, hlen] at hout
    exact hmem ▸ hout

end

theorem exec_rcEflush_of_enc {s : State} {c : ChanNo} (hmode : s.ch[c].mode = .enc) : exec (.rcEflush c) s
    = s.finishBody c (s.putStream c) (.ran ((Stream.flushOut 4 (s.stream c)).bind fun _ t =>
        .ok [(0, t.ch.ptr - t.ch.base)] { t with ch := { t.ch with mode := .idle } })) :=
  congrArg (s.finishBody c (s.putStream c)) (if_neg (not_not.2 hmode))

/-- Settles O42: four bytes of `low`, or as many as the window has and a raise at its end. -/
theorem eflushCompletesOrFillsTheWindow : Obligations.EflushCompletesOrFillsTheWindow := by
  intro s c ptr room hs hmode
  obtain ⟨hbase, hptr, hlimit, -⟩ := hs.channels c
  have hexec := exec_rcEflush_of_enc hmode
  have hend : ptr + room = s.ch[c].limit.toNat := Nat.add_sub_cancel' hptr
  refine ⟨fun hroom => ?_, fun hroom => ?_⟩
  · obtain ⟨u, hrun, hmoved, hrange⟩ := Stream.exists_flushOut (t := s.stream c) (n := 4) hmode hlimit (Nat.le_refl 4)
      (show ptr + 4 ≤ s.ch[c].limit.toNat by omega)
    have hnext : (s.ch[c].ptr + 4#32).toNat = ptr + 4 := by
      have := s.ch[c].limit.isLt
      rw [BitVec.toNat_add, BitVec.toNat_ofNat]
      omega
    obtain ⟨hch, hafter, hout⟩ := hmoved.flushed hmode hrange (Nat.le_refl 4)
      (show ptr + 4 ≤ s.dmem.size by omega) hnext
    rw [hrun, Coded.bind_ok_eq, hch] at hexec
    obtain ⟨t, ht, hdone, honly, hres, htch, hmem⟩ := exists_succeeded_of_stream hexec
    rw [List.take_of_length_le (beBytes_length ..).le] at hafter
    refine ⟨t, ht, hdone, honly, hmem ▸ hafter, hmem ▸ hout, ?_, ?_⟩
    · rw [hres, ← hnext, ← sub_eq_word (by omega)]
      rfl
    · rw [htch, BitVec.shiftLeft_eq_zero (Nat.le_refl 32)]
      rfl
  · obtain ⟨u, hrun, hmoved, hrange⟩ := Stream.exists_flushOut (t := s.stream c) (n := room) hmode hlimit hroom.le
      hend.le
    obtain ⟨hch, hafter, hout⟩ := hmoved.flushed hmode hrange hroom.le (hend.trans_le hlimit) hend.symm
    have hfull := Stream.shift_enc_full (hmoved.mode.trans hmode) (by rw [hmoved.limit, hmoved.ptr]; exact hend.ge)
    obtain ⟨m, hm⟩ : ∃ m, 4 = room + (m + 1) := ⟨3 - room, by omega⟩
    rw [hm, Stream.flushOut_add, hrun, Coded.bind_ok_eq, Stream.flushOut, hfull] at hexec
    obtain ⟨t, ht, hfailed, honly, htch, hmem⟩ := exists_failed_of_stream hexec
    exact ⟨t, ht, hfailed, honly, hmem ▸ hafter, hmem ▸ hout, by rw [htch, hch]; rfl⟩

end Sys2Proof.Machine
end

section
/-!
The checks of the coding commands (O44, R146): which check fails decides what each command's body reports, before any
coding work.
-/

namespace Sys2Proof.Machine

section
variable {s : State} {c : ChanNo} {m : SlotNo} {x : CtxSel} {b : Bool} {j : Byte} {mode : ChMode} {e : Cause}

/-! ### The channel's mode and the slot's kind -/

theorem State.checkBin_of_mode_ne (h : s.ch[c].mode ≠ mode) : s.checkBin c m mode = some .channelMode := if_pos h

theorem State.checkSym_of_mode_ne (h : s.ch[c].mode ≠ mode) : s.checkSym c m mode = some .channelMode := if_pos h

theorem State.checkBin_of_kind_ne (hmode : s.ch[c].mode = mode) (h : s.slot[m].table.kind ≠ 1) :
    s.checkBin c m mode = some .slotKind := (if_neg (not_not.2 hmode)).trans (if_pos h)

theorem State.checkSym_of_kind_ne (hmode : s.ch[c].mode = mode) (h : s.slot[m].table.kind ≠ 2) :
    s.checkSym c m mode = some .slotKind := (if_neg (not_not.2 hmode)).trans (if_pos h)

theorem State.codeEbit_of_check (h : s.checkBin c m .enc = some e) : s.codeEbit c m x b = .failed e := by
  simp only [State.codeEbit, h]

theorem State.codeDbit_of_check (h : s.checkBin c m .dec = some e) : s.codeDbit c m x = .failed e := by
  simp only [State.codeDbit, h]

theorem State.codeEgamma_of_check (h : s.checkBin c m .enc = some e) : s.codeEgamma c m = .failed e := by
  simp only [State.codeEgamma, h]

theorem State.codeDgamma_of_check (h : s.checkBin c m .dec = some e) : s.codeDgamma c m = .failed e := by
  simp only [State.codeDgamma, h]

theorem State.codeEsym_of_check (h : s.checkSym c m .enc = some e) : s.codeEsym c m x j = .failed e := by
  simp only [State.codeEsym, h]

theorem State.codeDsym_of_check (h : s.checkSym c m .dec = some e) : s.codeDsym c m x = .failed e := by
  simp only [State.codeDsym, h]

theorem State.codeEstream_of_check (h : s.checkSym c m .enc = some e) : s.codeEstream c m = .failed e := by
  simp only [State.codeEstream, h]

theorem State.codeDstream_of_check (h : s.checkSym c m .dec = some e) : s.codeDstream c m = .failed e := by
  simp only [State.codeDstream, h]

/-! ### Operands -/

theorem State.codeEbit_of_context (hmode : s.ch[c].mode = .enc) (hkind : s.slot[m].table.kind = 1)
    (h : 2 ≤ contextOf x s.slot[m]) : s.codeEbit c m x b = .failed .badContext := by
  simp only [State.codeEbit, State.checkBin_of hmode hkind, if_pos h]

theorem State.codeDbit_of_context (hmode : s.ch[c].mode = .dec) (hkind : s.slot[m].table.kind = 1)
    (h : 2 ≤ contextOf x s.slot[m]) : s.codeDbit c m x = .failed .badContext := by
  simp only [State.codeDbit, State.checkBin_of hmode hkind, if_pos h]

theorem State.codeEgamma_of_zero (hmode : s.ch[c].mode = .enc) (hkind : s.slot[m].table.kind = 1)
    (h : s.argNat 0 = 0) : s.codeEgamma c m = .failed .gammaZero := by
  simp only [State.codeEgamma, State.checkBin_of hmode hkind, if_pos h]

theorem State.codeEsym_of_context (hmode : s.ch[c].mode = .enc) (hkind : s.slot[m].table.kind = 2)
    (h : s.slot[m].table.alphabet ≤ contextOf x s.slot[m]) : s.codeEsym c m x j = .failed .badContext := by
  simp only [State.codeEsym, State.checkSym_of hmode hkind, if_pos h]

theorem State.codeEsym_of_symbol (hmode : s.ch[c].mode = .enc) (hkind : s.slot[m].table.kind = 2)
    (hctx : contextOf x s.slot[m] < s.slot[m].table.alphabet) (h : s.slot[m].table.alphabet ≤ j.toNat) :
    s.codeEsym c m x j = .failed .badSymbol := by
  simp only [State.codeEsym, State.checkSym_of hmode hkind, if_neg hctx.not_ge, if_pos h]

theorem State.codeDsym_of_context (hmode : s.ch[c].mode = .dec) (hkind : s.slot[m].table.kind = 2)
    (h : s.slot[m].table.alphabet ≤ contextOf x s.slot[m]) : s.codeDsym c m x = .failed .badContext := by
  simp only [State.codeDsym, State.checkSym_of hmode hkind, if_pos h]

theorem State.codeEstream_of_outside (hmode : s.ch[c].mode = .enc) (hkind : s.slot[m].table.kind = 2)
    (h : s.dmem.size < s.argNat 0 + s.argNat 1) : s.codeEstream c m = .failed .outOfBounds := by
  simp only [State.codeEstream, State.checkSym_of hmode hkind, if_pos (Dmem.not_inRange_iff.2 h)]

theorem State.codeEstream_of_byte (hmode : s.ch[c].mode = .enc) (hkind : s.slot[m].table.kind = 2)
    (hin : s.argNat 0 + s.argNat 1 ≤ s.dmem.size)
    (h : ∃ y ∈ s.dmem.readBytes (s.argNat 0) (s.argNat 1), s.slot[m].table.alphabet ≤ y.toNat) :
    s.codeEstream c m = .failed .badSourceByte := by
  simp only [State.codeEstream, State.checkSym_of hmode hkind, Dmem.inRange_iff.2 hin, not_true_eq_false, if_false,
    List.any_eq_true, decide_eq_true_eq, if_pos h]

theorem State.codeDstream_of_outside (hmode : s.ch[c].mode = .dec) (hkind : s.slot[m].table.kind = 2)
    (h : s.dmem.size < s.argNat 0 + s.argNat 1) : s.codeDstream c m = .failed .outOfBounds := by
  simp only [State.codeDstream, State.checkSym_of hmode hkind, if_pos (Dmem.not_inRange_iff.2 h)]

end

/-- Settles O44: each command's body by its first check that fails. -/
theorem codingChecksInTheirOrder : Obligations.CodingChecksInTheirOrder := by
  intro s c m x b j fails kind n ctx out
  have hfails {σ : Type} {i : Instr} {put : σ → State} {body : Body σ} {e : Cause} (hb : body = .failed e)
      (hexec : exec i s = s.finishBody c put body) : fails i e := exists_failedUntouched_of_body hexec hb
  refine ⟨fun hmode => ?_, fun hmode => ?_, fun hmode => ?_, fun hmode => ?_⟩
  · have hbin : s.checkBin c m .enc = some .channelMode := State.checkBin_of_mode_ne hmode
    have hsym : s.checkSym c m .enc = some .channelMode := State.checkSym_of_mode_ne hmode
    have hflush : s.codeEflush c = .failed .channelMode := if_pos hmode
    simp only [List.forall_mem_cons]
    exact ⟨hfails (State.codeEbit_of_check hbin) rfl, hfails (State.codeEsym_of_check hsym) rfl,
      hfails (State.codeEgamma_of_check hbin) rfl, hfails (State.codeEstream_of_check hsym) rfl, hfails hflush rfl,
      nofun⟩
  · have hbin : s.checkBin c m .dec = some .channelMode := State.checkBin_of_mode_ne hmode
    have hsym : s.checkSym c m .dec = some .channelMode := State.checkSym_of_mode_ne hmode
    simp only [List.forall_mem_cons]
    exact ⟨hfails (State.codeDbit_of_check hbin) rfl, hfails (State.codeDsym_of_check hsym) rfl,
      hfails (State.codeDgamma_of_check hbin) rfl, hfails (State.codeDstream_of_check hsym) rfl, nofun⟩
  · exact ⟨
      fun hkind => ⟨hfails (State.codeEbit_of_check (State.checkBin_of_kind_ne hmode hkind)) rfl,
        hfails (State.codeEgamma_of_check (State.checkBin_of_kind_ne hmode hkind)) rfl⟩,
      fun hkind => ⟨hfails (State.codeEsym_of_check (State.checkSym_of_kind_ne hmode hkind)) rfl,
        hfails (State.codeEstream_of_check (State.checkSym_of_kind_ne hmode hkind)) rfl⟩,
      fun hkind h => hfails (State.codeEbit_of_context hmode hkind h) rfl,
      fun hkind h => hfails (State.codeEgamma_of_zero hmode hkind h) rfl,
      fun hkind h => hfails (State.codeEsym_of_context hmode hkind h) rfl,
      fun hkind hctx h => hfails (State.codeEsym_of_symbol hmode hkind hctx h) rfl,
      fun hkind h => hfails (State.codeEstream_of_outside hmode hkind h) rfl,
      fun hkind hin h => hfails (State.codeEstream_of_byte hmode hkind (Nat.le_of_not_lt hin) h) rfl⟩
  · exact ⟨
      fun hkind => ⟨hfails (State.codeDbit_of_check (State.checkBin_of_kind_ne hmode hkind)) rfl,
        hfails (State.codeDgamma_of_check (State.checkBin_of_kind_ne hmode hkind)) rfl⟩,
      fun hkind => ⟨hfails (State.codeDsym_of_check (State.checkSym_of_kind_ne hmode hkind)) rfl,
        hfails (State.codeDstream_of_check (State.checkSym_of_kind_ne hmode hkind)) rfl⟩,
      fun hkind h => hfails (State.codeDbit_of_context hmode hkind h) rfl,
      fun hkind h => hfails (State.codeDsym_of_context hmode hkind h) rfl,
      fun hkind h => hfails (State.codeDstream_of_outside hmode hkind h) rfl⟩

end Sys2Proof.Machine
end

section
/-!
The encoding runs (O38, O40): what a run of encoding steps on the chain leaves, said once for bits and symbols, then
`RC_EGAMMA` and `RC_ESTREAM`.
-/

namespace Sys2Proof.Machine

/-! ### Runs of steps -/

/-- Steps that end with a value, one after another, where `R` says how a step on one element can end. -/
def Coder.Runs {β : Type} (R : β → Option Cause → Coder → Coder → Prop) : List β → Coder → Coder → Prop
  | [], k, u => u = k
  | b :: rest, k, u => ∃ k', R b none k k' ∧ Coder.Runs R rest k' u

theorem Coder.encodesBits_iff_runs {bits : List Bool} {k u : Coder} : Coder.EncodesBits bits k u
    ↔ Coder.Runs (fun b e k u => k.EncodesBit k.slot.last.toNat b e u) bits k u := by
  induction bits generalizing k with
  | nil => exact Iff.rfl
  | cons b bits ih => exact exists_congr fun _ => and_congr_right fun _ => ih

theorem Coder.encodesSyms_iff_runs {xs : List Byte} {k u : Coder} : Coder.EncodesSyms xs k u
    ↔ Coder.Runs (fun j e k u => k.EncodesSym k.slot.last.toNat j.toNat e u) xs k u := by
  induction xs generalizing k with
  | nil => exact Iff.rfl
  | cons j xs ih => exact exists_congr fun _ => and_congr_right fun _ => ih

theorem Coder.decodesBits_iff_runs {bits : List Bool} {k u : Coder} : Coder.DecodesBits bits k u
    ↔ Coder.Runs (fun b e k u => k.DecodesBit k.slot.last.toNat b e u) bits k u := by
  induction bits generalizing k with
  | nil => exact Iff.rfl
  | cons b bits ih => exact exists_congr fun _ => and_congr_right fun _ => ih

/-- What coding steps do from `k` to `u`, each a `Narrow` and a `Renorm` that ended with a value. -/
structure Coder.Progress (size kind n : Nat) (k u : Coder) : Prop where
  ready : u.Ready size kind n
  moves : k.str.Moves u.str
  puts : k.str.Puts u.str
  mem : k.str.ch.mode = .dec → u.str.mem = k.str.mem

/-- The steps that `R` describes are coding steps: a `Narrow` and a `Renorm` each, and what ends with a value is ready
for the next one. -/
structure Coder.IsStep {β : Type} (size kind n : Nat) (R : β → Option Cause → Coder → Coder → Prop) : Prop where
  codes : ∀ {b e k u}, R b e k u → ∃ iv, k.str.Codes iv e u.str
  ready : ∀ {b k u}, k.Ready size kind n → R b none k u → u.Ready size kind n

section
variable {size kind n : Nat} {k v u : Coder}

theorem Coder.Ready.progress (h : k.Ready size kind n) : k.Progress size kind n k :=
  ⟨h, .refl _, .refl _, fun _ => rfl⟩

theorem Coder.Progress.trans (h : k.Progress size kind n v) (h' : v.Progress size kind n u) :
    k.Progress size kind n u where
  ready := h'.ready
  moves := h.moves.trans h'.moves
  puts := h.puts.trans h'.puts
  mem hm := (h'.mem (h.moves.mode.trans hm)).trans (h.mem hm)

section
variable {β : Type} {R : β → Option Cause → Coder → Coder → Prop} {b : β} {bs : List β} {e : Cause}

theorem Coder.IsStep.progress (hR : Coder.IsStep size kind n R) (hk : k.Ready size kind n) (h : R b none k u) :
    k.Progress size kind n u := by
  obtain ⟨iv, hcodes⟩ := hR.codes h
  exact ⟨hR.ready hk h, hcodes.moves, hcodes.puts, hcodes.mem_of_dec⟩

theorem Coder.Runs.progress (h : Coder.Runs R bs k u) (hR : Coder.IsStep size kind n R) (hk : k.Ready size kind n) :
    k.Progress size kind n u := by
  induction bs generalizing k with
  | nil =>
    obtain rfl : u = k := h
    exact hk.progress
  | cons b bs ih =>
    obtain ⟨v, hstep, hrest⟩ := h
    have hv := hR.progress hk hstep
    exact hv.trans (ih hrest hv.ready)

/-- Where the step after a run raises, the window is used up, and what the run did before it is kept. -/
theorem Coder.Progress.raised (h : k.Progress size kind n v) (hR : Coder.IsStep size kind n R)
    (hraised : R b (some e) v u) : k.str.Puts u.str ∧ u.str.ch.ptr = k.str.ch.limit
      ∧ (k.str.ch.mode = .enc → e = .windowFull)
      ∧ (k.str.ch.mode = .dec → e = .streamExhausted ∧ u.str.mem = k.str.mem) := by
  obtain ⟨iv, hcodes⟩ := hR.codes hraised
  obtain ⟨hptr, henc, hdec⟩ := hcodes.raised h.ready.str.placed
  have hmode := h.moves.mode
  exact ⟨h.puts.trans hcodes.puts, hptr.trans h.moves.limit, fun hm => henc (hmode.trans hm),
    fun hm => ⟨hdec (hmode.trans hm), (hcodes.mem_of_dec (hmode.trans hm)).trans (h.mem hm)⟩⟩

end

/-! ### Encoding commands with a run -/

/-- `run` is the machine's run over steps that `R` describes, the legal ones of which end within three bytes. -/
structure EncoderRun {β : Type} (size kind n : Nat) (legal : β → Prop) (R : β → Option Cause → Coder → Coder → Prop)
    (run : List β → Coder → Coded Coder Unit) : Prop where
  step : Coder.IsStep size kind n R
  nil : ∀ k, run [] k = .ok () k
  cons : ∀ {b e k u} (rest : List β), k.Ready size kind n → R b e k u →
    run (b :: rest) k = (Coded.ended e () u).bind fun _ v => run rest v
  within : ∀ {b k}, legal b → k.Ready size kind n → 3 ≤ k.str.ch.room →
    ∃ u, R b none k u ∧ u.str.ch.ptr.toNat ≤ k.str.ch.ptr.toNat + 3

section
variable {β : Type} {legal : β → Prop} {R : β → Option Cause → Coder → Coder → Prop}
  {run : List β → Coder → Coded Coder Unit} {bs done rest : List β} {b : β} {e : Cause}

theorem EncoderRun.append (h : EncoderRun size kind n legal R run) (hk : k.Ready size kind n)
    (hdone : Coder.Runs R done k u) (rest : List β) : run (done ++ rest) k = run rest u := by
  induction done generalizing k with
  | nil =>
    obtain rfl : u = k := hdone
    rfl
  | cons b done ih =>
    obtain ⟨v, hstep, hdone⟩ := hdone
    rw [List.cons_append, h.cons _ hk hstep]
    exact ih (h.step.ready hk hstep) hdone

/-- With three bytes of room for each step the run ends with a value (R121). -/
theorem EncoderRun.exists_runs (h : EncoderRun size kind n legal R run) (hk : k.Ready size kind n)
    (hlegal : ∀ b ∈ bs, legal b) (hroom : 3 * bs.length ≤ k.str.ch.room) :
    ∃ u, Coder.Runs R bs k u ∧ u.str.ch.ptr.toNat ≤ k.str.ch.ptr.toNat + 3 * bs.length := by
  induction bs generalizing k with
  | nil => exact ⟨k, rfl, Nat.le_refl _⟩
  | cons b bs ih =>
    obtain ⟨hb, hlegal⟩ := List.forall_mem_cons.1 hlegal
    rw [List.length_cons] at hroom ⊢
    obtain ⟨v, hstep, hle⟩ := h.within hb hk (by omega)
    have hv := h.step.progress hk hstep
    have hlimit := congrArg BitVec.toNat hv.moves.limit
    obtain ⟨u, hrun, hle'⟩ := ih hv.ready hlegal (by simp only [Channel.room] at hroom ⊢; omega)
    exact ⟨u, ⟨v, hstep, hrun⟩, by omega⟩

variable {i : Instr} {s : State} {c : ChanNo} {m : SlotNo}

/-- A command over a run that ends with a value completes, with the bytes shifted out and nothing else of DMEM
changed. -/
theorem EncoderRun.completes (h : EncoderRun size kind n legal R run) (hk : (s.coder c m).Ready size kind n)
    (hexec : exec i s = s.finishBody c (s.putCoder c m) (.ran (run bs (s.coder c m)).noResult))
    (hrun : Coder.Runs R bs (s.coder c m) u) :
    ∃ t, exec i s = .next t ∧ s.SucceededCoding t c m u ∧ t.res = s.res
      ∧ s.dmem.SameOutside t.dmem [shifted s t c] := by
  have hprogress := hrun.progress h.step hk
  have hvalue : run bs (s.coder c m) = .ok () u := by
    rw [← List.append_nil bs, h.append hk hrun, h.nil]
  rw [hvalue] at hexec
  obtain ⟨t, ht, hdone, hres⟩ := exists_succeededCoding hexec hprogress.moves
  obtain ⟨-, hcoder, -⟩ := id hdone
  obtain ⟨hch, -, hmem⟩ := State.of_coder_eq hcoder
  exact ⟨t, ht, hdone, hres, State.sameOutside_shifted hprogress.puts (congrArg Channel.ptr hch) hmem⟩

theorem EncoderRun.completesWithin (h : EncoderRun size kind n legal R run) (hk : (s.coder c m).Ready size kind n)
    (hexec : exec i s = s.finishBody c (s.putCoder c m) (.ran (run bs (s.coder c m)).noResult))
    (hlegal : ∀ b ∈ bs, legal b) (hroom : 3 * bs.length ≤ s.ch[c].room) :
    ∃ t u, exec i s = .next t ∧ Coder.Runs R bs (s.coder c m) u ∧ s.SucceededCoding t c m u ∧ t.res = s.res
      ∧ t.ch[c].ptr.toNat ≤ s.ch[c].ptr.toNat + 3 * bs.length ∧ s.dmem.SameOutside t.dmem [shifted s t c] := by
  obtain ⟨u, hrun, hle⟩ := h.exists_runs hk hlegal hroom
  obtain ⟨t, ht, hdone, hres, hmem⟩ := h.completes hk hexec hrun
  obtain ⟨-, hcoder, -⟩ := id hdone
  obtain ⟨hch, -⟩ := State.of_coder_eq hcoder
  exact ⟨t, u, ht, hrun, hdone, hres, by rw [hch]; exact hle, hmem⟩

/-- A command over a run that raises at one of its steps has filled the window, with the steps before it done. -/
theorem EncoderRun.fillsTheWindow (h : EncoderRun size kind n legal R run) (hk : (s.coder c m).Ready size kind n)
    (hmode : s.ch[c].mode = .enc)
    (hexec : exec i s = s.finishBody c (s.putCoder c m) (.ran (run bs (s.coder c m)).noResult))
    (hbs : bs = done ++ b :: rest) (hdone : Coder.Runs R done (s.coder c m) v) (hraised : R b (some e) v u) :
    ∃ t, exec i s = .next t ∧ e = .windowFull ∧ s.FailedCoding t c m .windowFull u ∧ t.ch[c].ptr = s.ch[c].limit
      ∧ s.dmem.SameOutside t.dmem [shifted s t c] := by
  have hprogress := hdone.progress h.step hk
  obtain ⟨hputs, hptr, henc, -⟩ := hprogress.raised h.step hraised
  obtain rfl := henc hmode
  rw [hbs, h.append hk hdone, h.cons rest hprogress.ready hraised] at hexec
  obtain ⟨t, ht, hfailed⟩ := exists_failedCoding hexec
  obtain ⟨-, hch, -, hmem, -⟩ := id hfailed
  have hch := congrArg Channel.ptr hch
  exact ⟨t, ht, rfl, hfailed, hch.trans hptr, State.sameOutside_shifted hputs hch hmem⟩

end
end

/-! ### `RC_EGAMMA` -/

section
variable {size n : Nat} {s : State} {c : ChanNo} {m : SlotNo}

theorem Coder.isStep_encodesBit :
    Coder.IsStep size 1 n fun (b : Bool) e k u => k.EncodesBit k.slot.last.toNat b e u where
  codes := fun ⟨_, _, hcodes, _⟩ => ⟨_, hcodes⟩
  ready hk h := hk.of_encodesBit hk.last_lt_two h

theorem encoderRun_encBits : EncoderRun size 1 n (fun _ => True)
    (fun (b : Bool) e k u => k.EncodesBit k.slot.last.toNat b e u) Coder.encBits where
  step := Coder.isStep_encodesBit
  nil _ := rfl
  cons _ _ h := by rw [Coder.encBits, h.encBit]
  within {b _} _ hk hroom := hk.exists_encodesBit hk.last_lt_two b hroom

theorem exec_rcEgamma_of_checks (hmode : s.ch[c].mode = .enc) (hkind : s.slot[m].table.kind = 1)
    (hpos : 1 ≤ s.argNat 0) : exec (.rcEgamma c m) s
      = s.finishBody c (s.putCoder c m) (.ran ((s.coder c m).encGamma (s.argNat 0)).noResult) := by
  simp only [exec, execRcEgamma, State.codeEgamma, State.checkBin_of hmode hkind, if_neg (show s.argNat 0 ≠ 0 by omega)]

@[simp] theorem lowBits_length (v k : Nat) : (lowBits v k).length = k := by
  induction k with
  | zero => rfl
  | succ k ih => rw [lowBits, List.length_cons, ih]

theorem lowBits_getElem? (v : Nat) {k i : Nat} (hi : i < k) : (lowBits v k)[i]? = some (v.testBit (k - 1 - i)) := by
  induction k generalizing i with
  | zero => omega
  | succ k ih =>
    cases i with
    | zero => rfl
    | succ i =>
      rw [lowBits, List.getElem?_cons_succ, ih (by omega)]
      congr 2
      omega

theorem gammaBits_length (v : Nat) : (gammaBits v).length = 2 * v.log2 + 1 := by
  simp only [gammaBits, List.length_append, List.length_replicate, List.length_cons, lowBits_length]
  omega

/-- The bits of a gamma code by their position (R126). -/
theorem gammaBits_eq (v : Nat) : (gammaBits v).take v.log2 = List.replicate v.log2 true
    ∧ (gammaBits v)[v.log2]? = some false
    ∧ ∀ i, i < v.log2 → (gammaBits v)[v.log2 + 1 + i]? = some (v.testBit (v.log2 - 1 - i)) := by
  have hlen : (List.replicate v.log2 true).length = v.log2 := List.length_replicate
  refine ⟨List.take_left' hlen, ?_, fun i hi => ?_⟩
  · rw [gammaBits, List.getElem?_append_right hlen.le, hlen, Nat.sub_self]
    rfl
  · rw [gammaBits, List.getElem?_append_right (by omega), hlen, show v.log2 + 1 + i - v.log2 = i + 1 by omega,
      List.getElem?_cons_succ, lowBits_getElem? v hi]

end

/-- Settles O38: the bits of the code, then the run that encodes them. -/
theorem egammaCompletesOrFillsTheWindow : Obligations.EgammaCompletesOrFillsTheWindow := by
  intro s c m v bits k hs hmode hkind hpos
  have hk := hs.coder_ready (.inl hmode) hkind (m := m)
  have hexec := exec_rcEgamma_of_checks hmode hkind hpos
  have hrun := encoderRun_encBits (size := s.dmem.size) (n := s.slot[m].table.alphabet)
  simp only [Coder.encodesBits_iff_runs]
  refine ⟨?_, fun hroom => hrun.completesWithin hk hexec (fun _ _ => trivial) hroom,
    fun u hu => hrun.completes hk hexec hu, fun done rest b k' e u hbits hdone hraised =>
      hrun.fillsTheWindow hk hmode hexec hbits hdone hraised⟩
  have hlog : v.log2 < 32 := (Nat.log2_lt (by omega)).2 (s.argNat_lt 0)
  exact ⟨v.log2, by omega, Nat.log2_self_le (by omega), Nat.lt_log2_self, gammaBits_length v, gammaBits_eq v⟩

/-! ### `RC_ESTREAM` -/

section
variable {size n : Nat} {s : State} {c : ChanNo} {m : SlotNo}

theorem Coder.isStep_encodesSym :
    Coder.IsStep size 2 n fun (j : Byte) e k u => k.EncodesSym k.slot.last.toNat j.toNat e u where
  codes := fun ⟨_, _, _, _, hcodes, _⟩ => ⟨_, hcodes⟩
  ready hk h := hk.of_encodesSym (hk.last_lt (by decide)) h

theorem encoderRun_encSyms : EncoderRun size 2 n (fun j => j.toNat < n)
    (fun (j : Byte) e k u => k.EncodesSym k.slot.last.toNat j.toNat e u) Coder.encSyms where
  step := Coder.isStep_encodesSym
  nil _ := rfl
  cons _ hk h := by rw [Coder.encSyms, h.encSym hk.slot]
  within hj hk hroom := hk.exists_encodesSym (hk.last_lt (by decide)) hj hroom

theorem exec_rcEstream_of_checks (hmode : s.ch[c].mode = .enc) (hkind : s.slot[m].table.kind = 2)
    (hin : s.argNat 0 + s.argNat 1 ≤ s.dmem.size)
    (hxs : ∀ b ∈ s.dmem.readBytes (s.argNat 0) (s.argNat 1), b.toNat < s.slot[m].table.alphabet) :
    exec (.rcEstream c m) s = s.finishBody c (s.putCoder c m)
      (.ran (Coder.encSyms (s.dmem.readBytes (s.argNat 0) (s.argNat 1)) (s.coder c m)).noResult) := by
  have hany : ¬ ∃ b ∈ s.dmem.readBytes (s.argNat 0) (s.argNat 1), s.slot[m].table.alphabet ≤ b.toNat :=
    fun ⟨b, hb, hle⟩ => (hxs b hb).not_ge hle
  simp only [exec, execRcEstream, State.codeEstream, State.checkSym_of hmode hkind, Dmem.inRange_iff.2 hin,
    not_true_eq_false, if_false, List.any_eq_true, decide_eq_true_eq, if_neg hany]

/-- A symbol's step makes it the order-1 context (R104). -/
theorem Slot.SymUpdated.last_eq {k u : Slot} {ctx : Nat} {j : Byte} (h : k.SymUpdated u ctx j.toNat) : u.last = j := by
  obtain ⟨hlast, -⟩ := h
  rw [hlast, BitVec.ofNat_toNat, BitVec.setWidth_eq]

theorem Coder.EncodesSyms.last {xs : List Byte} {k u : Coder} (h : Coder.EncodesSyms xs k u) :
    u.slot.last = xs.getLastD k.slot.last := by
  induction xs generalizing k with
  | nil =>
    obtain rfl : u = k := h
    rfl
  | cons j xs ih =>
    obtain ⟨v, ⟨_, _, -, -, -, hslot⟩, hrest⟩ := h
    rw [ih hrest, hslot.last_eq, List.getLastD_cons]

end

/-- Settles O40: the run that encodes the source bytes. -/
theorem estreamCompletesOrFillsTheWindow : Obligations.EstreamCompletesOrFillsTheWindow := by
  intro s c m xs k hs hmode hkind hin hxs
  have hk := hs.coder_ready (.inl hmode) hkind (m := m)
  have hexec := exec_rcEstream_of_checks hmode hkind hin hxs
  have hrun := encoderRun_encSyms (size := s.dmem.size) (n := s.slot[m].table.alphabet)
  have hlen : xs.length = s.argNat 1 := Dmem.readBytes_length ..
  refine ⟨fun hroom => ?_, fun u hu => hrun.completes hk hexec (Coder.encodesSyms_iff_runs.1 hu),
    fun done rest j k' e u hsplit hdone hraised =>
      hrun.fillsTheWindow hk hmode hexec hsplit (Coder.encodesSyms_iff_runs.1 hdone) hraised⟩
  obtain ⟨t, u, ht, hu, hdone, hres, hptr, hmem⟩ := hrun.completesWithin hk hexec hxs (by rw [hlen]; exact hroom)
  have hu := Coder.encodesSyms_iff_runs.2 hu
  obtain ⟨-, hcoder, -⟩ := id hdone
  obtain ⟨-, hslot, -⟩ := State.of_coder_eq hcoder
  exact ⟨t, u, ht, hu, hdone, hres, hslot ▸ hu.last, hlen ▸ hptr, hmem⟩

end Sys2Proof.Machine
end

section
/-!
The decoding runs (O39, O41): where a run of `DecGamma` or of decoded symbols stops, then `RC_DGAMMA` and `RC_DSTREAM`.
-/

namespace Sys2Proof.Machine

/-! ### `RC_DGAMMA` -/

section
variable {size n : Nat} {d e u : Coder} {bits : List Bool}

theorem Coder.isStep_decodesBit :
    Coder.IsStep size 1 n fun (b : Bool) e k u => k.DecodesBit k.slot.last.toNat b e u where
  codes := fun ⟨_, _, _, _, hcodes, _⟩ => ⟨_, hcodes⟩
  ready hk h := hk.of_decodesBit hk.last_lt_two h

theorem Coder.DecodesBits.progress (h : Coder.DecodesBits bits d e) (hd : d.Ready size 1 n) : d.Progress size 1 n e :=
  (Coder.decodesBits_iff_runs.1 h).progress Coder.isStep_decodesBit hd

/-- Continue bits, counted by the machine (R127). -/
theorem Coder.DecodesBits.decContinue_replicate {count left i : Nat}
    (h : Coder.DecodesBits (List.replicate count true) d e) (hd : d.Ready size 1 n) :
    Coder.decContinue (count + left) i d = Coder.decContinue left (i + count) e := by
  induction count generalizing i d with
  | zero =>
    obtain rfl : e = d := h
    rw [Nat.zero_add, Nat.add_zero]
  | succ count ih =>
    obtain ⟨d', hbit, hrest⟩ := h
    rw [Nat.add_right_comm, Coder.decContinue, hbit.decBit hd.str.interval,
      show i + (count + 1) = i + 1 + count by omega]
    exact ih hrest (hd.of_decodesBit hd.last_lt_two hbit)

/-- The machine's low bits go on from where some of them led (R127). -/
theorem Coder.DecodesBits.exists_decLow (h : Coder.DecodesBits bits d e) (hd : d.Ready size 1 n) (left w : Nat) :
    ∃ w', Coder.decLow (bits.length + left) w d = Coder.decLow left w' e := by
  induction bits generalizing w d with
  | nil =>
    obtain rfl : e = d := h
    exact ⟨w, by rw [List.length_nil, Nat.zero_add]⟩
  | cons b bits ih =>
    obtain ⟨d', hbit, hrest⟩ := h
    rw [List.length_cons, Nat.add_right_comm, Coder.decLow, hbit.decBit hd.str.interval]
    exact ih hrest (hd.of_decodesBit hd.last_lt_two hbit) _

/-- Inside a gamma code one stands among its continue bits, or among its low bits (R126). -/
theorem inside_gammaBits {v : Nat} (h : bits <+: gammaBits v) (hne : bits ≠ gammaBits v) :
    (∃ i, i ≤ v.log2 ∧ bits = List.replicate i true)
      ∨ ∃ low, low.length < v.log2 ∧ bits = List.replicate v.log2 true ++ false :: low := by
  obtain ⟨rest, hrest⟩ := h
  obtain ⟨more, hmore, -⟩ | ⟨after, rfl, hafter⟩ := List.append_eq_append_iff.1 hrest
  · obtain ⟨hlen, heq, -⟩ := List.append_eq_replicate_iff.1 hmore.symm
    exact .inl ⟨_, Nat.le.intro hlen, heq⟩
  · cases after with
    | nil => exact .inl ⟨_, Nat.le_refl _, List.append_nil _⟩
    | cons b low =>
      obtain ⟨rfl, hlow⟩ := List.cons.inj hafter
      refine .inr ⟨low, ?_, rfl⟩
      have hlen : (lowBits v v.log2).length = (low ++ rest).length := congrArg List.length hlow
      rw [lowBits_length, List.length_append] at hlen
      have hpos : rest.length ≠ 0 := fun hnil => hne <| by
        rw [← hrest, List.eq_nil_of_length_eq_zero hnil, List.append_nil]
      omega

/-- A raise inside a gamma code is the raise of `DecGamma` (R127). -/
theorem Coder.DecodesBits.decGamma_raised {v : Nat} {c : Cause} (h : Coder.DecodesBits bits d e) (hd : d.Ready size 1 n)
    (hpos : 1 ≤ v) (hv : v < 2 ^ 32) (hinside : bits <+: gammaBits v) (hne : bits ≠ gammaBits v)
    (hraised : e.decBit e.slot.last.toNat = .raised c u) : d.decGamma = .raised c u := by
  have hlog : v.log2 < gammaMaxK + 1 := (Nat.log2_lt (by omega)).2 hv
  obtain ⟨i, hi, rfl⟩ | ⟨low, hlow, rfl⟩ := inside_gammaBits hinside hne
  · obtain ⟨left, hleft⟩ : ∃ left, gammaMaxK + 1 = i + (left + 1) := ⟨gammaMaxK - i, by omega⟩
    rw [Coder.decGamma, hleft, h.decContinue_replicate hd, Coder.decContinue, hraised]
    rfl
  · obtain ⟨d', hrun, hrest, hready⟩ := Coder.DecodesBits.decContinue (i := 0) h hd hlog
    obtain ⟨left, hleft⟩ : ∃ left, v.log2 = low.length + (left + 1) := ⟨v.log2 - low.length - 1, by omega⟩
    obtain ⟨w, hw⟩ := hrest.exists_decLow hready (left + 1) 1
    rw [Coder.decGamma, hrun, Coded.bind_ok_eq, Nat.zero_add, hleft, hw, Coder.decLow, hraised]
    rfl

/-- 32 continue bits are the raise of `DecGamma` itself (R127). -/
theorem Coder.DecodesBits.decGamma_overrun (h : Coder.DecodesBits (List.replicate 32 true) d e)
    (hd : d.Ready size 1 n) : d.decGamma = .raised .gammaOverrun e := by
  have hrun := h.decContinue_replicate hd (left := 0) (i := 0)
  rw [Coder.decGamma, show gammaMaxK + 1 = 32 + 0 from rfl, hrun]
  rfl

variable {s : State} {c : ChanNo} {m : SlotNo}

theorem exec_rcDgamma_of_checks (hmode : s.ch[c].mode = .dec) (hkind : s.slot[m].table.kind = 1) :
    exec (.rcDgamma c m) s = s.finishBody c (s.putCoder c m)
      (.ran ((s.coder c m).decGamma.bind fun v k => .ok [(0, word v)] k)) := by
  simp only [exec, execRcDgamma, State.codeDgamma, State.checkBin_of hmode hkind]

/-- `RC_DGAMMA` whose decoding raises over a DMEM it did not write. -/
theorem exists_failedCoding_rcDgamma {r : Cause} (hmode : s.ch[c].mode = .dec) (hkind : s.slot[m].table.kind = 1)
    (hrun : (s.coder c m).decGamma = .raised r u) (hmem : u.str.mem = s.dmem) :
    ∃ t, exec (.rcDgamma c m) s = .next t ∧ s.FailedCoding t c m r u ∧ t.dmem = s.dmem := by
  have hexec := exec_rcDgamma_of_checks hmode hkind
  rw [hrun] at hexec
  obtain ⟨t, ht, hfailed⟩ := exists_failedCoding hexec
  obtain ⟨-, -, -, htmem, -⟩ := id hfailed
  exact ⟨t, ht, hfailed, htmem.trans hmem⟩

end

/-- Settles O39: a whole code, 32 continue bits, or a raise inside a code. -/
theorem dgammaCompletesOrRaisesDecode : Obligations.DgammaCompletesOrRaisesDecode := by
  intro s c m k fails hs hmode hkind
  have hk := hs.coder_ready (.inr hmode) hkind (m := m)
  refine ⟨fun v u hpos hv hu => ?_, fun u hu => ?_, fun v bits k' hpos hv hinside hne hk' => ⟨fun b e u hraised => ?_,
    fun hcorrupt => ?_⟩⟩
  · have hprogress := hu.progress hk
    have hexec := exec_rcDgamma_of_checks hmode hkind
    rw [hu.decGamma hk hpos hv] at hexec
    obtain ⟨t, ht, hdone, hres⟩ := exists_succeededCoding hexec hprogress.moves
    obtain ⟨-, hcoder, -⟩ := id hdone
    obtain ⟨-, -, hmem⟩ := State.of_coder_eq hcoder
    exact ⟨t, ht, hdone, hres, hmem.trans (hprogress.mem hmode)⟩
  · exact exists_failedCoding_rcDgamma hmode hkind (hu.decGamma_overrun hk) ((hu.progress hk).mem hmode)
  · have hprogress := hk'.progress hk
    obtain ⟨-, -, -, hdec⟩ := hprogress.raised Coder.isStep_decodesBit hraised
    obtain ⟨rfl, hmem⟩ := hdec hmode
    have hrun := hk'.decGamma_raised hk hpos hv hinside hne (hraised.decBit hprogress.ready.str.interval)
    exact ⟨rfl, exists_failedCoding_rcDgamma hmode hkind hrun hmem⟩
  · have hprogress := hk'.progress hk
    obtain ⟨p, hp, -⟩ := hprogress.ready.slot.prob hprogress.ready.last_lt_two
    have hrun := hk'.decGamma_raised hk hpos hv hinside hne
      (Coder.decBit_corrupt hp hprogress.ready.str.interval hcorrupt)
    exact exists_failedCoding_rcDgamma hmode hkind hrun (hprogress.mem hmode)

/-! ### `RC_DSTREAM` -/

section
variable {size n a : Nat} {d e u : Coder} {xs : List Byte}

theorem Coder.isStep_decodesSym :
    Coder.IsStep size 2 n fun (j : Nat) e k u => k.DecodesSym k.slot.last.toNat j e u where
  codes := fun ⟨_, _, _, _, _, _, hcodes, _⟩ => ⟨_, hcodes⟩
  ready hk h := hk.of_decodesSym (hk.last_lt (by decide)) h

/-- What decoded symbols, written as they come, leave of a coder (R125, R137). -/
structure Coder.Received (size n : Nat) (xs : List Byte) (d e : Coder) : Prop where
  ready : e.Ready size 2 n
  mode : e.str.ch.mode = d.str.ch.mode
  base : e.str.ch.base = d.str.ch.base
  limit : e.str.ch.limit = d.str.ch.limit
  legal : ∀ b ∈ xs, b.toNat < n
  last : e.slot.last = xs.getLastD d.slot.last

theorem Coder.DecodesSyms.received (h : Coder.DecodesSyms xs a d e) (hd : d.Ready size 2 n) :
    Coder.Received size n xs d e := by
  induction xs generalizing a d with
  | nil =>
    obtain rfl : e = d := h
    exact ⟨hd, rfl, rfl, rfl, nofun, rfl⟩
  | cons j xs ih =>
    obtain ⟨d', hsym, hrest⟩ := h
    have hprogress := Coder.isStep_decodesSym.progress hd hsym
    obtain ⟨row, iv, hrow, hiv, -, -, -, hslot⟩ := hsym
    obtain ⟨hj, -⟩ := (hd.slot.row_ok hrow).interval_legal hiv
    obtain ⟨hready, hmode, hbase, hlimit, hlegal, hlast⟩ := ih hrest (hprogress.ready.putByte a j)
    refine ⟨hready, hmode.trans hprogress.moves.mode, hbase.trans hprogress.moves.base,
      hlimit.trans hprogress.moves.limit, List.forall_mem_cons.2 ⟨hj, hlegal⟩, ?_⟩
    rw [hlast, List.getLastD_cons, Coder.putByte, hslot.last_eq]

/-- The machine's symbols go on from where some of them led (R137). -/
theorem Coder.DecodesSyms.decSyms_add (h : Coder.DecodesSyms xs a d e) (hd : d.Ready size 2 n) (left : Nat) :
    Coder.decSyms (xs.length + left) a d = Coder.decSyms left (a + xs.length) e := by
  induction xs generalizing a d with
  | nil =>
    obtain rfl : e = d := h
    rw [List.length_nil, Nat.zero_add, Nat.add_zero]
  | cons j xs ih =>
    obtain ⟨d', hsym, hrest⟩ := h
    have hj : BitVec.ofNat 8 j.toNat = j := by rw [BitVec.ofNat_toNat, BitVec.setWidth_eq]
    rw [List.length_cons, Nat.add_right_comm, Coder.decSyms, hsym.decSym hd.slot hd.str.interval, Coded.ended,
      Coded.bind_ok_eq, hj, Nat.add_comm xs.length 1, ← Nat.add_assoc]
    exact ih hrest ((hd.of_decodesSym (hd.last_lt (by decide)) hsym).putByte a j)

variable {s : State} {c : ChanNo} {m : SlotNo}

theorem exec_rcDstream_of_checks (hmode : s.ch[c].mode = .dec) (hkind : s.slot[m].table.kind = 2)
    (hin : s.argNat 0 + s.argNat 1 ≤ s.dmem.size) : exec (.rcDstream c m) s = s.finishBody c (s.putCoder c m)
      (.ran (Coder.decSyms (s.argNat 1) (s.argNat 0) (s.coder c m)).noResult) := by
  simp only [exec, execRcDstream, State.codeDstream, State.checkSym_of hmode hkind, Dmem.inRange_iff.2 hin,
    not_true_eq_false, if_false]

/-- Symbols at a destination in DMEM are all that the run writes. -/
theorem Coder.DecodesSyms.after (h : Coder.DecodesSyms xs a d e) (hmode : d.str.ch.mode = .dec)
    (hfit : a + xs.length ≤ d.str.mem.size) :
    d.str.mem.After [(a, xs)] e.str.mem ∧ d.str.mem.SameOutside e.str.mem [(a, xs.length)] :=
  h.mem hmode ▸ ⟨Dmem.after_writeRanges (l := [(a, xs)]) (List.forall_mem_singleton.2 hfit),
    d.str.mem.sameOutside_writeRanges [(a, xs)]⟩

/-- `RC_DSTREAM` that raises at the symbol after some decoded ones: these are written, and no other byte. -/
theorem exists_failedCoding_rcDstream {r : Cause} (hs : s.Inv) (hmode : s.ch[c].mode = .dec)
    (hkind : s.slot[m].table.kind = 2) (hin : s.argNat 0 + s.argNat 1 ≤ s.dmem.size)
    (hxs : Coder.DecodesSyms xs (s.argNat 0) (s.coder c m) e) (hlen : xs.length < s.argNat 1)
    (hraised : e.decSym e.slot.last.toNat = .raised r u) (hmem : u.str.mem = e.str.mem) :
    ∃ t, exec (.rcDstream c m) s = .next t ∧ s.FailedCoding t c m r u ∧ s.dmem.After [(s.argNat 0, xs)] t.dmem := by
  have hk := hs.coder_ready (.inr hmode) hkind (m := m)
  obtain ⟨left, hleft⟩ : ∃ left, s.argNat 1 = xs.length + (left + 1) := ⟨s.argNat 1 - xs.length - 1, by omega⟩
  have hexec := exec_rcDstream_of_checks hmode hkind hin
  rw [hleft, hxs.decSyms_add hk, Coder.decSyms, hraised] at hexec
  obtain ⟨t, ht, hfailed⟩ := exists_failedCoding hexec
  obtain ⟨-, -, -, htmem, -⟩ := id hfailed
  obtain ⟨hafter, -⟩ := hxs.after hmode (show s.argNat 0 + xs.length ≤ s.dmem.size by omega)
  exact ⟨t, ht, hfailed, (htmem.trans hmem) ▸ hafter⟩

end

/-- Settles O41: all the symbols, or a raise at the one after those decoded. -/
theorem dstreamCompletesOrRaisesDecode : Obligations.DstreamCompletesOrRaisesDecode := by
  intro s c m xs k' dst n fails hs hmode hkind hin hxs
  have hk := hs.coder_ready (.inr hmode) hkind (m := m)
  obtain ⟨hready, hkmode, hbase, hlimit, hlegal, hlast⟩ := hxs.received hk
  refine ⟨fun hlen => ?_, fun hlen => ⟨fun j e u hraised => ?_, fun hcorrupt => ?_⟩⟩
  · have hrun := hxs.decSyms hk
    rw [hlen] at hrun
    obtain ⟨hafter, hout⟩ := hxs.after hmode (show dst + xs.length ≤ s.dmem.size by omega)
    have hch := s.putCoder_ch_self c m k'
    exact ⟨_, exec_rcDstream_of_decSyms hmode hkind hin hrun,
      ⟨(s.sameRegisters_putCoder c m k').succeeded [], s.coder_putCoder c m k',
        s.sameOtherChannels_putStream c k'.str, s.sameOtherSlots_putCoder c m k', rfl, rfl,
        (congrArg Channel.mode hch).trans hkmode, (congrArg Channel.base hch).trans hbase,
        (congrArg Channel.limit hch).trans hlimit⟩,
      rfl, hafter, hlen ▸ hout, hlegal, (congrArg Slot.last (s.putCoder_slot_self c m k')).trans hlast⟩
  · obtain ⟨-, -, -, hdec⟩ := hready.progress.raised Coder.isStep_decodesSym hraised
    obtain ⟨rfl, hmem⟩ := hdec (hkmode.trans hmode)
    exact ⟨rfl, exists_failedCoding_rcDstream hs hmode hkind hin hxs hlen
      (hraised.decSym hready.slot hready.str.interval) hmem⟩
  · obtain ⟨row, hrow, hv⟩ := hcorrupt
    exact exists_failedCoding_rcDstream hs hmode hkind hin hxs hlen
      (Coder.decSym_corrupt hrow hready.slot hready.str.interval hv) rfl

end Sys2Proof.Machine
end

section
/-!
Which errors leave a trace (O49): the causes of failed checks, the causes of raises in coding work, and by these every
end of every command.
-/

namespace Sys2Proof.Machine

/-! ### Causes -/

/-- The causes of a channel error, by their code and subcode (R145, R150). -/
theorem Cause.ofChannel_iff (e : Cause) :
    e.OfChannel ↔ (e.code.number, e.sub) ∈ [(4#8, 2#32), (2#8, 1#32), (2#8, 2#32), (2#8, 3#32)] := by
  cases e with
  | illegal why => cases why <;> decide
  | _ => decide

/-- Error entry shows whether the error is a channel error. -/
theorem State.Failed.ofChannel_iff {s t : State} {e e' : Cause} (h : s.Failed t e) (h' : s.Failed t e') :
    e.OfChannel ↔ e'.OfChannel := by
  obtain ⟨hstatus, hinfo, -⟩ := h
  obtain ⟨hstatus', hinfo', -⟩ := h'
  have hcode : e.code.number = e'.code.number := congrArg Status.errcode (hstatus.symm.trans hstatus')
  rw [Cause.ofChannel_iff, Cause.ofChannel_iff, hcode, hinfo.symm.trans hinfo']

/-- The raises of a coding step are causes of a channel error. -/
def Coded.RaisesInChannel {σ α : Type} (w : Coded σ α) : Prop := ∀ e u, w = .raised e u → e.OfChannel

section
variable {σ α β : Type} {c : Coded σ α} {P : α → σ → Prop} {R : σ → Prop}

theorem Coded.raisesInChannel_ok (a : α) (u : σ) : (Coded.ok a u).RaisesInChannel := nofun

theorem Coded.RaisesInChannel.bind {f : α → σ → Coded σ β} (h : c.RaisesInChannel) (hends : c.Ends P R)
    (hf : ∀ a u, P a u → (f a u).RaisesInChannel) : (c.bind f).RaisesInChannel := by
  intro e u hraised
  obtain hc | ⟨a, v, rfl, hv⟩ := Coded.bind_raised hraised
  · exact h e u hc
  · exact hf a v hends e u hv

/-- Results do not change how the work of a command can raise. -/
theorem Coded.RaisesInChannel.withResults {f : α → List Result} (h : c.RaisesInChannel) :
    (c.bind fun a k => .ok (f a) k).RaisesInChannel := by
  intro e u hraised
  obtain hc | ⟨_, _, -, hv⟩ := Coded.bind_raised hraised
  · exact h e u hc
  · cases hv

end

section
variable {size kind n ctx : Nat} {k : Coder}

/-- A raise of a coding step's `Renorm` is one of `Shift` at the window's end (R119). -/
theorem Stream.Codes.ofChannel {t u : Stream} {iv : Interval} {e : Cause} (h : t.Codes iv (some e) u)
    (ht : t.Ready size) : e.OfChannel := by
  obtain ⟨-, henc, hdec⟩ := h.raised ht.placed
  exact ht.isOpen.elim (fun hm => .inl (henc hm)) fun hm => .inr (.inl (hdec hm))

theorem Coder.Ready.encBit_raises (h : k.Ready size kind n) (b : Bool) : (k.encBit ctx b).RaisesInChannel := by
  intro e u hraised
  obtain ⟨_, -, hcodes, -⟩ := Coder.encBit_encodes_raised hraised
  exact hcodes.ofChannel h.str

theorem Coder.Ready.encSym_raises (h : k.Ready size kind n) (j : Nat) : (k.encSym ctx j).RaisesInChannel := by
  intro e u hraised
  obtain ⟨_, _, -, -, hcodes, -⟩ := Coder.encSym_encodes_raised hraised
  exact hcodes.ofChannel h.str

theorem Coder.Ready.decBit_raises (h : k.Ready size kind n) : (k.decBit ctx).RaisesInChannel := by
  intro e u hraised
  obtain ⟨_, _, -, -, -, hcodes, -⟩ | ⟨rfl, -⟩ := Coder.decBit_decodes_raised hraised
  · exact hcodes.ofChannel h.str
  · decide

theorem Coder.Ready.decSym_raises (h : k.Ready size kind n) : (k.decSym ctx).RaisesInChannel := by
  intro e u hraised
  obtain ⟨_, _, _, -, -, -, -, hcodes, -⟩ | ⟨rfl, -⟩ := Coder.decSym_decodes_raised hraised
  · exact hcodes.ofChannel h.str
  · decide

theorem Coder.Ready.encBits_raises (h : k.Ready size 1 n) (bits : List Bool) :
    (Coder.encBits bits k).RaisesInChannel := by
  induction bits generalizing k with
  | nil => exact Coded.raisesInChannel_ok () k
  | cons b bits ih => exact (h.encBit_raises b).bind (h.encBit h.last_lt_two b) fun _ _ hu => ih hu

theorem Coder.Ready.encSyms_raises (h : k.Ready size 2 n) (xs : List Byte) (hxs : ∀ j ∈ xs, j.toNat < n) :
    (Coder.encSyms xs k).RaisesInChannel := by
  induction xs generalizing k with
  | nil => exact Coded.raisesInChannel_ok () k
  | cons j xs ih =>
    obtain ⟨hj, hxs⟩ := List.forall_mem_cons.1 hxs
    exact (h.encSym_raises j.toNat).bind (h.encSym (h.last_lt (by decide)) hj) fun _ _ hu => ih hu hxs

theorem Coder.Ready.decContinue_raises (h : k.Ready size 1 n) (left count : Nat) :
    (Coder.decContinue left count k).RaisesInChannel := by
  induction left generalizing count k with
  | zero =>
    rintro _ _ ⟨⟩
    decide
  | succ left ih =>
    refine h.decBit_raises.bind (h.decBit h.last_lt_two) fun b u hu => ?_
    cases b with
    | true => exact ih hu (count + 1)
    | false => exact Coded.raisesInChannel_ok count u

theorem Coder.Ready.decLow_raises (h : k.Ready size 1 n) (left v : Nat) :
    (Coder.decLow left v k).RaisesInChannel := by
  induction left generalizing v k with
  | zero => exact Coded.raisesInChannel_ok v k
  | succ left ih => exact h.decBit_raises.bind (h.decBit h.last_lt_two) fun _ _ hu => ih hu _

theorem Coder.Ready.decGamma_raises (h : k.Ready size 1 n) : k.decGamma.RaisesInChannel :=
  (h.decContinue_raises _ _).bind (h.decContinue _ _) fun _ _ hu => hu.decLow_raises _ _

theorem Coder.Ready.decSyms_raises (h : k.Ready size 2 n) (count a : Nat) :
    (Coder.decSyms count a k).RaisesInChannel := by
  induction count generalizing a k with
  | zero => exact Coded.raisesInChannel_ok () k
  | succ count ih =>
    exact h.decSym_raises.bind (h.decSym (h.last_lt (by decide))) fun _ _ hu => ih (hu.putByte _ _) _

end

/-! ### The coding commands -/

/-- A failed check is no cause of a channel error, and a raise in the coding work is one (R146, R150). -/
def Body.CausesFit {σ : Type} : Body σ → Prop
  | .failed e => ¬ e.OfChannel
  | .ran w => w.RaisesInChannel

section
variable {s : State} (hs : s.Inv) (c : ChanNo) (m : SlotNo) (x : CtxSel)

theorem State.checkBin_cause {c : ChanNo} {m : SlotNo} {mode : ChMode} {e : Cause} (h : s.checkBin c m mode = some e) :
    ¬ e.OfChannel := by
  unfold State.checkBin at h
  split_ifs at h <;> cases h <;> decide

theorem State.checkSym_cause {c : ChanNo} {m : SlotNo} {mode : ChMode} {e : Cause} (h : s.checkSym c m mode = some e) :
    ¬ e.OfChannel := by
  unfold State.checkSym at h
  split_ifs at h <;> cases h <;> decide

include hs

theorem State.Inv.codeEbit_causesFit (b : Bool) : (s.codeEbit c m x b).CausesFit := by
  unfold State.codeEbit
  split
  · next h => exact State.checkBin_cause h
  · next h =>
    obtain ⟨hmode, hkind⟩ := State.checkBin_eq_none h
    dsimp only
    split_ifs
    · exact (by decide : ¬ Cause.badContext.OfChannel)
    · exact ((hs.coder_ready (.inl hmode) hkind).encBit_raises b).withResults (f := fun _ => [])

theorem State.Inv.codeDbit_causesFit : (s.codeDbit c m x).CausesFit := by
  unfold State.codeDbit
  split
  · next h => exact State.checkBin_cause h
  · next h =>
    obtain ⟨hmode, hkind⟩ := State.checkBin_eq_none h
    dsimp only
    split_ifs
    · exact (by decide : ¬ Cause.badContext.OfChannel)
    · exact (hs.coder_ready (.inr hmode) hkind).decBit_raises.withResults

theorem State.Inv.codeEsym_causesFit (j : Byte) : (s.codeEsym c m x j).CausesFit := by
  unfold State.codeEsym
  split
  · next h => exact State.checkSym_cause h
  · next h =>
    obtain ⟨hmode, hkind⟩ := State.checkSym_eq_none h
    dsimp only
    split_ifs
    · exact (by decide : ¬ Cause.badContext.OfChannel)
    · exact (by decide : ¬ Cause.badSymbol.OfChannel)
    · exact ((hs.coder_ready (.inl hmode) hkind).encSym_raises j.toNat).withResults (f := fun _ => [])

theorem State.Inv.codeDsym_causesFit : (s.codeDsym c m x).CausesFit := by
  unfold State.codeDsym
  split
  · next h => exact State.checkSym_cause h
  · next h =>
    obtain ⟨hmode, hkind⟩ := State.checkSym_eq_none h
    dsimp only
    split_ifs
    · exact (by decide : ¬ Cause.badContext.OfChannel)
    · exact (hs.coder_ready (.inr hmode) hkind).decSym_raises.withResults

theorem State.Inv.codeEgamma_causesFit : (s.codeEgamma c m).CausesFit := by
  unfold State.codeEgamma
  split
  · next h => exact State.checkBin_cause h
  · next h =>
    obtain ⟨hmode, hkind⟩ := State.checkBin_eq_none h
    split_ifs
    · exact (by decide : ¬ Cause.gammaZero.OfChannel)
    · exact ((hs.coder_ready (.inl hmode) hkind).encBits_raises _).withResults (f := fun _ => [])

theorem State.Inv.codeDgamma_causesFit : (s.codeDgamma c m).CausesFit := by
  unfold State.codeDgamma
  split
  · next h => exact State.checkBin_cause h
  · next h =>
    obtain ⟨hmode, hkind⟩ := State.checkBin_eq_none h
    exact (hs.coder_ready (.inr hmode) hkind).decGamma_raises.withResults

theorem State.Inv.codeEstream_causesFit : (s.codeEstream c m).CausesFit := by
  unfold State.codeEstream
  split
  · next h => exact State.checkSym_cause h
  · next h =>
    obtain ⟨hmode, hkind⟩ := State.checkSym_eq_none h
    dsimp only
    split_ifs with hin hany
    · exact (by decide : ¬ Cause.badSourceByte.OfChannel)
    · exact ((hs.coder_ready (.inl hmode) hkind).encSyms_raises _ (by simpa using hany)).withResults (f := fun _ => [])
    · exact (by decide : ¬ Cause.outOfBounds.OfChannel)

theorem State.Inv.codeDstream_causesFit : (s.codeDstream c m).CausesFit := by
  unfold State.codeDstream
  split
  · next h => exact State.checkSym_cause h
  · next h =>
    obtain ⟨hmode, hkind⟩ := State.checkSym_eq_none h
    split_ifs
    · exact ((hs.coder_ready (.inr hmode) hkind).decSyms_raises _ _).withResults (f := fun _ => [])
    · exact (by decide : ¬ Cause.outOfBounds.OfChannel)

end

/-! ### The bulk commands -/

section
variable {s : State} {e : Cause}

theorem State.planBwtFwd_cause (h : s.planBwtFwd = .error e) : ¬ e.OfChannel := by
  simp only [State.planBwtFwd] at h
  split_ifs at h <;> cases h <;> decide

theorem State.planBwtInv_cause (h : s.planBwtInv = .error e) : ¬ e.OfChannel := by
  simp only [State.planBwtInv] at h
  split_ifs at h <;> cases h <;> decide

theorem State.planMtfEnc_cause (h : s.planMtfEnc = .error e) : ¬ e.OfChannel := by
  simp only [State.planMtfEnc] at h
  split_ifs at h
  cases h
  decide

theorem State.planMtfDec_cause (h : s.planMtfDec = .error e) : ¬ e.OfChannel := by
  simp only [State.planMtfDec] at h
  split_ifs at h
  cases h
  decide

theorem State.planZrlSplit_cause (h : s.planZrlSplit = .error e) : ¬ e.OfChannel := by
  simp only [State.planZrlSplit] at h
  split_ifs at h <;> cases h <;> decide

theorem State.planZrlJoin_cause (h : s.planZrlJoin = .error e) : ¬ e.OfChannel := by
  simp only [State.planZrlJoin] at h
  split_ifs at h <;> cases h <;> decide

theorem State.planTierCls_cause (h : s.planTierCls = .error e) : ¬ e.OfChannel := by
  simp only [State.planTierCls] at h
  split_ifs at h
  cases h
  decide

theorem State.planTierUncls_cause (h : s.planTierUncls = .error e) : ¬ e.OfChannel := by
  simp only [State.planTierUncls] at h
  split_ifs at h
  cases h
  decide

theorem State.planTierSplit_cause (h : s.planTierSplit = .error e) : ¬ e.OfChannel := by
  simp only [State.planTierSplit] at h
  split_ifs at h <;> cases h <;> decide

theorem State.planTierCount_cause (h : s.planTierCount = .error e) : ¬ e.OfChannel := by
  simp only [State.planTierCount] at h
  split_ifs at h <;> cases h <;> decide

theorem State.planTierJoin_cause (h : s.planTierJoin = .error e) : ¬ e.OfChannel := by
  simp only [State.planTierJoin] at h
  split_ifs at h <;> cases h <;> decide

end

/-! ### Every command -/

/-- How a command ended, by its error: with none, with one that is no channel error and left no trace, or with a channel
error of the channel it names. -/
inductive State.EndsByCause (i : Instr) (s t : State) : Prop
  | succeeded (h : s.Succeeded t)
  | untouched (e : Cause) (he : ¬ e.OfChannel) (h : s.FailedUntouched t e)
  | inChannel (c : ChanNo) (e : Cause) (hc : channelOf i = some c) (he : e.OfChannel) (h : s.Failed t e)
      (hmode : t.ch[c].mode = .err) (hother : s.SameOtherChannels t c)

section
variable {i : Instr} {s t : State} {c : ChanNo} {m : SlotNo}

theorem State.endsByCause_raise {e : Cause} (he : ¬ e.OfChannel) : State.EndsByCause i s (s.raise e) :=
  .untouched e he (s.failedUntouched_raise e)

theorem State.endsByCause_of_plan {p : Except Cause Plan} (hp : ∀ e, p = .error e → ¬ e.OfChannel)
    (h : s.finishPlan p = .next t) : State.EndsByCause i s t := by
  obtain ⟨e, rfl, rfl⟩ | ⟨q, rfl, rfl⟩ := State.finishPlan_cases h
  · exact State.endsByCause_raise (hp e rfl)
  · exact .succeeded ((s.sameRegisters_applyPlan q).succeeded _)

theorem State.endsByCause_of_coder {b : Body Coder} (hc : channelOf i = some c) (hb : b.CausesFit)
    (h : s.finishBody c (s.putCoder c m) b = .next t) : State.EndsByCause i s t := by
  obtain ⟨e, rfl, rfl⟩ | ⟨r, k, rfl, rfl⟩ | ⟨e, k, rfl, rfl⟩ := State.finishBody_cases h
  · exact State.endsByCause_raise hb
  · exact .succeeded ((s.sameRegisters_putCoder c m k).succeeded r)
  · exact .inChannel c e hc (hb e k rfl) ((s.sameRegisters_putCoder c m k).failed c e)
      (congrArg Channel.mode (Vector.getElem_set_self _)) ((s.sameOtherChannels_putStream c k.str).raiseChannel e)

theorem execMdlCfg_endsByCause {val kind : Byte} (h : execMdlCfg m val kind s = .next t) :
    State.EndsByCause i s t := by
  unfold execMdlCfg at h
  split at h <;> cases h
  · exact State.endsByCause_raise (by decide)
  · exact .succeeded ((s.sameRegisters_setSlot m _).succeeded [])

theorem execMdlReset_endsByCause (h : execMdlReset m s = .next t) : State.EndsByCause i s t := by
  unfold execMdlReset at h
  split at h <;> cases h
  · exact State.endsByCause_raise (by decide)
  · exact .succeeded ((s.sameRegisters_setSlot m _).succeeded [])

theorem execMdlSetctx_endsByCause {k : Byte} (h : execMdlSetctx m k s = .next t) : State.EndsByCause i s t := by
  unfold execMdlSetctx at h
  split_ifs at h <;> cases h
  · exact State.endsByCause_raise (by decide)
  · exact State.endsByCause_raise (by decide)
  · exact .succeeded ((s.sameRegisters_setSlot m _).succeeded [])

theorem execMdlPeek_endsByCause (h : execMdlPeek m s = .next t) : State.EndsByCause i s t := by
  unfold execMdlPeek at h
  dsimp only at h
  split at h
  · cases h
    exact State.endsByCause_raise (by decide)
  · split at h <;> cases h
    · exact State.endsByCause_raise (by decide)
    · exact .succeeded ((State.SameRegisters.refl s).succeeded _)
  · split_ifs at h
    · cases h
      exact State.endsByCause_raise (by decide)
    · cases h
      exact State.endsByCause_raise (by decide)
    · split at h <;> cases h
      exact .succeeded ((State.SameRegisters.refl s).succeeded _)

/-- `RC_EINIT` and `RC_DFIN` raise in their checks only (R128, R139). -/
theorem State.Inv.einit_endsByCause (hs : s.Inv) (h : exec (.rcEinit c) s = .next t) :
    State.EndsByCause (.rcEinit c) s t := by
  obtain ⟨hfit, hout, -⟩ := einitOpensAndDfinCloses s c hs
  by_cases hin : s.argNat 0 + s.argNat 1 ≤ s.dmem.size
  · obtain ⟨t', ht, ⟨hdone, -⟩, -⟩ := hfit hin
    cases h.symm.trans ht
    exact .succeeded hdone
  · obtain ⟨t', ht, hfailed⟩ := hout (Nat.lt_of_not_le hin)
    cases h.symm.trans ht
    exact .untouched _ (by decide) hfailed

theorem State.Inv.dfin_endsByCause (hs : s.Inv) (h : exec (.rcDfin c) s = .next t) :
    State.EndsByCause (.rcDfin c) s t := by
  obtain ⟨-, -, hdec, hother⟩ := einitOpensAndDfinCloses s c hs
  by_cases hmode : s.ch[c].mode = .dec
  · obtain ⟨t', ht, hdone, -⟩ := hdec hmode
    cases h.symm.trans ht
    exact .succeeded hdone
  · obtain ⟨t', ht, hfailed⟩ := hother hmode
    cases h.symm.trans ht
    exact .untouched _ (by decide) hfailed

/-- `RC_DINIT` raises in its check, or at the end of a window shorter than four bytes (R129). -/
theorem State.Inv.dinit_endsByCause (hs : s.Inv) (h : exec (.rcDinit c) s = .next t) :
    State.EndsByCause (.rcDinit c) s t := by
  obtain ⟨hlong, hshort, hout⟩ := dinitReadsFourBytes s c hs.params.2.1
  by_cases hin : s.argNat 0 + s.argNat 1 ≤ s.dmem.size
  · by_cases hlen : 4 ≤ s.argNat 1
    · obtain ⟨t', ht, ⟨hdone, -⟩, -⟩ := hlong hin hlen
      cases h.symm.trans ht
      exact .succeeded hdone
    · obtain ⟨t', ht, hfailed, ⟨hother, -⟩, -, ⟨hmode, -⟩⟩ := hshort hin (Nat.lt_of_not_le hlen)
      cases h.symm.trans ht
      exact .inChannel c _ rfl (by decide) hfailed hmode hother
  · obtain ⟨t', ht, hfailed⟩ := hout (Nat.lt_of_not_le hin)
    cases h.symm.trans ht
    exact .untouched _ (by decide) hfailed

/-- `RC_EFLUSH` raises in its check, or where its window has less than four bytes (R138). -/
theorem State.Inv.eflush_endsByCause (hs : s.Inv) (h : exec (.rcEflush c) s = .next t) :
    State.EndsByCause (.rcEflush c) s t := by
  by_cases hmode : s.ch[c].mode = .enc
  · obtain ⟨hlong, hshort⟩ := eflushCompletesOrFillsTheWindow s c hs hmode
    by_cases hroom : 4 ≤ s.ch[c].room
    · obtain ⟨t', ht, hdone, -⟩ := hlong hroom
      cases h.symm.trans ht
      exact .succeeded hdone
    · obtain ⟨t', ht, hfailed, ⟨hother, -⟩, -, -, hch⟩ := hshort (Nat.lt_of_not_le hroom)
      cases h.symm.trans ht
      exact .inChannel c _ rfl (by decide) hfailed (congrArg Channel.mode hch) hother
  · obtain ⟨t', ht, hfailed⟩ := exists_failedUntouched_of_body (i := .rcEflush c) (c := c) rfl (if_pos hmode)
    cases h.symm.trans ht
    exact .untouched _ (by decide) hfailed

end

theorem exec_endsByCause (i : Instr) {s t : State} (hs : s.Inv) (h : exec i s = .next t) :
    State.EndsByCause i s t := by
  cases i with
  | nop =>
    cases h
    exact .succeeded ((State.SameRegisters.refl s).succeeded [])
  | bwtFwd => exact State.endsByCause_of_plan (fun _ => State.planBwtFwd_cause) h
  | bwtInv => exact State.endsByCause_of_plan (fun _ => State.planBwtInv_cause) h
  | mtfEnc => exact State.endsByCause_of_plan (fun _ => State.planMtfEnc_cause) h
  | mtfDec => exact State.endsByCause_of_plan (fun _ => State.planMtfDec_cause) h
  | zrlSplit => exact State.endsByCause_of_plan (fun _ => State.planZrlSplit_cause) h
  | zrlJoin => exact State.endsByCause_of_plan (fun _ => State.planZrlJoin_cause) h
  | tierCls => exact State.endsByCause_of_plan (fun _ => State.planTierCls_cause) h
  | tierUncls => exact State.endsByCause_of_plan (fun _ => State.planTierUncls_cause) h
  | tierSplit => exact State.endsByCause_of_plan (fun _ => State.planTierSplit_cause) h
  | tierCount => exact State.endsByCause_of_plan (fun _ => State.planTierCount_cause) h
  | tierJoin => exact State.endsByCause_of_plan (fun _ => State.planTierJoin_cause) h
  | mdlCfg m val kind => exact execMdlCfg_endsByCause h
  | mdlReset m => exact execMdlReset_endsByCause h
  | mdlSetctx m k => exact execMdlSetctx_endsByCause h
  | mdlPeek m => exact execMdlPeek_endsByCause h
  | rcEinit c => exact hs.einit_endsByCause h
  | rcDinit c => exact hs.dinit_endsByCause h
  | rcEbit c m x b => exact State.endsByCause_of_coder rfl (hs.codeEbit_causesFit c m x b) h
  | rcDbit c m x => exact State.endsByCause_of_coder rfl (hs.codeDbit_causesFit c m x) h
  | rcEsym c m x j => exact State.endsByCause_of_coder rfl (hs.codeEsym_causesFit c m x j) h
  | rcDsym c m x => exact State.endsByCause_of_coder rfl (hs.codeDsym_causesFit c m x) h
  | rcEgamma c m => exact State.endsByCause_of_coder rfl (hs.codeEgamma_causesFit c m) h
  | rcDgamma c m => exact State.endsByCause_of_coder rfl (hs.codeDgamma_causesFit c m) h
  | rcEstream c m => exact State.endsByCause_of_coder rfl (hs.codeEstream_causesFit c m) h
  | rcDstream c m => exact State.endsByCause_of_coder rfl (hs.codeDstream_causesFit c m) h
  | rcEflush c => exact hs.eflush_endsByCause h
  | rcDfin c => exact hs.dfin_endsByCause h

/-- Settles O49: the end of the command by its cause, which error entry shows; a command that ran has no error standing,
so one that failed did not succeed. -/
theorem onlyChannelErrorsLeaveATrace : Obligations.OnlyChannelErrorsLeaveATrace := by
  intro i s t e hs hbusy hexec hfailed
  cases exec_endsByCause i hs hexec with
  | succeeded h =>
    obtain ⟨hidle, -⟩ := hs.status
    obtain ⟨hstatus, -⟩ := h
    obtain ⟨hstatus', -⟩ := hfailed
    have herr : s.status.err = true := congrArg Status.err (hstatus.symm.trans hstatus')
    cases hbusy.symm.trans (hidle herr)
  | untouched e' he' h =>
    obtain ⟨hfailed', hunits, hmem⟩ := h
    exact ⟨fun he => (he' ((hfailed.ofChannel_iff hfailed').1 he)).elim, fun _ => ⟨hfailed, hunits, hmem⟩⟩
  | inChannel c e' hc he' hfailed' hmode hother =>
    exact ⟨fun _ => ⟨c, hc, hmode, hother⟩, fun he => (he ((hfailed.ofChannel_iff hfailed').2 he')).elim⟩

end Sys2Proof.Machine
end

section
/-!
NOP (O7): the one command of opcode 0 uses no field, so the word that decodes to it is its encoding, 0.
-/

namespace Sys2Proof.Machine

section
variable {w : Word}

theorem fieldsOf_op_eq_zero (h : w.toNat % 256 = 0) : (fieldsOf w).op = 0 := (fieldsOf_op w).trans h

theorem build_eq_nop (h : w.toNat % 256 = 0) : (fieldsOf w).build = .ok .nop := by
  simp only [Fields.build, fieldsOf_op_eq_zero h]

theorem eq_zero_of_decode_eq_nop (h : decode w = .ok .nop) : w = 0#32 := by
  obtain ⟨hword, -⟩ := encodeOfDecodeIsTheWord w .nop h
  exact hword.symm

end

theorem exec_nop (s : State) : exec .nop s = .next (s.complete []) := rfl

/-- A completion that names no result leaves every register but the status as it was (R149). -/
theorem State.complete_nil (s : State) :
    s.complete [] = { s with status := { s.status with busy := false, done := true } } := rfl

/-- Settles O7: were every unused field of another word of opcode 0 zero (R67), it would decode to `NOP`, and the word
that does is 0. -/
theorem nopOnlyCompletes : Obligations.NopOnlyCompletes := by
  refine ⟨decodeOfEncodeIsTheCommand .nop rfl, fun w hop hne => ?_, fun s => ?_⟩
  · have hu : usesOf (fieldsOf w).op = some {} := congrArg usesOf (fieldsOf_op_eq_zero hop)
    refine decode_eq_field hu fun hz => ?_
    have hnop : decode w = .ok .nop := (decode_eq_build hu hz).trans (build_eq_nop hop)
    exact absurd (eq_zero_of_decode_eq_nop hnop) hne
  · rw [exec_nop, State.complete_nil]

end Sys2Proof.Machine
end

section
/-!
The step, the causes and the interrupt output (O6, O48, O60): what a step of the port or of the idle block is, that the
causes are those listed with their pairs, and what each operation of the port does to `irq`.
-/

namespace Sys2Proof.Machine

/-! ### The step -/

section
variable {s : State}

theorem step_of_decode_ok (h : s.EngineMoves) {i : Instr} (hw : decode s.cmd = .ok i) : step s = exec i s := by
  rw [step_of_engineMoves h, engineStep, hw]

/-- Between commands, and with nothing at the port, the block holds its state (R160). -/
theorem step_of_idle (hrun : s.running = false) (hport : s.port = []) : step s = .next s := by
  simp only [step, hport, hrun, Bool.false_eq_true, if_false]

/-- The port acts where the engine does not, and before a running command's end where its action is early (R154). -/
theorem step_of_port {e : PortEvent} {rest : List PortEvent} (hport : s.port = e :: rest)
    (h : s.running = false ∨ e.early = true) :
    step s = .next (State.portAction { s with port := rest } e.action) := by
  have hwait : (s.running && !e.early) = false := by
    obtain hrun | hearly := h
    · rw [hrun, Bool.false_and]
    · rw [hearly, Bool.not_true, Bool.and_false]
  simp only [step, hport, hwait, Bool.false_eq_true, if_false]

end

/-- Settles O6: the engine's step by what its word decodes to, then the idle block and the port. -/
theorem stepRunsTheDecodedCommand : Obligations.StepRunsTheDecodedCommand := fun s =>
  ⟨fun h _ hw => step_of_decode_ok h hw, fun h _ hw => ⟨_, step_of_decode_error h hw, s.failedUntouched_raise _⟩,
    step_of_idle, fun _ _ => step_of_port⟩

/-! ### The causes -/

/-- Every cause, in the order of R145. -/
def Cause.listed : List Cause :=
  [.badPrimaryIndex, .streamExhausted, .corruptValue, .gammaOverrun, .runCountMismatch, .zeroRun, .badStructure,
    .badOffset, .blockTooLong, .windowFull, .joinTooLong, .illegal .opcode, .illegal .field, .illegal .config,
    .outOfBounds, .channelMode, .slotKind, .badContext, .badSymbol, .gammaZero, .badSourceByte, .badPeek, .badTierPair,
    .tierValueTooLarge]

theorem Cause.mem_listed (e : Cause) : e ∈ Cause.listed := by
  cases e with
  | illegal why => cases why <;> decide
  | _ => decide

/-- What the host reads of a cause in `ERRCODE` and `ERRINFO` (R144, R145). -/
def Cause.pair (e : Cause) : Byte × Word := (e.code.number, e.sub)

theorem Cause.nodup_pairs : (Cause.listed.map Cause.pair).Nodup := by decide

theorem Cause.pair_injective : Function.Injective Cause.pair := fun e e' =>
  List.inj_on_of_nodup_map Cause.nodup_pairs e.mem_listed e'.mem_listed

/-- Settles O48: every cause is listed, and the listed pairs have no repetition. -/
theorem codesAndSubcodesOfTheCauses : Obligations.CodesAndSubcodesOfTheCauses :=
  ⟨fun _ _ hcode hsub => Cause.pair_injective (Prod.ext hcode hsub), by decide⟩

/-! ### The interrupt output -/

section
variable (s : State) (w : Word)

@[simp] theorem State.accept_irq : (s.accept w).irq = false := Bool.and_false _
@[simp] theorem State.reject_irq : s.reject.irq = s.irq := rfl
@[simp] theorem State.softReset_irq : s.softReset.irq = false := rfl
@[simp] theorem State.hardReset_irq : s.hardReset.irq = false := rfl

variable {s}

/-- A command's end, success or error, sets `DONE` and keeps `IE`. -/
theorem exec_irq {i : Instr} {t : State} (h : exec i s = .next t) : t.irq = s.ie := by
  have hend : t.status.done = true ∧ t.ie = s.ie := by
    obtain ⟨⟨hstatus, -, -, -, hie, -⟩, -⟩ | ⟨e, hstatus, -, -, -, -, hie, -⟩ :=
      everyCommandSucceedsOrFailsWhole i s t h
    · exact ⟨congrArg Status.done hstatus, hie⟩
    · exact ⟨congrArg Status.done hstatus, hie⟩
  obtain ⟨hdone, hie⟩ := hend
  rw [State.irq, hdone, hie, Bool.and_true]

/-- A `CTRL` write leaves `irq` low where it resets, clears `DONE` or clears `IE`, and else equal to `DONE` (R22). -/
theorem State.writeCtrl_irq :
    (s.writeCtrl w).irq = (!w.getLsbD 3 && (w.getLsbD 0 && (s.status.done && !w.getLsbD 2))) := by
  cases hsrst : w.getLsbD 3 with
  | true => rw [State.writeCtrl_of_srst hsrst, State.softReset_irq, Bool.not_true, Bool.false_and]
  | false => rw [State.writeCtrl_of_not_srst hsrst, State.irq, Bool.not_false, Bool.true_and]

theorem State.portAction_write_register_irq (hrst : s.rst = false) {off : Nat} (h : off < 0x400) (h4 : off % 4 = 0) :
    (s.portAction (.write (s.params.hostBase + off) 4 w)).irq = (s.writeRegister off w).irq := by
  rw [State.portAction_write_register hrst h h4]
  rfl

theorem State.writeArg_irq (i : Fin 8) : (s.writeArg i w).irq = s.irq := by
  obtain ⟨-, h⟩ | ⟨-, h⟩ := s.writeArg_cases i w <;> rw [h] <;> rfl

theorem State.writeAperture_irq (a width : Nat) : (s.writeAperture a width w).irq = s.irq := by
  unfold State.writeAperture
  split <;> rfl

theorem State.writeRegister_irq {off : Nat} (hctrl : off ≠ 0x004) (hcmd : off ≠ 0x00C) :
    (s.writeRegister off w).irq = s.irq := by
  unfold State.writeRegister
  rw [if_neg hctrl, if_neg hcmd]
  split
  · exact State.writeArg_irq w _
  · rfl

/-- The only register an access can reach is the one at its own offset. -/
theorem State.eq_of_target_register {off width k : Nat}
    (h : s.target (s.params.hostBase + off) width = .register k) : k = off := by
  simp only [State.target, Nat.add_sub_cancel_left] at h
  split_ifs at h
  exact (Target.register.inj h).symm

theorem State.hostWrite_irq {off width : Nat} (hctrl : off ≠ 0x004) (hcmd : off ≠ 0x00C) :
    (s.hostWrite (s.params.hostBase + off) width w).irq = s.irq := by
  unfold State.hostWrite
  split
  · rfl
  · rfl
  · next h =>
    cases State.eq_of_target_register h
    exact State.writeRegister_irq w hctrl hcmd
  · exact State.writeAperture_irq w _ width

end

/-- Settles O60: the end of a command, then each write by the register or the aperture that it reaches. -/
theorem interruptIsIeAndDone : Obligations.InterruptIsIeAndDone := by
  refine ⟨fun _ => rfl, fun _ _ _ => exec_irq, ?_⟩
  intro s w hrst write
  have hctrl : (write 0x004).irq = (s.writeCtrl w).irq :=
    State.portAction_write_register_irq w hrst (off := 0x004) (by decide) rfl
  have hcmd : (write 0x00C).irq = (s.writeCmd w).irq :=
    State.portAction_write_register_irq w hrst (off := 0x00C) (by decide) rfl
  refine ⟨fun hlow => ?_, fun hie hdoneclr hsrst => ?_, fun hbusy herr => ?_, fun hstop => ?_,
    fun off _ hnctrl hncmd => ?_, s.hardReset_irq⟩
  · rw [hctrl, State.writeCtrl_irq]
    obtain h | h | h := hlow <;> rw [h] <;> simp
  · rw [hctrl, State.writeCtrl_irq, hie, hdoneclr, hsrst]
    simp
  · rw [hcmd, State.writeCmd_eq_accept hbusy herr, State.accept_irq]
  · rw [hcmd, State.writeCmd_eq_reject hstop, State.reject_irq]
  · simp only [write, State.portAction_write hrst]
    exact State.hostWrite_irq w hnctrl hncmd

end Sys2Proof.Machine
end
